-- ==== Sys2Proof/Word.lean ====
section
/-! DEFINITION. The word types of the core (spec/20_memory.md R84, spec/10_state.md R24, R30, R39). -/

namespace Sys2Proof

/-- A byte access moves 8 bits (R84). -/
abbrev Byte := BitVec 8

/-- A word access moves 16 bits (R84). -/
abbrev Word := BitVec 16

/-- A long access moves 32 bits (R84). -/
abbrev Long := BitVec 32

/-- A packet number, the 6-bit field PNR.PKT (R30, decision D4). -/
abbrev Pkt := BitVec 6

/-- A MAC address, six bytes (R39); index 0 is the byte at the lowest window offset. -/
abbrev Mac := Vector (BitVec 8) 6

end Sys2Proof
end

