-- ==== Sys2Proof/Config.lean ====
section
/-! DEFINITION. What an implementation fixes: the constants of rule R8, the record of the open parameters of rule R9
(spec/00_scope.md), and the free values, opaque constants that stand for a "draw" (rule R13). The record is a field of
the state, so a statement about every state is a statement about every value of every parameter (log 4). -/

namespace Sys2Proof.Config

/-! ## Constants whose value the spec gives (R8) -/

/-- PAGE_BYTES, the packet-memory page (R8). -/
def pageBytes : Nat := 256

/-- MAX_PAGE_CODE, the largest page code (R8). -/
def maxPageCode : Nat := 7

/-- MIN_FRAME, the least payload length (R8). -/
def minFrame : Nat := 60

/-- ENV_OVERHEAD, what the envelope adds to the payload length (R8). -/
def envOverhead : Nat := 6

/-- RX_HEADER_BYTES, the header counted in the raw receive length (R8). -/
def rxHeaderBytes : Nat := 4

/-- MII_HALF_PERIOD, the hold after each clock edge (R8). -/
def miiHalfPeriod : Nat := 50

/-- PHY_RESET_POLLS (R8). -/
def phyResetPolls : Nat := 6

/-- PHY_ANEG_POLLS (R8). -/
def phyAnegPolls : Nat := 20

/-- PHY_POLL_INTERVAL (R8). -/
def phyPollInterval : Nat := 500

/-! ## The layouts (R9: REGMAP, BITMAP, MMU_CODES, PHYMAP) -/

/-- The width of SIG, which belongs to REGMAP (R24, C9 of spec/90_conflicts.md): one of the three access widths (R84). -/
inductive SigWidth where
  | byte
  | word
  | long
  deriving DecidableEq, Repr, Inhabited

/-- The width in bytes. -/
def SigWidth.bytes : SigWidth → Nat
  | .byte => 1
  | .word => 2
  | .long => 4

/-- REGMAP: the bank and the window offset of every register, the width of SIG (R24, R126), and what the bits of BSR outside
BANK are written as (R160). A 16-bit register takes its offset and the next one. INT_STATUS and INT_ACK may have one offset,
as they have by default, or two (log 48); the widths SIG can have are log 5. -/
structure RegMap where
  /-- CB, the bank of TCR and RCR. -/
  cb : BitVec 2
  /-- GB, the bank of CONFIG and CTL. -/
  gb : BitVec 2
  /-- PB, the packet bank. -/
  pb : BitVec 2
  /-- MB, the management bank. -/
  mb : BitVec 2
  /-- The bank of MACADDR. -/
  macBank : BitVec 2
  /-- The bank of SIG, none when every bank shows it. -/
  sigBank : Option (BitVec 2)
  sigWidth : SigWidth
  bsr : Nat
  /-- The bits of a written BSR word outside BANK, one word for every write (DESIGN CHOICE, log 49). -/
  bsrRest : Word
  sig : Nat
  tcr : Nat
  rcr : Nat
  config : Nat
  ctl : Nat
  mac : Nat
  mmuCmd : Nat
  pnr : Nat
  arr : Nat
  fifo : Nat
  ptr : Nat
  data : Nat
  intStatus : Nat
  intAck : Nat
  intMask : Nat
  mgmt : Nat
  deriving DecidableEq, Repr, Inhabited

/-- BITMAP: the bit number of every flag, and the number of the lowest bit of every field (R127). RX_ERROR_MASK is a mask
(R142). -/
structure BitMap where
  /-- BSR.BANK, two bits. -/
  bank : Fin 15
  txen : Fin 16
  rxen : Fin 16
  softRst : Fin 16
  powerEn : Fin 16
  autoRelease : Fin 16
  busy : Fin 16
  failed : Fin 8
  /-- ARR.APKT, six bits. -/
  apkt : Fin 3
  /-- PNR.PKT, six bits. -/
  pkt : Fin 3
  rempty : Fin 16
  /-- FIFO.RXPKT, six bits. -/
  rxpkt : Fin 11
  rcv : Fin 16
  autoinc : Fin 16
  read : Fin 16
  /-- PTR.OFFSET, eleven bits. -/
  offset : Fin 6
  alloc : Fin 8
  txEmpty : Fin 8
  tx : Fin 8
  txErr : Fin 8
  mdoe : Fin 16
  mclk : Fin 16
  mdi : Fin 16
  mdo : Fin 16
  rxErrorMask : Word
  /-- CTL_ODD, a bit of the control byte. -/
  ctlOdd : Fin 8
  deriving DecidableEq, Repr, Inhabited

/-- MMU_CODES: the word of each command, and the lowest bit of N in the allocate word (R130, R131). -/
structure MmuCodes where
  alloc : Word
  /-- N, three bits. -/
  n : Fin 14
  reset : Word
  release : Word
  free : Word
  enqueue : Word
  deriving DecidableEq, Repr, Inhabited

/-- PHYMAP: the numbers of the PHY registers YF255 names and the bit number of every flag in them (R50 to R54, R128). -/
structure PhyMap where
  ctrl : BitVec 5
  stat : BitVec 5
  ad : BitVec 5
  mask : BitVec 5
  reset : Fin 16
  anegEn : Fin 16
  anegRestart : Fin 16
  capT4 : Fin 16
  cap100Fd : Fin 16
  cap100Hd : Fin 16
  cap10Fd : Fin 16
  cap10Hd : Fin 16
  anegAck : Fin 16
  remFlt : Fin 16
  adT4 : Fin 16
  ad100Fd : Fin 16
  ad100Hd : Fin 16
  ad10Fd : Fin 16
  ad10Hd : Fin 16
  adCsma : Fin 16
  deriving DecidableEq, Repr, Inhabited

/-! ## Parameters without a value (R9), and the two tunable ones of R8 -/

/-- The configuration record of R9. A field of `State` that no step writes. -/
structure Params where
  /-- REGMAP (D6, open). -/
  regs : RegMap
  /-- BITMAP, RX_ERROR_MASK and CTL_ODD (D7, open). -/
  bits : BitMap
  /-- MMU_CODES (D7, open). -/
  codes : MmuCodes
  /-- PHYMAP (D21, open). -/
  phyMap : PhyMap
  /-- RESTORE_ON_FAILURE (D11, decided true). -/
  restoreOnFailure : Bool
  /-- ALLOC_ATTEMPTS, tunable, 5 by default (R8). -/
  allocAttempts : Nat
  /-- ALLOC_SPIN, the polls of one attempt (D10, open). -/
  allocSpin : Nat
  /-- TX_TIMEOUT, tunable, 30 by default (R8). -/
  txTimeout : Nat
  /-- MMU_POLL_DELAY (D15, open); only the trace shows it. -/
  mmuPollDelay : Nat
  /-- PHY_ADDR, the address the engine puts in every frame (D13, open). -/
  phyAddr : BitVec 5
  /-- PHY_INT_MASK_VALUE (D21, open). -/
  phyIntMask : Word
  /-- The constants of the PHY that a PHY reset puts in its registers (R266). -/
  phyDefCtrl : Word
  phyDefStat : Word
  phyDefAdv : Word
  phyDefMask : Word
  /-- CONFIG_DEFAULT (D19, open). -/
  configDefault : Word
  /-- The remainder of TCR_DEFAULT, all but TXEN (R25, R303). -/
  tcrRest : Word
  /-- The remainder of RCR_DEFAULT, all but RXEN and SOFT_RST (R26, R303). -/
  rcrRest : Word
  /-- DRIVER_INT_SET (D19, open). -/
  driverIntSet : Byte
  /-- USE_POWER_ENABLE (D19, open). -/
  usePower : Bool
  /-- CHIP_SIGNATURE, what PROBE expects; as wide as SIG (D28, open). -/
  chipSignature : Long
  /-- TOTAL_PAGES, the size of packet memory (D8, open). -/
  totalPages : Nat
  /-- MAC_FALLBACK, absent or present (D28, R309). -/
  macFallback : Option Mac
  /-- The explicit override of the MAC address, absent or present (R309, R349). -/
  macOverride : Option Mac
  /-- The externally stored MAC address, absent or present (R309, R349). -/
  macStored : Option Mac
  /-- BASE_ADDRESS and IRQ, given by the platform (R347); no rule reads them. -/
  baseAddress : Nat
  irqLine : Nat
  /-- UNIT_MII, UNIT_PHY_POLL and UNIT_TX (D15); no rule reads them. -/
  unitMii : Nat
  unitPhyPoll : Nat
  unitTx : Nat
  deriving DecidableEq, Repr, Inhabited

/-- The default REGMAP (R126); that it writes 0 to the bits of BSR outside BANK is V1 of spec/95_test_vectors.md. -/
def defaultRegs : RegMap where
  cb := 0
  gb := 1
  pb := 2
  mb := 3
  macBank := 1
  sigBank := none
  sigWidth := .byte
  bsr := 0x0E
  bsrRest := 0
  sig := 0x0F
  tcr := 0x00
  rcr := 0x04
  config := 0x00
  ctl := 0x0C
  mac := 0x04
  mmuCmd := 0x00
  pnr := 0x02
  arr := 0x03
  fifo := 0x04
  ptr := 0x06
  data := 0x08
  intStatus := 0x0C
  intAck := 0x0C
  intMask := 0x0D
  mgmt := 0x08

/-- The default BITMAP (R126 for BANK, R127). -/
def defaultBits : BitMap where
  bank := 0
  txen := 0
  rxen := 8
  softRst := 15
  powerEn := 15
  autoRelease := 11
  busy := 0
  failed := 7
  apkt := 0
  pkt := 0
  rempty := 15
  rxpkt := 8
  rcv := 15
  autoinc := 14
  read := 13
  offset := 0
  alloc := 3
  txEmpty := 2
  tx := 1
  txErr := 5
  mdoe := 3
  mclk := 2
  mdi := 1
  mdo := 0
  rxErrorMask := 0xAC00
  ctlOdd := 5

/-- The default command words (R130, R131). -/
def defaultCodes : MmuCodes where
  alloc := 0x0020
  n := 0
  reset := 0x0040
  release := 0x0080
  free := 0x00A0
  enqueue := 0x00C0

/-- The default PHYMAP (R128). -/
def defaultPhyMap : PhyMap where
  ctrl := 0
  stat := 1
  ad := 4
  mask := 19
  reset := 15
  anegEn := 12
  anegRestart := 9
  capT4 := 15
  cap100Fd := 14
  cap100Hd := 13
  cap10Fd := 12
  cap10Hd := 11
  anegAck := 5
  remFlt := 4
  adT4 := 9
  ad100Fd := 8
  ad100Hd := 7
  ad10Fd := 6
  ad10Hd := 5
  adCsma := 0

/-- EX1, the example configuration of spec/95_test_vectors.md. DESIGN CHOICE (log 4): the parameters of `State.reset`;
no statement rests on them. Its layouts are the defaults of R126 to R131 (PRESUMED, log 5). What EX1 does
not name is the model's (log 4): the PHY's own defaults and TOTAL_PAGES are the family's, MMU_POLL_DELAY, UNIT_MII,
UNIT_PHY_POLL and UNIT_TX are 1, there is no MAC source, and the platform's numbers are 0. -/
def ex1 : Params where
  regs := defaultRegs
  bits := defaultBits
  codes := defaultCodes
  phyMap := defaultPhyMap
  restoreOnFailure := true
  allocAttempts := 5
  allocSpin := 16
  txTimeout := 30
  mmuPollDelay := 1
  phyAddr := 0
  phyIntMask := 0xFFC0
  phyDefCtrl := 0x3000
  phyDefStat := 0x7809
  phyDefAdv := 0x01E1
  phyDefMask := 0xFFC0
  configDefault := 0x00B1
  tcrRest := 0
  rcrRest := 0
  driverIntSet := 0x20
  usePower := true
  chipSignature := 0x33
  totalPages := 32
  macFallback := none
  macOverride := none
  macStored := none
  baseAddress := 0
  irqLine := 0
  unitMii := 1
  unitPhyPoll := 1
  unitTx := 1

/-! ## Free values (R13 "draw", log 3)

Each is applied to the draw counter of the state, so that two draws are unrelated. None has a body. -/

/-- A drawn bit. -/
opaque freeBit : Nat → Bool

/-- A drawn byte. -/
opaque freeByte : Nat → Byte

/-- A drawn word. -/
opaque freeWord : Nat → Word

/-- The level a PHY in an unknown state drives on the data pin, none when it does not drive (U8). -/
opaque freeDrive : Nat → Option Bool

/-- What byte `offset` of a buffer holds that nothing has written since the buffer with this content seed was
handed out (R196 "bytes a draw"). -/
opaque bufferByte : (seed offset : Nat) → Byte

/-- What a byte of host memory holds that neither the caller nor the engine has written (log 8). -/
opaque hostByte : (address : Nat) → Byte

/-- The EEPROM-programmed MAC address of this board (R39, R75). -/
opaque eepromMac : Mac

/-- What makes a MAC address "valid", the caller's predicate (R309, N12). -/
opaque macValid : Mac → Bool

end Sys2Proof.Config
end

