-- ==== Sys2Proof/Machine/Bits.lean ====
section
/-! DEFINITION. Bit fields and byte order (spec/00_scope.md R10, spec/20_memory.md R80): little-endian bytes of a word
and of a long, fields sent most significant bit first, and tests under a mask. -/

namespace Sys2Proof.Machine

/-- A word from its byte at the lower address and its byte at the higher one (R80). -/
def wordOf (lo hi : Byte) : Word := hi ++ lo

/-- Bits 7:0 of a word, the byte at the lower address (R80). -/
def lowByte (w : Word) : Byte := w.extractLsb' 0 8

/-- Bits 15:8 of a word, the byte at the higher address (R80). -/
def highByte (w : Word) : Byte := w.extractLsb' 8 8

/-- A long from its low and its high word (R163). -/
def longOf (lo hi : Word) : Long := hi ++ lo

/-- Bits 15:0 of a long (R84). -/
def lowWord (l : Long) : Word := l.extractLsb' 0 16

/-- Bits 31:16 of a long (R84). -/
def highWord (l : Long) : Word := l.extractLsb' 16 16

/-- `w & m != 0`, the test of a flag under its mask (R10). -/
def has {n : Nat} (w m : BitVec n) : Bool := w &&& m != 0#n

/-- `w & ~m` (R10). -/
def without {n : Nat} (w m : BitVec n) : BitVec n := w &&& ~~~m

/-- `m` when the flag is set, else 0: how a flag is put into a word. -/
def flag {n : Nat} (m : BitVec n) (b : Bool) : BitVec n := if b then m else 0#n

/-- The mask of one flag from its bit number (R9 BITMAP). -/
def bit {n : Nat} (i : Fin n) : BitVec n := BitVec.twoPow n i.val

/-- The mask of a field of `m` bits whose lowest is bit `k`. -/
def fieldMask (n k m : Nat) : BitVec n := (BitVec.allOnes m).setWidth n <<< k

/-- A field of `m` bits whose lowest is bit `k`: `w[k + m - 1 : k]` (R10). -/
def getField {n : Nat} (k m : Nat) (w : BitVec n) : BitVec m := w.extractLsb' k m

/-- A word that holds a field at bit `k` and is otherwise 0. -/
def putField {m : Nat} (n k : Nat) (f : BitVec m) : BitVec n := f.setWidth n <<< k

/-- The bits of a field in the order they are sent, most significant first (R10, R148). -/
def msbFirst {n : Nat} (w : BitVec n) : List Bool := (List.range n).map (fun k => w.getLsbD (n - 1 - k))

/-- The field whose bit sent at place `k` is `f k`, most significant first (R148). -/
def fromMsb : (n : Nat) → (Nat → Bool) → BitVec n
  | 0, _ => 0#0
  | n + 1, f => BitVec.cons (f 0) (fromMsb n (fun k => f (k + 1)))

/-- The MAC address whose byte `i` is replaced (R39). -/
def setMacByte (m : Mac) (i : Nat) (b : Byte) : Mac := m.setIfInBounds i b

/-- Byte `i` of a MAC address (R39). -/
def macByte (m : Mac) (i : Nat) : Byte := m.getD i 0#8

end Sys2Proof.Machine
end

