-- ==== Sys2Proof/Syntax.lean ====
section
/-! DEFINITION. The operations of the core as syntax: one constructor for each of the 31 rows of
spec/opcode_table.json (spec/30_encoding.md R121, R131, R146, R147), and the three forms in which one is handed over. -/

namespace Sys2Proof

/-- One constructor per row of the opcode table. A host buffer reference is no part of an operation (R122: it is
handed over beside the descriptor); the state holds it in `eng.bufRef`. -/
inductive Instr where
  | selectBank (n : Byte)
  | readByte (off : Byte)
  | readWord (off : Byte)
  | readLong (off : Byte)
  | writeByte (off : Byte) (v : Byte)
  | writeWord (off : Byte) (v : Word)
  | writeLong (off : Byte) (v : Long)
  | readBlock (off : Byte) (count : Word)
  | writeBlock (off : Byte) (count : Word)
  | allocate (n : Byte)
  | release
  | free (p : Byte)
  | waitMmuIdle
  | transmit (len : Word)
  | receive
  | miiRead (reg : Byte)
  | miiWrite (reg : Byte) (v : Word)
  | phyConfigure
  | reset
  | enable
  | shutdown
  | probe
  | openOp
  | closeOp
  | mmuAlloc (n : BitVec 3)
  | mmuReset
  | mmuRelease
  | mmuFree
  | mmuEnqueue
  | miiReadFrame (phy reg : BitVec 5)
  | miiWriteFrame (phy reg : BitVec 5) (v : Word)
  deriving DecidableEq, Repr, Inhabited

/-- One cycle of a management frame as the engine drives it: output enable and output data (R145). -/
structure Drive where
  oe : Bool
  dat : Bool
  deriving DecidableEq, Repr, Inhabited

/-- What the caller hands over. The three formats of the opcode table: an operation descriptor (R122), an MMU command
word (R130), a management frame (R146, R147). -/
inductive Request where
  | descriptor (bytes : List Byte)
  | mmuWord (w : Word)
  | frame (cycles : List Drive)
  deriving DecidableEq, Repr, Inhabited

/-- Why a request is no operation. Each is the refusal of R123 and U5: the engine does nothing. -/
inductive DecodeError where
  /-- No byte at all. -/
  | emptyDescriptor
  /-- An `op_id` that is not in R121. -/
  | unknownOp (opId : Byte)
  /-- Fewer bytes than the operation's operands take. -/
  | truncated (opId : Byte)
  /-- Bytes are left over behind the operands. -/
  | trailing (opId : Byte)
  /-- An operand outside the range of R123. -/
  | operandRange (opId : Byte)
  /-- A command word that is none of the five of R131 (U6). -/
  | unknownMmuWord (w : Word)
  /-- A cycle list that is neither of the two frames of R146 and R147. -/
  | badFrame
  deriving DecidableEq, Repr, Inhabited

end Sys2Proof
end

