-- ==== Sys2Proof/Machine/Frame.lean ====
section
/-! DEFINITION. The management frames of the MII engine: the builders of spec/44_mii.md R241 and R242 and the reference
decoder of spec/30_encoding.md R152. -/

namespace Sys2Proof.Machine

/-- A driven cycle (R145). -/
def driven (b : Bool) : Drive := ⟨true, b⟩

/-- An undriven cycle; then `do = 0` (R145, decision D13). -/
def undriven : Drive := ⟨false, false⟩

/-- Cycles 0 to 33: 32 sync-one bits and the start code `01` (R146, R147). -/
def frameHead : List Drive := List.replicate 32 (driven true) ++ [driven false, driven true]

/-- The opcode: `10` reads, `01` writes, in wire order (R148). -/
def opcodeCycles (isRead : Bool) : List Drive := [driven isRead, driven (!isRead)]

/-- A field driven most significant bit first (R148). -/
def fieldCycles {n : Nat} (w : BitVec n) : List Drive := (msbFirst w).map driven

/-- The 64 cycles of a register read (R146, R241). -/
def buildRead (phy reg : BitVec 5) : List Drive :=
  frameHead ++ opcodeCycles true ++ fieldCycles phy ++ fieldCycles reg ++ List.replicate 18 undriven

/-- The 65 cycles of a register write (R147, R242). -/
def buildWrite (phy reg : BitVec 5) (value : Word) : List Drive :=
  frameHead ++ opcodeCycles false ++ fieldCycles phy ++ fieldCycles reg ++ List.replicate 2 undriven
    ++ fieldCycles value ++ [undriven]

/-- Cycle `k` of a list of cycles. -/
def cycleAt (c : List Drive) (k : Nat) : Drive := c.getD k undriven

/-- The field sent in cycles `from` onward, most significant bit first (R152). -/
def fieldAt (c : List Drive) (start n : Nat) : BitVec n := fromMsb n (fun k => (cycleAt c (start + k)).dat)

/-- Every cycle from `start` on, `n` of them, has this output enable (R152). -/
def oeAll (c : List Drive) (start n : Nat) (oe : Bool) : Bool :=
  (List.range n).all (fun k => (cycleAt c (start + k)).oe == oe)

/-- The reference decoder (R152): the operands of a frame from its `(oe, do)` flags, none for any other list. -/
def decodeFrame (c : List Drive) : Option Instr :=
  if (c.take 34 == frameHead) && oeAll c 36 10 true then
    if c.length == 64 && (c.drop 34).take 2 == opcodeCycles true && oeAll c 46 18 false then
      some (.miiReadFrame (fieldAt c 36 5) (fieldAt c 41 5))
    else if c.length == 65 && (c.drop 34).take 2 == opcodeCycles false && oeAll c 46 2 false
        && oeAll c 48 16 true && oeAll c 64 1 false then
      some (.miiWriteFrame (fieldAt c 36 5) (fieldAt c 41 5) (fieldAt c 48 16))
    else none
  else none

end Sys2Proof.Machine
end

