-- ==== Sys2Proof/WellFormed.lean ====
section
/-! DEFINITION. The operand ranges of spec/30_encoding.md R123. Every other operand takes every value of its width. -/

namespace Sys2Proof

/-- `n` is 0 to 3 for SELECT_BANK, `N` is 0 to 7 for ALLOCATE, `reg` is 0 to 31 for MII_READ and MII_WRITE (R123). -/
def Instr.wellFormed : Instr → Bool
  | .selectBank n => n.toNat < 4
  | .allocate n => n.toNat < 8
  | .miiRead reg => reg.toNat < 32
  | .miiWrite reg _ => reg.toNat < 32
  | .readByte _ => true
  | .readWord _ => true
  | .readLong _ => true
  | .writeByte _ _ => true
  | .writeWord _ _ => true
  | .writeLong _ _ => true
  | .readBlock _ _ => true
  | .writeBlock _ _ => true
  | .release => true
  | .free _ => true
  | .waitMmuIdle => true
  | .transmit _ => true
  | .receive => true
  | .phyConfigure => true
  | .reset => true
  | .enable => true
  | .shutdown => true
  | .probe => true
  | .openOp => true
  | .closeOp => true
  | .mmuAlloc _ => true
  | .mmuReset => true
  | .mmuRelease => true
  | .mmuFree => true
  | .mmuEnqueue => true
  | .miiReadFrame _ _ => true
  | .miiWriteFrame _ _ _ => true

/-- A well-formed operation, as a proposition. -/
abbrev Instr.WellFormed (i : Instr) : Prop := i.wellFormed = true

end Sys2Proof
end

