-- ==== Sys2Proof/Decode.lean ====
section
/-! DEFINITION. The decoder and the encoder of the three request formats: operation descriptors (spec/30_encoding.md
R121, R122, R123), MMU command words (R130, R131) and management frames (R146, R147, R152). Decoding is total and names
what it refuses. -/

namespace Sys2Proof

open Machine

/-- The five MMU commands of R131. -/
inductive MmuCode where
  | alloc (n : BitVec 3)
  | release
  | free
  | reset
  | enqueue
  deriving DecidableEq, Repr, Inhabited

/-- The command word under MMU_CODES: the command's word, with N in its field for allocate (R130, R131). -/
def encodeMmuCode (c : Config.MmuCodes) : MmuCode → Word
  | .alloc n => c.alloc ||| putField 16 c.n.val n
  | .reset => c.reset
  | .release => c.release
  | .free => c.free
  | .enqueue => c.enqueue

/-- The command a word carries, none when the whole word is not one of the five words (R131, U6). A word whose CMD bits
are one of the five but which has another bit set is none of them: R130 says the other bits are 0 and U6 names other
command codes only (DESIGN CHOICE, log 40). -/
def decodeMmuCode (c : Config.MmuCodes) (w : Word) : Option MmuCode :=
  if without w (fieldMask 16 c.n.val 3) = c.alloc then some (.alloc (getField c.n.val 3 w))
  else if w = c.reset then some .reset
  else if w = c.release then some .release
  else if w = c.free then some .free
  else if w = c.enqueue then some .enqueue
  else none

/-- MMU_CODES gives five commands five words: N's field is clear in the allocate word, and no other command's word is an
allocate word or another's. -/
abbrev codesOk (c : Config.MmuCodes) : Prop :=
  c.alloc &&& fieldMask 16 c.n.val 3 = 0#16 ∧
    (∀ w ∈ [c.reset, c.release, c.free, c.enqueue], without w (fieldMask 16 c.n.val 3) ≠ c.alloc) ∧
    [c.reset, c.release, c.free, c.enqueue].Nodup

/-- The operation that writes one MMU command. -/
def MmuCode.toInstr : MmuCode → Instr
  | .alloc n => .mmuAlloc n
  | .reset => .mmuReset
  | .release => .mmuRelease
  | .free => .mmuFree
  | .enqueue => .mmuEnqueue

/-- The operation and the bytes behind it, refused where an operand is out of range (R123). -/
def checked (op : Byte) (i : Instr) (rest : List Byte) : Except DecodeError (Instr × List Byte) :=
  if i.wellFormed then .ok (i, rest) else .error (.operandRange op)

/-- One operand byte (R122). -/
def takeByte (op : Byte) (f : Byte → List Byte → Except DecodeError (Instr × List Byte)) :
    List Byte → Except DecodeError (Instr × List Byte)
  | b :: rest => f b rest
  | [] => .error (.truncated op)

/-- One operand word, little-endian (R122). -/
def takeWord (op : Byte) (f : Word → List Byte → Except DecodeError (Instr × List Byte)) :
    List Byte → Except DecodeError (Instr × List Byte)
  | lo :: hi :: rest => f (wordOf lo hi) rest
  | _ => .error (.truncated op)

/-- One operand long, little-endian (R122). -/
def takeLong (op : Byte) (f : Long → List Byte → Except DecodeError (Instr × List Byte)) :
    List Byte → Except DecodeError (Instr × List Byte)
  | b0 :: b1 :: b2 :: b3 :: rest => f (longOf (wordOf b0 b1) (wordOf b2 b3)) rest
  | _ => .error (.truncated op)

/-- The operation whose identifier is `op` (R121), its operands taken from the bytes that follow (R122). -/
def decodeOp (op : Byte) (rest : List Byte) : Except DecodeError (Instr × List Byte) :=
  match op with
  | 0x00#8 => takeByte op (fun n => checked op (.selectBank n)) rest
  | 0x01#8 => takeByte op (fun off => checked op (.readByte off)) rest
  | 0x02#8 => takeByte op (fun off => checked op (.readWord off)) rest
  | 0x03#8 => takeByte op (fun off => checked op (.readLong off)) rest
  | 0x04#8 => takeByte op (fun off => takeByte op (fun v => checked op (.writeByte off v))) rest
  | 0x05#8 => takeByte op (fun off => takeWord op (fun v => checked op (.writeWord off v))) rest
  | 0x06#8 => takeByte op (fun off => takeLong op (fun v => checked op (.writeLong off v))) rest
  | 0x07#8 => takeByte op (fun off => takeWord op (fun c => checked op (.readBlock off c))) rest
  | 0x08#8 => takeByte op (fun off => takeWord op (fun c => checked op (.writeBlock off c))) rest
  | 0x10#8 => takeByte op (fun n => checked op (.allocate n)) rest
  | 0x11#8 => checked op .release rest
  | 0x12#8 => takeByte op (fun p => checked op (.free p)) rest
  | 0x13#8 => checked op .waitMmuIdle rest
  | 0x20#8 => takeWord op (fun len => checked op (.transmit len)) rest
  | 0x21#8 => checked op .receive rest
  | 0x30#8 => takeByte op (fun reg => checked op (.miiRead reg)) rest
  | 0x31#8 => takeByte op (fun reg => takeWord op (fun v => checked op (.miiWrite reg v))) rest
  | 0x32#8 => checked op .phyConfigure rest
  | 0x40#8 => checked op .reset rest
  | 0x41#8 => checked op .enable rest
  | 0x42#8 => checked op .shutdown rest
  | 0x43#8 => checked op .probe rest
  | 0x44#8 => checked op .openOp rest
  | 0x45#8 => checked op .closeOp rest
  | _ => .error (.unknownOp op)

/-- The first operation of a byte string and the bytes behind it (R122). -/
def decodeBytes : List Byte → Except DecodeError (Instr × List Byte)
  | [] => .error .emptyDescriptor
  | op :: rest => decodeOp op rest

/-- The operation a byte string is the descriptor of; bytes left over are refused (R122). -/
def decodeDescriptor (bytes : List Byte) : Except DecodeError Instr :=
  match decodeBytes bytes with
  | .error e => .error e
  | .ok (i, []) => .ok i
  | .ok (_, _ :: _) => .error (.trailing (bytes.headD 0#8))

/-- The decoder of the three request formats; a command word is read under MMU_CODES. -/
def decode (c : Config.MmuCodes) : Request → Except DecodeError Instr
  | .descriptor bytes => decodeDescriptor bytes
  | .mmuWord w =>
    match decodeMmuCode c w with
    | some k => .ok k.toInstr
    | none => .error (.unknownMmuWord w)
  | .frame cycles =>
    match decodeFrame cycles with
    | some i => .ok i
    | none => .error .badFrame

/-- The bytes of a word operand, little-endian (R122). -/
def wordBytes (w : Word) : List Byte := [lowByte w, highByte w]

/-- The bytes of a long operand, little-endian (R122). -/
def longBytes (l : Long) : List Byte := wordBytes (lowWord l) ++ wordBytes (highWord l)

/-- The request that hands an operation over, written from the encoding column of R121 and R122, the words of
MMU_CODES (R131) and the frames of R146 and R147. -/
def encode (c : Config.MmuCodes) : Instr → Request
  | .selectBank n => .descriptor [0x00#8, n]
  | .readByte off => .descriptor [0x01#8, off]
  | .readWord off => .descriptor [0x02#8, off]
  | .readLong off => .descriptor [0x03#8, off]
  | .writeByte off v => .descriptor [0x04#8, off, v]
  | .writeWord off v => .descriptor (0x05#8 :: off :: wordBytes v)
  | .writeLong off v => .descriptor (0x06#8 :: off :: longBytes v)
  | .readBlock off count => .descriptor (0x07#8 :: off :: wordBytes count)
  | .writeBlock off count => .descriptor (0x08#8 :: off :: wordBytes count)
  | .allocate n => .descriptor [0x10#8, n]
  | .release => .descriptor [0x11#8]
  | .free p => .descriptor [0x12#8, p]
  | .waitMmuIdle => .descriptor [0x13#8]
  | .transmit len => .descriptor (0x20#8 :: wordBytes len)
  | .receive => .descriptor [0x21#8]
  | .miiRead reg => .descriptor [0x30#8, reg]
  | .miiWrite reg v => .descriptor (0x31#8 :: reg :: wordBytes v)
  | .phyConfigure => .descriptor [0x32#8]
  | .reset => .descriptor [0x40#8]
  | .enable => .descriptor [0x41#8]
  | .shutdown => .descriptor [0x42#8]
  | .probe => .descriptor [0x43#8]
  | .openOp => .descriptor [0x44#8]
  | .closeOp => .descriptor [0x45#8]
  | .mmuAlloc n => .mmuWord (encodeMmuCode c (.alloc n))
  | .mmuReset => .mmuWord (encodeMmuCode c .reset)
  | .mmuRelease => .mmuWord (encodeMmuCode c .release)
  | .mmuFree => .mmuWord (encodeMmuCode c .free)
  | .mmuEnqueue => .mmuWord (encodeMmuCode c .enqueue)
  | .miiReadFrame phy reg => .frame (buildRead phy reg)
  | .miiWriteFrame phy reg v => .frame (buildWrite phy reg v)

/-! ## Words numbered as the opcode table numbers them -/

/-- How many bytes the descriptor of an `op_id` has (R122; the table's `length_bytes`), 1 for an unknown one. -/
def descriptorLength (op : Byte) : Nat :=
  match op with
  | 0x00#8 => 2
  | 0x01#8 => 2
  | 0x02#8 => 2
  | 0x03#8 => 2
  | 0x04#8 => 3
  | 0x05#8 => 4
  | 0x06#8 => 6
  | 0x07#8 => 4
  | 0x08#8 => 4
  | 0x10#8 => 2
  | 0x12#8 => 2
  | 0x20#8 => 3
  | 0x30#8 => 2
  | 0x31#8 => 4
  | _ => 1

/-- Byte `k` of a number, byte 0 the least significant. -/
def byteOfNat (w k : Nat) : Byte := BitVec.ofNat 8 (w / 256 ^ k)

/-- The cycles of a frame row: the row's pattern is one number whose leftmost character, cycle 0, is its most
significant of `n` bits; the `z` and `i` cycles are undriven (log 33). -/
def frameOfNat (n w : Nat) : List Drive :=
  (List.range n).map (fun k =>
    if k < 46 || (n == 65 && 48 ≤ k && k < 64) then driven (w.testBit (n - 1 - k)) else undriven)

/-- The request an opcode-table row of `nbits` bits stands for: 64 bits are a read frame, 65 (72 in whole bytes) a
write frame, 16 bits that are one of the five command words of the table (R131) an MMU command, everything else a descriptor
(log 33). -/
def tableRequest (nbits w : Nat) : Request :=
  if nbits = 64 then .frame (frameOfNat 64 w)
  else if nbits = 65 ∨ nbits = 72 then .frame (frameOfNat 65 w)
  else if nbits = 16 ∧ w < 65536 ∧ (decodeMmuCode Config.defaultCodes (BitVec.ofNat 16 w)).isSome then .mmuWord (BitVec.ofNat 16 w)
  else .descriptor ((List.range (descriptorLength (byteOfNat w 0))).map (byteOfNat w))

/-- What the decoder reads from an opcode-table word; the table's command words are the default MMU_CODES. -/
def decodeTableWord (nbits w : Nat) : Option Instr :=
  match decode Config.defaultCodes (tableRequest nbits w) with
  | .ok i => some i
  | .error _ => none

end Sys2Proof
end

