-- ==== Sys2Proof/Machine/State.lean ====
section
/-! DEFINITION. The state of the core as plain data (spec/10_state.md), the agents' events, why a run stops, and the
state after power-on. INVENTORY.md lists every piece with its rule. -/

namespace Sys2Proof.Machine

/-- Bytes by address, strictly rising; an address that is not listed holds no written byte (log 8). -/
abbrev Memory := List Host.Cell

/-- The labels of the window registers (R24), SIG and MACADDR byte by byte. -/
inductive Reg where
  | bsr | sig (i : Nat) | tcr | rcr | config | ctl | mac (i : Nat)
  | mmuCmd | pnr | arr | fifo | ptr | data | intStatus | intAck | intMask | mgmt
  deriving DecidableEq, Repr, Inhabited

/-- One entry of the trace: what an instrumented chip unit would see (R14, R100), the delays, and the sink callback
(R348). `w` is the access width in bytes. -/
inductive Access where
  | read (r : Reg) (w : Nat) (v : Long)
  | write (r : Reg) (w : Nat) (v : Long)
  | delay (t : Nat)
  | deliver (buf n : Nat)
  deriving DecidableEq, Repr, Inhabited

/-- A pending MMU command; `free` carries the packet number latched at the write (R46, R193). -/
inductive MmuCmd where
  | alloc (n : BitVec 3)
  | release
  | free (p : Pkt)
  | reset
  deriving DecidableEq, Repr, Inhabited

/-- One allocated packet number: its capacity in 256-byte pages, and the seed of what its unwritten bytes hold (R42). -/
structure Entry where
  pkt : Pkt
  pages : Nat
  seed : Nat
  deriving DecidableEq, Repr, Inhabited

/-- The chip unit: the window registers (R22 to R39) and its hidden state (R42 to R47). -/
structure Chip where
  /-- BSR.BANK (R22). -/
  bank : BitVec 2
  /-- TCR (R25). -/
  tcr : Word
  /-- RCR (R26). -/
  rcr : Word
  /-- CONFIG (R27). -/
  config : Word
  /-- CTL (R28). -/
  ctl : Word
  /-- The pending MMU command (R46). -/
  pending : Option MmuCmd
  /-- Auto-releases the MMU agent has not finished, oldest first (R192, R213). -/
  autoFree : List Pkt
  /-- PNR, with PKT where BITMAP puts it (R30). -/
  pnr : Byte
  /-- ARR, the allocation result (R31). -/
  arr : Byte
  /-- INT_STATUS.ALLOC has been read as 1 since the last allocate command (R31, R379, U4). -/
  arrSeen : Bool
  /-- PTR as last written (R33, R45). -/
  ptr : Word
  /-- The hidden data-path offset (R45). -/
  dp : Nat
  /-- The interrupt context has reloaded `dp` since the foreground last wrote PTR (R374, U3). -/
  dpStale : Bool
  /-- INT_STATUS (R35). -/
  intStatus : Byte
  /-- INT_MASK (R36). -/
  intMask : Byte
  /-- MGMT as last written, the MDI bit left out (R37). -/
  mgmt : Word
  /-- SIG, a constant of the chip; the bytes REGMAP gives it, the rest without meaning (R38, C9). -/
  sig : Long
  /-- MACADDR (R39). -/
  mac : Mac
  /-- The allocation table, in rising order of packet number; a number not listed is free (R42). -/
  table : List Entry
  /-- Packet memory: byte `o` of buffer `p` at address `p * 2048 + o` (R42, R70). -/
  pktMem : Memory
  /-- The transmit FIFO, head first (R43). -/
  txFifo : List Pkt
  /-- The receive FIFO, head first (R44). -/
  rxFifo : List Pkt
  /-- The packet in flight (R47). -/
  inFlight : Option Pkt
  /-- The packets whose transmission has failed and whose buffers nobody has given back since (R214, R335, log 45). -/
  failed : List Pkt
  deriving DecidableEq, Repr, Inhabited

/-- Where the PHY is in the management frame it receives (R55, R262 to R265). -/
inductive PhyRx where
  /-- Between frames, or in a preamble. -/
  | hunt
  /-- `n` bits behind the preamble have been seen; they are the low bits of `bits`. -/
  | header (n : Nat) (bits : BitVec 14)
  /-- A read of value `v` recognised; `k` edges since the edge of cycle 45 (R264). -/
  | reading (v : Word) (k : Nat)
  /-- A write of register `r` recognised; `k` edges since the edge of cycle 45, `d` the bits taken (R265). -/
  | writing (r : BitVec 5) (d : Word) (k : Nat)
  /-- The frame of another PHY; `k` edges since the edge of cycle 45. -/
  | foreign (isRead : Bool) (k : Nat)
  deriving DecidableEq, Repr, Inhabited

/-- The PHY on the management pins (R50 to R55). -/
structure Phy where
  /-- The address the PHY answers; none when there is no PHY on the pins (R256). -/
  addr : Option (BitVec 5)
  /-- PHY_CTRL but for RESET and ANEG_RESTART, which are not stored (R51, R266, R267). -/
  ctrl : Word
  /-- PHY_STAT (R52). -/
  stat : Word
  /-- PHY_AD (R53). -/
  adv : Word
  /-- PHY_MASK (R54). -/
  mask : Word
  /-- A PHY reset is in progress (R266). -/
  resetting : Bool
  /-- A negotiation has been started (R267). -/
  aneg : Bool
  /-- How many edges in a row, the last included, were driven ones, counted up to 32 (R263). -/
  ones : Nat
  rx : PhyRx
  /-- The level the PHY drives on the data pin, none when it has released the pin (R264). -/
  drive : Option Bool
  deriving DecidableEq, Repr, Inhabited

/-- One cycle descriptor of the MII Bit Sequence (R145). -/
structure Cycle where
  oe : Bool
  dat : Bool
  input : Bool
  deriving DecidableEq, Repr, Inhabited

/-- The lifecycle state; no rule reads it (R64, R307). -/
inductive Life where
  | unreset | reset | configured | enabled | disabled | powerDown
  deriving DecidableEq, Repr, Inhabited

/-- The two conditions of ALLOCATE, the info of TransmitAllocationFailed (R321). -/
inductive AllocCause where
  | exhausted
  | failed (arr : Byte)
  deriving DecidableEq, Repr, Inhabited

/-- The conditions of R320 with what each records (R321). -/
inductive Condition where
  | ok
  | hardwareNotDetected (seen : Long)
  | allocationExhausted
  | allocationFailed (arr : Byte)
  | frameTooLarge
  | transmitAllocationFailed (cause : AllocCause)
  | transmitTimeout
  | receiveError (status : Word)
  | phyResetTimeout
  | phyAutonegTimeout
  | macAddressMissing
  deriving DecidableEq, Repr, Inhabited

/-- What an operation hands back: a condition and a value (R122), and the non-fatal warning of R309. -/
structure OpResult where
  cond : Condition
  value : Int
  warning : Bool
  deriving DecidableEq, Repr, Inhabited

/-- What RECEIVE has found out by step 14 of R220: a frame to deliver, or one to discard. -/
inductive RxOutcome where
  | delivered (n : Nat)
  | discarded (status : Word)
  deriving DecidableEq, Repr, Inhabited

/-- A phase of the management clock (R60). -/
inductive ClockPhase where
  | low
  | high
  deriving DecidableEq, Repr, Inhabited

/-- The loop counters of a step (R60). -/
inductive SeqSub where
  | none
  /-- The word a DATA or block loop is at. -/
  | word (k : Nat)
  /-- ALLOCATE: the attempt and the spin of it, from 1. -/
  | spin (attempt spin : Nat)
  /-- PHY_CONFIGURE: the poll, from 1. -/
  | poll (k : Nat)
  /-- The MII executor outside its cycles: the line of R243. -/
  | run (line : Nat)
  /-- The MII executor in a cycle: `clk_idx`, the clock phase, and the line 4a to 4f of R243 as 1 to 6. -/
  | cycle (clkIdx : Nat) (phase : ClockPhase) (line : Nat)
  deriving DecidableEq, Repr, Inhabited

/-- `(op, step, sub)` of R60 for one operation. `part` counts the accesses of a step that has several, and the letters of
one that has letters, from 1. -/
structure SeqFrame where
  op : Instr
  step : Nat
  part : Nat
  sub : SeqSub
  deriving DecidableEq, Repr, Inhabited

/-- Where the sequencer goes when an access completes (R60): to a step of the same rule, or back to the calling rule. -/
inductive Next where
  | goto (step part : Nat) (sub : SeqSub)
  | ret
  deriving DecidableEq, Repr, Inhabited

/-- Where the engine stands between two machine steps: idle, or inside one of its two unbounded loops, each with the
operation and the step number it returns to, or behind a gap that the interrupt context never leaves (log 1, log 46). -/
inductive SeqPos where
  | idle
  /-- WAIT_MMU_IDLE itself (R183). -/
  | waitIdle
  /-- RELEASE step 2 (R184). -/
  | releaseWait
  /-- FREE step 3 (R185). -/
  | freeWait
  /-- TRANSMIT step 15, the poll for TX_EMPTY; `len` is the padded length (R200). -/
  | txPoll (len : Nat)
  /-- TRANSMIT step 16, the wait after the timeout. -/
  | txTimeoutWait
  /-- TRANSMIT step 18, the wait after TX_EMPTY. -/
  | txDoneWait (len : Nat)
  /-- RECEIVE step 14, the wait before the release (R220). -/
  | rxWait (o : RxOutcome)
  /-- RECEIVE step 16, the wait after the release. -/
  | rxReleaseWait (o : RxOutcome)
  /-- RESET step 6 (R300). -/
  | resetWait
  /-- OPEN step 2, inside its RESET at step 6 (R310). -/
  | openWait
  /-- The interrupt context polls a BUSY that never falls, and the foreground does not go on (R324, R334, U17). -/
  | irqHang
  deriving DecidableEq, Repr, Inhabited

/-- The engine's own state (R60 to R65). -/
structure Engine where
  pos : SeqPos
  /-- The sequencer position (R60): the innermost operation first, behind it the ones that called it; empty when idle. -/
  point : List SeqFrame
  /-- The save slots (R61). -/
  savedBank : BitVec 2
  savedPnr : Byte
  savedPtr : Word
  /-- The MII Bit Sequence (R62). -/
  seqBuf : List Cycle
  /-- The Packet Buffer Handle (R63). -/
  pkt : Option Pkt
  /-- The pair `(caps, ad)` (R65). -/
  capsAd : Option (Word × Word)
  life : Life
  /-- `t0` of TRANSMIT step 15 (R200). -/
  t0 : Nat
  /-- The host buffer reference handed over beside the operation (R122). -/
  bufRef : Nat
  /-- What the last operation handed back; none while an operation stands in a wait (R120). -/
  result : Option OpResult
  deriving DecidableEq, Repr, Inhabited

/-- The interrupt context's own sequencer position (R340): the access of its entry, body or exit that it makes next
(log 42 numbers them), or the poll of its own busy wait; idle while no handler runs. -/
inductive IrqPos where
  | idle
  | save (k : Nat)
  | body (k : Nat)
  /-- Poll `k` of WAIT_MMU_IDLE, at step `line` of R183. -/
  | wait (k line : Nat)
  | restore (k : Nat)
  deriving DecidableEq, Repr, Inhabited

/-- The interrupt context and the platform's interrupt enable (R61, R327, R331, R332, R340). -/
structure IrqCtx where
  pos : IrqPos
  hBank : BitVec 2
  hPnr : Byte
  hPtr : Word
  /-- The platform's own interrupt enable (R327). -/
  enabled : Bool
  /-- The foreground is inside a critical sequence (R332). -/
  hold : Bool
  deriving DecidableEq, Repr, Inhabited

/-- One step of an agent, with what the agent draws (R101). An event whose step is not enabled does nothing. -/
inductive AgentEvent where
  /-- Case (a) of R196 with packet number `p`. -/
  | allocOk (p : Pkt)
  /-- Case (d) of R196, silent success with packet number `p`. -/
  | allocSilent (p : Pkt)
  /-- Case (b) of R196. Case (c) is that no event comes. -/
  | allocFail
  /-- Completion of a pending release, free or reset (R191, R193, R194). -/
  | mmuDone
  /-- Completion of the oldest auto-release (R192, R213). -/
  | autoFreeDone
  /-- R212. -/
  | txDequeue
  /-- R213; `tx` says whether INT_STATUS.TX is set too (U11). -/
  | txDone (tx : Bool)
  /-- R214; `tx` and `clearTxen` are the draws of U11. -/
  | txFail (tx clearTxen : Bool)
  /-- R232: packet number `p`, `pages` pages, and what the receiver writes into the buffer. -/
  | rxFrame (p : Pkt) (pages : Nat) (status lenWord : Word) (payload : List Byte)
  /-- "Reset completes" of R266. -/
  | phyResetDone
  /-- The three steps of R267. -/
  | phySetAck
  | phySetRemFlt
  | phyClrRemFlt
  deriving DecidableEq, Repr, Inhabited

/-- One run of the transmit-error handler, with the open parameter `TxErrBody` of R335. -/
structure HandlerRun where
  /-- The handler saves and restores PNR and PTR; false is the shorter form of R331. -/
  touchPtr : Bool
  /-- The handler sets TCR.TXEN again (R335). -/
  reenable : Bool
  /-- The handler frees this packet (R335). -/
  freed : Option Pkt
  /-- What the agents do after each access of the handler. -/
  gaps : List (List AgentEvent)
  deriving DecidableEq, Repr, Inhabited

/-- What can happen at a gap: an agent's step, or a run of the interrupt context (R328, R330). -/
inductive Event where
  | agent (e : AgentEvent)
  | irq (h : HandlerRun)
  deriving DecidableEq, Repr, Inhabited

/-- The gap after one access or delay of the foreground: how much time has passed, and what has happened (R101). -/
structure Gap where
  dt : Nat
  events : List Event
  deriving DecidableEq, Repr, Inhabited

/-- What the caller and the platform hand over between two operations (R120, R327, R348). -/
inductive Input where
  /-- An operation, with the host buffer reference that goes with it. -/
  | op (r : Request) (buf : Nat)
  /-- The platform switches its interrupt enable. -/
  | irqEnable (on : Bool)
  /-- The caller fills a host buffer. -/
  | hostWrite (address : Nat) (bytes : List Byte)
  deriving DecidableEq, Repr, Inhabited

/-- A frame the transmitter has taken (R212): its packet, and the payload of the envelope in the buffer, none when the
buffer holds no envelope of R134, so that what is sent is not said (log 44). -/
structure SentFrame where
  pkt : Pkt
  payload : Option (List Byte)
  deriving DecidableEq, Repr, Inhabited

/-- What is not the core's: time (R345), the agents' steps still to come (log 2), the counter of the free values
(log 3), the trace, newest entry first (log 31), and the frames the transmitter has taken, newest first (log 44). -/
structure Env where
  now : Nat
  tape : List Gap
  draw : Nat
  trace : List Access
  sent : List SentFrame
  deriving DecidableEq, Repr, Inhabited

end Sys2Proof.Machine

namespace Sys2Proof.Config

open Machine

/-- A drawn chip unit: what the soft reset and the low-power state leave (R301, R352, U16; log 14, log 16). -/
opaque freeChip : Nat → Chip

end Sys2Proof.Config

namespace Sys2Proof.Machine

/-- The machine at the poll of a handler run that never ends (R334, log 46). -/
structure Hang where
  chip : Chip
  phy : Phy
  eng : Engine
  irq : IrqCtx
  hostMem : Memory
  env : Env
  deriving DecidableEq, Repr, Inhabited

/-- The whole machine. -/
structure State where
  params : Config.Params
  chip : Chip
  phy : Phy
  eng : Engine
  irq : IrqCtx
  hostMem : Memory
  inbox : List Input
  env : Env
  /-- Set inside a step whose interrupt context hangs; `step` then answers that state (log 46). -/
  hang : Option Hang
  deriving DecidableEq, Repr, Inhabited

/-- Why the machine stops with a fault. -/
inductive Fault where
  /-- Raised by RECEIVE step 9 when an error-free frame has a raw length below 4 (R229, U7). Safe: the machine stops
  where the spec gives no value. -/
  | rxLengthBelowHeader
  deriving DecidableEq, Repr, Inhabited

/-- Why an operation has no meaning. All are safe: the machine stops where the spec says a model refuses. -/
inductive Refusal where
  /-- No meaning written yet; exec's own arms alone raise it. Safe. -/
  | notModelled (mnemonic : String)
  /-- The request is no operation (R123, U5). Raised by `step`. Safe. -/
  | badRequest (e : DecodeError)
  /-- An operand outside R123, in a term no descriptor decodes to (U5). Raised by SELECT_BANK, ALLOCATE, MII_READ and
  MII_WRITE. Safe. -/
  | operandRange
  /-- The operation needs the packet bank and another bank is selected (R180, U1). Raised by the allocator operations
  and the MMU command rows. Safe. -/
  | wrongBank
  /-- The selected bank has no register at the offset (R170, U1). Raised by the READ and WRITE operations. Safe. -/
  | noRegister
  /-- A word access at an odd offset or a long access at an offset that is no multiple of 4 (R82, U2). Raised by the
  READ and WRITE operations. Safe. -/
  | misaligned
  /-- A DATA access outside R90 to R92 or R83 (U3). Raised by every access to DATA. Safe. -/
  | dataAccess
  /-- A command word that is none of the five (R131, U6). Raised by writes to MMU_CMD. Safe. -/
  | unknownMmuCommand
  /-- A command while BUSY = 1, or while an allocate is pending that it does not replace (R372, R373, U9). Raised by
  writes to MMU_CMD. Safe. -/
  | mmuBusy
  /-- MMU_RELEASE with an empty receive FIFO; MMU_FREE or MMU_ENQUEUE of a packet that is not allocated, in a FIFO or
  in flight (R380, U10). Raised by writes to MMU_CMD. Safe. -/
  | badPacket
  deriving DecidableEq, Repr, Inhabited

/-- The outcome of a step. -/
abbrev Out := Host.Outcome State Fault Refusal

/-! ## The state after power-on

R75 gives no power-on value. The window registers and the PHY registers take the LAN91C111 family's reset values
(PRESUMED, log 6), hidden state is empty (DESIGN CHOICE, log 7), the parameters are EX1 (DESIGN CHOICE, log 4). -/

/-- The chip unit after power-on (log 6, log 7; SIG is the default of R126, MACADDR the EEPROM's value of R75). -/
def resetChip : Chip where
  bank := 0
  tcr := 0x0000
  rcr := 0x0000
  config := 0xA0B1
  ctl := 0x1210
  pending := none
  autoFree := []
  pnr := 0x00
  arr := 0x80
  arrSeen := false
  ptr := 0x0000
  dp := 0
  dpStale := false
  intStatus := 0x04
  intMask := 0x00
  mgmt := 0x3330
  sig := 0x33
  mac := Config.eepromMac
  table := []
  pktMem := []
  txFifo := []
  rxFifo := []
  inFlight := none
  failed := []

/-- The PHY after power-on (log 6, log 7). -/
def resetPhy : Phy where
  addr := some 0
  ctrl := 0x3000
  stat := 0x7809
  adv := 0x01E1
  mask := 0xFFC0
  resetting := false
  aneg := false
  ones := 0
  rx := .hunt
  drive := none

/-- The engine after power-on: idle, lifecycle state Unreset (R75, R362). -/
def resetEngine : Engine where
  pos := .idle
  point := []
  savedBank := 0
  savedPnr := 0
  savedPtr := 0
  seqBuf := []
  pkt := none
  capsAd := none
  life := .unreset
  t0 := 0
  bufRef := 0
  result := none

/-- The interrupt context after power-on; the platform's enable is off until RESET has run (R362, R366). -/
def resetIrq : IrqCtx where
  pos := .idle
  hBank := 0
  hPnr := 0
  hPtr := 0
  enabled := false
  hold := false

/-- The machine right after power-on. -/
def State.reset : State where
  params := Config.ex1
  chip := resetChip
  phy := resetPhy
  eng := resetEngine
  irq := resetIrq
  hostMem := []
  inbox := []
  env := ⟨0, [], 0, [], []⟩
  hang := none

end Sys2Proof.Machine
end

