-- ==== Sys2Proof/Machine/Flags.lean ====
section
/-! DEFINITION. Every flag: its mask under the parameters BITMAP and PHYMAP (spec/00_scope.md R9, spec/30_encoding.md
R127, R128), and the flags and words that are computed (spec/10_state.md R41, spec/41_allocator.md R192,
spec/60_exceptions.md R326, spec/30_encoding.md R155). -/

namespace Sys2Proof.Machine

/-! ## BITMAP (R127)

The position of every flag is a parameter; the names below are its masks. -/

/-- TCR.TXEN. -/
def txen (p : Config.Params) : Word := bit p.bits.txen
/-- RCR.RXEN. -/
def rxen (p : Config.Params) : Word := bit p.bits.rxen
/-- RCR.SOFT_RST. -/
def softRst (p : Config.Params) : Word := bit p.bits.softRst
/-- CONFIG.POWER_EN. -/
def powerEn (p : Config.Params) : Word := bit p.bits.powerEn
/-- CTL.AUTO_RELEASE. -/
def autoRelease (p : Config.Params) : Word := bit p.bits.autoRelease
/-- MMU_CMD.BUSY, read. -/
def busyBit (p : Config.Params) : Word := bit p.bits.busy
/-- ARR.FAILED. -/
def failedBit (p : Config.Params) : Byte := bit p.bits.failed
/-- FIFO.REMPTY. -/
def rempty (p : Config.Params) : Word := bit p.bits.rempty
/-- PTR.RCV. -/
def ptrRcv (p : Config.Params) : Word := bit p.bits.rcv
/-- PTR.AUTOINC. -/
def ptrAutoinc (p : Config.Params) : Word := bit p.bits.autoinc
/-- PTR.READ. -/
def ptrRead (p : Config.Params) : Word := bit p.bits.read
/-- INT_STATUS.ALLOC. -/
def intAlloc (p : Config.Params) : Byte := bit p.bits.alloc
/-- INT_STATUS.TX_EMPTY. -/
def intTxEmpty (p : Config.Params) : Byte := bit p.bits.txEmpty
/-- INT_STATUS.TX. -/
def intTx (p : Config.Params) : Byte := bit p.bits.tx
/-- INT_STATUS.TX_ERR. -/
def intTxErr (p : Config.Params) : Byte := bit p.bits.txErr
/-- MGMT.MDOE. -/
def mdoe (p : Config.Params) : Word := bit p.bits.mdoe
/-- MGMT.MCLK. -/
def mclk (p : Config.Params) : Word := bit p.bits.mclk
/-- MGMT.MDI. -/
def mdi (p : Config.Params) : Word := bit p.bits.mdi
/-- MGMT.MDO. -/
def mdo (p : Config.Params) : Word := bit p.bits.mdo
/-- CTL_ODD in the control byte. -/
def ctlOdd (p : Config.Params) : Byte := bit p.bits.ctlOdd
/-- RX_ERROR_MASK (R142). -/
def rxErrorMask (p : Config.Params) : Word := p.bits.rxErrorMask
/-- BSR.BANK, a field of two bits (R22). -/
def bankMask (p : Config.Params) : Word := fieldMask 16 p.bits.bank.val 2
/-- FIFO.RXPKT, a field of six bits (R32). -/
def rxpktMask (p : Config.Params) : Word := fieldMask 16 p.bits.rxpkt.val 6
/-- The 11-bit length field of the length word (R8 RX_LEN_BITS, R140). -/
def rxLenMask : Word := 0x07FF

/-- BITMAP gives the flags of one register different bits, and none inside a field of the same register. -/
abbrev bitsOk (b : Config.BitMap) : Prop :=
  b.rxen ≠ b.softRst ∧ [b.mdoe, b.mclk, b.mdi, b.mdo].Nodup ∧ [b.alloc, b.txEmpty, b.tx, b.txErr].Nodup ∧
    [b.rcv, b.autoinc, b.read].Nodup ∧
    (∀ i ∈ [b.rcv, b.autoinc, b.read], i.val < b.offset.val ∨ b.offset.val + 11 ≤ i.val) ∧
    (b.failed.val < b.apkt.val ∨ b.apkt.val + 6 ≤ b.failed.val) ∧
    (b.rempty.val < b.rxpkt.val ∨ b.rxpkt.val + 6 ≤ b.rempty.val)

/-! ## The two pointer words (R132) -/

/-- PTR_TX_WRITE = AUTOINC. -/
def ptrTxWrite (p : Config.Params) : Word := ptrAutoinc p
/-- PTR_RX_READ = RCV | AUTOINC | READ. -/
def ptrRxRead (p : Config.Params) : Word := ptrRcv p ||| ptrAutoinc p ||| ptrRead p

/-! ## PHYMAP (R128) -/

/-- PHY_CTRL.RESET. -/
def phyReset (p : Config.Params) : Word := bit p.phyMap.reset
/-- PHY_CTRL.ANEG_EN. -/
def anegEn (p : Config.Params) : Word := bit p.phyMap.anegEn
/-- PHY_CTRL.ANEG_RESTART. -/
def anegRestart (p : Config.Params) : Word := bit p.phyMap.anegRestart
/-- PHY_STAT.CAP_T4. -/
def capT4 (p : Config.Params) : Word := bit p.phyMap.capT4
/-- PHY_STAT.CAP_100FD. -/
def cap100Fd (p : Config.Params) : Word := bit p.phyMap.cap100Fd
/-- PHY_STAT.CAP_100HD. -/
def cap100Hd (p : Config.Params) : Word := bit p.phyMap.cap100Hd
/-- PHY_STAT.CAP_10FD. -/
def cap10Fd (p : Config.Params) : Word := bit p.phyMap.cap10Fd
/-- PHY_STAT.CAP_10HD. -/
def cap10Hd (p : Config.Params) : Word := bit p.phyMap.cap10Hd
/-- PHY_STAT.ANEG_ACK. -/
def anegAck (p : Config.Params) : Word := bit p.phyMap.anegAck
/-- PHY_STAT.REM_FLT. -/
def remFlt (p : Config.Params) : Word := bit p.phyMap.remFlt
/-- PHY_AD.AD_T4. -/
def adT4 (p : Config.Params) : Word := bit p.phyMap.adT4
/-- PHY_AD.AD_100FD. -/
def ad100Fd (p : Config.Params) : Word := bit p.phyMap.ad100Fd
/-- PHY_AD.AD_100HD. -/
def ad100Hd (p : Config.Params) : Word := bit p.phyMap.ad100Hd
/-- PHY_AD.AD_10FD. -/
def ad10Fd (p : Config.Params) : Word := bit p.phyMap.ad10Fd
/-- PHY_AD.AD_10HD. -/
def ad10Hd (p : Config.Params) : Word := bit p.phyMap.ad10Hd
/-- PHY_AD.AD_CSMA. -/
def adCsma (p : Config.Params) : Word := bit p.phyMap.adCsma

/-- PHYMAP gives four registers four numbers, and the flags of one register different bits. -/
abbrev phyMapOk (m : Config.PhyMap) : Prop :=
  [m.ctrl, m.stat, m.ad, m.mask].Nodup ∧ [m.reset, m.anegEn, m.anegRestart].Nodup ∧
    [m.capT4, m.cap100Fd, m.cap100Hd, m.cap10Fd, m.cap10Hd, m.anegAck, m.remFlt].Nodup ∧
    [m.adT4, m.ad100Fd, m.ad100Hd, m.ad10Fd, m.ad10Hd, m.adCsma].Nodup

/-- The fixed capability to advertisement mapping (R155). -/
def advertise (p : Config.Params) (caps : Word) : Word :=
  adCsma p ||| flag (adT4 p) (has caps (capT4 p)) ||| flag (ad100Fd p) (has caps (cap100Fd p))
    ||| flag (ad100Hd p) (has caps (cap100Hd p)) ||| flag (ad10Fd p) (has caps (cap10Fd p))
    ||| flag (ad10Hd p) (has caps (cap10Hd p))

/-- The word that restarts the negotiation (R285, R286): ANEG_EN | ANEG_RESTART, all other bits 0. -/
def restartWord (p : Config.Params) : Word := anegEn p ||| anegRestart p

/-- RESET and ANEG_RESTART, the two bits of PHY_CTRL that are not stored (R266, R267). -/
def phyVolatile (p : Config.Params) : Word := phyReset p ||| anegRestart p

/-! ## The default words ENABLE writes (R303) -/

/-- TCR_DEFAULT has TXEN = 1; the remainder is a parameter. -/
def tcrDefault (p : Config.Params) : Word := p.tcrRest ||| txen p

/-- RCR_DEFAULT has RXEN = 1 and SOFT_RST = 0; the remainder is a parameter. -/
def rcrDefault (p : Config.Params) : Word := without (p.rcrRest ||| rxen p) (softRst p)

/-! ## Condition codes (R320, D17) -/

/-- The code of a condition (R320). -/
def Condition.code : Condition → Nat
  | .ok => 0
  | .hardwareNotDetected _ => 1
  | .allocationExhausted => 2
  | .allocationFailed _ => 3
  | .frameTooLarge => 4
  | .transmitAllocationFailed _ => 5
  | .transmitTimeout => 6
  | .receiveError _ => 7
  | .phyResetTimeout => 8
  | .phyAutonegTimeout => 9
  | .macAddressMissing => 10

/-- The result of an operation, "a pair (condition code, value)" (R122). -/
def OpResult.pair (r : OpResult) : Nat × Int := (r.cond.code, r.value)

/-! ## Computed flags -/

/-- MMU_CMD.BUSY: a pending release, free or reset, or an unfinished auto-release (R192). -/
def Chip.busy (c : Chip) : Bool :=
  (match c.pending with
    | some .release => true
    | some (.free _) => true
    | some .reset => true
    | some (.alloc _) => false
    | none => false)
    || !c.autoFree.isEmpty

/-- An allocate command is pending (R46). -/
def Chip.allocPending (c : Chip) : Bool :=
  match c.pending with
  | some (.alloc _) => true
  | some .release => false
  | some (.free _) => false
  | some .reset => false
  | none => false

/-- The interrupt line: asserted while `INT_STATUS & INT_MASK != 0` (R36, R326). -/
def Chip.lineAsserted (c : Chip) : Bool := has c.intStatus c.intMask

/-- SIG as wide as REGMAP makes it (R38, C9). -/
def Chip.sigValue (c : Chip) (p : Config.Params) : Long := c.sig &&& fieldMask 32 0 (8 * p.regs.sigWidth.bytes)

/-- Byte `i` of SIG. -/
def sigByte (sig : Long) (i : Nat) : Byte := sig.extractLsb' (8 * i) 8

/-- The soft reset is held: no agent of the chip unit takes a step (R301). -/
def Chip.inSoftReset (c : Chip) (p : Config.Params) : Bool := has c.rcr (softRst p)

/-- PNR.PKT (R30). -/
def Chip.pktSel (c : Chip) (p : Config.Params) : Pkt := getField p.bits.pkt.val 6 c.pnr

/-- The PNR value that selects a packet. -/
def pktByte (p : Config.Params) (q : Pkt) : Byte := putField 8 p.bits.pkt.val q

/-- PTR.OFFSET (R33). -/
def offsetOf (p : Config.Params) (ptr : Word) : Nat := (getField p.bits.offset.val 11 ptr).toNat

/-- The bank in a BSR word (R22). -/
def bankOf (p : Config.Params) (v : Word) : BitVec 2 := getField p.bits.bank.val 2 v

/-- A BSR word: BANK, and the other bits as given (R22, U14). -/
def bsrValue (p : Config.Params) (b : BitVec 2) (rest : Word) : Word :=
  without rest (bankMask p) ||| putField 16 p.bits.bank.val b

/-- The BSR word that selects a bank, its other bits as REGMAP says (R160; how REGMAP says it is a DESIGN CHOICE, log 49). -/
def bankWord (p : Config.Params) (b : BitVec 2) : Word := bsrValue p b p.regs.bsrRest

/-- An ARR value: FAILED, APKT, and the bits the spec does not name (R31). -/
def arrValue (p : Config.Params) (failed : Bool) (q : Pkt) (rest : Byte) : Byte :=
  without (without rest (fieldMask 8 p.bits.apkt.val 6) ||| putField 8 p.bits.apkt.val q) (failedBit p)
    ||| flag (failedBit p) failed

/-- The APKT of an ARR value (R31). -/
def apktOf (p : Config.Params) (arr : Byte) : Pkt := getField p.bits.apkt.val 6 arr

/-- The FIFO register of a receive FIFO (R32): REMPTY, and RXPKT while it is not empty. The rest, and RXPKT while it is
empty, is unspecified (U14). -/
def fifoValue (p : Config.Params) (rx : List Pkt) (rest : Word) : Word :=
  match rx with
  | [] => rest ||| rempty p
  | q :: _ => without (without rest (rxpktMask p) ||| putField 16 p.bits.rxpkt.val q) (rempty p)

/-- MMU_CMD as read: BUSY; no other read field is named (R29, U14). -/
def mmuCmdValue (p : Config.Params) (busy : Bool) (rest : Word) : Word :=
  without rest (busyBit p) ||| flag (busyBit p) busy

/-- The level MGMT.MDI reads (R260, R261): what the engine drives, else what the PHY drives, else unspecified. -/
def pinLevel (p : Config.Params) (mgmt : Word) (drive : Option Bool) (rest : Bool) : Bool :=
  if has mgmt (mdoe p) then has mgmt (mdo p) else drive.getD rest

end Sys2Proof.Machine
end

