-- ==== Sys2Proof/Machine/Store.lean ====
section
/-! DEFINITION. The named operations over memory, the allocation table and the fields of the state: every other file
changes the state through these (spec/20_memory.md R80, R92; spec/10_state.md R42). -/

namespace Sys2Proof.Machine

/-! ## Memory in canonical form (log 8) -/

/-- The canonical form: addresses strictly rising. An unlisted address has no value, so no listed byte equals one. -/
abbrev Memory.wf (m : Memory) : Prop := m.Pairwise (fun x y => x.1 < y.1)

/-- The byte at an address, none where nothing has been written. -/
def Memory.read : Memory → Nat → Option Byte
  | [], _ => none
  | (a, b) :: m, x => if x = a then some b else Memory.read m x

/-- Writes one byte, keeping the canonical form. -/
def Memory.write : Memory → Nat → Byte → Memory
  | [], x, v => [(x, v)]
  | (a, b) :: m, x, v =>
    if x < a then (x, v) :: (a, b) :: m
    else if x = a then (x, v) :: m
    else (a, b) :: Memory.write m x v

/-- Forgets the bytes of `n` addresses from `lo` on. -/
def Memory.forget (m : Memory) (lo n : Nat) : Memory := m.filter (fun c => c.1 < lo || lo + n ≤ c.1)

/-- Writes bytes at rising addresses. -/
def Memory.writeBytes : Memory → Nat → List Byte → Memory
  | m, _, [] => m
  | m, a, b :: bs => Memory.writeBytes (m.write a b) (a + 1) bs

/-! ## The allocation table (R42) -/

/-- The bytes of address space one buffer takes: the largest capacity, 8 pages (R33, R42). -/
def bufferSpan : Nat := 2048

/-- Where byte `off` of buffer `p` stands in packet memory (R70 (2)). -/
def pktAddr (p : Pkt) (off : Nat) : Nat := p.toNat * bufferSpan + off

/-- The table's entry for a packet number, none when it is free. -/
def findEntry : List Entry → Pkt → Option Entry
  | [], _ => none
  | e :: t, p => if e.pkt = p then some e else findEntry t p

/-- Puts an entry at its place in the rising order of packet numbers. -/
def insertEntry : List Entry → Entry → List Entry
  | [], e => [e]
  | x :: t, e =>
    if e.pkt.toNat < x.pkt.toNat then e :: x :: t
    else if e.pkt = x.pkt then e :: t
    else x :: insertEntry t e

/-- The canonical form of the table: rising packet numbers, one to eight pages each. -/
abbrev tableWf (t : List Entry) : Prop :=
  t.Pairwise (fun x y => x.pkt.toNat < y.pkt.toNat) ∧ ∀ e ∈ t, 1 ≤ e.pages ∧ e.pages ≤ 8

/-- The pages in use (R196, R232). -/
def usedPages (t : List Entry) : Nat := (t.map (fun e => e.pages)).sum

/-- The capacity of a buffer in bytes (R42). -/
def Entry.capacity (e : Entry) : Nat := e.pages * Config.pageBytes

/-- A table in canonical form from any list: what the table that a soft reset or a power-up draws is taken as (R301, R352,
U16). DESIGN CHOICE, log 14: each buffer has the one to eight pages of R42, but their sum is not bounded by TOTAL_PAGES,
although R42 says that packet memory is that large; while it is beyond, `roomFor` finds room for nothing. -/
def normTable (t : List Entry) : List Entry :=
  (List.range 64).filterMap (fun k =>
    (findEntry t (BitVec.ofNat 6 k)).map (fun e => ⟨BitVec.ofNat 6 k, e.pages % 8 + 1, e.seed⟩))

/-- A packet is in a FIFO, in flight, or handed back to the MMU agent (U10). -/
def Chip.queued (c : Chip) (p : Pkt) : Bool :=
  c.txFifo.contains p || c.rxFifo.contains p || c.inFlight == some p || c.autoFree.contains p

/-- A packet number is allocated (R42). -/
def Chip.allocated (c : Chip) (p : Pkt) : Bool := (findEntry c.table p).isSome

/-- Gives a buffer back: the number is free and its bytes are forgotten (R191, R193). -/
def Chip.freePkt (p : Pkt) (c : Chip) : Chip :=
  { c with
    table := c.table.filter (fun e => e.pkt != p)
    pktMem := c.pktMem.forget (pktAddr p 0) bufferSpan
    failed := c.failed.filter (fun q => q != p) }

/-- Hands out a buffer of `pages` pages whose content is drawn by `seed` (R196 a). -/
def Chip.takePkt (p : Pkt) (pages seed : Nat) (c : Chip) : Chip :=
  { c with
    table := insertEntry c.table ⟨p, pages, seed⟩
    pktMem := c.pktMem.forget (pktAddr p 0) bufferSpan }

/-- A byte of an allocated buffer: what was written there, else what the draw of its content gives (R196, log 8). -/
def Chip.bufByte (c : Chip) (e : Entry) (off : Nat) : Byte :=
  (c.pktMem.read (pktAddr e.pkt off)).getD (Config.bufferByte e.seed off)

/-! ## Fields of the state -/

/-- Replaces the chip unit. -/
def State.setChip (c : Chip) (s : State) : State := { s with chip := c }

/-- Replaces the PHY. -/
def State.setPhy (p : Phy) (s : State) : State := { s with phy := p }

/-- Replaces the engine's own state. -/
def State.setEng (e : Engine) (s : State) : State := { s with eng := e }

/-- Replaces the interrupt context. -/
def State.setIrq (q : IrqCtx) (s : State) : State := { s with irq := q }

/-- Replaces the host buffers. -/
def State.setHost (m : Memory) (s : State) : State := { s with hostMem := m }

/-- Replaces the Packet Buffer Handle (R63). -/
def State.setPkt (p : Option Pkt) (s : State) : State := s.setEng { s.eng with pkt := p }

/-- Adds an entry to the trace. -/
def State.note (a : Access) (s : State) : State := { s with env := { s.env with trace := a :: s.env.trace } }

/-- Moves the draw counter on: the free values at the next `n` counts have been used (log 3). -/
def State.bump (n : Nat) (s : State) : State := { s with env := { s.env with draw := s.env.draw + n } }

/-- Adds a frame to those the transmitter has taken (R212, log 44). -/
def State.send (f : SentFrame) (s : State) : State := { s with env := { s.env with sent := f :: s.env.sent } }

/-- Enters or leaves a critical sequence (R332). -/
def State.setHold (b : Bool) (s : State) : State := { s with irq := { s.irq with hold := b } }

/-! ## The sequencer position (R60, log 43) -/

/-- The step of the same rule to go on with. -/
def Next.to (step : Nat) (part : Nat := 1) (sub : SeqSub := .none) : Next := .goto step part sub

/-- The position after an access: another step of the innermost rule, or its caller's. -/
def advancePoint (n : Next) : List SeqFrame → List SeqFrame
  | [] => []
  | f :: rest =>
    match n with
    | .goto step part sub => ⟨f.op, step, part, sub⟩ :: rest
    | .ret => rest

/-- The sequencer goes on (R60 "advances by one step when the step's access completes"). -/
def State.advance (n : Next) (s : State) : State := s.setEng { s.eng with point := advancePoint n s.eng.point }

/-- An operation starts at step 1 of its rule. -/
def State.begin (i : Instr) (s : State) : State := s.setEng { s.eng with point := [⟨i, 1, 1, .none⟩] }

/-- A rule calls another operation, which comes back to the caller's step `back` (R60). -/
def State.call (i : Instr) (back : Next) (s : State) : State :=
  s.setEng { s.eng with point := ⟨i, 1, 1, .none⟩ :: advancePoint back s.eng.point }

/-! ## Host buffers -/

/-- Byte `i` of the host buffer at `buf` (R12 HostRead); one that nobody has written is a free value (log 8). -/
def State.hostRead (s : State) (buf i : Nat) : Byte := (s.hostMem.read (buf + i)).getD (Config.hostByte (buf + i))

/-- Writes byte `i` of the host buffer at `buf` (R12 HostWrite). -/
def State.hostWrite (buf i : Nat) (b : Byte) (s : State) : State := s.setHost (s.hostMem.write (buf + i) b)

end Sys2Proof.Machine
end

