-- ==== Sys2Proof/Machine/PhyAgent.lean ====
section
/-! DEFINITION. The PHY agent: one step per rising edge of the management clock (spec/44_mii.md R262 to R268), and the
management pins as MGMT drives them (R260). -/

namespace Sys2Proof.Machine

/-- What a read of register `r` latches (R264, R266 to R268). `rest` supplies the bits that read back as a draw. -/
def Phy.readReg (c : Config.Params) (p : Phy) (r : BitVec 5) (rest : Word) : Word :=
  if r = c.phyMap.ctrl then
    without (without p.ctrl (phyVolatile c) ||| (rest &&& anegRestart c)) (phyReset c)
      ||| flag (phyReset c) p.resetting
  else if r = c.phyMap.stat then p.stat
  else if r = c.phyMap.ad then p.adv
  else if r = c.phyMap.mask then p.mask
  else rest

/-- The commit of a write (R265): PHY_STAT drops it, PHY_CTRL starts a reset or a negotiation, unnamed registers
ignore it (R266 to R268). -/
def Phy.writeReg (c : Config.Params) (p : Phy) (r : BitVec 5) (d : Word) : Phy :=
  if r = c.phyMap.ctrl then
    { p with
      ctrl := without d (phyVolatile c)
      resetting := p.resetting || has d (phyReset c)
      aneg := p.aneg || has d (anegRestart c)
      stat := if has d (anegRestart c) then without p.stat (anegAck c) else p.stat }
  else if r = c.phyMap.stat then p
  else if r = c.phyMap.ad then { p with adv := d }
  else if r = c.phyMap.mask then { p with mask := d }
  else p

/-- "Reset completes" (R266): every register takes the PHY's own default and RESET reads 0. -/
def Phy.resetDone (c : Config.Params) (p : Phy) : Phy :=
  { p with
    ctrl := without c.phyDefCtrl (phyVolatile c)
    stat := c.phyDefStat
    adv := c.phyDefAdv
    mask := c.phyDefMask
    resetting := false }

/-- A management frame that is not one of the two of R146 and R147: the PHY's registers, its progress flags and what it
drives become draws, and it looks for the next preamble (U8, log 25). -/
def Phy.garble (c : Config.Params) (p : Phy) (n : Nat) : Phy :=
  { p with
    ctrl := without (Config.freeWord n) (phyVolatile c)
    stat := Config.freeWord (n + 1)
    adv := Config.freeWord (n + 2)
    mask := Config.freeWord (n + 3)
    resetting := Config.freeBit n
    aneg := Config.freeBit (n + 1)
    rx := .hunt
    drive := Config.freeDrive n }

/-- The run of driven ones an edge leaves, counted up to 32 (R263). -/
def onesAfter (ones : Nat) (d : Drive) : Nat := if d.oe && d.dat then min 32 (ones + 1) else 0

/-- The fourteen bits behind the preamble are complete: start, opcode, address and register are read from them and
the header is recognised if the address is the PHY's own (R263). -/
def Phy.recognise (c : Config.Params) (p : Phy) (bits : BitVec 14) (rest : Word) : Phy :=
  let isRead : Bool := bits.extractLsb' 10 2 = 0b10#2
  let r : BitVec 5 := bits.extractLsb' 0 5
  if p.addr = some (bits.extractLsb' 5 5) then
    if isRead then { p with rx := .reading (p.readReg c r rest) 0 } else { p with rx := .writing r 0 0 }
  else { p with rx := .foreign isRead 0 }

/-- One rising edge with the pin as the engine drives it, for a PHY whose run of ones is already counted. `n` is the
draw counter (R262 to R265; U8 for what is not a frame). `k` edges have come since the edge of cycle 45, so this is
the edge of cycle `46 + k`. -/
def Phy.edge (cfg : Config.Params) (p : Phy) (before : Nat) (d : Drive) (n : Nat) : Phy :=
  match p.rx with
  | .hunt =>
    if d.oe then
      if d.dat then p
      else if before = 32 then { p with rx := .header 1 0 } else p.garble cfg n
    else if before = 0 then { p with drive := none } else p.garble cfg n
  | .header c bits =>
    if d.oe then
      let bits' : BitVec 14 := (bits <<< 1) ||| (BitVec.ofBool d.dat).setWidth 14
      if c = 1 then if d.dat then { p with rx := .header 2 bits' } else p.garble cfg n
      else if c = 3 then
        if bits'.setWidth 2 = 0b10#2 ∨ bits'.setWidth 2 = 0b01#2 then { p with rx := .header 4 bits' } else p.garble cfg n
      else if c = 13 then p.recognise cfg bits' (Config.freeWord n)
      else { p with rx := .header (c + 1) bits' }
    else p.garble cfg n
  | .reading v k =>
    if d.oe then p.garble cfg n
    else if k = 0 then { p with rx := .reading v 1, drive := none }
    else if k < 17 then { p with rx := .reading v (k + 1), drive := some (v.getLsbD (16 - k)) }
    else { p with rx := .hunt, drive := none }
  | .writing r w k =>
    if k < 2 then if d.oe then p.garble cfg n else { p with rx := .writing r w (k + 1), drive := none }
    else if k < 18 then
      let b := if d.oe then d.dat else Config.freeBit n
      let w' : Word := (w <<< 1) ||| (BitVec.ofBool b).setWidth 16
      if k = 17 then { p.writeReg cfg r w' with rx := .writing r w' 18 } else { p with rx := .writing r w' (k + 1) }
    else if d.oe then p.garble cfg n else { p with rx := .hunt }
  | .foreign true k =>
    if d.oe then p.garble cfg n
    else if k < 17 then { p with rx := .foreign true (k + 1), drive := none }
    else { p with rx := .hunt, drive := none }
  | .foreign false k =>
    if k < 2 || k = 18 then
      if d.oe then p.garble cfg n
      else { p with rx := if k = 18 then .hunt else .foreign false (k + 1), drive := none }
    else { p with rx := .foreign false (k + 1), drive := none }

/-- A rising edge: the run of ones is counted, then the PHY takes its step; without a PHY nothing happens (R256). -/
def phyEdge (d : Drive) (s : State) : State :=
  if s.phy.addr = none then s
  else
    (s.setPhy ({ s.phy with ones := onesAfter s.phy.ones d }.edge s.params s.phy.ones d s.env.draw)).bump 4

/-- A write to MGMT (R37, R260): MDI is ignored, the pins change level, and a rising MCLK is a step of the PHY (R85).
At that edge the PHY sees the data pin as this very write leaves it: which level it would see of a pin that changes in the
same write the spec does not say, and R375 tells programs not to do so (DESIGN CHOICE, log 47). The pins work while
CONFIG.POWER_EN = 0 too (R305, R352: not in the source; DESIGN CHOICE, log 39). -/
def mgmtWrite (v : Word) (s : State) : State :=
  let s' := s.setChip { s.chip with mgmt := without v (mdi s.params) }
  if has v (mclk s.params) && !has s.chip.mgmt (mclk s.params) then
    phyEdge ⟨has v (mdoe s.params), has v (mdo s.params)⟩ s'
  else s'

end Sys2Proof.Machine
end

