-- ==== Sys2Proof/Machine/Operands.lean ====
section
/-! DEFINITION. Every operand form of the register window: REGMAP and `Resolve` (spec/30_encoding.md R126,
spec/40_register_bank.md R170), what a read and a write of each register does (spec/20_memory.md R85), the data
register (R86 to R92), the MMU commands at the write (spec/41_allocator.md R190 to R195), the soft reset and the
low-power state (spec/46_lifecycle.md R301, spec/60_exceptions.md R352). -/

namespace Sys2Proof.Machine

/-! ## REGMAP (R9, R24, R126) -/

/-- What stands at one byte offset of the window: a byte of a register, or the data register. -/
inductive Place where
  | data
  | byte (r : Reg) (high : Bool)
  deriving DecidableEq, Repr

/-- One byte of the window that REGMAP places: its bank, none for every bank. -/
structure Slot where
  bank : Option (BitVec 2)
  off : Nat
  place : Place
  deriving DecidableEq, Repr

/-- The two bytes of a 16-bit register. A byte access to its upper half reaches bits 15:8 (DEDUCED, log 11). -/
def wordSlots (bank : Option (BitVec 2)) (off : Nat) (r : Reg) : List Slot :=
  [⟨bank, off, .byte r false⟩, ⟨bank, off + 1, .byte r true⟩]

/-- REGMAP byte by byte. SIG comes first: by default it stands over the upper byte of BSR (R126). INT_ACK comes before
INT_STATUS: where they have one offset a read there reads INT_STATUS and a write acknowledges (DEDUCED from R35 and R85,
log 48). -/
def slotsOf (m : Config.RegMap) : List Slot :=
  (List.range m.sigWidth.bytes).map (fun i => ⟨m.sigBank, m.sig + i, .byte (.sig i) false⟩)
    ++ wordSlots none m.bsr .bsr
    ++ wordSlots (some m.cb) m.tcr .tcr ++ wordSlots (some m.cb) m.rcr .rcr
    ++ wordSlots (some m.gb) m.config .config ++ wordSlots (some m.gb) m.ctl .ctl
    ++ (List.range 6).map (fun i => ⟨some m.macBank, m.mac + i, .byte (.mac i) false⟩)
    ++ wordSlots (some m.pb) m.mmuCmd .mmuCmd
    ++ [⟨some m.pb, m.pnr, .byte .pnr false⟩, ⟨some m.pb, m.arr, .byte .arr false⟩]
    ++ wordSlots (some m.pb) m.fifo .fifo ++ wordSlots (some m.pb) m.ptr .ptr
    ++ [⟨some m.pb, m.data, .data⟩, ⟨some m.pb, m.intAck, .byte .intAck false⟩,
      ⟨some m.pb, m.intStatus, .byte .intStatus false⟩, ⟨some m.pb, m.intMask, .byte .intMask false⟩]
    ++ wordSlots (some m.mb) m.mgmt .mgmt

/-- The slot is the one at `off` when `bank` is selected (R21). -/
def Slot.shows (x : Slot) (bank : BitVec 2) (off : Nat) : Bool := (x.bank.getD bank == bank) && (x.off == off)

/-- `Resolve` read byte by byte: what REGMAP places at `off` of `bank`, none where it places nothing (R170). -/
def placeAt (m : Config.RegMap) (bank : BitVec 2) (off : Nat) : Option Place :=
  ((slotsOf m).find? (fun x => x.shows bank off)).map (fun x => x.place)

/-- Two slots answer the same offset of the same bank. -/
abbrev Slot.clash (x y : Slot) : Prop := x.off = y.off ∧ (x.bank = none ∨ y.bank = none ∨ x.bank = y.bank)

/-- REGMAP places no two registers at one byte of one bank, but for SIG over the upper byte of BSR and INT_ACK at
INT_STATUS. -/
abbrev regsOk (m : Config.RegMap) : Prop :=
  (slotsOf m).Pairwise (fun x y => x.clash y → (x.place = .byte (.sig 0) false ∧ y.place = .byte .bsr true) ∨
    (x.place = .byte .intAck false ∧ y.place = .byte .intStatus false))

/-! ## Reads (R85: none but DATA has a side effect; `arrSeen` and the draw counter are the model's) -/

/-- BSR as a word read at its own offset shows it: BANK, SIG where REGMAP places it over the upper byte, and a draw
(R22, R126, U14). -/
def bsrWord (p : Config.Params) (c : Chip) (rest : Word) : Word :=
  let base :=
    if placeAt p.regs c.bank (p.regs.bsr + 1) = some (.byte (.sig 0) false) then wordOf (lowByte rest) (sigByte c.sig 0)
    else rest
  bsrValue p c.bank base

/-- INT_STATUS as read, at its own place or at INT_ACK's (R85); ALLOC is now seen if it is set (log 20). -/
def readIntStatus (s : State) : Word × State :=
  (s.chip.intStatus.setWidth 16,
    s.setChip { s.chip with arrSeen := s.chip.arrSeen || has s.chip.intStatus (intAlloc s.params) })

/-- The value of a register and the state after the read. An 8-bit register stands in bits 7:0. DATA is not read here
but by `dataRead`. -/
def readReg (r : Reg) (s : State) : Word × State :=
  match r with
  | .bsr => (bsrWord s.params s.chip (Config.freeWord s.env.draw), s.bump 1)
  | .sig i => ((sigByte s.chip.sig i).setWidth 16, s)
  | .tcr => (s.chip.tcr, s)
  | .rcr => (s.chip.rcr, s)
  | .config => (s.chip.config, s)
  | .ctl => (s.chip.ctl, s)
  | .mac i => ((macByte s.chip.mac i).setWidth 16, s)
  | .mmuCmd => (mmuCmdValue s.params s.chip.busy (Config.freeWord s.env.draw), s.bump 1)
  | .pnr => (s.chip.pnr.setWidth 16, s)
  | .arr =>
    if s.chip.arrSeen then (s.chip.arr.setWidth 16, s)
    else ((Config.freeByte s.env.draw).setWidth 16, s.bump 1)
  | .fifo => (fifoValue s.params s.chip.rxFifo (Config.freeWord s.env.draw), s.bump 1)
  | .ptr => (s.chip.ptr, s)
  | .data => (0#16, s)
  | .intStatus => readIntStatus s
  | .intAck => readIntStatus s
  | .intMask => (s.chip.intMask.setWidth 16, s)
  | .mgmt =>
    (s.chip.mgmt
        ||| flag (mdi s.params) (pinLevel s.params s.chip.mgmt s.phy.drive (Config.freeBit s.env.draw)),
      s.bump 1)

/-! ## Writes -/

/-- The chip unit after a reset that leaves everything but CONFIG and SIG unspecified (R301, R352): drawn, in canonical
form. DESIGN CHOICE, log 14: neither the pages of the table are bounded by TOTAL_PAGES (`normTable`), nor are the drawn
FIFOs made to name buffers of it (R42, R44, U16). The PHY is a device of its own and takes no step from the drawn MGMT
(R75, R301, log 14). -/
def drawnChip (p : Config.Params) (c : Chip) (n : Nat) : Chip :=
  { Config.freeChip n with
    config := c.config
    sig := c.sig
    mgmt := without (Config.freeChip n).mgmt (mdi p)
    arrSeen := false
    dpStale := false
    failed := []
    table := normTable (Config.freeChip n).table
    pktMem := [] }

/-- The soft reset (R301): RCR holds SOFT_RST and is otherwise a draw. -/
def softReset (s : State) : State :=
  let c := drawnChip s.params s.chip s.env.draw
  (s.setChip { c with rcr := c.rcr ||| softRst s.params }).bump 1

/-- Leaving the low-power state (R352): all but CONFIG and SIG is a draw, and a soft reset that is held stays held
(R301, log 16). -/
def powerUp (s : State) : State :=
  let c := drawnChip s.params s.chip s.env.draw
  (s.setChip { c with rcr := c.rcr ||| flag (softRst s.params) (s.chip.inSoftReset s.params) }).bump 1

/-- A write to PTR loads the data-path offset (R45). -/
def writePtr (v : Word) (s : State) : State :=
  s.setChip { s.chip with ptr := v, dp := offsetOf s.params v, dpStale := false }

/-- A write to a register other than MMU_CMD and DATA (R85). Writes to read-only registers are ignored (R164). While
CONFIG.POWER_EN = 0 the registers take writes and keep what they hold until POWER_EN is set again (R305, R352: not in
the source; DESIGN CHOICE, log 39). -/
def setReg (r : Reg) (v : Word) (s : State) : State :=
  match r with
  | .bsr => s.setChip { s.chip with bank := bankOf s.params v }
  | .sig _ => s
  | .tcr => s.setChip { s.chip with tcr := v }
  | .rcr => if has v (softRst s.params) then softReset s else s.setChip { s.chip with rcr := v }
  | .config =>
    let s' := s.setChip { s.chip with config := v }
    if has v (powerEn s.params) && !has s.chip.config (powerEn s.params) then powerUp s' else s'
  | .ctl => s.setChip { s.chip with ctl := v }
  | .mac i => s.setChip { s.chip with mac := setMacByte s.chip.mac i (lowByte v) }
  | .mmuCmd => s
  | .pnr => s.setChip { s.chip with pnr := lowByte v }
  | .arr => s
  | .fifo => s
  | .ptr => writePtr v s
  | .data => s
  | .intStatus => s
  | .intAck => s.setChip { s.chip with intStatus := without s.chip.intStatus (lowByte v) }
  | .intMask => s.setChip { s.chip with intMask := lowByte v }
  | .mgmt => mgmtWrite v s

/-- What a command word may not do now (R372, R373, R380; U9, U10): the refusal it meets, none when it is accepted. -/
def mmuGuard (k : MmuCode) (p : Config.Params) (c : Chip) : Option Refusal :=
  if c.busy then some .mmuBusy
  else
    match k with
    | .alloc _ => none
    | .reset => if c.allocPending then some .mmuBusy else none
    | .release =>
      if c.allocPending then some .mmuBusy else if c.rxFifo.isEmpty then some .badPacket else none
    | .free =>
      if c.allocPending then some .mmuBusy
      else if c.allocated (c.pktSel p) && !c.queued (c.pktSel p) then none else some .badPacket
    | .enqueue =>
      if c.allocPending then some .mmuBusy
      else if c.allocated (c.pktSel p) && !c.queued (c.pktSel p) then none else some .badPacket

/-- What a command does at the write (R190, R191, R193 to R195). -/
def mmuEffect (k : MmuCode) (p : Config.Params) (c : Chip) : Chip :=
  match k with
  | .alloc n => { c with intStatus := without c.intStatus (intAlloc p), pending := some (.alloc n), arrSeen := false }
  | .release => { c with pending := some .release }
  | .free => { c with pending := some (.free (c.pktSel p)) }
  | .reset => { c with pending := some .reset }
  | .enqueue => { c with txFifo := c.txFifo ++ [c.pktSel p] }

/-- The Packet Buffer Handle behind a command: it is dead from the write of MMU_ENQUEUE on (R63, R186, R210). -/
def handleAfter (k : MmuCode) (h : Option Pkt) : Option Pkt :=
  match k with
  | .alloc _ => h
  | .release => h
  | .free => h
  | .reset => h
  | .enqueue => none

/-- A command of the foreground that the chip unit takes: its effect, the end of a critical sequence (R332), and the end
of the handle (R186). -/
def mmuTake (k : MmuCode) (s : State) : State :=
  ((s.setChip (mmuEffect k s.params s.chip)).setHold false).setPkt (handleAfter k s.eng.pkt)

/-- A command word written to MMU_CMD. -/
def mmuWrite (w : Word) (s : State) : Except Refusal State :=
  match decodeMmuCode s.params.codes w with
  | none => .error .unknownMmuCommand
  | some k =>
    match mmuGuard k s.params s.chip with
    | some e => .error e
    | none => .ok (mmuTake k s)

/-- A write to a register other than DATA. -/
def writeReg (r : Reg) (v : Word) (s : State) : Except Refusal State :=
  match r with
  | .mmuCmd => mmuWrite v s
  | _ => .ok (setReg r v s)

/-! ## The data register (R86 to R92) -/

/-- The buffer an access reaches: PNR.PKT's, or the one at the head of the receive FIFO (R87 to R89). -/
def Chip.target (c : Chip) (p : Config.Params) : Option Pkt :=
  if has c.ptr (ptrRcv p) then c.rxFifo.head? else some (c.pktSel p)

/-- The entry an access of `w` bytes reaches, none outside R83 and R90 to R92 (U3). -/
def Chip.dataEntry (c : Chip) (p : Config.Params) (w : Nat) (reading : Bool) : Option Entry :=
  match c.target p with
  | none => none
  | some q =>
    match findEntry c.table q with
    | none => none
    | some e =>
      if has c.ptr (ptrRead p) = reading ∧ c.dp + w ≤ e.capacity ∧ c.dp % w = 0 then some e else none

/-- The offset behind an access of `w` bytes (R45). -/
def Chip.advance (w : Nat) (p : Config.Params) (c : Chip) : Chip :=
  if has c.ptr (ptrAutoinc p) then { c with dp := c.dp + w } else c

/-- Byte `i` of an access of `w` bytes at `dp`, 0 beyond its width. -/
def Chip.dataByte (c : Chip) (e : Entry) (w i : Nat) : Byte := if i < w then c.bufByte e (c.dp + i) else 0#8

/-- A read of DATA, `w` 1, 2 or 4 bytes (R90). Outside its conditions it is refused, or, when the interrupt context has
moved `dp` under the foreground, reads any value (U3). -/
def dataRead (w : Nat) (s : State) : Except Refusal (Long × State) :=
  match s.chip.dataEntry s.params w true with
  | some e =>
    .ok (longOf (wordOf (s.chip.dataByte e w 0) (s.chip.dataByte e w 1))
        (wordOf (s.chip.dataByte e w 2) (s.chip.dataByte e w 3)),
      s.setChip (s.chip.advance w s.params))
  | none =>
    if s.chip.dpStale then
      .ok (longOf (Config.freeWord s.env.draw) (if w = 4 then Config.freeWord (s.env.draw + 1) else 0#16),
        (s.setChip (s.chip.advance w s.params)).bump 2)
    else .error .dataAccess

/-- The first `w` bytes of a long, lowest address first (R80). -/
def dataBytes (w : Nat) (v : Long) : List Byte :=
  (wordBytes (lowWord v) ++ wordBytes (highWord v)).take w

/-- All of packet memory becomes a draw: what a write beyond its conditions may do in a corrupted run (U3). -/
def Chip.scramblePackets (c : Chip) (n : Nat) : Chip :=
  { c with table := c.table.map (fun e => { e with seed := n + e.pkt.toNat }), pktMem := [] }

/-- A write to DATA, `w` 1, 2 or 4 bytes (R91), with the same two ways out of its conditions (U3). A long one is four bytes at
`dp` with AUTOINC = 0 too, as R91 and R166 have it; the two word writes of R84 would both go to `dp` there (DEDUCED,
log 50). -/
def dataWrite (w : Nat) (v : Long) (s : State) : Except Refusal State :=
  match s.chip.dataEntry s.params w false with
  | some e =>
    .ok (s.setChip ({ s.chip with
      pktMem := s.chip.pktMem.writeBytes (pktAddr e.pkt s.chip.dp) (dataBytes w v) }.advance w s.params))
  | none =>
    if s.chip.dpStale then
      .ok ((s.setChip ((s.chip.scramblePackets s.env.draw).advance w s.params)).bump 64)
    else .error .dataAccess

/-! ## Window accesses (R82, R161 to R166) -/

/-- One half of a register's value. -/
def half (high : Bool) (w : Word) : Byte := if high then highByte w else lowByte w

/-- A byte read at a place other than DATA (R161). -/
def readPlace (p : Place) (s : State) : Except Refusal (Byte × State) :=
  match p with
  | .data =>
    match dataRead 1 s with
    | .ok (v, s') => .ok (lowByte (lowWord v), s')
    | .error e => .error e
  | .byte r high => .ok (half high (readReg r s).1, (readReg r s).2)

/-- The value a byte write merges with: what the register holds, for the 16-bit registers that are storage. -/
def storedWord (r : Reg) (p : Config.Params) (c : Chip) : Word :=
  match r with
  | .tcr => c.tcr
  | .rcr => c.rcr
  | .config => c.config
  | .ctl => c.ctl
  | .ptr => c.ptr
  | .mgmt => c.mgmt
  | .bsr => bankWord p c.bank
  | .sig _ => 0#16
  | .mac _ => 0#16
  | .mmuCmd => 0#16
  | .pnr => 0#16
  | .arr => 0#16
  | .fifo => 0#16
  | .data => 0#16
  | .intStatus => 0#16
  | .intAck => 0#16
  | .intMask => 0#16

/-- A word with one of its bytes replaced. -/
def mergeHalf (old : Word) (high : Bool) (v : Byte) : Word :=
  if high then wordOf (lowByte old) v else wordOf v (highByte old)

/-- A byte write at a place (R164); the other half of a 16-bit register is kept (DEDUCED, log 11). -/
def writePlace (p : Place) (v : Byte) (s : State) : Except Refusal State :=
  match p with
  | .data => dataWrite 1 (v.setWidth 32) s
  | .byte r high => writeReg r (mergeHalf (storedWord r s.params s.chip) high v) s

/-- A byte read through the window (R161, R170). -/
def winReadByte (off : Nat) (s : State) : Except Refusal (Byte × State) :=
  match placeAt s.params.regs s.chip.bank off with
  | none => .error .noRegister
  | some p => readPlace p s

/-- A word read under a given bank: DATA moves a word, everything else two bytes, low one first (R162). -/
def readWordAt (bank : BitVec 2) (off : Nat) (s : State) : Except Refusal (Word × State) :=
  match placeAt s.params.regs bank off with
  | none => .error .noRegister
  | some .data =>
    match dataRead 2 s with
    | .ok (v, s') => .ok (lowWord v, s')
    | .error e => .error e
  | some (.byte r high) =>
    match placeAt s.params.regs bank (off + 1) with
    | some (.byte r' high') =>
      if r' = r then .ok (readReg r s)
      else .ok (wordOf (half high (readReg r s).1) (half high' (readReg r' (readReg r s).2).1),
        (readReg r' (readReg r s).2).2)
    | some .data => .error .noRegister
    | none => .error .noRegister

/-- A word write under a given bank, one event for two registers that share a word (R165). -/
def writeWordAt (bank : BitVec 2) (off : Nat) (v : Word) (s : State) : Except Refusal State :=
  match placeAt s.params.regs bank off with
  | none => .error .noRegister
  | some .data => dataWrite 2 (v.setWidth 32) s
  | some (.byte r high) =>
    match placeAt s.params.regs bank (off + 1) with
    | some (.byte r' high') =>
      if r' = r then writeReg r v s
      else
        match writePlace (.byte r high) (lowByte v) s with
        | .error e => .error e
        | .ok s' => writePlace (.byte r' high') (highByte v) s'
    | some .data => .error .noRegister
    | none => .error .noRegister

/-- A word read through the window; an odd offset is refused (R82). -/
def winReadWord (off : Nat) (s : State) : Except Refusal (Word × State) :=
  if off % 2 = 0 then readWordAt s.chip.bank off s else .error .misaligned

/-- A word write through the window. -/
def winWriteWord (off : Nat) (v : Word) (s : State) : Except Refusal State :=
  if off % 2 = 0 then writeWordAt s.chip.bank off v s else .error .misaligned

/-- A long read: DATA moves a long, everything else two words in one access, low one first (R163). -/
def winReadLong (off : Nat) (s : State) : Except Refusal (Long × State) :=
  if off % 4 = 0 then
    if placeAt s.params.regs s.chip.bank off = some .data then dataRead 4 s
    else
      match readWordAt s.chip.bank off s with
      | .error e => .error e
      | .ok (lo, s') =>
        match readWordAt s.chip.bank (off + 2) s' with
        | .error e => .error e
        | .ok (hi, s'') => .ok (longOf lo hi, s'')
  else .error .misaligned

/-- A long write (R166): both words are placed by the bank selected when the access starts. -/
def winWriteLong (off : Nat) (v : Long) (s : State) : Except Refusal State :=
  if off % 4 = 0 then
    if placeAt s.params.regs s.chip.bank off = some .data then dataWrite 4 v s
    else
      match writeWordAt s.chip.bank off (lowWord v) s with
      | .error e => .error e
      | .ok s' => writeWordAt s.chip.bank (off + 2) (highWord v) s'
  else .error .misaligned

/-- A byte write through the window (R164). -/
def winWriteByte (off : Nat) (v : Byte) (s : State) : Except Refusal State :=
  match placeAt s.params.regs s.chip.bank off with
  | none => .error .noRegister
  | some p => writePlace p v s

/-- The register an access at `off` is to, for the trace. -/
def traceReg (m : Config.RegMap) (bank : BitVec 2) (off : Nat) : Reg :=
  match placeAt m bank off with
  | some (.byte r _) => r
  | some .data => .data
  | none => .bsr

/-- A read at INT_ACK is one of INT_STATUS (R85). -/
def readLabel : Reg → Reg
  | .intAck => .intStatus
  | r => r

end Sys2Proof.Machine
end

