-- ==== Sys2Proof/Machine/Agents.lean ====
section
/-! DEFINITION. The steps of the chip unit's agents and of the PHY's own accord (spec/41_allocator.md R191 to R196,
spec/42_transmit.md R212 to R214, spec/43_receive.md R232 and R233, spec/44_mii.md R266 and R267). A step that is not
enabled leaves the state as it is. -/

namespace Sys2Proof.Machine

/-- Room for a buffer of `pages` pages under number `p`: the number is free and the pages are (R196 a, R232). -/
def roomFor (p : Pkt) (pages : Nat) (s : State) : Bool :=
  !s.chip.allocated p && decide (usedPages s.chip.table + pages ≤ s.params.totalPages)

/-- Success of a pending allocate command (R196): the buffer is handed out, ARR says so, and INT_STATUS.ALLOC is set
unless the success is silent (case d). -/
def allocSuccess (silent : Bool) (p : Pkt) (s : State) : State :=
  match s.chip.pending with
  | some (.alloc n) =>
    if roomFor p (n.toNat + 1) s then
      let c := s.chip.takePkt p (n.toNat + 1) s.env.draw
      (s.setChip { c with
        arr := arrValue s.params false p (Config.freeByte s.env.draw)
        intStatus := if silent then c.intStatus else c.intStatus ||| intAlloc s.params
        pending := none }).bump 1
    else s
  | some .release => s
  | some (.free _) => s
  | some .reset => s
  | none => s

/-- Failure of a pending allocate command, always possible (R196 b): APKT is a draw, and the bit of ARR that is in no field
another one (U14). -/
def allocFailure (s : State) : State :=
  match s.chip.pending with
  | some (.alloc _) =>
    (s.setChip { s.chip with
      arr := arrValue s.params true ((Config.freeByte s.env.draw).setWidth 6) (Config.freeByte (s.env.draw + 1))
      intStatus := s.chip.intStatus ||| intAlloc s.params
      pending := none }).bump 2
  | some .release => s
  | some (.free _) => s
  | some .reset => s
  | none => s

/-- Completion of a pending release, free or reset (R191, R193, R194). A release needs a frame when it is written (R380);
one that a soft reset has drawn beside an empty receive FIFO ends without freeing anything (R191 does not say; DESIGN
CHOICE, log 41). -/
def mmuCompletion (c : Chip) : Chip :=
  match c.pending with
  | some .release =>
    match c.rxFifo with
    | [] => { c with pending := none }
    | p :: rest => { c.freePkt p with rxFifo := rest, pending := none }
  | some (.free p) => { c.freePkt p with pending := none }
  | some .reset =>
    { c with
      table := []
      pktMem := []
      txFifo := []
      rxFifo := []
      inFlight := none
      autoFree := []
      failed := []
      pending := none }
  | some (.alloc _) => c
  | none => c

/-- Completion of the oldest auto-release (R192, R213). -/
def autoFreeCompletion (c : Chip) : Chip :=
  match c.autoFree with
  | [] => c
  | p :: rest => { c.freePkt p with autoFree := rest }

/-- How many bytes of the payload the words of an envelope carry: `length & ~1` (R134). -/
def evenPart (length : Nat) : Nat := length / 2 * 2

/-- The envelope decoder (R211): the payload in a buffer that steps 9 to 12 of R200 have written, none where the control
word is not the one of its length. -/
def decodeEnvelope (p : Config.Params) (byte : Nat → Byte) : Option (List Byte) :=
  let length := (wordOf (byte 2) (byte 3)).toNat - Config.envOverhead
  let words := (List.range (evenPart length)).map (fun i => byte (4 + i))
  let trailer := wordOf (byte (4 + evenPart length)) (byte (5 + evenPart length))
  if length % 2 = 1 then
    if has (highByte trailer) (ctlOdd p) then some (words ++ [lowByte trailer]) else none
  else if trailer = 0#16 then some words
  else none

/-- The envelope that a buffer's count word announces is one (R134, R135): its count covers its own six bytes, and its last
word lies inside the buffer. -/
def envelopeFits (e : Entry) (byte : Nat → Byte) : Bool :=
  let count := (wordOf (byte 2) (byte 3)).toNat
  decide (Config.envOverhead ≤ count ∧ evenPart count ≤ e.capacity)

/-- The frame of packet `q` (R212): the payload of the envelope in its buffer. What is sent from a buffer that holds no
envelope, its count below 6 or beyond the capacity or its control word another, the spec does not say: the model says
nothing of it either (DESIGN CHOICE, log 44). -/
def frameOf (q : Pkt) (s : State) : SentFrame :=
  ⟨q, (findEntry s.chip.table q).bind (fun e =>
    if envelopeFits e (s.chip.bufByte e) then decodeEnvelope s.params (s.chip.bufByte e) else none)⟩

/-- The transmitter takes the head of its FIFO (R212). The frame it sends is what the buffer holds then, not earlier
(R102 c, log 44). -/
def txTake (s : State) : State :=
  if has s.chip.tcr (txen s.params) && has s.chip.config (powerEn s.params) && s.chip.inFlight.isNone then
    match s.chip.txFifo with
    | [] => s
    | q :: rest => (s.setChip { s.chip with txFifo := rest, inFlight := some q }).send (frameOf q s)
  else s

/-- Successful completion (R213). In auto-release mode the buffer goes to the MMU agent and TX is a draw (U11);
otherwise TX is set (R41) and the buffer stays allocated. A packet in flight completes whether or not the transmitter
is still enabled (U12, log 17). -/
def txSuccess (tx : Bool) (p : Config.Params) (c : Chip) : Chip :=
  match c.inFlight with
  | none => c
  | some q =>
    let auto := has c.ctl (autoRelease p)
    { c with
      inFlight := none
      autoFree := if auto then c.autoFree ++ [q] else c.autoFree
      failed := c.failed.filter (fun r => r != q)
      intStatus := c.intStatus ||| flag (intTx p) (tx || !auto) ||| flag (intTxEmpty p) c.txFifo.isEmpty }

/-- Failed completion (R214); whether TX is set and TXEN cleared are draws (U11). The packet's buffer stays allocated
(R376, log 45). -/
def txFailure (tx clearTxen : Bool) (p : Config.Params) (c : Chip) : Chip :=
  match c.inFlight with
  | none => c
  | some q =>
    { c with
      inFlight := none
      failed := c.failed ++ [q]
      intStatus := c.intStatus ||| intTxErr p ||| flag (intTx p) tx
      tcr := if clearTxen then without c.tcr (txen p) else c.tcr }

/-- `n` rounded up to an even number (R232). -/
def roundEven (n : Nat) : Nat := n + n % 2

/-- The raw receive length of a length word (R141). -/
def rawLen (lenWord : Word) : Nat := (lenWord &&& rxLenMask).toNat

/-- Arrival of a frame (R232): a whole buffer is filled, then its number joins the receive FIFO. A frame that does not
fit, or that is not a frame of R232, is dropped (R233). -/
def rxArrive (p : Pkt) (pages : Nat) (status lenWord : Word) (payload : List Byte) (s : State) : State :=
  if has s.chip.rcr (rxen s.params) && has s.chip.config (powerEn s.params) && roomFor p pages s
      && decide (1 ≤ pages ∧ pages ≤ 8 ∧ roundEven (rawLen lenWord) ≤ pages * Config.pageBytes) then
    let c := s.chip.takePkt p pages s.env.draw
    let bytes := wordBytes status ++ wordBytes lenWord ++ payload.take (rawLen lenWord - Config.rxHeaderBytes)
    (s.setChip { c with
      pktMem := c.pktMem.writeBytes (pktAddr p 0) bytes
      rxFifo := c.rxFifo ++ [p] }).bump 1
  else s

/-- One step of an agent. While the soft reset is held no agent of the chip unit takes one (R301); the PHY is a
device of its own. While CONFIG.POWER_EN = 0 the transmitter takes no packet and the receiver no frame (R305); whether
the MMU agent works there is not in the source (R352), and here it does (DESIGN CHOICE, log 39). -/
def agentStep (e : AgentEvent) (s : State) : State :=
  match e with
  | .phyResetDone => if s.phy.resetting then s.setPhy (s.phy.resetDone s.params) else s
  | .phySetAck => if s.phy.aneg then s.setPhy { s.phy with stat := s.phy.stat ||| anegAck s.params } else s
  | .phySetRemFlt => if s.phy.aneg then s.setPhy { s.phy with stat := s.phy.stat ||| remFlt s.params } else s
  | .phyClrRemFlt => if s.phy.aneg then s.setPhy { s.phy with stat := without s.phy.stat (remFlt s.params) } else s
  | .allocOk p => if s.chip.inSoftReset s.params then s else allocSuccess false p s
  | .allocSilent p => if s.chip.inSoftReset s.params then s else allocSuccess true p s
  | .allocFail => if s.chip.inSoftReset s.params then s else allocFailure s
  | .mmuDone => if s.chip.inSoftReset s.params then s else s.setChip (mmuCompletion s.chip)
  | .autoFreeDone => if s.chip.inSoftReset s.params then s else s.setChip (autoFreeCompletion s.chip)
  | .txDequeue => if s.chip.inSoftReset s.params then s else txTake s
  | .txDone tx => if s.chip.inSoftReset s.params then s else s.setChip (txSuccess tx s.params s.chip)
  | .txFail tx clearTxen => if s.chip.inSoftReset s.params then s else s.setChip (txFailure tx clearTxen s.params s.chip)
  | .rxFrame p pages status lenWord payload =>
    if s.chip.inSoftReset s.params then s else rxArrive p pages status lenWord payload s

/-- Agents' steps in order. -/
def agentSteps (es : List AgentEvent) (s : State) : State := es.foldl (fun t e => agentStep e t) s

end Sys2Proof.Machine
end

