-- ==== Sys2Proof/Machine/Ops.lean ====
section
/-! DEFINITION. The engine's primitives: the interrupt context's entry, body and exit (spec/60_exceptions.md R330 to
R336), the gap between two foreground steps (spec/20_memory.md R101), the register accesses and delays (R14, R100), the
end of an operation with or without a condition (R13, R320, R322), and the busy wait (spec/41_allocator.md R183). -/

namespace Sys2Proof.Machine

/-! ## The interrupt context -/

/-- A state inside a handler run, and what the agents do after its accesses. -/
abbrev Handling := State × List (List AgentEvent)

/-- The interrupt context's own sequencer position (R340). -/
def State.irqAt (p : IrqPos) (s : State) : State := s.setIrq { s.irq with pos := p }

/-- The agents' steps after one access of the handler. -/
def handlerGap (x : Handling) : Handling :=
  match x.2 with
  | [] => x
  | es :: rest => (agentSteps es x.1, rest)

/-- A register read by the handler, after which it stands at `n`. -/
def handlerRead (n : IrqPos) (r : Reg) (w : Nat) (x : Handling) : Word × Handling :=
  let v := readReg r x.1
  (v.1, handlerGap ((v.2.note (.read r w (v.1.setWidth 32))).irqAt n, x.2))

/-- A register read whose value the handler keeps in a save slot, in the step of the read itself (R14, R331). -/
def handlerKeep (n : IrqPos) (r : Reg) (w : Nat) (keep : Word → IrqCtx → IrqCtx) (x : Handling) : Handling :=
  let v := readReg r x.1
  handlerGap (((v.2.setIrq (keep v.1 v.2.irq)).note (.read r w (v.1.setWidth 32))).irqAt n, x.2)

/-- A register write by the handler, DATA and MMU_CMD excepted. -/
def handlerWrite (n : IrqPos) (r : Reg) (w : Nat) (v : Word) (x : Handling) : Handling :=
  handlerGap (((setReg r v x.1).note (.write r w (v.setWidth 32))).irqAt n, x.2)

/-- The handler's write to PTR: the value is the one it read, and `dp` is reloaded under the foreground (R333, R374). -/
def handlerWritePtr (n : IrqPos) (v : Word) (x : Handling) : Handling :=
  let s := x.1
  let dp := offsetOf s.params v
  handlerGap
    (((s.setChip { s.chip with ptr := v, dp := dp, dpStale := s.chip.dpStale || s.chip.dp != dp }).note
      (.write .ptr 2 (v.setWidth 32))).irqAt n, x.2)

/-- A delay of the handler (R183, R334). -/
def handlerDelay (n : IrqPos) (t : Nat) (x : Handling) : Handling := handlerGap ((x.1.note (.delay t)).irqAt n, x.2)

/-- A step of the handler that makes no access. -/
def handlerGoto (n : IrqPos) (x : Handling) : Handling := (x.1.irqAt n, x.2)

/-- Where the exit starts: with PNR, or with BSR in the shorter form of R331. -/
def irqExitPos (touch : Bool) : IrqPos := if touch then .restore 1 else .restore 3

/-- The handler saves BSR.BANK, selects PB, and, unless it leaves them alone, saves PNR and PTR (R331). -/
def irqEnter (touch : Bool) (x : Handling) : Handling :=
  let p := x.1.params
  let pb := bankWord p p.regs.pb
  let x := handlerKeep (.save 2) .bsr 2 (fun v q => { q with hBank := bankOf p v }) x
  if touch then
    handlerKeep (.body 1) .ptr 2 (fun v q => { q with hPtr := v })
      (handlerKeep (.save 4) .pnr 1 (fun v q => { q with hPnr := lowByte v }) (handlerWrite (.save 3) .bsr 2 pb x))
  else handlerWrite (.body 1) .bsr 2 pb x

/-- The handler writes PNR and PTR back where it saved them, then BSR.BANK (R333). -/
def irqExit (touch : Bool) (x : Handling) : Handling :=
  let x :=
    if touch then
      handlerWritePtr (.restore 3) x.1.irq.hPtr (handlerWrite (.restore 2) .pnr 1 (x.1.irq.hPnr.setWidth 16) x)
    else x
  handlerWrite .idle .bsr 2 (bankWord x.1.params x.1.irq.hBank) x

/-- The handler's own WAIT_MMU_IDLE (R183, R334), `k` the number of its next poll. A run says what the agents do while
it polls; when BUSY has not fallen by the poll after that, it never does, and the handler hangs there: an error holds the
state (R324, U17, log 46). -/
def handlerWait (exit : IrqPos) : (fuel k : Nat) → Handling → Except State Handling
  | 0, _, x => .error x.1
  | fuel + 1, k, x =>
    let v := handlerRead (.wait k 2) .mmuCmd 2 x
    if has v.1 (busyBit v.2.1.params) then
      handlerWait exit fuel (k + 1) (handlerDelay (.wait (k + 1) 1) v.2.1.params.mmuPollDelay v.2)
    else .ok (handlerGoto exit v.2)

/-- The handler's FREE (R185, R335): of a failed buffer only, never of the foreground's own, and never a command the
chip unit would not take (R334, U9, U10); where one of these holds the command is left out. -/
def handlerFree (exit : IrqPos) (p : Pkt) (x : Handling) : Except State Handling :=
  let x := handlerWrite (.body 8) .pnr 1 ((pktByte x.1.params p).setWidth 16) x
  let s := x.1
  if s.chip.failed.contains p && s.eng.pkt != some p && (mmuGuard .free s.params s.chip).isNone then
    let x := handlerGap
      (((s.setChip (mmuEffect .free s.params s.chip)).note
        (.write .mmuCmd 2 ((encodeMmuCode s.params.codes .free).setWidth 32))).irqAt (.wait 1 1), x.2)
    handlerWait exit (x.2.length + 1) 1 x
  else .ok (handlerGoto exit x)

/-- The handler sets TCR.TXEN again (R335, R381). -/
def handlerReenable (n : IrqPos) (x : Handling) : Handling :=
  let p := x.1.params
  let t := handlerRead (.body 5) .tcr 2 (handlerWrite (.body 4) .bsr 2 (bankWord p p.regs.cb) x)
  handlerWrite n .bsr 2 (bankWord p p.regs.pb) (handlerWrite (.body 6) .tcr 2 (t.1 ||| txen p) t.2)

/-- What a run does behind the acknowledge (R335): TXEN again, and a FREE. -/
def handlerRepair (exit : IrqPos) (h : HandlerRun) (x : Handling) : Except State Handling :=
  match h.freed with
  | none => .ok (if h.reenable then handlerReenable exit x else x)
  | some p => handlerFree exit p (if h.reenable then handlerReenable (.body 7) x else x)

/-- Where a run goes behind the acknowledge. -/
def handlerAckNext (exit : IrqPos) (h : HandlerRun) : IrqPos :=
  if h.reenable then .body 3 else if h.freed.isSome then .body 7 else exit

/-- The acknowledge of TX_ERR (R335). -/
def handlerAck (n : IrqPos) (x : Handling) : Handling :=
  handlerWrite n .intAck 1 ((intTxErr x.1.params).setWidth 16) x

/-- `TxErrBody` (R335). A run that finds no TX_ERR does nothing here (R326), so an error that comes later stays pending
(R336). The spec gives no step of the body: that it acknowledges first, then sets TXEN again, then frees, and that the
form which repairs nothing makes no read, are the model's (DESIGN CHOICE, log 42). -/
def txErrBody (exit : IrqPos) (h : HandlerRun) (x : Handling) : Except State Handling :=
  if h.reenable || h.freed.isSome then
    let v := handlerRead (.body 2) .intStatus 1 x
    if has (lowByte v.1) (intTxErr v.2.1.params) then
      handlerRepair exit h (handlerAck (handlerAckNext exit h) v.2)
    else .ok (handlerGoto exit v.2)
  else if has x.1.chip.intStatus (intTxErr x.1.params) then .ok (handlerAck exit x)
  else .ok (handlerGoto exit x)

/-- The interrupt context may start: the line is asserted, the platform's enable is on, and the foreground is not in a
critical sequence (R330, R332). It does not nest (R336): no handler run holds another. -/
def canInterrupt (s : State) : Bool := s.chip.lineAsserted && s.irq.enabled && !s.irq.hold

/-- PNR and PTR are written in this run, so it saves and restores them (R331). -/
def HandlerRun.touches (h : HandlerRun) : Bool := h.touchPtr || h.freed.isSome

/-- One run of the interrupt context between two foreground steps: entry, body, exit (R330 to R335). None when it may not
start, an error where it hangs. -/
def runHandler (h : HandlerRun) (s : State) : Option (Except State State) :=
  if canInterrupt s then
    match txErrBody (irqExitPos h.touches) h (irqEnter h.touches (s.irqAt (.save 1), h.gaps)) with
    | .error t => some (.error t)
    | .ok x => some (.ok (irqExit h.touches x).1)
  else none

/-! ## Gaps -/

/-- `s` with the machine `t` in which the interrupt context hangs; only the first counts (log 46). -/
def State.noteHang (s t : State) : State :=
  match s.hang with
  | some _ => s
  | none => { s with hang := some ⟨t.chip, t.phy, t.eng, t.irq, t.hostMem, t.env⟩ }

/-- One event of a gap. -/
def eventStep (e : Event) (s : State) : State :=
  match e with
  | .agent a => agentStep a s
  | .irq h =>
    match runHandler h s with
    | none => s
    | some (.ok t) => t
    | some (.error t) => s.noteHang t

/-- The events of a gap in order. -/
def eventSteps (es : List Event) (s : State) : State := es.foldl (fun t e => eventStep e t) s

/-- Between two foreground steps (R101, R328): time passes and the agents and the interrupt context take the steps the
tape says. An empty tape is the run in which they take no step (log 2). -/
def gap (s : State) : State :=
  match s.env.tape with
  | [] => s
  | g :: rest => eventSteps g.events { s with env := { s.env with tape := rest, now := s.env.now + g.dt } }

/-! ## Foreground accesses (R14, R100)

Each takes the position the sequencer has behind it (R60). -/

/-- A register read of `w` bytes. -/
def rd (n : Next) (r : Reg) (w : Nat) (s : State) : Word × State :=
  let v := readReg r s
  (v.1, gap ((v.2.note (.read r w (v.1.setWidth 32))).advance n))

/-- A register read whose value goes into the engine's own state, in the step of the read itself (R14): what happens in the
gap sees it there. -/
def rdKeep (n : Next) (r : Reg) (w : Nat) (keep : Word → Engine → Engine) (s : State) : State :=
  let v := readReg r s
  gap (((v.2.setEng (keep v.1 v.2.eng)).note (.read r w (v.1.setWidth 32))).advance n)

/-- A register write of `w` bytes, DATA and MMU_CMD excepted. -/
def wr (n : Next) (r : Reg) (w : Nat) (v : Word) (s : State) : State :=
  gap (((setReg r v s).note (.write r w (v.setWidth 32))).advance n)

/-- The bank select `x[BSR.BANK] <- b` (R160). -/
def wrBank (n : Next) (b : BitVec 2) (s : State) : State := wr n .bsr 2 (bankWord s.params b) s

/-- A bank select that starts a critical sequence (R332). -/
def wrBankHold (n : Next) (b : BitVec 2) (s : State) : State := wrBank n b (s.setHold true)

/-- What a command write of the foreground leaves, the gap behind it included. -/
def mmuIssue (n : Next) (k : MmuCode) (s : State) : State :=
  gap (((mmuTake k s).note (.write .mmuCmd 2 ((encodeMmuCode s.params.codes k).setWidth 32))).advance n)

/-- A refusal met behind a gap. Where the interrupt context has hung in an earlier gap of the step the foreground never
came here (R324): nothing is refused, and `a` is dropped with the rest of the step (log 46). -/
def State.refuse {α : Type} (e : Refusal) (a : α) (s : State) : Except Refusal α :=
  match s.hang with
  | none => .error e
  | some _ => .ok a

/-- A command written to MMU_CMD, refused where the chip unit does not take it (U9, U10). -/
def wrMmu (n : Next) (k : MmuCode) (s : State) : Except Refusal State :=
  match mmuGuard k s.params s.chip with
  | some e => s.refuse e (s.advance n)
  | none => .ok (mmuIssue n k s)

/-- The MMU_RESET of RESET step 6: it is taken whatever the soft reset left pending (R300, log 15). -/
def wrMmuReset (n : Next) (s : State) : State := mmuIssue n .reset s

/-- A word read of DATA. -/
def rdData (n : Next) (s : State) : Except Refusal (Word × State) :=
  match dataRead 2 s with
  | .error e => s.refuse e (0#16, s.advance n)
  | .ok (v, s') => .ok (lowWord v, gap ((s'.note (.read .data 2 v)).advance n))

/-- A word write of DATA. -/
def wrData (n : Next) (v : Word) (s : State) : Except Refusal State :=
  match dataWrite 2 (v.setWidth 32) s with
  | .error e => s.refuse e (s.advance n)
  | .ok s' => .ok (gap ((s'.note (.write .data 2 (v.setWidth 32))).advance n))

/-- `Delay(t)`: no effect, but the agents may step (R346, R387). -/
def delay (n : Next) (t : Nat) (s : State) : State := gap ((s.note (.delay t)).advance n)

/-! ## The end of an operation -/

/-- The operation is over: the engine is idle, holds no handle, and hands back a condition, a value and a warning (R13,
R60, R63, R75, R122). -/
def State.finishWith (r : OpResult) (s : State) : State :=
  s.setEng { s.eng with pos := .idle, point := [], pkt := none, result := some r }

/-- The end of an operation without a warning. Raising a condition is this with the condition's sentinel as the value
(R320, R322). -/
def State.finish (c : Condition) (v : Int) (s : State) : State := s.finishWith ⟨c, v, false⟩

/-- The operation stands in a wait (log 1). -/
def State.park (p : SeqPos) (s : State) : State := s.setEng { s.eng with pos := p }

/-- Sets the lifecycle state (R307). -/
def State.setLife (l : Life) (s : State) : State := s.setEng { s.eng with life := l }

/-- `raise c` with sentinel `v` (R13, R320, R322): the current operation ends and `c` is its result. It changes neither
the lifecycle state nor any register. -/
def State.raise (c : Condition) (v : Int) (s : State) : State := s.finish c v

/-- What follows an access that can be refused. -/
def andThen {α : Type} (r : Except Refusal α) (k : α → Out) : Out :=
  match r with
  | .error e => .refused e
  | .ok a => k a

/-! ## WAIT_MMU_IDLE (R183) -/

/-- One poll of BUSY (R183 step 1), then either the rest of the operation, or a delay (step 2) and the engine stands at
`p`, to poll again in its next step. BUSY that never falls is an infinite run (R183, R324, U17). -/
def waitPoll (p : SeqPos) (k : State → Out) (s : State) : Out :=
  let v := rd (.to 1 2) .mmuCmd 2 s
  if has v.1 (busyBit s.params) then .next ((delay (.to 1) s.params.mmuPollDelay v.2).park p)
  else k (v.2.advance .ret)

/-- A rule calls WAIT_MMU_IDLE, which comes back to its step `back`. -/
def waitIdle (back : Next) (p : SeqPos) (k : State → Out) (s : State) : Out := waitPoll p k (s.call .waitMmuIdle back)

/-! ## Saving and restoring the current selection (R158) -/

/-- SAVE_CTX: `saved_pnr <- x8[PNR]; saved_ptr <- x16[PTR]`. -/
def saveCtx (n m : Next) (s : State) : State :=
  rdKeep m .ptr 2 (fun v e => { e with savedPtr := v })
    (rdKeep n .pnr 1 (fun v e => { e with savedPnr := lowByte v }) s)

/-- RESTORE_CTX: `x8[PNR] <- saved_pnr; x16[PTR] <- saved_ptr`. -/
def restoreCtx (n m : Next) (s : State) : State :=
  let s := wr n .pnr 1 (s.eng.savedPnr.setWidth 16) s
  wr m .ptr 2 s.eng.savedPtr s

/-- RESTORE_CTX on a failure exit, by RESTORE_ON_FAILURE (R209, D11). -/
def restoreOnFailure (n m : Next) (s : State) : State := if s.params.restoreOnFailure then restoreCtx n m s else s

end Sys2Proof.Machine
end

