-- ==== Sys2Proof/Machine/Bank.lean ====
section
/-! DEFINITION. The register bank operations (spec/40_register_bank.md R160 to R169). -/

namespace Sys2Proof.Machine

/-- The next thing the caller hands over is ALLOCATE, RELEASE or FREE: then a SELECT_BANK PB starts a critical
sequence that ends with that operation's MMU_CMD write (R332 c). -/
def nextIsMmuOp (c : Config.MmuCodes) (inbox : List Input) : Bool :=
  match inbox with
  | .op r _ :: _ =>
    match decode c r with
    | .ok (.allocate _) => true
    | .ok .release => true
    | .ok (.free _) => true
    | .ok _ => false
    | .error _ => false
  | .irqEnable _ :: _ => false
  | .hostWrite _ _ :: _ => false
  | [] => false

/-- SELECT_BANK n (R160): `x[BSR.BANK] <- n`; `n` above 3 is refused (R123). -/
def execSelectBank (n : Byte) (s : State) : Out :=
  if n.toNat < 4 then
    let s := s.begin (.selectBank n)
    let b : BitVec 2 := n.setWidth 2
    .next ((wrBank .ret b (s.setHold (b == s.params.regs.pb && nextIsMmuOp s.params.codes s.inbox))).finish .ok 0)
  else .refused .operandRange

/-- The one access of an operation is over: it is in the trace, and the agents may step (R100, R101). -/
def accessed (a : Access) (s : State) : State := gap ((s.note a).advance .ret)

/-- The register label of an access at `off` (R170). -/
def labelAt (off : Byte) (s : State) : Reg := traceReg s.params.regs s.chip.bank off.toNat

/-- READ_BYTE off (R161). -/
def execReadByte (off : Byte) (s : State) : Out :=
  andThen (winReadByte off.toNat (s.begin (.readByte off))) fun r =>
    .next ((accessed (.read (readLabel (labelAt off s)) 1 (r.1.setWidth 32)) r.2).finish .ok r.1.toNat)

/-- READ_WORD off (R162). -/
def execReadWord (off : Byte) (s : State) : Out :=
  andThen (winReadWord off.toNat (s.begin (.readWord off))) fun r =>
    .next ((accessed (.read (readLabel (labelAt off s)) 2 (r.1.setWidth 32)) r.2).finish .ok r.1.toNat)

/-- READ_LONG off (R163). -/
def execReadLong (off : Byte) (s : State) : Out :=
  andThen (winReadLong off.toNat (s.begin (.readLong off))) fun r =>
    .next ((accessed (.read (readLabel (labelAt off s)) 4 r.1) r.2).finish .ok r.1.toNat)

/-- WRITE_BYTE off, v8 (R164). -/
def execWriteByte (off : Byte) (v : Byte) (s : State) : Out :=
  andThen (winWriteByte off.toNat v (s.begin (.writeByte off v))) fun t =>
    .next ((accessed (.write (labelAt off s) 1 (v.setWidth 32)) t).finish .ok 0)

/-- WRITE_WORD off, v16 (R165). -/
def execWriteWord (off : Byte) (v : Word) (s : State) : Out :=
  andThen (winWriteWord off.toNat v (s.begin (.writeWord off v))) fun t =>
    .next ((accessed (.write (labelAt off s) 2 (v.setWidth 32)) t).finish .ok 0)

/-- WRITE_LONG off, v32 (R166). -/
def execWriteLong (off : Byte) (v : Long) (s : State) : Out :=
  andThen (winWriteLong off.toNat v (s.begin (.writeLong off v))) fun t =>
    .next ((accessed (.write (labelAt off s) 4 v) t).finish .ok 0)

/-- Behind word `k` of a block: the next word, or the end of the operation when none is left (R60). -/
def nextWord (n k : Nat) : Next := if n = 0 then .ret else .to 1 1 (.word (k + 1))

/-- The loop of READ_BLOCK: word `k` of the buffer onward, `n` words still to read, each with its two host bytes behind it
(R14, R93, R167). -/
def readBlockLoop (off : Byte) (buf : Nat) : (n k : Nat) → State → Except Refusal State
  | 0, _, s => .ok s
  | n + 1, k, s =>
    match winReadWord off.toNat s with
    | .error e => s.refuse e s
    | .ok (v, t) =>
      readBlockLoop off buf n (k + 1)
        ((((gap ((t.note (.read (readLabel (labelAt off s)) 2 (v.setWidth 32))).advance (.to 1 2 (.word k)))).hostWrite buf
          (2 * k) (lowByte v)).hostWrite buf (2 * k + 1) (highByte v)).advance (nextWord n k))

/-- READ_BLOCK off, count, buf (R167). -/
def execReadBlock (off : Byte) (count : Word) (s : State) : Out :=
  andThen (readBlockLoop off s.eng.bufRef count.toNat 0 (s.begin (.readBlock off count))) fun t =>
    .next (t.finish .ok 0)

/-- The loop of WRITE_BLOCK (R93, R168). -/
def writeBlockLoop (off : Byte) (buf : Nat) : (n k : Nat) → State → Except Refusal State
  | 0, _, s => .ok s
  | n + 1, k, s =>
    let v := wordOf (s.hostRead buf (2 * k)) (s.hostRead buf (2 * k + 1))
    match winWriteWord off.toNat v s with
    | .error e => s.refuse e s
    | .ok t =>
      writeBlockLoop off buf n (k + 1)
        (gap ((t.note (.write (labelAt off s) 2 (v.setWidth 32))).advance (nextWord n k)))

/-- WRITE_BLOCK off, count, buf (R168). -/
def execWriteBlock (off : Byte) (count : Word) (s : State) : Out :=
  andThen (writeBlockLoop off s.eng.bufRef count.toNat 0 (s.begin (.writeBlock off count))) fun t =>
    .next (t.finish .ok 0)

end Sys2Proof.Machine
end

