-- ==== Sys2Proof/Machine/Allocator.lean ====
section
/-! DEFINITION. The allocator operations (spec/41_allocator.md R180 to R186) and the five MMU commands as operations of
the opcode table (R190 to R195): a command row is the write of its word to MMU_CMD (log 34). -/

namespace Sys2Proof.Machine

/-- One attempt: up to `k` reads of INT_STATUS, the next one spin `j` of attempt `a`, ended by the first that shows ALLOC
(R181 steps 3 to 5). -/
def spinAlloc (a : Nat) : (k j : Nat) → State → Bool × State
  | 0, _, s => (false, s)
  | k + 1, j, s =>
    let v := rd (.to 5 1 (.spin a j)) .intStatus 1 s
    if has (lowByte v.1) (intAlloc s.params) then (true, v.2) else spinAlloc a k (j + 1) v.2

/-- Up to `k` attempts of `spin` reads each, the next one attempt `a` (R181 step 2). -/
def attemptAlloc (spin : Nat) : (k a : Nat) → State → Bool × State
  | 0, _, s => (false, s)
  | k + 1, a, s =>
    let r := spinAlloc a spin 1 s
    if r.1 then (true, r.2) else attemptAlloc spin k (a + 1) r.2

/-- R181 steps 7 to 9: ARR, and the packet number in it unless the command failed. The handle is held from the read on
(R63, R186). -/
def readResult (s : State) : Except AllocCause Pkt × State :=
  let v := readReg .arr s
  let arr := lowByte v.1
  let t := v.2.note (.read .arr 1 (v.1.setWidth 32))
  if has arr (failedBit s.params) then (.error (.failed arr), gap (t.advance (.to 8)))
  else
    (.ok (apktOf s.params arr), gap ((t.setPkt (some (apktOf s.params arr))).advance (.to 8)))

/-- Where the sequencer stands behind the command: at the first spin of the first attempt, at step 6 where there is
none (R181, R60). -/
def allocFirst (p : Config.Params) : Next :=
  if p.allocAttempts = 0 ∨ p.allocSpin = 0 then .to 6 else .to 2 1 (.spin 1 1)

/-- The steps of R181: a packet number or the condition they raise, and the state, the operation over. -/
def allocateSteps (n : BitVec 3) (s : State) : Except Refusal (Except AllocCause Pkt × State) :=
  match wrMmu (allocFirst s.params) (.alloc n) s with
  | .error e => .error e
  | .ok s1 =>
    let a := attemptAlloc s1.params.allocSpin s1.params.allocAttempts 1 s1
    if a.1 then
      let r := readResult a.2
      .ok (r.1, r.2.advance .ret)
    else .ok (.error .exhausted, a.2.advance .ret)

/-- What an operation does that needs the packet bank (R180): refused when another bank is selected (U1). -/
def inPacketBank (s : State) (k : Out) : Out := if s.chip.bank = s.params.regs.pb then k else .refused .wrongBank

/-- ALLOCATE N (R181); `N` above 7 is refused (R123). -/
def execAllocate (n : Byte) (s : State) : Out :=
  if n.toNat < 8 then
    inPacketBank s (andThen (allocateSteps (n.setWidth 3) (s.begin (.allocate n))) fun r =>
      match r with
      | (.ok p, t) => .next (t.finish .ok p.toNat)
      | (.error .exhausted, t) => .next (t.raise .allocationExhausted 0)
      | (.error (.failed arr), t) => .next (t.raise (.allocationFailed arr) 0))
  else .refused .operandRange

/-- What is left of an operation that ends when BUSY has fallen. -/
def finishOk (s : State) : Out := .next (s.finish .ok 0)

/-- RELEASE (R184). -/
def execRelease (s : State) : Out :=
  inPacketBank s (andThen (wrMmu (.to 2) .release (s.begin .release)) fun t =>
    waitIdle (.to 3) .releaseWait finishOk t)

/-- The PNR word of a packet number handed over as a byte: PKT stands where BITMAP puts it (R30). -/
def pnrByte (p : Byte) (s : State) : Word := (p <<< s.params.bits.pkt.val).setWidth 16

/-- FREE p (R185): the number reaches the chip unit through PNR, which is left at `p`. -/
def execFree (p : Byte) (s : State) : Out :=
  inPacketBank s (andThen (wrMmu (.to 3) .free (wr (.to 2) .pnr 1 (pnrByte p s) (s.begin (.free p)))) fun t =>
    waitIdle (.to 4) .freeWait finishOk t)

/-- WAIT_MMU_IDLE (R183). -/
def execWaitMmuIdle (s : State) : Out := inPacketBank s (waitPoll .waitIdle finishOk (s.begin .waitMmuIdle))

/-- One command word written to MMU_CMD with PB selected (R165, R190 to R195). -/
def issueCommand (k : MmuCode) (s : State) : Out :=
  inPacketBank s (andThen (wrMmu .ret k (s.begin k.toInstr)) fun t => .next (t.finish .ok 0))

/-- MMU_ALLOC N (R190). -/
def execMmuAlloc (n : BitVec 3) (s : State) : Out := issueCommand (.alloc n) s

/-- MMU_RESET (R194). -/
def execMmuReset (s : State) : Out := issueCommand .reset s

/-- MMU_RELEASE (R191). -/
def execMmuRelease (s : State) : Out := issueCommand .release s

/-- MMU_FREE (R193). -/
def execMmuFree (s : State) : Out := issueCommand .free s

/-- MMU_ENQUEUE (R195). -/
def execMmuEnqueue (s : State) : Out := issueCommand .enqueue s

end Sys2Proof.Machine
end

