-- ==== Sys2Proof/Machine/Transmit.lean ====
section
/-! DEFINITION. TRANSMIT (spec/42_transmit.md R200 to R210): the steps carry the numbers of R200. -/

namespace Sys2Proof.Machine

/-- Step 1: the padded payload length (R136). -/
def paddedLength (len : Nat) : Nat := max len Config.minFrame

/-- Step 2: the page code (R138), on numbers that do not wrap (R201). -/
def pageCode (length : Nat) : Nat := (evenPart length + Config.envOverhead) / Config.pageBytes

/-- `Byte(i)` of R200: the caller's byte, or a draw behind the caller's payload (R136). -/
def txByte (len i : Nat) (s : State) : Byte × State :=
  if i < len then (s.hostRead s.eng.bufRef i, s) else (Config.freeByte s.env.draw, s.bump 1)

/-- Step 11 from word `k` on, `n` words still to write: bytes in ascending order, each once (R204). Behind the last word the
sequencer is at step 12 (R60). -/
def sendWords (len : Nat) : (n k : Nat) → State → Except Refusal State
  | 0, _, s => .ok s
  | n + 1, k, s =>
    let lo := txByte len (2 * k) s
    let hi := txByte len (2 * k + 1) lo.2
    match wrData (if n = 0 then .to 12 else .to 11 1 (.word (k + 1))) (wordOf lo.1 hi.1) hi.2 with
    | .error e => .error e
    | .ok t => sendWords len n (k + 1) t

/-- Step 12: the trailing control word (R137, R205). -/
def sendTrailer (len length : Nat) (s : State) : Except Refusal State :=
  if length % 2 = 0 then wrData (.to 13) 0#16 s
  else
    let b := txByte len (length - 1) s
    wrData (.to 13) (wordOf b.1 (ctlOdd s.params)) b.2

/-- Steps 7 to 12: the envelope into buffer `p` (R134, R203 to R205). -/
def packFrame (len length : Nat) (p : Pkt) (s : State) : Except Refusal State :=
  let s := wr (.to 9) .ptr 2 (ptrTxWrite s.params) (wr (.to 8) .pnr 1 ((pktByte s.params p).setWidth 16) s)
  match wrData (.to 10) 0#16 s with
  | .error e => .error e
  | .ok s =>
    match wrData (.to 11 1 (.word 0)) (BitVec.ofNat 16 (length + Config.envOverhead)) s with
    | .error e => .error e
    | .ok s =>
      match sendWords len (length / 2) 0 s with
      | .error e => .error e
      | .ok s => sendTrailer len length s

/-- Step 13: `x8[INT_MASK] <- x8[INT_MASK] | TX | TX_EMPTY` (R206). -/
def enableTxInts (s : State) : State :=
  let m := rd (.to 13 2) .intMask 1 s
  wr (.to 14) .intMask 1 (m.1 ||| (intTx s.params ||| intTxEmpty s.params).setWidth 16) m.2

/-- Steps 19 and 20, behind the wait of step 18 (R208). -/
def txDone (length : Nat) (s : State) : Out := .next ((restoreCtx (.to 19 2) (.to 20) s).finish .ok length)

/-- Step 16 behind its wait (R209). -/
def txTimedOut (s : State) : Out := .next ((restoreOnFailure (.to 16 3) (.to 16 4) s).raise .transmitTimeout 0)

/-- One round of the loop of step 15 and what follows it. The flag is tested before the clock (R207). When neither ends
the loop the engine stands at the poll and makes the next round in its next step (log 1). -/
def txPollRound (length : Nat) (s : State) : Out :=
  let v := rd (.to 15 2) .intStatus 1 s
  if has (lowByte v.1) (intTxEmpty s.params) then
    waitIdle (.to 19) (.txDoneWait length) (txDone length)
      (wr (.to 18) .intAck 1 ((intTxEmpty s.params).setWidth 16) v.2)
  else if s.params.txTimeout ≤ v.2.env.now - v.2.eng.t0 then
    waitIdle (.to 16 2) .txTimeoutWait txTimedOut v.2
  else .next ((v.2.advance (.to 15)).park (.txPoll length))

/-- Steps 13 to 15; the handle is dead from step 14 on (R186, R210). -/
def sendPacked (length : Nat) (s : State) : Out :=
  andThen (wrMmu (.to 15) .enqueue (enableTxInts s)) fun t =>
    txPollRound length (t.setEng { t.eng with t0 := t.env.now })

/-- Steps 4 to 6: PB is selected, the selection saved, a buffer asked for (R202). -/
def claimBuffer (code : Nat) (s : State) : Except Refusal (Except AllocCause Pkt × State) :=
  allocateSteps (BitVec.ofNat 3 code)
    ((saveCtx (.to 5 2) (.to 6) (wrBankHold (.to 5) s.params.regs.pb s)).call (.allocate (BitVec.ofNat 8 code))
      (.to 6 2))

/-- TRANSMIT len, buf (R200). -/
def execTransmit (len : Word) (s : State) : Out :=
  let s := s.begin (.transmit len)
  let length := paddedLength len.toNat
  let code := pageCode length
  if Config.maxPageCode < code then .next (s.raise .frameTooLarge 0)
  else
    andThen (claimBuffer code s) fun r =>
      match r with
      | (.error cause, t) =>
        .next ((restoreOnFailure (.to 6 3) (.to 6 4) t).raise (.transmitAllocationFailed cause) 0)
      | (.ok p, t) => andThen (packFrame len.toNat length p t) fun u => sendPacked length u

end Sys2Proof.Machine
end

