-- ==== Sys2Proof/Machine/Receive.lean ====
section
/-! DEFINITION. RECEIVE (spec/43_receive.md R220 to R229): the steps carry the numbers of R220. -/

namespace Sys2Proof.Machine

/-- Step 10 from word `k` on, `n` words still to read (R224): the read of DATA, then its two host bytes (R14). Behind the last
word the sequencer is at step 11 (R60). -/
def copyWords (sink : Nat) : (n k : Nat) → State → Except Refusal State
  | 0, _, s => .ok s
  | n + 1, k, s =>
    match rdData (.to 10 2 (.word k)) s with
    | .error e => .error e
    | .ok (v, t) =>
      copyWords sink n (k + 1) (((t.hostWrite sink (2 * k) (lowByte v)).hostWrite sink (2 * k + 1) (highByte v)).advance
        (if n = 0 then .to 11 else .to 10 1 (.word (k + 1))))

/-- Steps 10 and 11: `n` payload bytes into the sink, the odd one from a whole-word read whose upper half is dropped
(R224, R225). -/
def copyPayload (sink n : Nat) (s : State) : Except Refusal State :=
  match copyWords sink (n / 2) 0 s with
  | .error e => .error e
  | .ok t =>
    if n % 2 = 1 then
      match rdData (.to 11 2) t with
      | .error e => .error e
      | .ok (v, u) => .ok ((u.hostWrite sink (n - 1) (lowByte v)).advance (.to 12))
    else .ok t

/-- Steps 17 to 19, behind the wait of step 16 (R226, R227): restore, then deliver or report the discarded frame. -/
def rxFinish (o : RxOutcome) (s : State) : Out :=
  let t := restoreCtx (.to 17 2) (.to 18) s
  match o with
  | .delivered n => .next ((t.note (.deliver t.eng.bufRef n)).finish .ok n)
  | .discarded status => .next (t.raise (.receiveError status) 0)

/-- Steps 15 and 16, behind the wait of step 14 (R226). -/
def rxRelease (o : RxOutcome) (s : State) : Out :=
  andThen (wrMmu (.to 16) .release s) fun t => waitIdle (.to 17) (.rxReleaseWait o) (rxFinish o) t

/-- The fault of U7 (R229). Where the interrupt context has hung in an earlier gap of the step the foreground never came
here (R324): there is no fault, and what is answered is dropped with the rest of the step (log 46). -/
def lengthFault (s : State) : Out :=
  match s.hang with
  | none => .fault .rxLengthBelowHeader
  | some _ => .next (s.finish .ok 0)

/-- Steps 8 to 14 behind the two header reads. A raw length below 4 in a frame without error flags is the fault of U7,
before the release (R229). -/
def rxBody (status lenWord : Word) (s : State) : Out :=
  if has status (rxErrorMask s.params) then
    waitIdle (.to 15) (.rxWait (.discarded status)) (rxRelease (.discarded status)) s
  else if rawLen lenWord < Config.rxHeaderBytes then lengthFault s
  else
    let n := rawLen lenWord - Config.rxHeaderBytes
    andThen (copyPayload s.eng.bufRef n s) fun t =>
      waitIdle (.to 15) (.rxWait (.delivered n)) (rxRelease (.delivered n)) t

/-- Steps 5 to 7: the pointer word and the two header words (R222). -/
def rxHeader (s : State) : Out :=
  andThen (rdData (.to 7) (wr (.to 6) .ptr 2 (ptrRxRead s.params) s)) fun a =>
    andThen (rdData (.to 8) a.2) fun b => rxBody a.1 b.1 b.2

/-- RECEIVE sink (R220); an empty receive FIFO is a poll-miss (R221). -/
def execReceive (s : State) : Out :=
  let s := s.begin .receive
  let f := rd (.to 4) .fifo 2 (saveCtx (.to 2 2) (.to 3) (wrBank (.to 2) s.params.regs.pb s))
  if has f.1 (rempty s.params) then .next (f.2.finish .ok 0) else rxHeader f.2

end Sys2Proof.Machine
end

