-- ==== Sys2Proof/Machine/Mii.lean ====
section
/-! DEFINITION. The MII executor and the operations on it (spec/44_mii.md R243 to R256), the two frame rows of the
opcode table (spec/30_encoding.md R146, R147), and PHY_CONFIGURE (spec/45_phy_configure.md R280 to R288). -/

namespace Sys2Proof.Machine

/-- The MII Bit Sequence before it runs: every `in` flag is 0 (R145, R241, R242). -/
def toSequence (c : List Drive) : List Cycle := c.map (fun d => ⟨d.oe, d.dat, false⟩)

/-- The MGMT word of a cycle with the clock low (R243 step 4a). -/
def cycleWord (p : Config.Params) (base : Word) (c : Cycle) : Word :=
  base ||| flag (mdoe p) c.oe ||| flag (mdo p) c.dat

/-- Line `line` of R243, in the step that runs the sequence (R250, R251 step 2). -/
def runLine (line : Nat) : Next := .to 2 1 (.run line)

/-- Line 4a to 4f of R243 as 1 to 6, in cycle `i` (R60). -/
def inCycle (i : Nat) (phase : ClockPhase) (line : Nat) : Next := .to 2 1 (.cycle i phase line)

/-- `seq[i].in <- b` (R243 step 4f): no other flag of the sequence is written (R105). -/
def sample (i : Nat) (b : Bool) (q : List Cycle) : List Cycle := q.modify i (fun c => { c with input := b })

/-- One cycle, number `i`: clock low, hold, clock high, hold, sample (R243 steps 4a to 4f, R244, R245). The sample is in the
sequence when the read has been made (R14, R105). -/
def runCycle (next : Next) (base : Word) (i : Nat) (c : Cycle) (s : State) : State :=
  let w := cycleWord s.params base c
  let s := delay (inCycle i .low 4) Config.miiHalfPeriod (wr (inCycle i .low 3) .mgmt 2 w s)
  let s := delay (inCycle i .high 6) Config.miiHalfPeriod (wr (inCycle i .high 5) .mgmt 2 (w ||| mclk s.params) s)
  rdKeep next .mgmt 2 (fun v e => { e with seqBuf := sample i (has v (mdi s.params)) e.seqBuf }) s

/-- Where the executor goes behind a cycle: to the next one, or to line 5. -/
def afterCycle (i : Nat) (cs : List Cycle) : Next := if cs.isEmpty then runLine 5 else inCycle (i + 1) .low 1

/-- The cycles in order, the first of them number `i` (R243 step 4). Their `oe` and `do` are those the sequence was built
with, since nothing else writes them (R105). -/
def runCycles (base : Word) : (i : Nat) → List Cycle → State → State
  | _, [], s => s
  | i, c :: cs, s => runCycles base (i + 1) cs (runCycle (afterCycle i cs) base i c s)

/-- The management bits of MGMT (R37, R243 step 3). -/
def mgmtBits (p : Config.Params) : Word := mdoe p ||| mclk p ||| mdi p ||| mdo p

/-- `Run(seq)` on the MII Bit Sequence of the state (R243): the bank is saved, the cycles run over the base value, the
pins are left idle, the bank is restored (R246 to R248). Then step 3 of the calling rule stands. -/
def runSequence (s : State) : State :=
  let p := s.params
  let s := rdKeep (runLine 2) .bsr 2 (fun v e => { e with savedBank := bankOf p v }) s
  let m := rd (inCycle 0 .low 1) .mgmt 2 (wrBank (runLine 3) p.regs.mb s)
  let base := without m.1 (mgmtBits p)
  let s := wr (runLine 6) .mgmt 2 base (runCycles base 0 m.2.eng.seqBuf m.2)
  wrBank (.to 3) s.eng.savedBank s

/-- Builds the sequence and runs it (R250, R251 steps 1 and 2). -/
def runFrame (c : List Drive) (s : State) : State :=
  runSequence ((s.setEng { s.eng with seqBuf := toSequence c }).advance (runLine 1))

/-- The result of a read: the inputs of cycles 47 to 62, most significant first (R148, R252). -/
def decodeInput (q : List Cycle) : Word := fromMsb 16 (fun k => (q.getD (47 + k) ⟨false, false, false⟩).input)

/-- The sequence is discarded (R62). -/
def discardSequence (s : State) : State := s.setEng { s.eng with seqBuf := [] }

/-- A register read at PHY address `phy`: the decoded value and the state, the operation over (R250). -/
def miiReadAt (phy reg : BitVec 5) (s : State) : Word × State :=
  let t := runFrame (buildRead phy reg) s
  (decodeInput t.eng.seqBuf, (discardSequence t).advance .ret)

/-- A register write at PHY address `phy`, the operation over (R251). -/
def miiWriteAt (phy reg : BitVec 5) (v : Word) (s : State) : State :=
  (discardSequence (runFrame (buildWrite phy reg v) s)).advance .ret

/-- A rule calls MII_READ with the parameter PHY_ADDR and comes back to its step `back` (R250). -/
def miiReadReg (back : Next) (reg : BitVec 5) (s : State) : Word × State :=
  miiReadAt s.params.phyAddr reg (s.call (.miiRead (reg.setWidth 8)) back)

/-- A rule calls MII_WRITE with the parameter PHY_ADDR and comes back to its step `back` (R251). -/
def miiWriteReg (back : Next) (reg : BitVec 5) (v : Word) (s : State) : State :=
  miiWriteAt s.params.phyAddr reg v (s.call (.miiWrite (reg.setWidth 8) v) back)

/-- MII_READ reg (R250); `reg` above 31 is refused (R123). -/
def execMiiRead (reg : Byte) (s : State) : Out :=
  if reg.toNat < 32 then
    let r := miiReadAt s.params.phyAddr (reg.setWidth 5) (s.begin (.miiRead reg))
    .next (r.2.finish .ok r.1.toNat)
  else .refused .operandRange

/-- MII_WRITE reg, value (R251); `reg` above 31 is refused (R123). -/
def execMiiWrite (reg : Byte) (v : Word) (s : State) : Out :=
  if reg.toNat < 32 then
    .next ((miiWriteAt s.params.phyAddr (reg.setWidth 5) v (s.begin (.miiWrite reg v))).finish .ok 0)
  else .refused .operandRange

/-- MII_READ_FRAME: the executor runs the frame of R146 and decodes its input field (R243, R252, log 34). -/
def execMiiReadFrame (phy reg : BitVec 5) (s : State) : Out :=
  let r := miiReadAt phy reg (s.begin (.miiReadFrame phy reg))
  .next (r.2.finish .ok r.1.toNat)

/-- MII_WRITE_FRAME: the executor runs the frame of R147 (R243, log 34). -/
def execMiiWriteFrame (phy reg : BitVec 5) (v : Word) (s : State) : Out :=
  .next ((miiWriteAt phy reg v (s.begin (.miiWriteFrame phy reg v))).finish .ok 0)

/-! ## PHY_CONFIGURE (R280): the parts of its steps are their letters -/

/-- Steps 2 and 3: up to `k` polls of PHY_CTRL.RESET, the next one poll `i`, each failed one followed by a delay
(R281), the last one by step 3. -/
def pollPhyReset : (k i : Nat) → State → Bool × State
  | 0, _, s => (false, s)
  | k + 1, i, s =>
    let c := miiReadReg (.to 2 2 (.poll i)) s.params.phyMap.ctrl s
    if has c.1 (phyReset s.params) then
      pollPhyReset k (i + 1) (delay (if k = 0 then .to 3 else .to 2 1 (.poll (i + 1))) Config.phyPollInterval c.2)
    else (true, c.2)

/-- Steps 9 and 10: up to `k` polls of PHY_STAT, the next one poll `i`; the acknowledge is tested first, a remote fault
restarts (R286). -/
def pollPhyAneg : (k i : Nat) → State → Bool × State
  | 0, _, s => (false, s)
  | k + 1, i, s =>
    let v := miiReadReg (.to 9 2 (.poll i)) s.params.phyMap.stat s
    if has v.1 (anegAck s.params) then (true, v.2)
    else
      let t :=
        if has v.1 (remFlt s.params) then
          miiWriteReg (.to 9 4 (.poll i)) s.params.phyMap.ctrl (restartWord s.params) v.2
        else v.2
      pollPhyAneg k (i + 1) (delay (if k = 0 then .to 10 else .to 9 1 (.poll (i + 1))) Config.phyPollInterval t)

/-- Steps 4 to 8: mask the PHY events, advertise the capabilities, restart the negotiation (R283 to R285). -/
def phyAdvertise (s : State) : State :=
  let p := s.params
  let c := miiReadReg (.to 6) p.phyMap.stat (miiWriteReg (.to 5) p.phyMap.mask p.phyIntMask s)
  let ad := advertise p c.1
  let s := c.2.setEng { c.2.eng with capsAd := some (c.1, ad) }
  let s := miiWriteReg (.to 8) p.phyMap.ad ad s
  let s := s.setEng { s.eng with capsAd := none }
  miiWriteReg (.to 9 1 (.poll 1)) p.phyMap.ctrl (restartWord p) s

/-- PHY_CONFIGURE: its condition and the state, the operation over (R280 to R287). -/
def phyConfigureRun (s : State) : Condition × State :=
  let p := s.params
  let r := pollPhyReset Config.phyResetPolls 1 (miiWriteReg (.to 2 1 (.poll 1)) p.phyMap.ctrl (phyReset p) s)
  if r.1 then
    let a := pollPhyAneg Config.phyAnegPolls 1 (phyAdvertise r.2)
    (if a.1 then .ok else .phyAutonegTimeout, a.2.advance .ret)
  else (.phyResetTimeout, r.2.advance .ret)

/-- The arrow into Configured (R307): PHY_CONFIGURE takes it from Reset, whatever its condition (log 28). -/
def markConfigured (s : State) : State := if s.eng.life = .reset then s.setLife .configured else s

/-- PHY_CONFIGURE (R280). -/
def execPhyConfigure (s : State) : Out :=
  let r := phyConfigureRun (s.begin .phyConfigure)
  .next ((markConfigured r.2).finish r.1 0)

end Sys2Proof.Machine
end

