-- ==== Sys2Proof/Machine/Lifecycle.lean ====
section
/-! DEFINITION. The lifecycle operations (spec/46_lifecycle.md R300 to R311): the steps carry the numbers of the
rules. -/

namespace Sys2Proof.Machine

/-- `x16[r] <- x16[r] | m`, a read and a later write (R381). -/
def setBits (n m : Next) (r : Reg) (bits : Word) (s : State) : State :=
  let v := rd n r 2 s
  wr m r 2 (v.1 ||| bits) v.2

/-- `x16[r] <- x16[r] & ~m`, a read and a later write (R381). -/
def clearBits (n m : Next) (r : Reg) (bits : Word) (s : State) : State :=
  let v := rd n r 2 s
  wr m r 2 (without v.1 bits) v.2

/-! ## RESET (R300) -/

/-- Steps 1 to 3: soft reset, default configuration, and power-enable if the parameter asks for it (R301, R302). -/
def resetConfig (s : State) : State :=
  let p := s.params
  let s := wr (.to 2) .rcr 2 (softRst p) (wrBank (.to 1 2) p.regs.cb s)
  let s := wr (.to 3) .config 2 p.configDefault (wrBank (.to 2 2) p.regs.gb s)
  if p.usePower then setBits (.to 3 2) (.to 4) .config (powerEn p) s else s

/-- Steps 4 and 5: the control registers cleared, auto-release engaged. -/
def resetControl (s : State) : State :=
  let p := s.params
  let s := wr (.to 5) .tcr 2 0#16 (wr (.to 4 3) .rcr 2 0#16 (wrBank (.to 4 2) p.regs.cb s))
  setBits (.to 5 3) (.to 6) .ctl (autoRelease p) (wrBank (.to 5 2) p.regs.gb s)

/-- Steps 1 to 6 up to the MMU_RESET write; the select of PB starts a critical sequence (R332 b). -/
def resetHead (s : State) : State :=
  wrMmuReset (.to 6 3) (wrBankHold (.to 6 2) s.params.regs.pb (resetControl (resetConfig s)))

/-- Step 7, behind the wait of step 6, and the arrow into Reset (R307). -/
def resetTail (s : State) : State := (wr .ret .intMask 1 0#16 s).setLife .reset

/-- RESET behind its wait. -/
def resetDone (s : State) : Out := .next ((resetTail s).finish .ok 0)

/-- RESET (R300). -/
def execReset (s : State) : Out := waitIdle (.to 7) .resetWait resetDone (resetHead (s.begin .reset))

/-! ## ENABLE, SHUTDOWN, PROBE -/

/-- The accesses of ENABLE and the arrow into Enabled (R303, R307). -/
def enableRun (s : State) : State :=
  let p := s.params
  let s := wrBank (.to 1 2) p.regs.cb s
  let s := wr (.to 1 3) .tcr 2 (tcrDefault p) s
  let s := wr (.to 2) .rcr 2 (rcrDefault p) s
  let s := wrBank (.to 2 2) p.regs.pb s
  (wr .ret .intMask 1 (p.driverIntSet.setWidth 16) s).setLife .enabled

/-- ENABLE (R303). -/
def execEnable (s : State) : Out := .next ((enableRun (s.begin .enable)).finish .ok 0)

/-- The accesses of SHUTDOWN and the arrow into Disabled or PowerDown (R304, R307). -/
def shutdownRun (s : State) : State :=
  let p := s.params
  let s := wr (.to 2) .intMask 1 0#16 (wrBank (.to 1 2) p.regs.pb s)
  let s := clearBits (.to 2 3) (.to 2 4) .tcr (txen p) (wrBank (.to 2 2) p.regs.cb s)
  let s := clearBits (.to 2 5) (.to 3) .rcr (rxen p) s
  if p.usePower then
    (clearBits (.to 3 3) .ret .config (powerEn p) (wrBank (.to 3 2) p.regs.gb s)).setLife .powerDown
  else (s.advance .ret).setLife .disabled

/-- SHUTDOWN (R304). -/
def execShutdown (s : State) : Out := .next ((shutdownRun (s.begin .shutdown)).finish .ok 0)

/-- The bank of SIG is selected where REGMAP gives it one (R308 "bank select as REGMAP says for SIG"). -/
def selectSig (s : State) : State :=
  match s.params.regs.sigBank with
  | some b => wrBank (.to 1 2) b s
  | none => s

/-- The accesses of PROBE, the operation over: the signature, read in one access as wide as REGMAP makes SIG (R308). -/
def probeRun (s : State) : Long × State :=
  let t := selectSig s
  let v := t.chip.sigValue t.params
  (v, (gap ((t.note (.read (.sig 0) t.params.regs.sigWidth.bytes v)).advance (.to 2))).advance .ret)

/-- PROBE (R308). -/
def execProbe (s : State) : Out :=
  let v := probeRun (s.begin .probe)
  if v.1 = v.2.params.chipSignature then .next (v.2.finish .ok 0)
  else .next (v.2.raise (.hardwareNotDetected v.1) 0)

/-! ## MAC address selection (R309) and OPEN (R310), CLOSE (R311) -/

/-- Present and valid. -/
def validMac (valid : Mac → Bool) (m : Option Mac) : Option Mac := m.filter valid

/-- The address selected, with the warning that a stored value differs from the on-chip one; none is
MacAddressMissing, raised only when there is no fallback (R309, C4 of spec/90_conflicts.md). -/
def selectMac (valid : Mac → Bool) (override stored : Option Mac) (chip : Mac) (fallback : Option Mac) :
    Option (Mac × Bool) :=
  match validMac valid override with
  | some m => some (m, false)
  | none =>
    match validMac valid stored with
    | some m => some (m, m != chip)
    | none => if valid chip then some (chip, false) else fallback.map (fun m => (m, false))

/-- `x8[MACADDR + i] <- m[i]` for `i` in 0 to 5 (R310 step 5). -/
def writeMac (m : Mac) (s : State) : State :=
  (List.range 6).foldl (fun t i =>
    wr (if i = 5 then .to 6 else .to 5 (i + 3)) (.mac i) 1 ((macByte m i).setWidth 16) t) s

/-- OPEN steps 3 to 7, behind its RESET. The two PHY timeouts do not stop it (R287); a missing MAC address does. -/
def openRest (s : State) : Out :=
  let s := markConfigured (phyConfigureRun (s.call .phyConfigure (.to 4))).2
  match selectMac Config.macValid s.params.macOverride s.params.macStored s.chip.mac s.params.macFallback with
  | none => .next (s.raise .macAddressMissing (-1))
  | some m =>
    let s := writeMac m.1 (wrBank (.to 5 2) s.params.regs.macBank s)
    .next ((enableRun (s.call .enable (.to 7))).finishWith ⟨.ok, 0, m.2⟩)

/-- OPEN behind the wait of its RESET. -/
def openAfterReset (s : State) : Out := openRest (resetTail s)

/-- OPEN (R310). -/
def execOpen (s : State) : Out :=
  let v := probeRun ((s.begin .openOp).call .probe (.to 2))
  if v.1 = v.2.params.chipSignature then
    waitIdle (.to 7) .openWait openAfterReset (resetHead (v.2.call .reset (.to 3)))
  else .next (v.2.raise (.hardwareNotDetected v.1) (-1))

/-- CLOSE (R311): SHUTDOWN, then 0, always. -/
def execClose (s : State) : Out :=
  .next ((shutdownRun ((s.begin .closeOp).call .shutdown (.to 2))).finish .ok 0)

end Sys2Proof.Machine
end

