-- ==== Sys2Proof/Machine/Resume.lean ====
section
/-! DEFINITION. How an operation goes on that stands in one of the engine's two unbounded loops (spec/10_state.md R60,
spec/41_allocator.md R183, spec/42_transmit.md R207): one more round of the loop, with the rest of the operation behind
it. -/

namespace Sys2Proof.Machine

/-- One more poll of a handler that hangs, with its delay (R183, R324, U17). Its run holds no step of the agents any
more, so BUSY stays and nothing else changes (log 46). -/
def hangRound (s : State) : State :=
  let v := readReg .mmuCmd s
  (v.2.note (.read .mmuCmd 2 (v.1.setWidth 32))).note (.delay s.params.mmuPollDelay)

/-- One more round of the loop the engine stands in; idle is left as it is. -/
def resume (s : State) : Out :=
  match s.eng.pos with
  | .idle => .next s
  | .waitIdle => waitPoll .waitIdle finishOk s
  | .releaseWait => waitPoll .releaseWait finishOk s
  | .freeWait => waitPoll .freeWait finishOk s
  | .txPoll length => txPollRound length s
  | .txTimeoutWait => waitPoll .txTimeoutWait txTimedOut s
  | .txDoneWait length => waitPoll (.txDoneWait length) (txDone length) s
  | .rxWait o => waitPoll (.rxWait o) (rxRelease o) s
  | .rxReleaseWait o => waitPoll (.rxReleaseWait o) (rxFinish o) s
  | .resetWait => waitPoll .resetWait resetDone s
  | .openWait => waitPoll .openWait openAfterReset s
  | .irqHang => .next (hangRound s)

/-- Where the interrupt context has hung, that is where the machine stands, and the foreground does not go on (R324, U17,
log 46). -/
def thaw (h : Hang) (s : State) : State :=
  { s with
    chip := h.chip
    phy := h.phy
    eng := { h.eng with pos := .irqHang, result := none }
    irq := h.irq
    hostMem := h.hostMem
    env := h.env
    hang := none }

/-- The state a step has come to, or the one in which the interrupt context hangs. -/
def settled (t : State) : State :=
  match t.hang with
  | none => t
  | some h => thaw h t

/-- What a step answers. -/
def settle (o : Out) : Out :=
  match o with
  | .next t => .next (settled t)
  | .fault f => .fault f
  | .refused r => .refused r

/-- What a step answers that has come to `u` and would answer `o`: where the interrupt context has hung already, the
foreground does not start (R324, log 46). -/
def unlessHung (u : State) (o : Out) : Out := settle (if u.hang.isSome then .next u else o)

/-- The engine is idle and nothing is handed over: time passes and the agents step (R362, R101). -/
def idleStep (s : State) : State := gap s

/-- The engine takes the next operation from the inbox: its buffer reference is noted and no result stands (R120). -/
def takeRequest (buf : Nat) (rest : List Input) (s : State) : State :=
  { s with inbox := rest, eng := { s.eng with bufRef := buf, result := none } }

/-- An operation that has been taken stands before its first step, where the agents and the interrupt context may step
already (R101, R328). -/
def startOperation (i : Instr) (buf : Nat) (rest : List Input) (s : State) : State :=
  gap ((takeRequest buf rest s).begin i)

/-- The platform switches its interrupt enable (R327). -/
def takeIrqEnable (on : Bool) (rest : List Input) (s : State) : State :=
  { s with inbox := rest, irq := { s.irq with enabled := on } }

/-- The caller fills a host buffer (R70 (4)). -/
def takeHostWrite (address : Nat) (bytes : List Byte) (rest : List Input) (s : State) : State :=
  { s with inbox := rest, hostMem := s.hostMem.writeBytes address bytes }

end Sys2Proof.Machine
end

