-- ==== Sys2Proof/Machine/Dispatch.lean ====
section
/-! DEFINITION. One arm per constructor of `Instr`: each calls the meaning of its instruction. -/

namespace Sys2Proof.Machine

open Sys2Proof

def exec (i : Instr) (s : State) : Host.Outcome State Fault Refusal :=
  match i with
  -- register bank (spec/40_register_bank.md)
  | .selectBank n => Sys2Proof.Machine.execSelectBank n s
  | .readByte off => Sys2Proof.Machine.execReadByte off s
  | .readWord off => Sys2Proof.Machine.execReadWord off s
  | .readLong off => Sys2Proof.Machine.execReadLong off s
  | .writeByte off v => Sys2Proof.Machine.execWriteByte off v s
  | .writeWord off v => Sys2Proof.Machine.execWriteWord off v s
  | .writeLong off v => Sys2Proof.Machine.execWriteLong off v s
  | .readBlock off count => Sys2Proof.Machine.execReadBlock off count s
  | .writeBlock off count => Sys2Proof.Machine.execWriteBlock off count s
  -- allocator (spec/41_allocator.md)
  | .allocate n => Sys2Proof.Machine.execAllocate n s
  | .release => Sys2Proof.Machine.execRelease s
  | .free p => Sys2Proof.Machine.execFree p s
  | .waitMmuIdle => Sys2Proof.Machine.execWaitMmuIdle s
  -- transmit and receive (spec/42_transmit.md, spec/43_receive.md)
  | .transmit len => Sys2Proof.Machine.execTransmit len s
  | .receive => Sys2Proof.Machine.execReceive s
  -- MII and PHY (spec/44_mii.md, spec/45_phy_configure.md)
  | .miiRead reg => Sys2Proof.Machine.execMiiRead reg s
  | .miiWrite reg v => Sys2Proof.Machine.execMiiWrite reg v s
  | .phyConfigure => Sys2Proof.Machine.execPhyConfigure s
  -- lifecycle (spec/46_lifecycle.md)
  | .reset => Sys2Proof.Machine.execReset s
  | .enable => Sys2Proof.Machine.execEnable s
  | .shutdown => Sys2Proof.Machine.execShutdown s
  | .probe => Sys2Proof.Machine.execProbe s
  | .openOp => Sys2Proof.Machine.execOpen s
  | .closeOp => Sys2Proof.Machine.execClose s
  -- MMU command words (spec/41_allocator.md R190 to R195)
  | .mmuAlloc n => Sys2Proof.Machine.execMmuAlloc n s
  | .mmuReset => Sys2Proof.Machine.execMmuReset s
  | .mmuRelease => Sys2Proof.Machine.execMmuRelease s
  | .mmuFree => Sys2Proof.Machine.execMmuFree s
  | .mmuEnqueue => Sys2Proof.Machine.execMmuEnqueue s
  -- management frames (spec/30_encoding.md R146, R147)
  | .miiReadFrame phy reg => Sys2Proof.Machine.execMiiReadFrame phy reg s
  | .miiWriteFrame phy reg v => Sys2Proof.Machine.execMiiWriteFrame phy reg v s

end Sys2Proof.Machine
end

