-- ==== Sys2Proof/Machine/Step.lean ====
section
/-! DEFINITION. One step of the machine (spec/30_encoding.md R120, spec/10_state.md R60, spec/70_reset_and_hazards.md
R362, R382): an operation that stands in a wait goes on; an idle engine takes the next input. -/

namespace Sys2Proof.Machine

/-- One step. An operation in progress goes on by one round of its wait. An idle engine takes the head of the inbox:
an operation is decoded and run, a request that is no operation is refused (R123), the platform's switch and the
caller's buffer take effect. With nothing handed over time passes. A step in which the interrupt context hangs ends
there. -/
def step (s : State) : Host.Outcome State Fault Refusal :=
  match s.eng.pos with
  | .idle =>
    match s.inbox with
    | [] => settle (.next (idleStep s))
    | .op r buf :: rest =>
      match decode s.params.codes r with
      | .ok i =>
        let u := startOperation i buf rest s
        unlessHung u (exec i u)
      | .error e => .refused (.badRequest e)
    | .irqEnable on :: rest => .next (takeIrqEnable on rest s)
    | .hostWrite address bytes :: rest => .next (takeHostWrite address bytes rest s)
  | _ => settle (resume s)

/-- `s` with the opcode-table word handed over as the next operation, its buffer at host address 0, and the engine idle
so that the very next step takes it (log 9). -/
def State.withFetchWord (s : State) (nbits w : Nat) : State :=
  { s with inbox := .op (tableRequest nbits w) 0 :: s.inbox, eng := { s.eng with pos := .idle } }

end Sys2Proof.Machine
end

