-- ==== Sys2Proof/Safety.lean ====
section
/-! DEFINITION. What a safe state and a safe run are, and the words the statements use: the canonical forms every step
keeps (spec/10_state.md R37, R42; log 8), what the agents and the interrupt context leave alone between two foreground
steps (spec/20_memory.md R101, spec/60_exceptions.md R333, R334), and how an operation that waits goes on. -/

namespace Sys2Proof.Machine

/-- The parameters make a machine: REGMAP places no two registers at one byte (but as `regsOk` says), no two flags of a register share a bit,
and the five commands and the four named PHY registers can be told apart (R9, R126 to R131). -/
structure paramsOk (p : Config.Params) : Prop where
  regs : regsOk p.regs
  bits : bitsOk p.bits
  codes : codesOk p.codes
  phyMap : phyMapOk p.phyMap

/-- Packet memory, host memory and the allocation table are in canonical form, the stored MGMT holds no MDI bit (a write
to MDI is ignored, R37), the PHY's run of ones is counted up to 32 (R263), and it stores neither RESET nor ANEG_RESTART
(R266, R267). -/
structure PartsWf (p : Config.Params) (c : Chip) (f : Phy) (host : Memory) : Prop where
  pktMem : c.pktMem.wf
  hostMem : host.wf
  table : tableWf c.table
  mdiClear : has c.mgmt (mdi p) = false
  onesBound : f.ones ≤ 32
  ctrlClear : has f.ctrl (phyVolatile p) = false

/-- The canonical forms, inside a step too. -/
structure State.Wf (s : State) : Prop where
  parts : PartsWf s.params s.chip s.phy s.hostMem
  hang : ∀ h, s.hang = some h → PartsWf s.params h.chip h.phy h.hostMem

/-- The invariant of every step: the canonical forms, and between two steps nothing hangs that is not the state itself,
and an idle engine is at no step of any rule and holds no packet (R60, R63, R75). -/
structure State.Inv (s : State) : Prop where
  wf : s.Wf
  settled : s.hang = none
  idlePoint : s.eng.pos = .idle → s.eng.point = []
  idleHandle : s.eng.pos = .idle → s.eng.pkt = none

/-- `k` steps from `s` all go on. -/
def runsSafely (k : Nat) (s : State) : Prop := ∃ t, Sys2Proof.core.run k s = .next t

/-! ## Between two foreground steps -/

/-- What neither an agent's step nor a run of the interrupt context changes (R101, R333, R334). -/
structure State.Kept (s t : State) : Prop where
  params : t.params = s.params
  hostMem : t.hostMem = s.hostMem
  inbox : t.inbox = s.inbox
  eng : t.eng = s.eng
  enabled : t.irq.enabled = s.irq.enabled
  hold : t.irq.hold = s.irq.hold
  bank : t.chip.bank = s.chip.bank
  rcr : t.chip.rcr = s.chip.rcr
  config : t.chip.config = s.chip.config
  ctl : t.chip.ctl = s.chip.ctl
  pnr : t.chip.pnr = s.chip.pnr
  ptr : t.chip.ptr = s.chip.ptr
  intMask : t.chip.intMask = s.chip.intMask
  mgmt : t.chip.mgmt = s.chip.mgmt
  sig : t.chip.sig = s.chip.sig
  mac : t.chip.mac = s.chip.mac
  phyAddr : t.phy.addr = s.phy.addr
  phyOnes : t.phy.ones = s.phy.ones
  phyRx : t.phy.rx = s.phy.rx
  phyDrive : t.phy.drive = s.phy.drive

/-- What the agents alone leave unchanged: all of `Kept`, the interrupt context, the data-path offset and the trace.
INT_STATUS bits are only set, and of TCR at most TXEN is cleared (R196, R213, R214). -/
structure State.KeptByAgents (s t : State) : Prop extends State.Kept s t where
  irq : t.irq = s.irq
  dp : t.chip.dp = s.chip.dp
  dpStale : t.chip.dpStale = s.chip.dpStale
  arrSeen : t.chip.arrSeen = s.chip.arrSeen
  trace : t.env.trace = s.env.trace
  hang : t.hang = s.hang
  intStatus : s.chip.intStatus &&& t.chip.intStatus = s.chip.intStatus
  tcr : t.chip.tcr = s.chip.tcr ∨ t.chip.tcr = without s.chip.tcr (txen s.params)

/-- Everything outside the chip unit, the engine's result, position and handle, and the model's own bookkeeping is as before: the parameters,
the PHY, every byte of host memory, the inbox, the interrupt context's slots and enable, and the engine's slots. -/
structure State.OnlyChip (s t : State) : Prop where
  params : t.params = s.params
  phy : t.phy = s.phy
  hostMem : ∀ a, t.hostMem.read a = s.hostMem.read a
  inbox : t.inbox = s.inbox
  irq : t.irq = { s.irq with hold := t.irq.hold }
  eng : t.eng = { s.eng with pos := t.eng.pos, point := t.eng.point, pkt := t.eng.pkt, result := t.eng.result }
  sent : t.env.sent = s.env.sent
  hang : t.hang = s.hang

/-! ## Schedules -/

/-- The agents and the interrupt context take no step while this state's tape is empty (log 2). -/
abbrev State.Quiet (s : State) : Prop := s.env.tape = []

/-- `n` gaps in which nothing happens. -/
def quietGaps (n : Nat) : List Gap := List.replicate n ⟨0, []⟩

/-- A gap in which one agent takes one step. -/
def agentGap (e : AgentEvent) : List Gap := [⟨0, [.agent e]⟩]

/-- An operation has ended with this condition and value. -/
abbrev State.Ended (s : State) (c : Condition) (v : Int) : Prop := s.eng.pos = .idle ∧ s.eng.result = some ⟨c, v, false⟩

/-- An operation that stands in a wait goes on for at most `k` steps, until the engine is idle. -/
def runToIdle : (k : Nat) → State → Out
  | 0, s => .next s
  | k + 1, s =>
    if s.eng.pos = .idle then .next s
    else
      match step s with
      | .next t => runToIdle k t
      | .fault f => .fault f
      | .refused r => .refused r

/-- An operation handed to the engine and followed through its waits, for at most `k` of them. -/
def runOperation (k : Nat) (i : Instr) (s : State) : Out :=
  match settle (exec i s) with
  | .next t => runToIdle k t
  | .fault f => .fault f
  | .refused r => .refused r

/-- How often the trace holds an access that `f` picks. -/
def countAccesses (f : Access → Bool) (s : State) : Nat := s.env.trace.countP f

/-- A write of the MMU_RELEASE word to MMU_CMD. -/
def isReleaseWrite (c : Config.MmuCodes) : Access → Bool
  | .write .mmuCmd _ v => v == (encodeMmuCode c .release).setWidth 32
  | .write _ _ _ => false
  | .read _ _ _ => false
  | .delay _ => false
  | .deliver _ _ => false

/-- A read of one register. -/
def isReadOf (r : Reg) : Access → Bool
  | .read q _ _ => q == r
  | .write _ _ _ => false
  | .delay _ => false
  | .deliver _ _ => false

/-- A delay of `t` time units. -/
def isDelayOf (t : Nat) : Access → Bool
  | .delay d => d == t
  | .write _ _ _ => false
  | .read _ _ _ => false
  | .deliver _ _ => false

/-- The level a write of MGMT puts on the clock pin; none for any other access (R244, R260). -/
def clockLevel (p : Config.Params) : Access → Option Bool
  | .write .mgmt _ v => some (has v ((mclk p).setWidth 32))
  | .write _ _ _ => none
  | .read _ _ _ => none
  | .delay _ => none
  | .deliver _ _ => none

/-- A read of FIFO that shows a frame. -/
def isFrameSeen (p : Config.Params) : Access → Bool
  | .read .fifo _ v => !has v ((rempty p).setWidth 32)
  | .read _ _ _ => false
  | .write _ _ _ => false
  | .delay _ => false
  | .deliver _ _ => false

/-- The register of a window access, and whether it is written; none for what is no window access. -/
def windowAccess : Access → Option (Reg × Bool)
  | .read r _ _ => some (r, false)
  | .write r _ _ => some (r, true)
  | .delay _ => none
  | .deliver _ _ => none

/-- The window accesses of one management exchange of `n` cycles, in order (R254): BSR read and written, MGMT read, `n`
times two writes and a read of MGMT, MGMT written, BSR written. -/
def exchangeAccesses (n : Nat) : List (Reg × Bool) :=
  [(.bsr, false), (.bsr, true), (.mgmt, false)]
    ++ (List.replicate n [(Reg.mgmt, true), (Reg.mgmt, true), (Reg.mgmt, false)]).flatten
    ++ [(.mgmt, true), (.bsr, true)]

/-! ## Registers in the window -/

/-- What a full read of a register shows (R22 to R39, R192, R260): the fields the spec names where the rest is
unspecified, all of it otherwise. An 8-bit register, a byte of SIG or one of MACADDR stands in bits 7:0. That the bits
YF255 does not name read back as stored is log 12. -/
def State.Shows (s : State) (r : Reg) (w : Word) : Prop :=
  match r with
  | .bsr => w.extractLsb' s.params.bits.bank.val 2 = s.chip.bank
  | .sig i => lowByte w = sigByte s.chip.sig i
  | .tcr => w = s.chip.tcr
  | .rcr => w = s.chip.rcr
  | .config => w = s.chip.config
  | .ctl => w = s.chip.ctl
  | .mac i => ∀ h : i < 6, lowByte w = s.chip.mac[i]
  | .mmuCmd => (has w (busyBit s.params) = true ↔ s.chip.pending = some .release ∨
      (∃ p, s.chip.pending = some (.free p)) ∨ s.chip.pending = some .reset ∨ s.chip.autoFree ≠ [])
  | .pnr => lowByte w = s.chip.pnr
  | .arr => s.chip.arrSeen = true → lowByte w = s.chip.arr
  | .fifo => (has w (rempty s.params) = true ↔ s.chip.rxFifo = []) ∧
      ∀ p rest, s.chip.rxFifo = p :: rest → w.extractLsb' s.params.bits.rxpkt.val 6 = p
  | .ptr => w = s.chip.ptr
  | .data => True
  | .intStatus => lowByte w = s.chip.intStatus
  | .intAck => lowByte w = s.chip.intStatus
  | .intMask => lowByte w = s.chip.intMask
  | .mgmt => w &&& ~~~mdi s.params = s.chip.mgmt &&& ~~~mdi s.params ∧
      (has s.chip.mgmt (mdoe s.params) = true → has w (mdi s.params) = has s.chip.mgmt (mdo s.params)) ∧
      ∀ b, has s.chip.mgmt (mdoe s.params) = false → s.phy.drive = some b → has w (mdi s.params) = b

/-- The byte of a register that a read shows, none where a bit of it is computed or unspecified (R22, R29, R31, R32,
R37). -/
def State.byteOf (s : State) (high : Bool) : Reg → Option Byte
  | .bsr => none
  | .sig i => some (sigByte s.chip.sig i)
  | .tcr => some (half high s.chip.tcr)
  | .rcr => some (half high s.chip.rcr)
  | .config => some (half high s.chip.config)
  | .ctl => some (half high s.chip.ctl)
  | .mac i => s.chip.mac[i]?
  | .mmuCmd => none
  | .pnr => some s.chip.pnr
  | .arr => if s.chip.arrSeen then some s.chip.arr else none
  | .fifo => none
  | .ptr => some (half high s.chip.ptr)
  | .data => none
  | .intStatus => some s.chip.intStatus
  | .intAck => some s.chip.intStatus
  | .intMask => some s.chip.intMask
  | .mgmt => if half high (mdi s.params) = 0#8 then some (half high s.chip.mgmt) else none

/-- The byte that stands at an offset of the selected bank (R170). -/
def State.byteAt (s : State) (off : Nat) : Option Byte :=
  match placeAt s.params.regs s.chip.bank off with
  | some (.byte r high) => s.byteOf high r
  | some .data => none
  | none => none

/-- A 16-bit register stands at an offset of the selected bank. -/
abbrev State.WordAt (s : State) (off : Nat) (r : Reg) : Prop :=
  placeAt s.params.regs s.chip.bank off = some (.byte r false) ∧
    placeAt s.params.regs s.chip.bank (off + 1) = some (.byte r true)

/-- What a word read at an offset of the selected bank shows: one register, or a byte of each of two (R162). -/
def State.WordShown (s : State) (off : Nat) (w : Word) : Prop :=
  (∀ r, s.WordAt off r → s.Shows r w) ∧
  ∀ r q hr hq, r ≠ q → placeAt s.params.regs s.chip.bank off = some (.byte r hr) →
    placeAt s.params.regs s.chip.bank (off + 1) = some (.byte q hq) →
    ∃ a b, s.Shows r a ∧ s.Shows q b ∧ w = half hq b ++ half hr a

/-- Two bytes of registers stand at an offset of the selected bank and behind it. -/
abbrev State.RegistersAt (s : State) (off : Nat) : Prop :=
  (∃ r high, placeAt s.params.regs s.chip.bank off = some (.byte r high)) ∧
    ∃ r high, placeAt s.params.regs s.chip.bank (off + 1) = some (.byte r high)

/-- The data register stands at an offset of the selected bank. -/
abbrev State.DataAt (s : State) (off : Nat) : Prop := placeAt s.params.regs s.chip.bank off = some .data

/-- No word can be accessed at an offset of a bank: no byte of a register stands there, or none behind it (R162, R165,
R170). -/
def noWordAt (m : Config.RegMap) (bank : BitVec 2) (off : Nat) : Prop :=
  placeAt m bank off = none ∨
    (placeAt m bank off ≠ some .data ∧ (placeAt m bank (off + 1) = none ∨ placeAt m bank (off + 1) = some .data))

/-- What a word written to a 16-bit register leaves (R85, R164): `c` before, `d` after. A write of RCR with SOFT_RST, one
of CONFIG that ends the low-power state and one of MGMT with a rising clock are left out. -/
def WordStored (p : Config.Params) (r : Reg) (w : Word) (c d : Chip) : Prop :=
  (r = .bsr ∧ d = { c with bank := bankOf p w }) ∨ (r = .tcr ∧ d = { c with tcr := w }) ∨
  (r = .rcr ∧ has w (softRst p) = false ∧ d = { c with rcr := w }) ∨
  (r = .config ∧ (has w (powerEn p) = false ∨ has c.config (powerEn p) = true) ∧ d = { c with config := w }) ∨
  (r = .ctl ∧ d = { c with ctl := w }) ∨ (r = .fifo ∧ d = c) ∨
  (r = .ptr ∧ d = { c with ptr := w, dp := offsetOf p w, dpStale := false }) ∨
  (r = .mgmt ∧ (has w (mclk p) = false ∨ has c.mgmt (mclk p) = true) ∧ d = { c with mgmt := w &&& ~~~mdi p })

/-- A 16-bit register of the chip unit and what it holds; of BSR, what the chip unit latches. -/
def holdsWord (p : Config.Params) (c : Chip) (r : Reg) (x : Word) : Prop :=
  (r = .bsr ∧ x = bankWord p c.bank) ∨ (r = .tcr ∧ x = c.tcr) ∨ (r = .rcr ∧ x = c.rcr) ∨
  (r = .config ∧ x = c.config) ∨ (r = .ctl ∧ x = c.ctl) ∨ (r = .ptr ∧ x = c.ptr) ∨ (r = .mgmt ∧ x = c.mgmt)

/-- What a byte written to one byte of a register leaves (R35, R85, R164; log 11 for a half of a 16-bit register). -/
def ByteStored (p : Config.Params) (r : Reg) (high : Bool) (v : Byte) (c d : Chip) : Prop :=
  (∃ x, holdsWord p c r x ∧ WordStored p r (if high then v ++ lowByte x else highByte x ++ v) c d) ∨
  (∃ i, r = .sig i ∧ d = c) ∨ (r = .intStatus ∧ d = c) ∨ (r = .arr ∧ d = c) ∨ (r = .fifo ∧ d = c) ∨ (r = .pnr ∧ d = { c with pnr := v }) ∨
  (r = .intMask ∧ d = { c with intMask := v }) ∨
  (r = .intAck ∧ d = { c with intStatus := c.intStatus &&& ~~~v }) ∨
  ∃ i : Fin 6, r = .mac i.val ∧ d = { c with mac := c.mac.set i v }

/-- What a word written at an offset of `bank` leaves: of one register, or of two that share the word (R165). -/
def StoredAt (p : Config.Params) (bank : BitVec 2) (off : Nat) (w : Word) (c d : Chip) : Prop :=
  (∃ r, placeAt p.regs bank off = some (.byte r false) ∧ placeAt p.regs bank (off + 1) = some (.byte r true) ∧
    WordStored p r w c d) ∨
  ∃ r q hr hq e, r ≠ q ∧ placeAt p.regs bank off = some (.byte r hr) ∧
    placeAt p.regs bank (off + 1) = some (.byte q hq) ∧ ByteStored p r hr (lowByte w) c e ∧
    ByteStored p q hq (highByte w) e d

/-! ## One access -/

/-- `s` behind an operation's one access, on every schedule: the chip unit as the access leaves it, one trace entry, the
operation's steps over, and then the one gap (R84, R100, R101). -/
def State.behindAccess (a : Access) (c : Chip) (s : State) : State :=
  gap { s with
    chip := c
    eng := { s.eng with point := [] }
    env := { s.env with trace := a :: s.env.trace } }

/-! ## The sequencer (R60) -/

/-- A step of a rule, with no part and no counter (log 43). -/
def atStep (i : Instr) (step : Nat) : SeqFrame := ⟨i, step, 1, .none⟩

/-- WAIT_MMU_IDLE stands at its poll, called by a rule that goes on at `f`. -/
def waitingIn (f : SeqFrame) : List SeqFrame := [atStep .waitMmuIdle 1, f]

/-- Where the sequencer stands while operation `i` waits: at step 1 of R183, called from the step before the one to go
on with, or at the poll of R200. -/
def waitPoint (i : Instr) : SeqPos → List SeqFrame
  | .idle => []
  | .waitIdle => [atStep i 1]
  | .releaseWait => waitingIn (atStep i 3)
  | .freeWait => waitingIn (atStep i 4)
  | .txPoll _ => [atStep i 15]
  | .txTimeoutWait => waitingIn ⟨i, 16, 2, .none⟩
  | .txDoneWait _ => waitingIn (atStep i 19)
  | .rxWait _ => waitingIn (atStep i 15)
  | .rxReleaseWait _ => waitingIn (atStep i 17)
  | .resetWait => waitingIn (atStep i 7)
  | .openWait => [atStep .waitMmuIdle 1, atStep .reset 7, atStep i 3]
  | .irqHang => []

/-- The waits an operation has: where the engine may stand between two machine steps while operation `i` is in progress,
and idle, where it has ended (R183 to R185, R200, R220, R300, R310; `len` is the padded length). -/
def standsAt (i : Instr) : SeqPos → Prop
  | .idle => True
  | .waitIdle => i = .waitMmuIdle
  | .releaseWait => i = .release
  | .freeWait => ∃ p, i = .free p
  | .txPoll n => ∃ len, i = .transmit len ∧ n = max len.toNat 60
  | .txTimeoutWait => ∃ len, i = .transmit len
  | .txDoneWait n => ∃ len, i = .transmit len ∧ n = max len.toNat 60
  | .rxWait _ => i = .receive
  | .rxReleaseWait _ => i = .receive
  | .resetWait => i = .reset
  | .openWait => i = .openOp
  | .irqHang => False

/-- Where an operation that stands at a wait may stand one machine step later: there, at its next wait, or at its end. -/
def goesOnTo (p q : SeqPos) : Prop :=
  q = p ∨ q = .idle ∨ (∃ len, p = .txPoll len ∧ (q = .txTimeoutWait ∨ q = .txDoneWait len)) ∨
    ∃ o, p = .rxWait o ∧ q = .rxReleaseWait o

/-! ## Packet memory -/

/-- Byte `o` of the buffer of packet `p`, none while the number is free. -/
def State.packetByte (s : State) (p : Pkt) (o : Nat) : Option Byte :=
  (findEntry s.chip.table p).map (fun e => s.chip.bufByte e o)

/-- Every byte of every buffer reads as before, and every address of packet memory. -/
def State.SamePackets (s t : State) : Prop :=
  (∀ p o, t.packetByte p o = s.packetByte p o) ∧ ∀ a, t.chip.pktMem.read a = s.chip.pktMem.read a

/-- A DATA access of `w` bytes reaches buffer `p` with entry `e` (R83, R86 to R92): the packet bank is selected, the
buffer is the one PTR.RCV and PNR or the receive FIFO name, PTR.READ fits, and the access stays inside the buffer and
aligned. -/
structure State.DataReady (s : State) (p : Pkt) (e : Entry) (w : Nat) (reading : Bool) : Prop where
  bank : s.chip.bank = s.params.regs.pb
  target : if has s.chip.ptr (ptrRcv s.params) then s.chip.rxFifo.head? = some p else s.chip.pktSel s.params = p
  entry : findEntry s.chip.table p = some e
  mode : has s.chip.ptr (ptrRead s.params) = reading
  range : s.chip.dp + w ≤ e.pages * 256
  aligned : s.chip.dp % w = 0

/-- Where the data-path offset stands behind an access of `w` bytes (R45). -/
def State.advanced (s : State) (w : Nat) : Nat := if has s.chip.ptr (ptrAutoinc s.params) then s.chip.dp + w else s.chip.dp

end Sys2Proof.Machine
end

