-- ==== Sys2Proof/Certificates/Slice0/Obligations.lean ====
section
/-! DEFINITION. The statements for the provers. A statement about a state holds whatever its tape is, so for every
schedule of the agents and the interrupt context, unless it says otherwise; `Quiet` says that they take no step. The
tape and the positions an operation can stand at are the model's (DESIGN CHOICE, log 1 and 2). Offsets, bit masks,
command words and PHY registers are the parameters REGMAP, BITMAP, MMU_CODES and PHYMAP (R9), any value of them that a
statement does not restrict; `regsOk`, `bitsOk`, `codesOk` and `phyMapOk` say that a layout keeps its own parts apart. No
statement rests on a value of `Config.ex1`, of the power-on registers, or of a free value. Where a statement about a
register, a command, an agent or an exchange has no premise on POWER_EN, what it says of states with POWER_EN = 0 is the
model's: what works there beside what R305 names is not in the source (DESIGN CHOICE, unsafe, log 39). -/

section

open Sys2Proof Sys2Proof.Machine

/-! ## Encoding (spec/30_encoding.md) -/

/-- Decoding the request of a well-formed operation gives it back, whatever its operands are and whatever words the
commands have (R122, R131, R146, R147). -/
def Obligations.DecodeEncodeRoundTrip : Prop :=
  ∀ c : Config.MmuCodes, codesOk c → ∀ i : Instr, i.WellFormed → decode c (encode c i) = .ok i

/-- The read frame is the 64 cycles of R241, the write frame the 65 cycles of R242, every `in` flag 0. -/
def Obligations.FramesAreBuiltCycleByCycle : Prop :=
  (∀ phy reg : BitVec 5,
    (buildRead phy reg).length = 64 ∧
    (∀ k, k < 32 → cycleAt (buildRead phy reg) k = ⟨true, true⟩) ∧
    cycleAt (buildRead phy reg) 32 = ⟨true, false⟩ ∧ cycleAt (buildRead phy reg) 33 = ⟨true, true⟩ ∧
    cycleAt (buildRead phy reg) 34 = ⟨true, true⟩ ∧ cycleAt (buildRead phy reg) 35 = ⟨true, false⟩ ∧
    (∀ k, k < 5 → cycleAt (buildRead phy reg) (36 + k) = ⟨true, phy.getLsbD (4 - k)⟩) ∧
    (∀ k, k < 5 → cycleAt (buildRead phy reg) (41 + k) = ⟨true, reg.getLsbD (4 - k)⟩) ∧
    (∀ k, 46 ≤ k → k < 64 → cycleAt (buildRead phy reg) k = ⟨false, false⟩) ∧
    ∀ c ∈ toSequence (buildRead phy reg), c.input = false) ∧
  ∀ (phy reg : BitVec 5) (value : Word),
    (buildWrite phy reg value).length = 65 ∧
    (∀ k, k < 32 → cycleAt (buildWrite phy reg value) k = ⟨true, true⟩) ∧
    cycleAt (buildWrite phy reg value) 32 = ⟨true, false⟩ ∧ cycleAt (buildWrite phy reg value) 33 = ⟨true, true⟩ ∧
    cycleAt (buildWrite phy reg value) 34 = ⟨true, false⟩ ∧ cycleAt (buildWrite phy reg value) 35 = ⟨true, true⟩ ∧
    (∀ k, k < 5 → cycleAt (buildWrite phy reg value) (36 + k) = ⟨true, phy.getLsbD (4 - k)⟩) ∧
    (∀ k, k < 5 → cycleAt (buildWrite phy reg value) (41 + k) = ⟨true, reg.getLsbD (4 - k)⟩) ∧
    cycleAt (buildWrite phy reg value) 46 = ⟨false, false⟩ ∧ cycleAt (buildWrite phy reg value) 47 = ⟨false, false⟩ ∧
    (∀ k, k < 16 → cycleAt (buildWrite phy reg value) (48 + k) = ⟨true, value.getLsbD (15 - k)⟩) ∧
    cycleAt (buildWrite phy reg value) 64 = ⟨false, false⟩ ∧
    ∀ c ∈ toSequence (buildWrite phy reg value), c.input = false

/-- REGMAP decides what stands where (R24, R126, R170): each byte of each register stands at its own offset of its own
bank and nowhere else, BSR in every bank, its upper byte where SIG does not stand over it, SIG as wide as REGMAP says in its bank or in every one, INT_ACK at its own
offset or at INT_STATUS's. The layouts YF255 gives as defaults keep their parts apart, and place the registers as the
table of R126 says (PRESUMED, log 5: they are defaults; that INT_ACK answers where the two share an offset is DEDUCED, log 48). -/
def Obligations.RegmapPlacesTheRegisters : Prop :=
  (∀ (m : Config.RegMap) (b : BitVec 2) (o : Nat), regsOk m →
    (placeAt m b o = some (.byte .bsr false) ↔ o = m.bsr) ∧
    (placeAt m b o = some (.byte .bsr true) ↔
      o = m.bsr + 1 ∧ ¬ (m.sig = m.bsr + 1 ∧ (m.sigBank = none ∨ m.sigBank = some b))) ∧
    (∀ i, placeAt m b o = some (.byte (.sig i) false) ↔
      i < m.sigWidth.bytes ∧ o = m.sig + i ∧ (m.sigBank = none ∨ m.sigBank = some b)) ∧
    (placeAt m b o = some (.byte .tcr false) ↔ b = m.cb ∧ o = m.tcr) ∧
    (placeAt m b o = some (.byte .tcr true) ↔ b = m.cb ∧ o = m.tcr + 1) ∧
    (placeAt m b o = some (.byte .rcr false) ↔ b = m.cb ∧ o = m.rcr) ∧
    (placeAt m b o = some (.byte .rcr true) ↔ b = m.cb ∧ o = m.rcr + 1) ∧
    (placeAt m b o = some (.byte .config false) ↔ b = m.gb ∧ o = m.config) ∧
    (placeAt m b o = some (.byte .config true) ↔ b = m.gb ∧ o = m.config + 1) ∧
    (placeAt m b o = some (.byte .ctl false) ↔ b = m.gb ∧ o = m.ctl) ∧
    (placeAt m b o = some (.byte .ctl true) ↔ b = m.gb ∧ o = m.ctl + 1) ∧
    (∀ i, placeAt m b o = some (.byte (.mac i) false) ↔ i < 6 ∧ b = m.macBank ∧ o = m.mac + i) ∧
    (placeAt m b o = some (.byte .mmuCmd false) ↔ b = m.pb ∧ o = m.mmuCmd) ∧
    (placeAt m b o = some (.byte .mmuCmd true) ↔ b = m.pb ∧ o = m.mmuCmd + 1) ∧
    (placeAt m b o = some (.byte .pnr false) ↔ b = m.pb ∧ o = m.pnr) ∧
    (placeAt m b o = some (.byte .arr false) ↔ b = m.pb ∧ o = m.arr) ∧
    (placeAt m b o = some (.byte .fifo false) ↔ b = m.pb ∧ o = m.fifo) ∧
    (placeAt m b o = some (.byte .fifo true) ↔ b = m.pb ∧ o = m.fifo + 1) ∧
    (placeAt m b o = some (.byte .ptr false) ↔ b = m.pb ∧ o = m.ptr) ∧
    (placeAt m b o = some (.byte .ptr true) ↔ b = m.pb ∧ o = m.ptr + 1) ∧
    (placeAt m b o = some .data ↔ b = m.pb ∧ o = m.data) ∧
    (placeAt m b o = some (.byte .intStatus false) ↔ b = m.pb ∧ o = m.intStatus ∧ m.intStatus ≠ m.intAck) ∧
    (placeAt m b o = some (.byte .intAck false) ↔ b = m.pb ∧ o = m.intAck) ∧
    (placeAt m b o = some (.byte .intMask false) ↔ b = m.pb ∧ o = m.intMask) ∧
    (placeAt m b o = some (.byte .mgmt false) ↔ b = m.mb ∧ o = m.mgmt) ∧
    (placeAt m b o = some (.byte .mgmt true) ↔ b = m.mb ∧ o = m.mgmt + 1)) ∧
  regsOk Config.defaultRegs ∧ bitsOk Config.defaultBits ∧ codesOk Config.defaultCodes ∧
  phyMapOk Config.defaultPhyMap ∧
  placeAt Config.defaultRegs 0 0x00 = some (.byte .tcr false) ∧
  placeAt Config.defaultRegs 0 0x04 = some (.byte .rcr false) ∧
  placeAt Config.defaultRegs 1 0x00 = some (.byte .config false) ∧
  (∀ i, i < 6 → placeAt Config.defaultRegs 1 (0x04 + i) = some (.byte (.mac i) false)) ∧
  placeAt Config.defaultRegs 1 0x0C = some (.byte .ctl false) ∧
  placeAt Config.defaultRegs 2 0x00 = some (.byte .mmuCmd false) ∧
  placeAt Config.defaultRegs 2 0x02 = some (.byte .pnr false) ∧
  placeAt Config.defaultRegs 2 0x03 = some (.byte .arr false) ∧
  placeAt Config.defaultRegs 2 0x04 = some (.byte .fifo false) ∧
  placeAt Config.defaultRegs 2 0x06 = some (.byte .ptr false) ∧
  placeAt Config.defaultRegs 2 0x08 = some .data ∧
  placeAt Config.defaultRegs 2 0x0C = some (.byte .intAck false) ∧
  Config.defaultRegs.intStatus = 0x0C ∧ Config.defaultRegs.intAck = 0x0C ∧
  placeAt Config.defaultRegs 2 0x0D = some (.byte .intMask false) ∧ placeAt Config.defaultRegs 3 0x08 = some (.byte .mgmt false) ∧
  (∀ b : BitVec 2, placeAt Config.defaultRegs b 0x0E = some (.byte .bsr false) ∧
    placeAt Config.defaultRegs b 0x0F = some (.byte (.sig 0) false)) ∧
  placeAt Config.defaultRegs 0 0x06 = none

/-- The reference decoder (R152): it accepts a list of cycles as a read or a write exactly when every check of the rule
holds, with the operands the cycles carry, and it gives back the operands a frame was built from. -/
def Obligations.FrameDecoderChecksEveryCycle : Prop :=
  (∀ (c : List Drive) (phy reg : BitVec 5), decodeFrame c = some (.miiReadFrame phy reg) ↔
    c.length = 64 ∧ (∀ k, k < 32 → cycleAt c k = ⟨true, true⟩) ∧
    cycleAt c 32 = ⟨true, false⟩ ∧ cycleAt c 33 = ⟨true, true⟩ ∧
    cycleAt c 34 = ⟨true, true⟩ ∧ cycleAt c 35 = ⟨true, false⟩ ∧
    (∀ k, k < 5 → cycleAt c (36 + k) = ⟨true, phy.getLsbD (4 - k)⟩) ∧
    (∀ k, k < 5 → cycleAt c (41 + k) = ⟨true, reg.getLsbD (4 - k)⟩) ∧
    ∀ k, 46 ≤ k → k < 64 → (cycleAt c k).oe = false) ∧
  (∀ (c : List Drive) (phy reg : BitVec 5) (value : Word), decodeFrame c = some (.miiWriteFrame phy reg value) ↔
    c.length = 65 ∧ (∀ k, k < 32 → cycleAt c k = ⟨true, true⟩) ∧
    cycleAt c 32 = ⟨true, false⟩ ∧ cycleAt c 33 = ⟨true, true⟩ ∧
    cycleAt c 34 = ⟨true, false⟩ ∧ cycleAt c 35 = ⟨true, true⟩ ∧
    (∀ k, k < 5 → cycleAt c (36 + k) = ⟨true, phy.getLsbD (4 - k)⟩) ∧
    (∀ k, k < 5 → cycleAt c (41 + k) = ⟨true, reg.getLsbD (4 - k)⟩) ∧
    (∀ k, k < 16 → cycleAt c (48 + k) = ⟨true, value.getLsbD (15 - k)⟩) ∧
    (cycleAt c 46).oe = false ∧ (cycleAt c 47).oe = false ∧ (cycleAt c 64).oe = false) ∧
  (∀ phy reg : BitVec 5, decodeFrame (buildRead phy reg) = some (.miiReadFrame phy reg)) ∧
  ∀ (phy reg : BitVec 5) (value : Word),
    decodeFrame (buildWrite phy reg value) = some (.miiWriteFrame phy reg value)

/-- Operands outside R123 and unknown identifiers are refused by an idle engine, and a term with such an operand has no
effect either (R123). -/
def Obligations.OutOfRangeOperationsAreRefused : Prop :=
  (∀ (s : State) (n : Byte) (buf : Nat) (rest : List Input), s.eng.pos = .idle → 4 ≤ n.toNat →
    s.inbox = .op (.descriptor [0x00#8, n]) buf :: rest → step s = .refused (.badRequest (.operandRange 0x00#8))) ∧
  (∀ (s : State) (n : Byte) (buf : Nat) (rest : List Input), s.eng.pos = .idle → 8 ≤ n.toNat →
    s.inbox = .op (.descriptor [0x10#8, n]) buf :: rest → step s = .refused (.badRequest (.operandRange 0x10#8))) ∧
  (∀ (s : State) (reg : Byte) (buf : Nat) (rest : List Input), s.eng.pos = .idle → 32 ≤ reg.toNat →
    s.inbox = .op (.descriptor [0x30#8, reg]) buf :: rest → step s = .refused (.badRequest (.operandRange 0x30#8))) ∧
  (∀ (s : State) (reg lo hi : Byte) (buf : Nat) (rest : List Input), s.eng.pos = .idle → 32 ≤ reg.toNat →
    s.inbox = .op (.descriptor [0x31#8, reg, lo, hi]) buf :: rest →
    step s = .refused (.badRequest (.operandRange 0x31#8))) ∧
  (∀ (s : State) (op : Byte) (bytes : List Byte) (buf : Nat) (rest : List Input), s.eng.pos = .idle →
    op ∉ [0x00#8, 0x01#8, 0x02#8, 0x03#8, 0x04#8, 0x05#8, 0x06#8, 0x07#8, 0x08#8, 0x10#8, 0x11#8, 0x12#8, 0x13#8,
      0x20#8, 0x21#8, 0x30#8, 0x31#8, 0x32#8, 0x40#8, 0x41#8, 0x42#8, 0x43#8, 0x44#8, 0x45#8] →
    s.inbox = .op (.descriptor (op :: bytes)) buf :: rest → step s = .refused (.badRequest (.unknownOp op))) ∧
  (∀ (s : State) (n : Byte), 4 ≤ n.toNat → exec (.selectBank n) s = .refused .operandRange) ∧
  (∀ (s : State) (n : Byte), 8 ≤ n.toNat → exec (.allocate n) s = .refused .operandRange) ∧
  (∀ (s : State) (reg : Byte), 32 ≤ reg.toNat → exec (.miiRead reg) s = .refused .operandRange) ∧
  ∀ (s : State) (reg : Byte) (v : Word), 32 ≤ reg.toNat → exec (.miiWrite reg v) s = .refused .operandRange

/-- Words of the opcode table, one or more of each family, are the operations they stand for (R121, R122, R131, R146,
R147; V20 to V24 of spec/95_test_vectors.md). How the table's bits lie in a word is the model's: byte order, cycle 0 of a
frame the most significant of its 64 or 65 bits, a 16-bit command word a command (DESIGN CHOICE, log 33). -/
def Obligations.TableWordsDecode : Prop :=
  decodeTableWord 16 0x0200 = some (.selectBank 2) ∧
  decodeTableWord 48 0x004200000806 = some (.writeLong 8 0x00420000) ∧
  decodeTableWord 16 0x0710 = some (.allocate 7) ∧
  decodeTableWord 16 0x0312 = some (.free 3) ∧
  decodeTableWord 24 0x002E20 = some (.transmit 46) ∧
  decodeTableWord 8 0x21 = some .receive ∧
  decodeTableWord 32 0x01E10431 = some (.miiWrite 4 0x01E1) ∧
  decodeTableWord 8 0x40 = some .reset ∧
  decodeTableWord 16 0x0027 = some (.mmuAlloc 7) ∧
  decodeTableWord 16 0x00C0 = some .mmuEnqueue ∧
  decodeTableWord 64 0xFFFFFFFF60040000 = some (.miiReadFrame 0 1) ∧
  decodeTableWord 72 0x1FFFFFFFEBFF9FFFE = some (.miiWriteFrame 31 31 0xFFFF) ∧
  decodeTableWord 16 0x0400 = none ∧ decodeTableWord 8 0x14 = none

/-! ## Stepping (R60, R120, R382) -/

/-- An idle engine that is handed a request which decodes runs exactly that operation (R120), from the state in which its
buffer reference is noted, no result stands, the sequencer is at step 1, and the agents and the interrupt context have
had their first turn (R101, R328); in a run in which the interrupt context does not hang, the step answers what `exec`
answers. Where it hangs in that first turn the operation does not start (R324; log 46). -/
def Obligations.StepRunsDecodedOperation : Prop :=
  ∀ (s : State) (r : Request) (buf : Nat) (rest : List Input) (i : Instr),
    s.eng.pos = .idle → s.inbox = .op r buf :: rest → decode s.params.codes r = .ok i →
    ∃ u v, u = { s with
        inbox := rest
        eng := { s.eng with bufRef := buf, result := none, point := [⟨i, 1, 1, .none⟩] } } ∧
      v = gap u ∧ (s.Quiet → v = u) ∧ (v.hang = none → step s = settle (exec i v)) ∧
      (∀ t, v.hang = none → exec i v = .next t → t.hang = none → step s = .next t) ∧
      (∀ e, v.hang = none → exec i v = .refused e → step s = .refused e) ∧
      (∀ e, v.hang = none → exec i v = .fault e → step s = .fault e) ∧
      ∀ h, v.hang = some h → step s = .next (thaw h v)

/-- While an operation is in progress no other one is taken: the step goes on with it and leaves the inbox alone (R60,
R382). No operation changes the parameters, the inbox, the chip's signature, the address of the PHY, or the platform's
interrupt enable (that the platform switches it between operations only is a DESIGN CHOICE, log 23); and where the
platform's enable is off no handler hangs. -/
def Obligations.OperationsKeepInputsAndConfiguration : Prop :=
  (∀ s t : State, s.eng.pos ≠ .idle → step s = .next t → t.inbox = s.inbox ∧ t.params = s.params) ∧
  ∀ (i : Instr) (s t : State), exec i s = .next t →
    t.params = s.params ∧ t.irq.enabled = s.irq.enabled ∧ t.inbox = s.inbox ∧ t.chip.sig = s.chip.sig ∧
      t.phy.addr = s.phy.addr ∧ (s.irq.enabled = false → t.hang = s.hang)

/-- The sequencer position (R60). When an operation ends the sequencer is at no step and no handle is held (R63, R75).
When it waits, the sequencer stands at the poll of WAIT_MMU_IDLE, called from the step of its own rule that holds the
wait, or at the poll of TRANSMIT step 15: at no wait but one of its own (`standsAt`), so an operation without a wait ends in
its step. Every further step of the machine stays there or goes on to the operation's next wait or its end (`goesOnTo`).
That a machine step goes from wait to wait is log 1, how steps are numbered log 43 (both DESIGN CHOICE). -/
def Obligations.SequencerStandsAtItsStep : Prop :=
  (∀ (i : Instr) (s t : State), exec i s = .next t →
    standsAt i t.eng.pos ∧ t.eng.point = waitPoint i t.eng.pos ∧ (t.eng.pos = .idle → t.eng.pkt = none)) ∧
  (∀ (i : Instr) (s t : State), s.eng.pos ≠ .idle → standsAt i s.eng.pos → s.eng.point = waitPoint i s.eng.pos →
    step s = .next t → t.eng.pos ≠ .irqHang →
    standsAt i t.eng.pos ∧ goesOnTo s.eng.pos t.eng.pos ∧ t.eng.point = waitPoint i t.eng.pos ∧
      (t.eng.pos = .idle → t.eng.pkt = none)) ∧
  (∀ s t : State, exec .release s = .next t → t.eng.pos = .idle ∨ t.eng.pos = .releaseWait) ∧
  (∀ (p : Byte) (s t : State), exec (.free p) s = .next t → t.eng.pos = .idle ∨ t.eng.pos = .freeWait) ∧
  (∀ s t : State, exec .reset s = .next t → t.eng.pos = .idle ∨ t.eng.pos = .resetWait) ∧
  (∀ s t : State, exec .openOp s = .next t → t.eng.pos = .idle ∨ t.eng.pos = .openWait) ∧
  (∀ s t : State, exec .receive s = .next t →
    t.eng.pos = .idle ∨ ∃ o, t.eng.pos = .rxWait o ∨ t.eng.pos = .rxReleaseWait o) ∧
  ∀ (len : Word) (s t : State), exec (.transmit len) s = .next t →
    t.eng.pos = .idle ∨ t.eng.pos = .txPoll (max len.toNat 60) ∨ t.eng.pos = .txTimeoutWait ∨
      t.eng.pos = .txDoneWait (max len.toNat 60)

/-! ## The invariant -/

/-- Every step keeps the canonical forms and the hard-wired bits, leaves nothing hanging but the state itself, and leaves
an idle engine at no step and without a packet. -/
def Obligations.StepKeepsInvariant : Prop :=
  ∀ s t : State, s.Inv → step s = .next t → t.Inv

/-- The machine after power-on has the invariant, and its engine is idle in lifecycle state Unreset, with the platform's
enable off (R75, R362). -/
def Obligations.ResetHasInvariant : Prop :=
  State.reset.Inv ∧ State.reset.eng.pos = .idle ∧ State.reset.eng.life = .unreset ∧
    State.reset.irq.enabled = false ∧ State.reset.inbox = []

/-! ## Between two foreground steps (spec/60_exceptions.md) -/

/-- A run of the interrupt context that ends is the identity on BSR.BANK, PNR and PTR, and on everything R334 forbids it:
MGMT, CONFIG, CTL, INT_MASK and RCR; when it writes PTR back, `dp` is reloaded from it (R333, R374). It writes no DATA and
no command but the FREE, no command of its own is pending at its end, and the buffer the foreground holds reads as before
(R334, R335). The order of the accesses is the model's (log 42). -/
def Obligations.HandlerRestoresTheSelection : Prop :=
  ∀ (h : HandlerRun) (s t : State), runHandler h s = some (.ok t) →
    s.Kept t ∧ (h.touches = true → t.chip.dp = offsetOf s.params s.chip.ptr) ∧
      (t.chip.pending = s.chip.pending ∨ t.chip.pending = none) ∧
      (∃ new, t.env.trace = new ++ s.env.trace ∧ ∀ a ∈ new,
        (∃ r w v, a = .read r w v) ∨ (∃ d, a = .delay d) ∨
        (∃ r w v, a = .write r w v ∧ (r = .bsr ∨ r = .pnr ∨ r = .ptr ∨ r = .intAck ∨ r = .tcr)) ∨
        a = .write .mmuCmd 2 ((encodeMmuCode s.params.codes .free).setWidth 32)) ∧
      ∀ p, s.eng.pkt = some p → s.chip.allocated p = true → s.chip.queued p = false →
        s.chip.pending ≠ some (.free p) → s.chip.pending ≠ some .reset →
        ∀ o, o < bufferSpan → t.packetByte p o = s.packetByte p o

/-- The interrupt context starts only while the line is asserted, the platform's enable is on and no critical sequence
runs (R330, R332). Started with nothing else to do it clears TX_ERR and no other INT_STATUS bit; a run that repairs sets
TXEN again, and one that frees gives back a failed buffer the foreground does not hold, once the MMU agent has taken its
FREE (R335). A run as one event of a gap, with its variants, is the model's (DESIGN CHOICE, log 21), the hold flag
of a critical sequence too (log 22), and the list of failed packets (log 45). -/
def Obligations.HandlerEntryAndAcknowledge : Prop :=
  (∀ (h : HandlerRun) (s : State), s.irq.enabled = false → runHandler h s = none) ∧
  (∀ (h : HandlerRun) (s : State), s.irq.hold = true → runHandler h s = none) ∧
  (∀ (h : HandlerRun) (s : State), s.chip.intStatus &&& s.chip.intMask = 0 → runHandler h s = none) ∧
  (∀ (s : State) (touch re : Bool), s.irq.enabled = true → s.irq.hold = false →
    s.chip.intStatus &&& s.chip.intMask ≠ 0 →
    ∃ t, runHandler ⟨touch, re, none, []⟩ s = some (.ok t) ∧
      t.chip.intStatus = s.chip.intStatus &&& ~~~intTxErr s.params ∧
      t.chip.tcr = (if re && has s.chip.intStatus (intTxErr s.params) then s.chip.tcr ||| txen s.params
        else s.chip.tcr) ∧
      t.chip.table = s.chip.table ∧ t.chip.pktMem = s.chip.pktMem ∧ t.chip.rxFifo = s.chip.rxFifo ∧
      t.chip.txFifo = s.chip.txFifo ∧ t.chip.pending = s.chip.pending ∧ t.phy = s.phy ∧ t.irq.pos = .idle ∧
      (touch = false → t.chip.dp = s.chip.dp)) ∧
  ∀ (s : State) (p : Pkt), s.irq.enabled = true → s.irq.hold = false →
    s.chip.intStatus &&& s.chip.intMask ≠ 0 → has s.chip.intStatus (intTxErr s.params) = true →
    p ∈ s.chip.failed → s.eng.pkt ≠ some p → s.chip.allocated p = true → s.chip.queued p = false →
    s.chip.pending = none → s.chip.autoFree = [] → has s.chip.rcr (softRst s.params) = false →
    ∃ t, runHandler ⟨true, false, some p, List.replicate 7 [] ++ [[.mmuDone]]⟩ s = some (.ok t) ∧
      (∀ q, t.chip.allocated q = (q != p && s.chip.allocated q)) ∧
      (∀ q o, q ≠ p → o < bufferSpan → t.packetByte q o = s.packetByte q o) ∧
      t.chip.intStatus = s.chip.intStatus &&& ~~~intTxErr s.params ∧ t.chip.busy = false

/-- The accesses of a handler run that finds TX_ERR and only acknowledges it, in order (R331, R333, R335; V72 of
spec/95_test_vectors.md), and of one that finds no TX_ERR: nothing but its save and restore, INT_STATUS as before
(R326). -/
def Obligations.HandlerAccessOrder : Prop :=
  (∀ s : State, s.irq.enabled = true → s.irq.hold = false → s.chip.intStatus &&& s.chip.intMask ≠ 0 →
    has s.chip.intStatus (intTxErr s.params) = true →
    ∃ t new, runHandler ⟨true, false, none, []⟩ s = some (.ok t) ∧ t.env.trace = new ++ s.env.trace ∧
      new.reverse.filterMap windowAccess = [(.bsr, false), (.bsr, true), (.pnr, false), (.ptr, false),
        (.intAck, true), (.pnr, true), (.ptr, true), (.bsr, true)]) ∧
  ∀ s : State, s.irq.enabled = true → s.irq.hold = false → s.chip.intStatus &&& s.chip.intMask ≠ 0 →
    has s.chip.intStatus (intTxErr s.params) = false →
    ∃ t new, runHandler ⟨true, false, none, []⟩ s = some (.ok t) ∧ t.env.trace = new ++ s.env.trace ∧
      t.chip.intStatus = s.chip.intStatus ∧
      new.reverse.filterMap windowAccess = [(.bsr, false), (.bsr, true), (.pnr, false), (.ptr, false),
        (.pnr, true), (.ptr, true), (.bsr, true)]

/-- In a critical sequence only the agents step between two accesses: the interrupt context does not run (R332). The three
critical sequences are TRANSMIT steps 4 to 6 up to the MMU_ALLOC write, RESET step 6 up to the MMU_RESET write, and a
SELECT_BANK PB that is followed at once by ALLOCATE, RELEASE or FREE, up to that operation's command write: the bank
select of each sets the hold flag before anything else can happen, and every command write clears it: between the start
of TRANSMIT step 4 and the command the trace shows the bank select and the two saves and no access of a handler, and between
RESET's bank select of step 6 and its command nothing. That a flag marks the sequence is the model's
(DESIGN CHOICE, log 22); of a run in which a handler hangs nothing is said (log 46). -/
def Obligations.CriticalSequenceExcludesHandler : Prop :=
  (∀ s : State, s.irq.hold = true → s.KeptByAgents (gap s)) ∧
  (∀ (n : Next) (b : BitVec 2) (s : State), (wrBankHold n b s).irq.hold = true ∧ (wrBankHold n b s).chip.bank = b ∧
    (wrBankHold n b s).env.trace = .write .bsr 2 ((bankWord s.params b).setWidth 32) :: s.env.trace) ∧
  (∀ (code : Nat) (s : State), ∃ u, claimBuffer code s = allocateSteps (BitVec.ofNat 3 code) u ∧
    u.irq.hold = true ∧ u.chip.bank = s.params.regs.pb ∧ u.eng.savedPnr = s.chip.pnr ∧ u.eng.savedPtr = s.chip.ptr ∧
    u.env.trace = [.read .ptr 2 (s.chip.ptr.setWidth 32), .read .pnr 1 (s.chip.pnr.setWidth 32),
      .write .bsr 2 ((bankWord s.params s.params.regs.pb).setWidth 32)] ++ s.env.trace) ∧
  (∀ s : State, ∃ u v m n, resetHead s = wrMmuReset n u ∧ u = wrBankHold m s.params.regs.pb v ∧
    u.irq.hold = true ∧ u.chip.bank = s.params.regs.pb ∧ (wrMmuReset n u).irq.hold = false) ∧
  (∀ (n : Byte) (s t : State), exec (.selectBank n) s = .next t → s.params.regs.pb = n.setWidth 2 →
    ∀ r buf rest, s.inbox = .op r buf :: rest →
      (t.irq.hold = true ↔ ∃ i, decode s.params.codes r = .ok i ∧
        ((∃ k, i = .allocate k) ∨ i = .release ∨ ∃ p, i = .free p))) ∧
  (∀ (n : Next) (k : MmuCode) (s t : State), wrMmu n k s = .ok t → t.hang = none → t.irq.hold = false) ∧
  ∀ (i : Instr) (s t : State), exec i s = .next t → t.hang = none →
    ((∃ k, i = .allocate k) ∨ i = .release ∨ (∃ p, i = .free p) ∨ i = .reset ∨ ∃ k : MmuCode, i = k.toInstr) →
    t.irq.hold = false

/-- While the soft reset is held no agent of the chip unit steps (R301), and in the low-power state neither the
transmitter takes a packet nor the receiver a frame (R305). -/
def Obligations.AgentsRestInResetAndLowPower : Prop :=
  (∀ (e : AgentEvent) (s : State), has s.chip.rcr (softRst s.params) = true → (agentStep e s).chip = s.chip) ∧
  (∀ s : State, has s.chip.config (powerEn s.params) = false ∨ has s.chip.tcr (txen s.params) = false →
    (agentStep .txDequeue s).chip = s.chip ∧ (agentStep .txDequeue s).env.sent = s.env.sent) ∧
  ∀ (s : State) (p : Pkt) (pages : Nat) (status lenWord : Word) (payload : List Byte),
    has s.chip.config (powerEn s.params) = false ∨ has s.chip.rcr (rxen s.params) = false →
    (agentStep (.rxFrame p pages status lenWord payload) s).chip = s.chip

/-- The MMU agent's completions (R191, R193, R194): a release frees the head of the receive FIFO, a free the packet
latched at the write, a reset everything. -/
def Obligations.MmuAgentCompletesCommands : Prop :=
  (∀ (s : State) (p : Pkt) (rest : List Pkt), has s.chip.rcr (softRst s.params) = false → s.chip.pending = some .release →
    s.chip.rxFifo = p :: rest →
    (agentStep .mmuDone s).chip.rxFifo = rest ∧ (agentStep .mmuDone s).chip.pending = none ∧
      (∀ q, (agentStep .mmuDone s).chip.allocated q = (q != p && s.chip.allocated q)) ∧
      (∀ q o, q ≠ p → o < bufferSpan → (agentStep .mmuDone s).packetByte q o = s.packetByte q o)) ∧
  (∀ (s : State) (p : Pkt), has s.chip.rcr (softRst s.params) = false → s.chip.pending = some (.free p) →
    (agentStep .mmuDone s).chip.rxFifo = s.chip.rxFifo ∧ (agentStep .mmuDone s).chip.pending = none ∧
      (∀ q, (agentStep .mmuDone s).chip.allocated q = (q != p && s.chip.allocated q)) ∧
      (∀ q o, q ≠ p → o < bufferSpan → (agentStep .mmuDone s).packetByte q o = s.packetByte q o)) ∧
  ∀ s : State, has s.chip.rcr (softRst s.params) = false → s.chip.pending = some .reset →
    (∀ q, (agentStep .mmuDone s).chip.allocated q = false) ∧ (agentStep .mmuDone s).chip.txFifo = [] ∧
      (agentStep .mmuDone s).chip.rxFifo = [] ∧ (agentStep .mmuDone s).chip.inFlight = none ∧
      (agentStep .mmuDone s).chip.pending = none ∧ (agentStep .mmuDone s).chip.busy = false ∧
      (agentStep .mmuDone s).chip.intStatus = s.chip.intStatus

/-- The transmitter's two completions (R213, R214). That TX is set for a packet that is not auto-released is read from
R41 (DEDUCED, log 18). A packet in flight completes whether or not TXEN and POWER_EN are still set (U12; DESIGN CHOICE,
log 17), the auto-releases of the MMU agent form a queue (DESIGN CHOICE, log 19), and so do the failed packets
(log 45). -/
def Obligations.TransmitterCompletes : Prop :=
  (∀ (s : State) (p : Pkt) (tx : Bool), bitsOk s.params.bits → has s.chip.rcr (softRst s.params) = false →
    s.chip.inFlight = some p →
    (agentStep (.txDone tx) s).chip.inFlight = none ∧
    (has s.chip.ctl (autoRelease s.params) = true → (agentStep (.txDone tx) s).chip.busy = true ∧
      (agentStep (.txDone tx) s).chip.autoFree = s.chip.autoFree ++ [p]) ∧
    (has s.chip.ctl (autoRelease s.params) = false → (agentStep (.txDone tx) s).chip.autoFree = s.chip.autoFree ∧
      has (agentStep (.txDone tx) s).chip.intStatus (intTx s.params) = true) ∧
    (s.chip.txFifo = [] → has (agentStep (.txDone tx) s).chip.intStatus (intTxEmpty s.params) = true) ∧
    (s.chip.txFifo ≠ [] → has (agentStep (.txDone tx) s).chip.intStatus (intTxEmpty s.params) =
      has s.chip.intStatus (intTxEmpty s.params)) ∧
    has (agentStep (.txDone tx) s).chip.intStatus (intTxErr s.params) = has s.chip.intStatus (intTxErr s.params) ∧
    (agentStep (.txDone tx) s).chip.table = s.chip.table) ∧
  ∀ (s : State) (p : Pkt) (tx ct : Bool), bitsOk s.params.bits → has s.chip.rcr (softRst s.params) = false →
    s.chip.inFlight = some p →
    (agentStep (.txFail tx ct) s).chip.inFlight = none ∧
    has (agentStep (.txFail tx ct) s).chip.intStatus (intTxErr s.params) = true ∧
    has (agentStep (.txFail tx ct) s).chip.intStatus (intTxEmpty s.params) =
      has s.chip.intStatus (intTxEmpty s.params) ∧
    (agentStep (.txFail tx ct) s).chip.autoFree = s.chip.autoFree ∧
    (agentStep (.txFail tx ct) s).chip.failed = s.chip.failed ++ [p] ∧
    (agentStep (.txFail tx ct) s).chip.table = s.chip.table

/-- An arriving frame (R232, R102 d): its number joins the tail of the receive FIFO with header and payload complete;
nothing else in packet memory changes. -/
def Obligations.ReceiverFillsAWholeBuffer : Prop :=
  ∀ (s : State) (p : Pkt) (pages : Nat) (status lenWord : Word) (payload : List Byte),
    has s.chip.rcr (softRst s.params) = false → has s.chip.rcr (rxen s.params) = true → has s.chip.config (powerEn s.params) = true →
    s.chip.allocated p = false → usedPages s.chip.table + pages ≤ s.params.totalPages → 1 ≤ pages → pages ≤ 8 →
    rawLen lenWord + rawLen lenWord % 2 ≤ pages * 256 → payload.length = rawLen lenWord - 4 →
    (agentStep (.rxFrame p pages status lenWord payload) s).chip.rxFifo = s.chip.rxFifo ++ [p] ∧
    (agentStep (.rxFrame p pages status lenWord payload) s).packetByte p 0 = some (lowByte status) ∧
    (agentStep (.rxFrame p pages status lenWord payload) s).packetByte p 1 = some (highByte status) ∧
    (agentStep (.rxFrame p pages status lenWord payload) s).packetByte p 2 = some (lowByte lenWord) ∧
    (agentStep (.rxFrame p pages status lenWord payload) s).packetByte p 3 = some (highByte lenWord) ∧
    (∀ i (h : i < payload.length),
      (agentStep (.rxFrame p pages status lenWord payload) s).packetByte p (4 + i) = some payload[i]) ∧
    ∀ q o, q ≠ p → o < bufferSpan →
      (agentStep (.rxFrame p pages status lenWord payload) s).packetByte q o = s.packetByte q o

/-! ## The register bank (spec/40_register_bank.md)

`byteAt`, `WordAt` and `DataAt` say what REGMAP places at an offset of the selected bank (O3 says where that is). -/

/-- SELECT_BANK n selects bank n whatever bank was selected, and fails on no state (R160); with the agents at rest it
changes nothing else. This is said of `exec`: where a handler hangs in the gap of the access, the step answers that hang
instead (O41, log 46). -/
def Obligations.SelectBankSelects : Prop :=
  ∀ (n : Byte) (s : State), n.toNat < 4 →
    ∃ t, exec (.selectBank n) s = .next t ∧ t.Ended .ok 0 ∧ t.chip.bank = n.setWidth 2 ∧
      (s.Quiet → t.chip = { s.chip with bank := n.setWidth 2 } ∧ s.OnlyChip t ∧ s.SamePackets t)

/-- READ_BYTE answers the byte that stands at the offset in the selected bank (R161, R31 for ARR once ALLOC has been
seen), and reading has no side effect (R85). That the bits YF255 does not name read back as stored is the model's (DESIGN
CHOICE, log 12), and so is the upper half of a 16-bit register (log 11). The bytes with bits the spec leaves unspecified
are O23's. -/
def Obligations.ReadByteReturnsTheRegister : Prop :=
  ∀ (s : State) (off v : Byte), s.byteAt off.toNat = some v →
    ∃ t, exec (.readByte off) s = .next t ∧ t.Ended .ok v.toNat ∧
      (s.Quiet → t.chip = { s.chip with arrSeen := t.chip.arrSeen } ∧ s.OnlyChip t ∧ s.SamePackets t)

/-- READ_WORD answers the word at an even offset, the byte at the lower offset in its low half, one register or two that
share the word (R162, V4). That the bits YF255 does not name read back as stored is the model's (DESIGN CHOICE,
log 12). -/
def Obligations.ReadWordReturnsTheRegister : Prop :=
  ∀ (s : State) (off lo hi : Byte), off.toNat % 2 = 0 → s.byteAt off.toNat = some lo →
    s.byteAt (off.toNat + 1) = some hi →
    ∃ t, exec (.readWord off) s = .next t ∧ t.Ended .ok (hi ++ lo).toNat ∧
      (s.Quiet → t.chip = { s.chip with arrSeen := t.chip.arrSeen } ∧ s.OnlyChip t ∧ s.SamePackets t)

/-- A read of any register shows it (`State.Shows`): READ_BYTE one byte of it, READ_WORD all of it or a byte of each of two
that share the word; of the registers with unnamed bits the fields: BANK, and SIG where it stands over the upper byte of
the BSR word; BUSY of MMU_CMD; REMPTY and RXPKT of FIFO; MDI and the stored bits of MGMT (R22, R32, R37, R161, R162, R192,
R260). No read has a side effect (R85). That a byte read at an upper offset gives bits 15:8 is log 11, that unnamed bits
read back as stored log 12. -/
def Obligations.ReadWordShowsTheFlags : Prop :=
  (∀ (s : State) (off : Byte) (r : Reg) (high : Bool), bitsOk s.params.bits →
    has s.chip.mgmt (mdi s.params) = false → placeAt s.params.regs s.chip.bank off.toNat = some (.byte r high) →
    ∃ (t : State) (w : Word), exec (.readByte off) s = .next t ∧ t.Ended .ok (half high w).toNat ∧ s.Shows r w ∧
      (s.Quiet → t.chip = { s.chip with arrSeen := t.chip.arrSeen } ∧ s.OnlyChip t ∧ s.SamePackets t)) ∧
  (∀ (s : State) (off : Byte), bitsOk s.params.bits → has s.chip.mgmt (mdi s.params) = false →
    off.toNat % 2 = 0 → s.RegistersAt off.toNat →
    ∃ (t : State) (w : Word), exec (.readWord off) s = .next t ∧ t.Ended .ok w.toNat ∧ s.WordShown off.toNat w ∧
      (s.Quiet → t.chip = { s.chip with arrSeen := t.chip.arrSeen } ∧ s.OnlyChip t ∧ s.SamePackets t)) ∧
  (∀ (s : State) (off : Byte), off.toNat % 2 = 0 → s.WordAt off.toNat .bsr →
    ∃ (t : State) (v : Word), exec (.readWord off) s = .next t ∧ t.Ended .ok v.toNat ∧
      v.extractLsb' s.params.bits.bank.val 2 = s.chip.bank) ∧
  (∀ (s : State) (off : Byte), off.toNat % 2 = 0 →
    placeAt s.params.regs s.chip.bank off.toNat = some (.byte .bsr false) →
    placeAt s.params.regs s.chip.bank (off.toNat + 1) = some (.byte (.sig 0) false) →
    ∃ (t : State) (v : Word), exec (.readWord off) s = .next t ∧ t.Ended .ok v.toNat ∧
      highByte v = lowByte (lowWord s.chip.sig) ∧
      (s.params.bits.bank.val + 2 ≤ 8 → v.extractLsb' s.params.bits.bank.val 2 = s.chip.bank)) ∧
  (∀ (s : State) (off : Byte), off.toNat % 2 = 0 → s.WordAt off.toNat .mmuCmd →
    ∃ (t : State) (v : Word), exec (.readWord off) s = .next t ∧ t.Ended .ok v.toNat ∧
      (has v (busyBit s.params) = true ↔ s.chip.pending = some .release ∨ (∃ p, s.chip.pending = some (.free p)) ∨
        s.chip.pending = some .reset ∨ s.chip.autoFree ≠ [])) ∧
  (∀ (s : State) (off : Byte), bitsOk s.params.bits → off.toNat % 2 = 0 → s.WordAt off.toNat .fifo →
    ∃ (t : State) (v : Word), exec (.readWord off) s = .next t ∧ t.Ended .ok v.toNat ∧
      (has v (rempty s.params) = true ↔ s.chip.rxFifo = []) ∧
      ∀ p rest, s.chip.rxFifo = p :: rest → v.extractLsb' s.params.bits.rxpkt.val 6 = p) ∧
  ∀ (s : State) (off : Byte), off.toNat % 2 = 0 → s.WordAt off.toNat .mgmt →
    has s.chip.mgmt (mdi s.params) = false →
    ∃ (t : State) (v : Word), exec (.readWord off) s = .next t ∧ t.Ended .ok v.toNat ∧
      v &&& ~~~mdi s.params = s.chip.mgmt ∧
      (has s.chip.mgmt (mdoe s.params) = true → has v (mdi s.params) = has s.chip.mgmt (mdo s.params)) ∧
      ∀ b, has s.chip.mgmt (mdoe s.params) = false → s.phy.drive = some b → has v (mdi s.params) = b

/-- READ_LONG answers two words in one access, low one first, at an offset that is a multiple of 4 (R163, R84): both are of
the state it starts from, on every schedule, and the trace shows one read. Each of them is what READ_WORD shows there,
whichever registers they are (O23); where the upper word is DATA it moves a word. A FIFO word below another register shows
its flags. That unnamed bits read back as stored is the model's (DESIGN CHOICE, log 12). -/
def Obligations.ReadLongReturnsTwoWords : Prop :=
  (∀ (s : State) (off a b c d : Byte), off.toNat % 4 = 0 → s.byteAt off.toNat = some a →
    s.byteAt (off.toNat + 1) = some b → s.byteAt (off.toNat + 2) = some c → s.byteAt (off.toNat + 3) = some d →
    ∃ t, exec (.readLong off) s = .next t ∧ t.Ended .ok (d ++ c ++ b ++ a).toNat ∧
      (s.Quiet → (∃ r, t.env.trace = .read r 4 (d ++ c ++ b ++ a) :: s.env.trace) ∧
        t.chip = { s.chip with arrSeen := t.chip.arrSeen } ∧ s.OnlyChip t ∧ s.SamePackets t)) ∧
  (∀ (s : State) (off : Byte), bitsOk s.params.bits → has s.chip.mgmt (mdi s.params) = false →
    off.toNat % 4 = 0 → s.RegistersAt off.toNat → s.RegistersAt (off.toNat + 2) →
    ∃ (t : State) (lo hi : Word), exec (.readLong off) s = .next t ∧ t.Ended .ok (hi ++ lo).toNat ∧
      s.WordShown off.toNat lo ∧ s.WordShown (off.toNat + 2) hi ∧
      (s.Quiet → (∃ r, t.env.trace = .read r 4 (hi ++ lo) :: s.env.trace) ∧ t.chip = { s.chip with arrSeen := t.chip.arrSeen } ∧ s.OnlyChip t ∧ s.SamePackets t)) ∧
  (∀ (s : State) (off : Byte) (p : Pkt) (e : Entry), bitsOk s.params.bits → has s.chip.mgmt (mdi s.params) = false →
    off.toNat % 4 = 0 → s.RegistersAt off.toNat → s.DataAt (off.toNat + 2) → s.DataReady p e 2 true →
    ∃ (t : State) (lo : Word), exec (.readLong off) s = .next t ∧
      t.Ended .ok (s.chip.bufByte e (s.chip.dp + 1) ++ s.chip.bufByte e s.chip.dp ++ lo).toNat ∧
      s.WordShown off.toNat lo ∧
      (s.Quiet →
        (∃ r, t.env.trace = .read r 4 (s.chip.bufByte e (s.chip.dp + 1) ++ s.chip.bufByte e s.chip.dp ++ lo) ::
          s.env.trace) ∧ t.chip = { s.chip with arrSeen := t.chip.arrSeen, dp := s.advanced 2 } ∧ s.OnlyChip t ∧
        s.SamePackets t)) ∧
  ∀ (s : State) (off c d : Byte), off.toNat % 4 = 0 → s.WordAt off.toNat .fifo →
    s.byteAt (off.toNat + 2) = some c → s.byteAt (off.toNat + 3) = some d →
    ∃ (t : State) (v : Long), exec (.readLong off) s = .next t ∧ t.Ended .ok v.toNat ∧
      highWord v = d ++ c ∧ (has (lowWord v) (rempty s.params) = true ↔ s.chip.rxFifo = []) ∧
      (s.Quiet → t.env.trace = .read .fifo 4 v :: s.env.trace ∧ t.chip = { s.chip with arrSeen := t.chip.arrSeen } ∧ s.OnlyChip t ∧ s.SamePackets t)

/-- WRITE_BYTE changes the register at the offset and nothing else: INT_ACK clears the bits written as 1 (R35), INT_MASK,
PNR, MACADDR and BSR.BANK take the value, ARR, FIFO, INT_STATUS and SIG ignore it (R85, R164), a half of a 16-bit register
keeps the other half (DEDUCED, log 11). A half that holds SOFT_RST or ends the low-power state is O28's, one that raises
MCLK O26's, a byte of MMU_CMD O29's. -/
def Obligations.WriteByteChangesTheRegister : Prop :=
  ∀ (s : State) (off v : Byte) (r : Reg) (high : Bool) (c : Chip),
    placeAt s.params.regs s.chip.bank off.toNat = some (.byte r high) → ByteStored s.params r high v s.chip c →
    ∃ t, exec (.writeByte off v) s = .next t ∧ t.Ended .ok 0 ∧
      (s.Quiet → t.chip = c ∧ s.OnlyChip t ∧ s.SamePackets t)

/-- WRITE_WORD at an even offset: the register takes the word, two byte registers their halves in one event (R165), PTR
loads `dp` (R45), MDI is ignored (R37); nothing else changes. One event means: on every schedule the trace grows by one
write and there is one gap, behind both halves (`State.behindAccess`). A word to MGMT that raises MCLK, or a byte of it (DEDUCED,
log 11), is one edge for the PHY, which samples the data pin as MGMT drives it (R85, R260, R262), as that very write leaves
it (DESIGN CHOICE, log 47); without a PHY, or in the idle pins' preamble, nothing more. A write of RCR with SOFT_RST and a
CONFIG write that ends the low-power state are O28. -/
def Obligations.WriteWordChangesTheRegister : Prop :=
  (∀ (s : State) (off : Byte) (v : Word) (c : Chip), off.toNat % 2 = 0 →
    StoredAt s.params s.chip.bank off.toNat v s.chip c →
    ∃ t, exec (.writeWord off v) s = .next t ∧ t.Ended .ok 0 ∧
      (∃ r high, placeAt s.params.regs s.chip.bank off.toNat = some (.byte r high) ∧
        t = (s.behindAccess (.write r 2 (v.setWidth 32)) c).finish .ok 0) ∧
      (s.Quiet → t.chip = c ∧ s.OnlyChip t ∧ s.SamePackets t)) ∧
  ∀ (s : State) (i : Instr) (off : Byte) (v : Word),
    (i = .writeWord off v ∧ off.toNat % 2 = 0 ∧ s.WordAt off.toNat .mgmt) ∨
    (∃ b high, i = .writeByte off b ∧ placeAt s.params.regs s.chip.bank off.toNat = some (.byte .mgmt high) ∧
      v = if high then b ++ lowByte s.chip.mgmt else highByte s.chip.mgmt ++ b) →
    has v (mclk s.params) = true → has s.chip.mgmt (mclk s.params) = false →
    ∃ t, exec i s = .next t ∧ t.Ended .ok 0 ∧
      (s.Quiet → t.chip = { s.chip with mgmt := v &&& ~~~mdi s.params } ∧ t.hostMem = s.hostMem ∧
        t.irq = s.irq ∧ t.inbox = s.inbox ∧ s.SamePackets t ∧
        (s.phy.addr = none → t.phy = s.phy) ∧
        (s.phy.addr ≠ none → t.phy =
          { s.phy with ones := onesAfter s.phy.ones ⟨has v (mdoe s.params), has v (mdo s.params)⟩ }.edge s.params
            s.phy.ones ⟨has v (mdoe s.params), has v (mdo s.params)⟩ s.env.draw) ∧
        (s.phy.addr ≠ none → s.phy.rx = .hunt → has v (mdoe s.params) = true → has v (mdo s.params) = true →
          t.phy = { s.phy with ones := min 32 (s.phy.ones + 1) }))

/-- WRITE_LONG at an offset that is a multiple of 4 writes its low word and then its high word in one access, both placed
by the bank selected when it starts (R84, R166): on every schedule the trace grows by one write of four bytes, and there is
one gap, behind both words (`State.behindAccess`). With the agents at rest it is so two WRITE_WORDs, whatever they do: a command,
a soft reset, a power-up, a clock edge; the second sees the bank the first found. Where either is refused the long is. -/
def Obligations.WriteLongWritesTwoWords : Prop :=
  (∀ (s : State) (off : Byte) (v : Long) (c d : Chip), off.toNat % 4 = 0 →
    StoredAt s.params s.chip.bank off.toNat (lowWord v) s.chip c →
    StoredAt s.params s.chip.bank (off.toNat + 2) (highWord v) c d →
    ∃ t, exec (.writeLong off v) s = .next t ∧ t.Ended .ok 0 ∧
      (∃ r high, placeAt s.params.regs s.chip.bank off.toNat = some (.byte r high) ∧
        t = (s.behindAccess (.write r 4 v) d).finish .ok 0) ∧
      (s.Quiet → t.chip = d ∧ s.OnlyChip t ∧ s.SamePackets t)) ∧
  (∀ (s u w : State) (off : Byte) (v : Long), s.Quiet → off.toNat % 4 = 0 → ¬ s.DataAt off.toNat →
    exec (.writeWord off (lowWord v)) s = .next u →
    exec (.writeWord (off + 2) (highWord v)) { u with chip := { u.chip with bank := s.chip.bank } } = .next w →
    ∃ t, exec (.writeLong off v) s = .next t ∧ t.Ended .ok 0 ∧
      (∃ r high, placeAt s.params.regs s.chip.bank off.toNat = some (.byte r high) ∧
        t.env.trace = .write r 4 v :: s.env.trace) ∧
      t.chip = { w.chip with bank := t.chip.bank } ∧ (u.chip.bank = s.chip.bank → t.chip = w.chip) ∧
      t.phy = w.phy ∧ t.irq = w.irq ∧ t.hostMem = s.hostMem ∧ t.inbox = s.inbox) ∧
  (∀ (s : State) (off : Byte) (v : Long) (e : Refusal), off.toNat % 4 = 0 → ¬ s.DataAt off.toNat →
    exec (.writeWord off (lowWord v)) s = .refused e → exec (.writeLong off v) s = .refused e) ∧
  ∀ (s u : State) (off : Byte) (v : Long) (e : Refusal), s.Quiet → off.toNat % 4 = 0 → ¬ s.DataAt off.toNat →
    exec (.writeWord off (lowWord v)) s = .next u →
    exec (.writeWord (off + 2) (highWord v)) { u with chip := { u.chip with bank := s.chip.bank } } = .refused e →
    exec (.writeLong off v) s = .refused e

/-- The soft reset, by a word or by a byte written to RCR, leaves CONFIG and SIG alone, sets SOFT_RST, and does not touch
the PHY at all (R301, R75). A word or a byte written to CONFIG that sets POWER_EN where it was 0 leaves the low-power
state: CONFIG holds the word, SIG and the PHY are as before, and a soft reset that was held is still held (R352; that it is
held is log 16). All else of the chip unit is unspecified behind either (U16). That a byte written to one half of RCR or
CONFIG acts as the merged word is read from R80, R82 and R164 (DEDUCED, log 11); that the PHY sees no edge of the drawn
MGMT is the model's (DESIGN CHOICE, log 14). -/
def Obligations.SoftResetKeepsConfigAndSignature : Prop :=
  (∀ (s : State) (i : Instr) (off : Byte) (w : Word), has w (softRst s.params) = true →
    (i = .writeWord off w ∧ off.toNat % 2 = 0 ∧ s.WordAt off.toNat .rcr) ∨
    (∃ b high, i = .writeByte off b ∧ placeAt s.params.regs s.chip.bank off.toNat = some (.byte .rcr high) ∧
      w = if high then b ++ lowByte s.chip.rcr else highByte s.chip.rcr ++ b) →
    ∃ t, exec i s = .next t ∧ t.Ended .ok 0 ∧
      (s.Quiet → t.chip.config = s.chip.config ∧ t.chip.sig = s.chip.sig ∧
        has t.chip.rcr (softRst s.params) = true ∧ t.hostMem = s.hostMem ∧ t.irq = s.irq ∧ t.phy = s.phy)) ∧
  ∀ (s : State) (i : Instr) (off : Byte) (w : Word),
    (i = .writeWord off w ∧ off.toNat % 2 = 0 ∧ s.WordAt off.toNat .config) ∨
    (∃ b high, i = .writeByte off b ∧ placeAt s.params.regs s.chip.bank off.toNat = some (.byte .config high) ∧
      w = if high then b ++ lowByte s.chip.config else highByte s.chip.config ++ b) →
    has w (powerEn s.params) = true → has s.chip.config (powerEn s.params) = false →
    ∃ t, exec i s = .next t ∧ t.Ended .ok 0 ∧
      (s.Quiet → t.chip.config = w ∧ t.chip.sig = s.chip.sig ∧ t.hostMem = s.hostMem ∧ t.irq = s.irq ∧
        t.phy = s.phy ∧
        (has s.chip.rcr (softRst s.params) = true → has t.chip.rcr (softRst s.params) = true))

/-- A write of a command's word to MMU_CMD is that command's row of the opcode table (R165, R131); a word that is no
command is refused there (U6; that one with a surplus bit is none is log 40). A byte written to one half of MMU_CMD acts
as the word whose other half is zero (DEDUCED, log 11): taken and refused as that command's row, with the same effect. -/
def Obligations.WriteWordIssuesTheCommand : Prop :=
  (∀ (s : State) (off b : Byte) (high : Bool) (k : MmuCode), codesOk s.params.codes → s.hang = none →
    placeAt s.params.regs s.chip.bank off.toNat = some (.byte .mmuCmd high) →
    (if high then b ++ 0#8 else 0#8 ++ b) = encodeMmuCode s.params.codes k →
    (∀ e, exec k.toInstr s = .refused e → exec (.writeByte off b) s = .refused e) ∧
    ∀ u, exec k.toInstr s = .next u → ∃ t, exec (.writeByte off b) s = .next t ∧ t.Ended .ok 0 ∧
      (s.Quiet → t.chip = u.chip ∧ s.OnlyChip t ∧ s.SamePackets t)) ∧
  (∀ (s : State) (off b : Byte) (high : Bool), placeAt s.params.regs s.chip.bank off.toNat = some (.byte .mmuCmd high) →
    (∀ k, (if high then b ++ 0#8 else 0#8 ++ b) ≠ encodeMmuCode s.params.codes k) →
    exec (.writeByte off b) s = .refused .unknownMmuCommand) ∧
  (∀ (s : State) (off : Byte) (k : MmuCode), codesOk s.params.codes → s.hang = none → off.toNat % 2 = 0 →
    s.WordAt off.toNat .mmuCmd →
    exec (.writeWord off (encodeMmuCode s.params.codes k)) s = exec k.toInstr s) ∧
  ∀ (s : State) (off : Byte) (w : Word), off.toNat % 2 = 0 → s.WordAt off.toNat .mmuCmd →
    (∀ k, w ≠ encodeMmuCode s.params.codes k) → exec (.writeWord off w) s = .refused .unknownMmuCommand

/-- A word access at an odd offset and a long access at an offset that is no multiple of 4 are refused (R82, U2), and so
is every access that meets an offset where the selected bank has no register: a byte, a word of which one half has none,
a long of which one word has none (R170, U1). That a word access of which one half alone has a register is such an access
is the model's (DEDUCED, log 11), and so is that a word whose upper byte is DATA's offset has no register there, since DATA
answers at its own offset only (DEDUCED, log 37). Of a long write whose low word is an MMU command nothing is said: it may be
refused for its command. -/
def Obligations.BadOffsetsAreRefused : Prop :=
  (∀ (s : State) (off : Byte) (v : Word), off.toNat % 2 = 1 →
    exec (.readWord off) s = .refused .misaligned ∧ exec (.writeWord off v) s = .refused .misaligned) ∧
  (∀ (s : State) (off : Byte) (v : Long), off.toNat % 4 ≠ 0 →
    exec (.readLong off) s = .refused .misaligned ∧ exec (.writeLong off v) s = .refused .misaligned) ∧
  (∀ (s : State) (off v : Byte), placeAt s.params.regs s.chip.bank off.toNat = none →
    exec (.readByte off) s = .refused .noRegister ∧ exec (.writeByte off v) s = .refused .noRegister) ∧
  (∀ (s : State) (off : Byte) (v : Word), off.toNat % 2 = 0 → noWordAt s.params.regs s.chip.bank off.toNat →
    exec (.readWord off) s = .refused .noRegister ∧ exec (.writeWord off v) s = .refused .noRegister) ∧
  (∀ (s : State) (off : Byte) (v : Long), off.toNat % 4 = 0 → noWordAt s.params.regs s.chip.bank off.toNat →
    exec (.readLong off) s = .refused .noRegister ∧ exec (.writeLong off v) s = .refused .noRegister) ∧
  (∀ (s : State) (off : Byte), off.toNat % 4 = 0 → ¬ s.DataAt off.toNat →
    noWordAt s.params.regs s.chip.bank (off.toNat + 2) → exec (.readLong off) s = .refused .noRegister) ∧
  (∀ (s : State) (off : Byte) (v : Long), off.toNat % 4 = 0 → ¬ s.DataAt off.toNat →
    (∀ h, placeAt s.params.regs s.chip.bank off.toNat ≠ some (.byte .mmuCmd h) ∧
      placeAt s.params.regs s.chip.bank (off.toNat + 1) ≠ some (.byte .mmuCmd h)) →
    noWordAt s.params.regs s.chip.bank (off.toNat + 2) → exec (.writeLong off v) s = .refused .noRegister) ∧
  (∀ s : State, s.params.regs = Config.defaultRegs → s.chip.bank = 0 → ∀ v : Long,
    exec (.readLong 0x04) s = .refused .noRegister ∧ exec (.writeLong 0x04 v) s = .refused .noRegister ∧
      exec (.readWord 0x06) s = .refused .noRegister)

/-- A DATA read answers the bytes at `dp`, lowest address in the low bits, and advances `dp` only with AUTOINC (R80, R90,
R45); nothing else changes. -/
def Obligations.DataReadReturnsBufferBytes : Prop :=
  (∀ (s : State) (off : Byte) (p : Pkt) (e : Entry), s.DataAt off.toNat → s.DataReady p e 1 true →
    ∃ t, exec (.readByte off) s = .next t ∧ t.Ended .ok (s.chip.bufByte e s.chip.dp).toNat ∧
      (s.Quiet → t.chip = { s.chip with dp := s.advanced 1 } ∧ s.OnlyChip t ∧ s.SamePackets t)) ∧
  (∀ (s : State) (off : Byte) (p : Pkt) (e : Entry), off.toNat % 2 = 0 → s.DataAt off.toNat →
    s.DataReady p e 2 true →
    ∃ t, exec (.readWord off) s = .next t ∧
      t.Ended .ok (s.chip.bufByte e (s.chip.dp + 1) ++ s.chip.bufByte e s.chip.dp).toNat ∧
      (s.Quiet → t.chip = { s.chip with dp := s.advanced 2 } ∧ s.OnlyChip t ∧ s.SamePackets t)) ∧
  ∀ (s : State) (off : Byte) (p : Pkt) (e : Entry), off.toNat % 4 = 0 → s.DataAt off.toNat →
    s.DataReady p e 4 true →
    ∃ t, exec (.readLong off) s = .next t ∧
      t.Ended .ok (s.chip.bufByte e (s.chip.dp + 3) ++ s.chip.bufByte e (s.chip.dp + 2) ++
        s.chip.bufByte e (s.chip.dp + 1) ++ s.chip.bufByte e s.chip.dp).toNat ∧
      (s.Quiet → t.chip = { s.chip with dp := s.advanced 4 } ∧ s.OnlyChip t ∧ s.SamePackets t)

/-- A DATA write stores its bytes at `dp`, low bits at the lowest address, and advances `dp` only with AUTOINC (R80, R91,
R45); every other address of packet memory reads as before and nothing else changes. That a long write with AUTOINC = 0
stores four bytes, and not two words at one place, is read from R91 (DEDUCED, log 50). -/
def Obligations.DataWriteStoresBufferBytes : Prop :=
  (∀ (s : State) (off : Byte) (p : Pkt) (e : Entry) (v : Byte), s.DataAt off.toNat → s.DataReady p e 1 false →
    ∃ t, exec (.writeByte off v) s = .next t ∧ t.Ended .ok 0 ∧
      (s.Quiet → t.packetByte p s.chip.dp = some v ∧
        (∀ a, a ≠ pktAddr p s.chip.dp → t.chip.pktMem.read a = s.chip.pktMem.read a) ∧
        t.chip = { s.chip with pktMem := t.chip.pktMem, dp := s.advanced 1 } ∧ s.OnlyChip t)) ∧
  (∀ (s : State) (off : Byte) (p : Pkt) (e : Entry) (v : Word), off.toNat % 2 = 0 → s.DataAt off.toNat →
    s.DataReady p e 2 false →
    ∃ t, exec (.writeWord off v) s = .next t ∧ t.Ended .ok 0 ∧
      (s.Quiet → t.packetByte p s.chip.dp = some (lowByte v) ∧ t.packetByte p (s.chip.dp + 1) = some (highByte v) ∧
        (∀ a, a < pktAddr p s.chip.dp ∨ pktAddr p s.chip.dp + 2 ≤ a →
          t.chip.pktMem.read a = s.chip.pktMem.read a) ∧
        t.chip = { s.chip with pktMem := t.chip.pktMem, dp := s.advanced 2 } ∧ s.OnlyChip t)) ∧
  ∀ (s : State) (off : Byte) (p : Pkt) (e : Entry) (v : Long), off.toNat % 4 = 0 → s.DataAt off.toNat →
    s.DataReady p e 4 false →
    ∃ t, exec (.writeLong off v) s = .next t ∧ t.Ended .ok 0 ∧
      (s.Quiet → t.packetByte p s.chip.dp = some (lowByte (lowWord v)) ∧
        t.packetByte p (s.chip.dp + 1) = some (highByte (lowWord v)) ∧
        t.packetByte p (s.chip.dp + 2) = some (lowByte (highWord v)) ∧
        t.packetByte p (s.chip.dp + 3) = some (highByte (highWord v)) ∧
        (∀ a, a < pktAddr p s.chip.dp ∨ pktAddr p s.chip.dp + 4 ≤ a →
          t.chip.pktMem.read a = s.chip.pktMem.read a) ∧
        t.chip = { s.chip with pktMem := t.chip.pktMem, dp := s.advanced 4 } ∧ s.OnlyChip t)

/-- A DATA access of any width that no buffer answers is refused in a run the interrupt context has not corrupted (R83,
R90 to R92, U3): READ does not fit, `dp` is not aligned, no buffer is at the head of the receive FIFO or named by PNR, the
one there is not allocated, or the access would end behind the buffer. -/
def Obligations.BadDataAccessesAreRefused : Prop :=
  (∀ (s : State) (off v : Byte), s.DataAt off.toNat → s.chip.dpStale = false →
    ((¬ ∃ p e, s.DataReady p e 1 true) → exec (.readByte off) s = .refused .dataAccess) ∧
    ((¬ ∃ p e, s.DataReady p e 1 false) → exec (.writeByte off v) s = .refused .dataAccess)) ∧
  (∀ (s : State) (off : Byte) (v : Word), s.DataAt off.toNat → s.chip.dpStale = false → off.toNat % 2 = 0 →
    ((¬ ∃ p e, s.DataReady p e 2 true) → exec (.readWord off) s = .refused .dataAccess) ∧
    ((¬ ∃ p e, s.DataReady p e 2 false) → exec (.writeWord off v) s = .refused .dataAccess)) ∧
  (∀ (s : State) (off : Byte) (v : Long), s.DataAt off.toNat → s.chip.dpStale = false → off.toNat % 4 = 0 →
    ((¬ ∃ p e, s.DataReady p e 4 true) → exec (.readLong off) s = .refused .dataAccess) ∧
    ((¬ ∃ p e, s.DataReady p e 4 false) → exec (.writeLong off v) s = .refused .dataAccess)) ∧
  ∀ (s : State) (w : Nat) (reading : Bool) (p : Pkt) (e : Entry), findEntry s.chip.table p = some e →
    has s.chip.ptr (ptrRcv s.params) = false → s.chip.pktSel s.params = p → e.pages * 256 < s.chip.dp + w →
    ¬ ∃ q f, s.DataReady q f w reading

/-- READ_BLOCK reads `count` words of DATA into the host buffer, byte for byte in rising order (R93, R167); every other
host byte and all of packet memory read as before. WRITE_BLOCK writes `count` words from the host buffer through DATA
(R168); every other address of packet memory and all of host memory read as before. With `count` 0 neither makes an
access. With PTR.AUTOINC = 0 every word moves at the same `dp`: the buffer is filled with that one word, and of the words
written the last stands there (R45, R167, R168). At an offset that is not DATA's a block reads or writes the register
there `count` times, each as READ_WORD or WRITE_WORD does. At every offset a block is its first word and the block of the
rest, and is refused with the first of its words that is: a READ_BLOCK of DATA that runs beyond its buffer with the first
word that does (U3). -/
def Obligations.BlockTransfersCopyWords : Prop :=
  (∀ (s : State) (off : Byte), exec (.readBlock off 0) s = .next (s.finish .ok 0)) ∧
  (∀ (s : State) (off : Byte), exec (.writeBlock off 0) s = .next (s.finish .ok 0)) ∧
  (∀ (s : State) (off : Byte) (p : Pkt) (e : Entry) (count : Word), s.Quiet → off.toNat % 2 = 0 →
    s.DataAt off.toNat → s.DataReady p e 2 true →
    has s.chip.ptr (ptrAutoinc s.params) = true → s.chip.dp + 2 * count.toNat ≤ e.pages * 256 →
    ∃ t, exec (.readBlock off count) s = .next t ∧ t.Ended .ok 0 ∧
      (∀ i, i < 2 * count.toNat → t.hostRead s.eng.bufRef i = s.chip.bufByte e (s.chip.dp + i)) ∧
      (∀ a, a < s.eng.bufRef ∨ s.eng.bufRef + 2 * count.toNat ≤ a → t.hostMem.read a = s.hostMem.read a) ∧
      t.chip = { s.chip with dp := s.chip.dp + 2 * count.toNat } ∧ s.SamePackets t ∧ t.phy = s.phy ∧
      t.irq = s.irq) ∧
  (∀ (s : State) (off : Byte) (p : Pkt) (e : Entry) (count : Word), s.Quiet → off.toNat % 2 = 0 →
    s.DataAt off.toNat → s.DataReady p e 2 true → has s.chip.ptr (ptrAutoinc s.params) = false →
    ∃ t, exec (.readBlock off count) s = .next t ∧ t.Ended .ok 0 ∧
      (∀ i, i < 2 * count.toNat → t.hostRead s.eng.bufRef i = s.chip.bufByte e (s.chip.dp + i % 2)) ∧
      (∀ a, a < s.eng.bufRef ∨ s.eng.bufRef + 2 * count.toNat ≤ a → t.hostMem.read a = s.hostMem.read a) ∧
      t.chip = s.chip ∧ s.SamePackets t ∧ t.phy = s.phy ∧ t.irq = s.irq) ∧
  (∀ (s : State) (off : Byte) (p : Pkt) (e : Entry) (count : Word), s.Quiet → off.toNat % 2 = 0 →
    s.DataAt off.toNat → s.DataReady p e 2 false → has s.chip.ptr (ptrAutoinc s.params) = false →
    0 < count.toNat →
    ∃ t, exec (.writeBlock off count) s = .next t ∧ t.Ended .ok 0 ∧
      (∀ i, i < 2 → t.packetByte p (s.chip.dp + i) =
        some (s.hostRead s.eng.bufRef (2 * (count.toNat - 1) + i))) ∧
      (∀ a, a < pktAddr p s.chip.dp ∨ pktAddr p s.chip.dp + 2 ≤ a → t.chip.pktMem.read a = s.chip.pktMem.read a) ∧
      t.chip = { s.chip with pktMem := t.chip.pktMem } ∧ s.OnlyChip t) ∧
  (∀ (s : State) (off : Byte) (count : Word), bitsOk s.params.bits → has s.chip.mgmt (mdi s.params) = false →
    s.Quiet → off.toNat % 2 = 0 → s.RegistersAt off.toNat →
    ∃ t, exec (.readBlock off count) s = .next t ∧ t.Ended .ok 0 ∧
      (∀ k, k < count.toNat → ∃ w, s.WordShown off.toNat w ∧ t.hostRead s.eng.bufRef (2 * k) = lowByte w ∧
        t.hostRead s.eng.bufRef (2 * k + 1) = highByte w) ∧
      (∀ a, a < s.eng.bufRef ∨ s.eng.bufRef + 2 * count.toNat ≤ a → t.hostMem.read a = s.hostMem.read a) ∧
      t.chip = { s.chip with arrSeen := t.chip.arrSeen } ∧ s.SamePackets t ∧ t.phy = s.phy ∧ t.irq = s.irq) ∧
  (∀ (s u v : State) (off : Byte) (count w : Word), s.Quiet → 0 < count.toNat → exec (.readWord off) s = .next u →
    u.Ended .ok w.toNat →
    exec (.readBlock off (count - 1)) { u with
      hostMem := (s.hostMem.write s.eng.bufRef (lowByte w)).write (s.eng.bufRef + 1) (highByte w)
      eng := { u.eng with bufRef := s.eng.bufRef + 2 } } = .next v →
    ∃ t, exec (.readBlock off count) s = .next t ∧ t.Ended .ok 0 ∧ t.chip = v.chip ∧ t.phy = v.phy ∧ t.irq = v.irq ∧
      t.hostMem = v.hostMem ∧ t.inbox = s.inbox) ∧
  (∀ (s u v : State) (off : Byte) (count : Word), s.Quiet → 0 < count.toNat →
    exec (.writeWord off (s.hostRead s.eng.bufRef 1 ++ s.hostRead s.eng.bufRef 0)) s = .next u →
    exec (.writeBlock off (count - 1)) { u with eng := { u.eng with bufRef := s.eng.bufRef + 2 } } = .next v →
    ∃ t, exec (.writeBlock off count) s = .next t ∧ t.Ended .ok 0 ∧ t.chip = v.chip ∧ t.phy = v.phy ∧
      t.irq = v.irq ∧ t.hostMem = s.hostMem ∧ t.inbox = s.inbox) ∧
  (∀ (s : State) (off : Byte) (count : Word) (e : Refusal), s.hang = none → 0 < count.toNat →
    (exec (.readWord off) s = .refused e → exec (.readBlock off count) s = .refused e) ∧
    (exec (.writeWord off (s.hostRead s.eng.bufRef 1 ++ s.hostRead s.eng.bufRef 0)) s = .refused e →
      exec (.writeBlock off count) s = .refused e)) ∧
  (∀ (s u : State) (off : Byte) (count : Word) (e : Refusal), s.hang = none → s.Quiet → 0 < count.toNat →
    exec (.readWord off) s = .next u → exec (.readBlock off (count - 1)) u = .refused e →
    exec (.readBlock off count) s = .refused e) ∧
  (∀ (s : State) (off : Byte) (p : Pkt) (e : Entry) (count : Word), s.Quiet → s.hang = none → off.toNat % 2 = 0 →
    s.DataAt off.toNat → s.DataReady p e 2 true → s.chip.dpStale = false →
    has s.chip.ptr (ptrAutoinc s.params) = true → e.pages * 256 < s.chip.dp + 2 * count.toNat →
    exec (.readBlock off count) s = .refused .dataAccess) ∧
  (∀ (s : State) (off : Byte) (p : Pkt) (e : Entry) (count : Word), s.Quiet → s.hang = none → off.toNat % 2 = 0 →
    s.DataAt off.toNat → s.DataReady p e 2 false → s.chip.dpStale = false →
    has s.chip.ptr (ptrAutoinc s.params) = true → e.pages * 256 < s.chip.dp + 2 * count.toNat →
    exec (.writeBlock off count) s = .refused .dataAccess) ∧
  (∀ (s u : State) (off : Byte) (count : Word) (e : Refusal), s.hang = none → s.Quiet → 0 < count.toNat →
    exec (.writeWord off (s.hostRead s.eng.bufRef 1 ++ s.hostRead s.eng.bufRef 0)) s = .next u →
    exec (.writeBlock off (count - 1)) { u with eng := { u.eng with bufRef := s.eng.bufRef + 2 } } = .refused e →
    exec (.writeBlock off count) s = .refused e) ∧
  ∀ (s : State) (off : Byte) (p : Pkt) (e : Entry) (count : Word), s.Quiet → off.toNat % 2 = 0 →
    s.DataAt off.toNat → s.DataReady p e 2 false →
    has s.chip.ptr (ptrAutoinc s.params) = true → s.chip.dp + 2 * count.toNat ≤ e.pages * 256 →
    ∃ t, exec (.writeBlock off count) s = .next t ∧ t.Ended .ok 0 ∧
      (∀ i, i < 2 * count.toNat → t.packetByte p (s.chip.dp + i) = some (s.hostRead s.eng.bufRef i)) ∧
      (∀ a, a < pktAddr p s.chip.dp ∨ pktAddr p s.chip.dp + 2 * count.toNat ≤ a →
        t.chip.pktMem.read a = s.chip.pktMem.read a) ∧
      t.chip = { s.chip with pktMem := t.chip.pktMem, dp := s.chip.dp + 2 * count.toNat } ∧ s.OnlyChip t

/-! ## The PHY's own steps (spec/44_mii.md) -/

/-- "Reset completes" only while a PHY reset is in progress, and then puts the PHY's own defaults in its registers, RESET
reading 0 (R266; ANEG_RESTART is not stored and reads as a draw, R267); a negotiation that has been started acknowledges, reports a remote fault or clears it,
and one that has not does nothing (R267). No step of the PHY touches the chip unit, and none what it is receiving. -/
def Obligations.PhyTakesItsOwnSteps : Prop :=
  (∀ s : State, s.phy.resetting = true → (agentStep .phyResetDone s).phy = { s.phy with
    ctrl := s.params.phyDefCtrl &&& ~~~(phyReset s.params ||| anegRestart s.params)
    stat := s.params.phyDefStat, adv := s.params.phyDefAdv, mask := s.params.phyDefMask, resetting := false }) ∧
  (∀ s : State, s.phy.resetting = false → agentStep .phyResetDone s = s) ∧
  (∀ s : State, s.phy.aneg = true →
    (agentStep .phySetAck s).phy = { s.phy with stat := s.phy.stat ||| anegAck s.params } ∧
    (agentStep .phySetRemFlt s).phy = { s.phy with stat := s.phy.stat ||| remFlt s.params } ∧
    (agentStep .phyClrRemFlt s).phy = { s.phy with stat := s.phy.stat &&& ~~~remFlt s.params }) ∧
  (∀ s : State, s.phy.aneg = false →
    agentStep .phySetAck s = s ∧ agentStep .phySetRemFlt s = s ∧ agentStep .phyClrRemFlt s = s) ∧
  ∀ (s : State) (e : AgentEvent), e = .phyResetDone ∨ e = .phySetAck ∨ e = .phySetRemFlt ∨ e = .phyClrRemFlt →
    (agentStep e s).chip = s.chip ∧ (agentStep e s).phy.rx = s.phy.rx ∧ (agentStep e s).phy.drive = s.phy.drive

/-! ## The allocator (spec/41_allocator.md) -/

/-- Outside the packet bank the allocator operations and the command rows are refused (R180, U1); with it selected, a
command is refused while BUSY = 1 or an allocate is pending that it does not replace (U9), and so is one that names no
packet it may have (U10): the command rows, and the operations ALLOCATE, RELEASE and FREE. FREE selects its packet first,
so with it the agents are taken at rest. Where a handler hangs no command is written any more (R324, O41). -/
def Obligations.UntakenCommandsAreRefused : Prop :=
  (∀ (s : State) (n p : Byte) (k : MmuCode), s.chip.bank ≠ s.params.regs.pb → n.toNat < 8 →
    exec (.allocate n) s = .refused .wrongBank ∧ exec .release s = .refused .wrongBank ∧
      exec (.free p) s = .refused .wrongBank ∧ exec .waitMmuIdle s = .refused .wrongBank ∧
      exec k.toInstr s = .refused .wrongBank) ∧
  (∀ (s : State) (n p : Byte) (k : MmuCode), s.hang = none → s.chip.bank = s.params.regs.pb → s.chip.busy = true →
    n.toNat < 8 →
    exec k.toInstr s = .refused .mmuBusy ∧ exec (.allocate n) s = .refused .mmuBusy ∧
      exec .release s = .refused .mmuBusy ∧ (s.Quiet → exec (.free p) s = .refused .mmuBusy)) ∧
  (∀ (s : State) (p : Byte) (k : MmuCode), s.hang = none → s.chip.bank = s.params.regs.pb →
    s.chip.allocPending = true →
    (∀ n, k ≠ .alloc n) →
    exec k.toInstr s = .refused .mmuBusy ∧ exec .release s = .refused .mmuBusy ∧
      (s.Quiet → exec (.free p) s = .refused .mmuBusy)) ∧
  (∀ s : State, s.hang = none → s.chip.bank = s.params.regs.pb → s.chip.pending = none → s.chip.autoFree = [] →
    s.chip.rxFifo = [] →
    exec .mmuRelease s = .refused .badPacket ∧ exec .release s = .refused .badPacket) ∧
  (∀ s : State, s.hang = none → s.chip.bank = s.params.regs.pb → s.chip.pending = none → s.chip.autoFree = [] →
    s.chip.allocated (s.chip.pktSel s.params) = false ∨ s.chip.queued (s.chip.pktSel s.params) = true →
    exec .mmuFree s = .refused .badPacket ∧ exec .mmuEnqueue s = .refused .badPacket) ∧
  ∀ (s : State) (p : Byte), s.hang = none → s.chip.bank = s.params.regs.pb → s.chip.pending = none →
    s.chip.autoFree = [] → s.Quiet → s.chip.allocated (p.setWidth 6) = false ∨ s.chip.queued (p.setWidth 6) = true →
    exec (.free p) s = .refused .badPacket

/-- The five command rows take effect at the write (R190, R191, R193 to R195): MMU_ALLOC clears INT_STATUS.ALLOC and is
pending, a release, a free of PNR.PKT or a reset is pending, MMU_ENQUEUE puts PNR.PKT at the tail of the transmit FIFO;
nothing else changes, but that no operation holds a handle behind its end (R186). -/
def Obligations.MmuCommandsTakeEffect : Prop :=
  ∀ (s : State) (k : MmuCode) (c : Chip), s.chip.bank = s.params.regs.pb → s.chip.busy = false →
    (∃ n, k = .alloc n ∧
      c = { s.chip with
        intStatus := s.chip.intStatus &&& ~~~intAlloc s.params, pending := some (.alloc n), arrSeen := false }) ∨
    (s.chip.allocPending = false ∧
      ((k = .release ∧ s.chip.rxFifo ≠ [] ∧ c = { s.chip with pending := some .release }) ∨
      (k = .reset ∧ c = { s.chip with pending := some .reset }) ∨
      (k = .free ∧ s.chip.allocated (s.chip.pktSel s.params) = true ∧ s.chip.queued (s.chip.pktSel s.params) = false ∧
        c = { s.chip with pending := some (.free (s.chip.pktSel s.params)) }) ∨
      (k = .enqueue ∧ s.chip.allocated (s.chip.pktSel s.params) = true ∧
        s.chip.queued (s.chip.pktSel s.params) = false ∧
        c = { s.chip with txFifo := s.chip.txFifo ++ [s.chip.pktSel s.params] }))) →
    ∃ t, exec k.toInstr s = .next t ∧ t.Ended .ok 0 ∧ t.eng.pkt = none ∧
      (s.Quiet → t.chip = c ∧ s.OnlyChip t ∧ s.SamePackets t)

/-- ALLOCATE answers the packet number the MMU agent hands out, with a buffer of `n + 1` pages; ARR shows it, and every
other buffer and every other register is as before (R181, R190, R196 a). -/
def Obligations.AllocateReturnsThePacket : Prop :=
  ∀ (s : State) (n : Byte) (p : Pkt) (dt : Nat), bitsOk s.params.bits → n.toNat < 8 →
    s.chip.bank = s.params.regs.pb → s.chip.busy = false →
    has s.chip.rcr (softRst s.params) = false → s.chip.allocated p = false →
    usedPages s.chip.table + (n.toNat + 1) ≤ s.params.totalPages → 1 ≤ s.params.allocAttempts →
    1 ≤ s.params.allocSpin → s.env.tape = [⟨dt, [.agent (.allocOk p)]⟩] →
    ∃ t, exec (.allocate n) s = .next t ∧ t.Ended .ok p.toNat ∧
      (∃ e, findEntry t.chip.table p = some e ∧ e.pages = n.toNat + 1) ∧
      (∀ q, q ≠ p → findEntry t.chip.table q = findEntry s.chip.table q) ∧
      (∀ q o, q ≠ p → o < bufferSpan → t.packetByte q o = s.packetByte q o) ∧
      has t.chip.arr (failedBit s.params) = false ∧ apktOf s.params t.chip.arr = p ∧
      t.chip = { s.chip with
        table := t.chip.table, pktMem := t.chip.pktMem, arr := t.chip.arr, arrSeen := true,
        intStatus := s.chip.intStatus ||| intAlloc s.params, pending := none } ∧
      s.OnlyChip t

/-- The ways ALLOCATE fails. Without an answer of the MMU agent it makes exactly `attempts * spin` reads of INT_STATUS
and none of ARR, raises AllocationExhausted and leaves the command pending (R181, R379). With a failure answer it raises
AllocationFailed with the ARR it read, FAILED in it, and no buffer is taken (R196 b). A success that does not set
INT_STATUS.ALLOC ends like no answer, but the buffer has been handed out (R196 d). -/
def Obligations.AllocateFailures : Prop :=
  (∀ (s : State) (n : Byte), n.toNat < 8 → s.chip.bank = s.params.regs.pb → s.chip.busy = false → s.Quiet →
    ∃ t new, exec (.allocate n) s = .next t ∧ t.Ended .allocationExhausted 0 ∧ t.env.trace = new ++ s.env.trace ∧
      new.countP (isReadOf .intStatus) = s.params.allocAttempts * s.params.allocSpin ∧
      new.countP (isReadOf .arr) = 0 ∧
      t.chip = { s.chip with
        intStatus := s.chip.intStatus &&& ~~~intAlloc s.params, pending := some (.alloc (n.setWidth 3)),
        arrSeen := false } ∧
      s.OnlyChip t ∧ s.SamePackets t) ∧
  (∀ (s : State) (n : Byte) (dt : Nat), n.toNat < 8 → s.chip.bank = s.params.regs.pb → s.chip.busy = false →
    has s.chip.rcr (softRst s.params) = false → 1 ≤ s.params.allocAttempts → 1 ≤ s.params.allocSpin →
    s.env.tape = [⟨dt, [.agent .allocFail]⟩] →
    ∃ t, exec (.allocate n) s = .next t ∧ t.Ended (.allocationFailed t.chip.arr) 0 ∧
      has t.chip.arr (failedBit s.params) = true ∧
      t.chip = { s.chip with
        arr := t.chip.arr, arrSeen := true, intStatus := s.chip.intStatus ||| intAlloc s.params, pending := none } ∧
      s.OnlyChip t ∧ s.SamePackets t) ∧
  ∀ (s : State) (n : Byte) (p : Pkt) (dt : Nat), n.toNat < 8 → s.chip.bank = s.params.regs.pb →
    s.chip.busy = false → has s.chip.rcr (softRst s.params) = false → s.chip.allocated p = false →
    usedPages s.chip.table + (n.toNat + 1) ≤ s.params.totalPages →
    s.env.tape = [⟨dt, [.agent (.allocSilent p)]⟩] →
    ∃ t new, exec (.allocate n) s = .next t ∧ t.Ended .allocationExhausted 0 ∧ t.env.trace = new ++ s.env.trace ∧
      new.countP (isReadOf .intStatus) = s.params.allocAttempts * s.params.allocSpin ∧
      new.countP (isReadOf .arr) = 0 ∧
      (∃ e, findEntry t.chip.table p = some e ∧ e.pages = n.toNat + 1) ∧
      (∀ q, q ≠ p → findEntry t.chip.table q = findEntry s.chip.table q) ∧
      (∀ q o, q ≠ p → o < bufferSpan → t.packetByte q o = s.packetByte q o) ∧
      t.chip = { s.chip with
        table := t.chip.table, pktMem := t.chip.pktMem, arr := t.chip.arr, arrSeen := false,
        intStatus := s.chip.intStatus &&& ~~~intAlloc s.params, pending := none } ∧
      s.OnlyChip t

/-- RELEASE gives back the buffer at the head of the receive FIFO (R184, R191), FREE the packet it names, which is left
in PNR (R185, R193); every other buffer and register is as before. The MMU agent completes the command in the gap behind
its write. A buffer given back is no failed one any more (log 45). -/
def Obligations.ReleaseAndFreeGiveBack : Prop :=
  (∀ (s : State) (p : Pkt) (rest : List Pkt) (dt : Nat), s.chip.bank = s.params.regs.pb → s.chip.pending = none →
    s.chip.autoFree = [] → has s.chip.rcr (softRst s.params) = false → s.chip.rxFifo = p :: rest →
    s.env.tape = [⟨dt, [.agent .mmuDone]⟩] →
    ∃ t, exec .release s = .next t ∧ t.Ended .ok 0 ∧ t.chip.rxFifo = rest ∧
      (∀ q, t.chip.allocated q = (q != p && s.chip.allocated q)) ∧
      (∀ q o, q ≠ p → o < bufferSpan → t.packetByte q o = s.packetByte q o) ∧
      t.chip = { s.chip with
        table := t.chip.table, pktMem := t.chip.pktMem, rxFifo := rest,
        failed := s.chip.failed.filter (fun q => q != p) } ∧
      s.OnlyChip t) ∧
  ∀ (s : State) (p : Byte), s.chip.bank = s.params.regs.pb → s.chip.pending = none → s.chip.autoFree = [] →
    has s.chip.rcr (softRst s.params) = false → s.chip.allocated (p.setWidth 6) = true →
    s.chip.queued (p.setWidth 6) = false → s.env.tape = quietGaps 1 ++ agentGap .mmuDone →
    ∃ t, exec (.free p) s = .next t ∧ t.Ended .ok 0 ∧
      (∀ q, t.chip.allocated q = (q != p.setWidth 6 && s.chip.allocated q)) ∧
      (∀ q o, q ≠ p.setWidth 6 → o < bufferSpan → t.packetByte q o = s.packetByte q o) ∧
      t.chip.pktSel s.params = p.setWidth 6 ∧
      t.chip = { s.chip with
        pnr := p <<< s.params.bits.pkt.val, table := t.chip.table, pktMem := t.chip.pktMem,
        failed := s.chip.failed.filter (fun q => q != p.setWidth 6) } ∧
      s.OnlyChip t

/-- WAIT_MMU_IDLE ends at once when BUSY = 0, stands in its wait while BUSY = 1, and goes on when BUSY has fallen (R183);
a BUSY that never falls keeps it there for ever, an error that holds the state (R324, U17). The handler's own
WAIT_MMU_IDLE (R334) hangs likewise: a run that never ends stands at its poll with BUSY = 1, and every later step polls
again and changes nothing of the chip unit; nothing is taken from the inbox. The step in which it starts ends there,
whether an idle engine, an operation's gap or a wait holds that gap: the first hang is noted, nothing the foreground would
have done behind it unmakes it, refuses or faults, and the step answers the machine at that poll (how a hang is held is
log 46). -/
def Obligations.WaitMmuIdleWaitsForBusy : Prop :=
  (∀ s : State, s.chip.bank = s.params.regs.pb → s.chip.busy = false →
    ∃ t, exec .waitMmuIdle s = .next t ∧ t.Ended .ok 0 ∧
      (s.Quiet → t.chip = s.chip ∧ s.OnlyChip t ∧ s.SamePackets t)) ∧
  (∀ s : State, s.chip.bank = s.params.regs.pb → s.chip.busy = true →
    ∃ t, exec .waitMmuIdle s = .next t ∧ t.eng.pos = .waitIdle ∧ t.eng.result = s.eng.result ∧
      (s.Quiet → t.chip = s.chip ∧ s.OnlyChip t ∧ s.SamePackets t)) ∧
  (∀ s : State, s.eng.pos = .waitIdle → s.chip.busy = false → s.hang = none → s.irq.enabled = false →
    ∃ t, step s = .next t ∧ t.Ended .ok 0 ∧ (s.Quiet → t.chip = s.chip ∧ s.OnlyChip t ∧ s.SamePackets t)) ∧
  (∀ (s : State) (k : Nat), s.eng.pos = .waitIdle → s.chip.busy = true → s.hang = none → s.Quiet →
    ∃ t, runToIdle k s = .next t ∧ t.eng.pos = .waitIdle ∧ t.chip = s.chip) ∧
  (∀ (h : HandlerRun) (s u : State), runHandler h s = some (.error u) →
    u.chip.busy = true ∧ (∃ k, u.irq.pos = .wait k 1) ∧ u.chip.bank = s.params.regs.pb) ∧
  (∀ (h : HandlerRun) (s u : State), s.eng.pos = .idle → s.inbox = [] → s.hang = none →
    s.env.tape = [⟨0, [.irq h]⟩] → runHandler h { s with env := { s.env with tape := [] } } = some (.error u) →
    ∃ t, step s = .next t ∧ t.eng.pos = .irqHang ∧ t.eng.result = none ∧ t.chip = u.chip ∧ t.irq = u.irq) ∧
  (∀ (s u : State) (h : HandlerRun) (dt : Nat) (rest : List Gap), s.hang = none →
    s.env.tape = ⟨dt, [.irq h]⟩ :: rest →
    runHandler h { s with env := { s.env with tape := rest, now := s.env.now + dt } } = some (.error u) →
    (gap s).hang = some ⟨u.chip, u.phy, u.eng, u.irq, u.hostMem, u.env⟩) ∧
  (∀ (s : State) (h : Hang), s.hang = some h → (gap s).hang = some h) ∧
  (∀ (i : Instr) (s t : State) (h : Hang), s.hang = some h → exec i s = .next t → t.hang = some h) ∧
  (∀ (i : Instr) (s : State) (h : Hang), s.hang = some h →
    (∃ len, i = .transmit len) ∨ i = .receive ∨ (∃ off n, i = .readBlock off n ∨ i = .writeBlock off n) ∨
      i = .reset ∨ i = .openOp ∨
      (s.chip.bank = s.params.regs.pb ∧ (i = .release ∨ (∃ p, i = .free p) ∨ ∃ n : Byte, n.toNat < 8 ∧
        i = .allocate n)) →
    ∃ t, exec i s = .next t ∧ t.hang = some h) ∧
  (∀ (n : Next) (k : MmuCode) (v : Word) (s : State) (h : Hang), s.hang = some h →
    (∃ t, wrMmu n k s = .ok t ∧ t.hang = some h) ∧ (∃ a, rdData n s = .ok a ∧ a.2.hang = some h) ∧
      ∃ t, wrData n v s = .ok t ∧ t.hang = some h) ∧
  (∀ (s : State) (r : Request) (buf : Nat) (rest : List Input) (i : Instr) (u t : State) (h : Hang),
    s.eng.pos = .idle → s.inbox = .op r buf :: rest → decode s.params.codes r = .ok i →
    u = gap { s with
      inbox := rest, eng := { s.eng with bufRef := buf, result := none, point := [⟨i, 1, 1, .none⟩] } } →
    u.hang = some h ∨ (u.hang = none ∧ exec i u = .next t ∧ t.hang = some h) →
    ∃ v, step s = .next v ∧ v.eng.pos = .irqHang ∧ v.eng.result = none ∧ v.chip = h.chip ∧ v.phy = h.phy ∧
      v.irq = h.irq ∧ v.hostMem = h.hostMem ∧ v.inbox = rest ∧ v.hang = none) ∧
  (∀ (s t : State) (h : Hang), s.eng.pos ≠ .idle → resume s = .next t → t.hang = some h →
    ∃ v, step s = .next v ∧ v.eng.pos = .irqHang ∧ v.eng.result = none ∧ v.chip = h.chip ∧ v.phy = h.phy ∧
      v.irq = h.irq ∧ v.inbox = s.inbox ∧ v.hang = none) ∧
  ∀ (s : State) (k : Nat), s.eng.pos = .irqHang → s.hang = none →
    ∃ t, runToIdle k s = .next t ∧ t.eng.pos = .irqHang ∧ t.chip = s.chip ∧ t.inbox = s.inbox ∧
      t.hostMem = s.hostMem ∧ t.phy = s.phy

/-! ## TRANSMIT (spec/42_transmit.md) -/

/-- A frame whose page count is above 7, which is one longer than 2041 bytes, is turned away with FrameTooLarge, no
register and no host byte touched; no other is (R201). -/
def Obligations.OversizeFramesAreRejected : Prop :=
  ∀ (s : State) (len : Word),
    (7 < (max len.toNat 60 / 2 * 2 + 6) / 256 ↔ 2041 < len.toNat) ∧
    (2041 < len.toNat → exec (.transmit len) s = .next (s.finish .frameTooLarge 0)) ∧
    (len.toNat ≤ 2041 → ∀ t, exec (.transmit len) s = .next t → ¬ t.Ended .frameTooLarge 0)

/-- A TRANSMIT whose buffer the MMU agent hands out, and whose transmitter does its work in the gap behind the enqueue,
ends with the padded length. The frame the transmitter takes is the caller's, padded (R102 c, R212; that it is read at the
dequeue is log 44). PNR and PTR are what they were, PB is selected, TX_EMPTY is acknowledged, TX and TX_EMPTY are enabled in
INT_MASK, the auto-released buffer is free again, and every other buffer, the PHY and host memory are as before (R200,
R202, R206 to R208, R210, R213). -/
def Obligations.TransmitSendsTheFrame : Prop :=
  ∀ (s : State) (len : Word) (p : Pkt) (tx : Bool), bitsOk s.params.bits → len.toNat ≤ 2041 → s.chip.busy = false →
    has s.chip.rcr (softRst s.params) = false → s.chip.allocated p = false → s.chip.queued p = false →
    usedPages s.chip.table + (pageCode (paddedLength len.toNat) + 1) ≤ s.params.totalPages →
    1 ≤ s.params.allocAttempts → 1 ≤ s.params.allocSpin → s.chip.txFifo = [] → s.chip.inFlight = none →
    has s.chip.tcr (txen s.params) = true → has s.chip.config (powerEn s.params) = true →
    has s.chip.ctl (autoRelease s.params) = true →
    s.env.tape = quietGaps 3 ++ agentGap (.allocOk p) ++ quietGaps (paddedLength len.toNat / 2 + 9) ++
      [⟨0, [.agent .txDequeue, .agent (.txDone tx), .agent .autoFreeDone]⟩] →
    ∃ t bytes, exec (.transmit len) s = .next t ∧ t.Ended .ok (paddedLength len.toNat) ∧
      t.env.sent = ⟨p, some bytes⟩ :: s.env.sent ∧ bytes.length = paddedLength len.toNat ∧
      bytes.take len.toNat = (List.range len.toNat).map (s.hostRead s.eng.bufRef) ∧
      t.chip = { s.chip with
        bank := s.params.regs.pb, dp := offsetOf s.params s.chip.ptr, dpStale := false, arr := t.chip.arr,
        arrSeen := true, pending := none, intStatus := t.chip.intStatus,
        intMask := s.chip.intMask ||| (intTx s.params ||| intTxEmpty s.params), table := t.chip.table,
        pktMem := t.chip.pktMem, failed := s.chip.failed.filter (fun q => q != p) } ∧
      has t.chip.intStatus (intTxEmpty s.params) = false ∧ t.chip.allocated p = false ∧
      (∀ q, findEntry t.chip.table q = findEntry s.chip.table q) ∧
      (∀ q o, o < bufferSpan → t.packetByte q o = s.packetByte q o) ∧
      t.phy = s.phy ∧ (∀ a, t.hostMem.read a = s.hostMem.read a) ∧ t.irq = { s.irq with hold := t.irq.hold } ∧
      t.eng.pkt = none ∧ t.eng.savedPnr = s.chip.pnr ∧ t.eng.savedPtr = s.chip.ptr

/-- What TRANSMIT leaves in its buffer when it comes to the poll (R134 to R137, R203 to R205): a zero status word, the
byte count `length + 6`, the caller's bytes in rising order, and the control word, with the odd byte in it for an odd
length; the envelope decoder gives the payload back (R211). The packet stands at the tail of the transmit FIFO, the handle
is dead (R186), and no other buffer has changed. -/
def Obligations.TransmitWritesTheEnvelope : Prop :=
  ∀ (s : State) (len : Word) (p : Pkt), bitsOk s.params.bits → len.toNat ≤ 2041 → s.chip.busy = false →
    has s.chip.rcr (softRst s.params) = false → s.chip.allocated p = false → s.chip.queued p = false →
    usedPages s.chip.table + (pageCode (paddedLength len.toNat) + 1) ≤ s.params.totalPages →
    1 ≤ s.params.allocAttempts → 1 ≤ s.params.allocSpin → 1 ≤ s.params.txTimeout →
    has s.chip.intStatus (intTxEmpty s.params) = false → s.env.tape = quietGaps 3 ++ agentGap (.allocOk p) →
    ∃ t, exec (.transmit len) s = .next t ∧ t.eng.pos = .txPoll (paddedLength len.toNat) ∧ t.eng.pkt = none ∧
      t.chip.txFifo = s.chip.txFifo ++ [p] ∧ t.chip.bank = s.params.regs.pb ∧
      t.packetByte p 0 = some 0 ∧ t.packetByte p 1 = some 0 ∧
      t.packetByte p 2 = some (lowByte (BitVec.ofNat 16 (paddedLength len.toNat + 6))) ∧
      t.packetByte p 3 = some (highByte (BitVec.ofNat 16 (paddedLength len.toNat + 6))) ∧
      (∀ i, i < len.toNat → t.packetByte p (4 + i) = some (s.hostRead s.eng.bufRef i)) ∧
      (paddedLength len.toNat % 2 = 0 → t.packetByte p (4 + paddedLength len.toNat) = some 0 ∧
        t.packetByte p (5 + paddedLength len.toNat) = some 0) ∧
      (paddedLength len.toNat % 2 = 1 → t.packetByte p (4 + paddedLength len.toNat) = some (ctlOdd s.params)) ∧
      (∃ e bytes, findEntry t.chip.table p = some e ∧ decodeEnvelope s.params (t.chip.bufByte e) = some bytes ∧
        bytes.length = paddedLength len.toNat ∧
        bytes.take len.toNat = (List.range len.toNat).map (s.hostRead s.eng.bufRef)) ∧
      (∀ q o, q ≠ p → o < bufferSpan → t.packetByte q o = s.packetByte q o) ∧
      t.chip.rxFifo = s.chip.rxFifo ∧ t.phy = s.phy ∧ ∀ a, t.hostMem.read a = s.hostMem.read a

/-- How TRANSMIT ends otherwise: an allocation that is not answered, that is answered with failure, or whose success is
silent restores PNR and PTR and raises TransmitAllocationFailed with its cause (R209, R196); at the poll the flag is tested
before the clock (R207), so TX_EMPTY ends it well however late; without TX_EMPTY it raises TransmitTimeout once the time
is up (R209), and polls again before that. A failure exit restores as RESTORE_ON_FAILURE says (D11). -/
def Obligations.TransmitOtherEnds : Prop :=
  (∀ (s : State) (len : Word), len.toNat ≤ 2041 → s.chip.busy = false → s.Quiet →
    ∃ t, exec (.transmit len) s = .next t ∧ t.Ended (.transmitAllocationFailed .exhausted) 0 ∧
      t.chip = { s.chip with
        bank := s.params.regs.pb
        dp := if s.params.restoreOnFailure then offsetOf s.params s.chip.ptr else s.chip.dp
        dpStale := if s.params.restoreOnFailure then false else s.chip.dpStale
        arrSeen := false, intStatus := s.chip.intStatus &&& ~~~intAlloc s.params,
        pending := some (.alloc (BitVec.ofNat 3 (pageCode (paddedLength len.toNat)))) } ∧
      t.phy = s.phy ∧ ∀ a, t.hostMem.read a = s.hostMem.read a) ∧
  (∀ (s : State) (len : Word), len.toNat ≤ 2041 → s.chip.busy = false →
    has s.chip.rcr (softRst s.params) = false → 1 ≤ s.params.allocAttempts → 1 ≤ s.params.allocSpin →
    s.env.tape = quietGaps 3 ++ agentGap .allocFail →
    ∃ t, exec (.transmit len) s = .next t ∧ t.Ended (.transmitAllocationFailed (.failed t.chip.arr)) 0 ∧
      has t.chip.arr (failedBit s.params) = true ∧
      t.chip = { s.chip with
        bank := s.params.regs.pb
        dp := if s.params.restoreOnFailure then offsetOf s.params s.chip.ptr else s.chip.dp
        dpStale := if s.params.restoreOnFailure then false else s.chip.dpStale
        arr := t.chip.arr, arrSeen := true, intStatus := s.chip.intStatus ||| intAlloc s.params, pending := none } ∧
      t.phy = s.phy ∧ ∀ a, t.hostMem.read a = s.hostMem.read a) ∧
  (∀ (s : State) (len : Word) (p : Pkt), len.toNat ≤ 2041 → s.chip.busy = false →
    has s.chip.rcr (softRst s.params) = false → s.chip.allocated p = false →
    usedPages s.chip.table + (pageCode (paddedLength len.toNat) + 1) ≤ s.params.totalPages →
    s.env.tape = quietGaps 3 ++ agentGap (.allocSilent p) →
    ∃ t, exec (.transmit len) s = .next t ∧ t.Ended (.transmitAllocationFailed .exhausted) 0 ∧
      t.chip.allocated p = true ∧ t.chip.pending = none ∧ t.chip.txFifo = s.chip.txFifo ∧
      t.chip.pnr = s.chip.pnr ∧ t.chip.ptr = s.chip.ptr ∧
      ∀ q o, q ≠ p → o < bufferSpan → t.packetByte q o = s.packetByte q o) ∧
  (∀ (s : State) (length : Nat), s.eng.pos = .txPoll length → s.chip.busy = false →
    s.hang = none → s.Quiet → has s.chip.intStatus (intTxEmpty s.params) = true →
    ∃ t, step s = .next t ∧ t.Ended .ok length ∧
      t.chip = { s.chip with
        intStatus := s.chip.intStatus &&& ~~~intTxEmpty s.params, arrSeen := t.chip.arrSeen, pnr := s.eng.savedPnr,
        ptr := s.eng.savedPtr, dp := offsetOf s.params s.eng.savedPtr, dpStale := false }) ∧
  (∀ (s : State) (length : Nat), s.eng.pos = .txPoll length → s.chip.busy = false → s.hang = none → s.Quiet →
    has s.chip.intStatus (intTxEmpty s.params) = false → s.params.txTimeout ≤ s.env.now - s.eng.t0 →
    ∃ t, step s = .next t ∧ t.Ended .transmitTimeout 0 ∧
      t.chip = (if s.params.restoreOnFailure then
          { s.chip with
            arrSeen := t.chip.arrSeen, pnr := s.eng.savedPnr, ptr := s.eng.savedPtr,
            dp := offsetOf s.params s.eng.savedPtr, dpStale := false }
        else { s.chip with arrSeen := t.chip.arrSeen })) ∧
  ∀ (s : State) (length : Nat), s.eng.pos = .txPoll length → s.hang = none → s.Quiet →
    has s.chip.intStatus (intTxEmpty s.params) = false → s.env.now - s.eng.t0 < s.params.txTimeout →
    ∃ t, step s = .next t ∧ t.eng.pos = .txPoll length ∧ t.chip = { s.chip with arrSeen := t.chip.arrSeen }

/-! ## RECEIVE (spec/43_receive.md) -/

/-- RECEIVE of a frame without error flags delivers its `n` payload bytes in order into the sink and no byte beside them,
gives the buffer back and restores PNR and PTR; the result is `n` (R220, R222 to R227, R229). -/
def Obligations.ReceiveDeliversTheFrame : Prop :=
  ∀ (s : State) (p : Pkt) (rest : List Pkt) (e : Entry) (n : Nat), bitsOk s.params.bits → s.chip.pending = none →
    s.chip.autoFree = [] → has s.chip.rcr (softRst s.params) = false → s.chip.rxFifo = p :: rest →
    findEntry s.chip.table p = some e →
    has (s.chip.bufByte e 1 ++ s.chip.bufByte e 0) (rxErrorMask s.params) = false →
    ((s.chip.bufByte e 3 ++ s.chip.bufByte e 2 : Word) &&& 0x07FF).toNat = n + 4 → n + n % 2 + 4 ≤ e.pages * 256 →
    s.env.tape = quietGaps (8 + (n + 1) / 2) ++ agentGap .mmuDone →
    ∃ t, exec .receive s = .next t ∧ t.Ended .ok n ∧
      (∀ i, i < n → t.hostRead s.eng.bufRef i = s.chip.bufByte e (4 + i)) ∧
      (∀ a, a < s.eng.bufRef ∨ s.eng.bufRef + n ≤ a → t.hostMem.read a = s.hostMem.read a) ∧
      (∀ q, t.chip.allocated q = (q != p && s.chip.allocated q)) ∧
      (∀ q o, q ≠ p → o < bufferSpan → t.packetByte q o = s.packetByte q o) ∧
      t.chip = { s.chip with
        bank := s.params.regs.pb, dp := offsetOf s.params s.chip.ptr, dpStale := false, rxFifo := rest,
        table := t.chip.table, pktMem := t.chip.pktMem, failed := s.chip.failed.filter (fun q => q != p) } ∧
      t.env.trace.head? = some (.deliver s.eng.bufRef n) ∧ t.phy = s.phy ∧ t.irq = { s.irq with hold := t.irq.hold }

/-- How RECEIVE ends otherwise: an empty FIFO is a poll-miss, result 0 with PB selected and nothing else changed (R221); a
frame with an error flag is given back unread and reported, every other buffer and all of host memory as before (R223,
R226, R227); a raw length below 4 without an error flag is the fault of U7 (R229). -/
def Obligations.ReceiveOtherEnds : Prop :=
  (∀ s : State, s.chip.rxFifo = [] → s.Quiet →
    ∃ t, exec .receive s = .next t ∧ t.Ended .ok 0 ∧ t.chip = { s.chip with bank := s.params.regs.pb } ∧
      t.phy = s.phy ∧ ∀ a, t.hostMem.read a = s.hostMem.read a) ∧
  (∀ (s : State) (p : Pkt) (rest : List Pkt) (e : Entry), bitsOk s.params.bits → s.chip.pending = none →
    s.chip.autoFree = [] → has s.chip.rcr (softRst s.params) = false → s.chip.rxFifo = p :: rest →
    findEntry s.chip.table p = some e → 1 ≤ e.pages →
    has (s.chip.bufByte e 1 ++ s.chip.bufByte e 0) (rxErrorMask s.params) = true →
    s.env.tape = quietGaps 8 ++ agentGap .mmuDone →
    ∃ t, exec .receive s = .next t ∧ t.Ended (.receiveError (s.chip.bufByte e 1 ++ s.chip.bufByte e 0)) 0 ∧
      (∀ a, t.hostMem.read a = s.hostMem.read a) ∧
      (∀ q, t.chip.allocated q = (q != p && s.chip.allocated q)) ∧
      (∀ q o, q ≠ p → o < bufferSpan → t.packetByte q o = s.packetByte q o) ∧
      t.chip = { s.chip with
        bank := s.params.regs.pb, dp := offsetOf s.params s.chip.ptr, dpStale := false, rxFifo := rest,
        table := t.chip.table, pktMem := t.chip.pktMem, failed := s.chip.failed.filter (fun q => q != p) }) ∧
  ∀ (s : State) (p : Pkt) (rest : List Pkt) (e : Entry), bitsOk s.params.bits → s.chip.rxFifo = p :: rest →
    findEntry s.chip.table p = some e → 1 ≤ e.pages →
    has (s.chip.bufByte e 1 ++ s.chip.bufByte e 0) (rxErrorMask s.params) = false →
    ((s.chip.bufByte e 3 ++ s.chip.bufByte e 2 : Word) &&& 0x07FF).toNat < 4 → s.Quiet → s.hang = none →
    exec .receive s = .fault .rxLengthBelowHeader

/-- One MMU_RELEASE per poll that found a frame, none per poll-miss, whatever the frame holds and whatever the agents and
the interrupt context do (R228): over a RECEIVE that has ended, the trace has grown by as many release commands as FIFO
reads that showed a frame, at most one. -/
def Obligations.ReceiveReleasesOncePerFrame : Prop :=
  ∀ (k : Nat) (s t : State), codesOk s.params.codes → runOperation k .receive s = .next t → t.eng.pos = .idle →
    ∃ new, t.env.trace = new ++ s.env.trace ∧ new.countP (isReadOf .fifo) = 1 ∧
      new.countP (isReleaseWrite s.params.codes) = new.countP (isFrameSeen s.params)

/-! ## MII (spec/44_mii.md) and PHY_CONFIGURE (spec/45_phy_configure.md) -/

/-- Every management exchange completes, in every state and on every schedule, and leaves the bank, PNR, PTR and the bits
of MGMT other than its four management bits as they were; MGMT is left idle, the sequence discarded, host memory untouched
(R243, R246 to R248, R250, R251). "Every schedule" is said of `exec`: where a handler hangs in a gap of the exchange, the
step answers that hang instead (O41, log 46); the state it stands in shows the saved bank and the frame the exchange was
built with, of whose cycles only the `in` flags have been written (R105). -/
def Obligations.ExchangesRestoreTheBank : Prop :=
  ∀ (i : Instr) (f : List Drive) (s : State),
    (∃ reg : Byte, reg.toNat < 32 ∧
      ((i = .miiRead reg ∧ f = buildRead s.params.phyAddr (reg.setWidth 5)) ∨
        ∃ v, i = .miiWrite reg v ∧ f = buildWrite s.params.phyAddr (reg.setWidth 5) v)) ∨
    (∃ phy reg : BitVec 5, (i = .miiReadFrame phy reg ∧ f = buildRead phy reg) ∨
      ∃ v, i = .miiWriteFrame phy reg v ∧ f = buildWrite phy reg v) →
    ∃ t v, exec i s = .next t ∧ t.Ended .ok v ∧ t.chip.bank = s.chip.bank ∧ t.chip.pnr = s.chip.pnr ∧
      t.chip.ptr = s.chip.ptr ∧
      t.chip.mgmt = s.chip.mgmt &&& ~~~(mdoe s.params ||| mclk s.params ||| mdi s.params ||| mdo s.params) ∧
      t.eng.seqBuf = [] ∧ t.hostMem = s.hostMem ∧
      (∀ h, s.hang = none → t.hang = some h →
        h.eng.savedBank = s.chip.bank ∧ h.eng.seqBuf.map (fun c => Drive.mk c.oe c.dat) = f) ∧
      (s.Quiet → t.chip = { s.chip with mgmt := t.chip.mgmt } ∧ t.irq = s.irq ∧ t.inbox = s.inbox)

/-- The accesses of one exchange: those of R254 in order, `n` clock cycles low then high with a low at the end (R253), and
`2 n` delays of the half-period (R245), with `n` 64 for a read and 65 for a write. -/
def Obligations.ExchangeAccessOrder : Prop :=
  ∀ (i : Instr) (n : Nat) (s : State), bitsOk s.params.bits → s.irq.enabled = false →
    (n = 64 ∧ ((∃ reg : Byte, reg.toNat < 32 ∧ i = .miiRead reg) ∨ ∃ phy reg, i = .miiReadFrame phy reg)) ∨
    (n = 65 ∧ ((∃ (reg : Byte) (v : Word), reg.toNat < 32 ∧ i = .miiWrite reg v) ∨
      ∃ phy reg v, i = .miiWriteFrame phy reg v)) →
    ∃ t new, exec i s = .next t ∧ t.env.trace = new ++ s.env.trace ∧
      new.reverse.filterMap windowAccess = exchangeAccesses n ∧
      new.reverse.filterMap (clockLevel s.params) = (List.replicate n [false, true]).flatten ++ [false] ∧
      new.countP (isDelayOf 50) = 2 * n ∧ new.length = 5 * n + 5

/-- An exchange with the PHY at its address reads and writes its registers (R250 to R252, R262 to R268): PHY_STAT, PHY_AD
and PHY_MASK read what they hold, PHY_CTRL its stored bits and RESET; a write changes PHY_AD and PHY_MASK, is dropped by
PHY_STAT, is ignored by every register YF255 does not name (R268), and in PHY_CTRL stores all bits but RESET and
ANEG_RESTART, which start a reset and a negotiation. That a write during a PHY reset is taken like any other is the model's
(DESIGN CHOICE, log 27). An exchange at another address leaves the PHY's registers and its progress alone, and without a
PHY on the pins nothing of it changes (R256, R263). -/
def Obligations.ExchangesReachThePhy : Prop :=
  (∀ (s : State) (i : Instr) (a r : BitVec 5), bitsOk s.params.bits → phyMapOk s.params.phyMap → s.Quiet →
    s.phy.addr = some a → s.phy.rx = .hunt →
    i = .miiReadFrame a r ∨ (a = s.params.phyAddr ∧ i = .miiRead (r.setWidth 8)) →
    ∃ (t : State) (w : Word), exec i s = .next t ∧ t.Ended .ok w.toNat ∧
      t.phy = { s.phy with ones := 0, drive := none } ∧
      (r = s.params.phyMap.stat → w = s.phy.stat) ∧ (r = s.params.phyMap.ad → w = s.phy.adv) ∧
      (r = s.params.phyMap.mask → w = s.phy.mask) ∧
      (r = s.params.phyMap.ctrl → has w (phyReset s.params) = s.phy.resetting ∧
        w &&& ~~~(phyReset s.params ||| anegRestart s.params) =
          s.phy.ctrl &&& ~~~(phyReset s.params ||| anegRestart s.params))) ∧
  (∀ (s : State) (i : Instr) (a r : BitVec 5) (v : Word) (p : Phy), bitsOk s.params.bits →
    phyMapOk s.params.phyMap → s.Quiet → s.phy.addr = some a → s.phy.rx = .hunt →
    i = .miiWriteFrame a r v ∨ (a = s.params.phyAddr ∧ i = .miiWrite (r.setWidth 8) v) →
    (r = s.params.phyMap.stat ∧ p = s.phy) ∨ (r = s.params.phyMap.ad ∧ p = { s.phy with adv := v }) ∨
    (r = s.params.phyMap.mask ∧ p = { s.phy with mask := v }) ∨
    (r ∉ [s.params.phyMap.ctrl, s.params.phyMap.stat, s.params.phyMap.ad, s.params.phyMap.mask] ∧ p = s.phy) ∨
    (r = s.params.phyMap.ctrl ∧ p = { s.phy with
      ctrl := v &&& ~~~(phyReset s.params ||| anegRestart s.params)
      resetting := s.phy.resetting || has v (phyReset s.params)
      aneg := s.phy.aneg || has v (anegRestart s.params)
      stat := if has v (anegRestart s.params) then s.phy.stat &&& ~~~anegAck s.params else s.phy.stat }) →
    ∃ t, exec i s = .next t ∧ t.Ended .ok 0 ∧ t.phy = { p with ones := 0, drive := none }) ∧
  ∀ (s : State) (i : Instr) (a r : BitVec 5), bitsOk s.params.bits → s.Quiet → s.phy.addr ≠ some a →
    s.phy.rx = .hunt →
    i = .miiReadFrame a r ∨ (∃ v, i = .miiWriteFrame a r v) ∨
      (a = s.params.phyAddr ∧ (i = .miiRead (r.setWidth 8) ∨ ∃ v, i = .miiWrite (r.setWidth 8) v)) →
    ∃ t v, exec i s = .next t ∧ t.Ended .ok v ∧ (s.phy.addr = none → t.phy = s.phy) ∧
      (s.phy.addr ≠ none → t.phy = { s.phy with ones := 0, drive := none })

/-- The fixed mapping of capabilities to advertisement (R155). -/
def Obligations.AdvertisementMapping : Prop :=
  ∀ (p : Config.Params) (caps : Word), phyMapOk p.phyMap →
    has (advertise p caps) (adCsma p) = true ∧ has (advertise p caps) (adT4 p) = has caps (capT4 p) ∧
    has (advertise p caps) (ad100Fd p) = has caps (cap100Fd p) ∧
    has (advertise p caps) (ad100Hd p) = has caps (cap100Hd p) ∧
    has (advertise p caps) (ad10Fd p) = has caps (cap10Fd p) ∧
    has (advertise p caps) (ad10Hd p) = has caps (cap10Hd p) ∧
    advertise p caps &&& ~~~(adCsma p ||| adT4 p ||| ad100Fd p ||| ad100Hd p ||| ad10Fd p ||| ad10Hd p) = 0 ∧
    advertise p caps = advertise p (caps &&& (capT4 p ||| cap100Fd p ||| cap100Hd p ||| cap10Fd p ||| cap10Hd p))

/-- PHY_CONFIGURE ends on every schedule, with one of its three results, the bank, PNR and PTR as they were (R280, R287);
it ends well with a PHY that completes its reset and then its negotiation, and leaves PHY_MASK, PHY_AD and ANEG_EN as
steps 4 to 8 write them (R281 to R286). "Every schedule" is said of `exec`: where a handler hangs in a gap of it, the step
answers that hang instead (O41, log 46). -/
def Obligations.PhyConfigureCompletes : Prop :=
  (∀ s : State, ∃ t c, exec .phyConfigure s = .next t ∧ t.Ended c 0 ∧
    (c = .ok ∨ c = .phyResetTimeout ∨ c = .phyAutonegTimeout) ∧ t.chip.bank = s.chip.bank ∧
    t.chip.pnr = s.chip.pnr ∧ t.chip.ptr = s.chip.ptr ∧ t.hostMem = s.hostMem) ∧
  ∀ s : State, bitsOk s.params.bits → phyMapOk s.params.phyMap → s.phy.addr = some s.params.phyAddr →
    s.phy.rx = .hunt →
    s.env.tape = quietGaps 329 ++ agentGap .phyResetDone ++ quietGaps (325 + 330 + 325 + 330 + 329) ++
      agentGap .phySetAck →
    ∃ t, exec .phyConfigure s = .next t ∧ t.Ended .ok 0 ∧
      t.phy.mask = s.params.phyIntMask ∧ t.phy.adv = advertise s.params s.params.phyDefStat ∧
      t.phy.ctrl = anegEn s.params ∧ t.phy.aneg = true ∧ t.phy.resetting = false ∧
      has t.phy.stat (anegAck s.params) = true ∧
      t.chip = { s.chip with mgmt := t.chip.mgmt } ∧ t.eng.capsAd = none

/-- A PHY_CONFIGURE that raises PhyResetTimeout has made exactly one write exchange and six read exchanges, and six waits
between polls (R281, R282); with a PHY whose reset does not complete it raises it (with POWER_EN = 0 too, log 39). -/
def Obligations.PhyResetTimeoutStopsWriting : Prop :=
  (∀ s t : State, s.irq.enabled = false → exec .phyConfigure s = .next t → t.Ended .phyResetTimeout 0 →
    ∃ new, t.env.trace = new ++ s.env.trace ∧
      new.reverse.filterMap windowAccess = exchangeAccesses 65 ++ (List.replicate 6 (exchangeAccesses 64)).flatten ∧
      new.countP (isDelayOf 500) = 6) ∧
  ∀ s : State, bitsOk s.params.bits → phyMapOk s.params.phyMap → s.Quiet →
    s.phy.addr = some s.params.phyAddr → s.phy.rx = .hunt →
    ∃ t, exec .phyConfigure s = .next t ∧ t.Ended .phyResetTimeout 0 ∧ t.phy.resetting = true ∧
      t.phy.adv = s.phy.adv ∧ t.phy.mask = s.phy.mask ∧ t.chip = { s.chip with mgmt := t.chip.mgmt }

/-! ## The lifecycle (spec/46_lifecycle.md) -/

/-- Whatever the machine was and whatever the agents do, a RESET that has ended has established every value of R361 and
lifecycle state Reset (R300 to R302, R307); it ends at once when the MMU agent completes the reset command in the gap
behind its write. The platform's enable is off (R366). That RESET goes on whatever command the soft reset drew as pending
is the model's (DESIGN CHOICE, log 15), and that its step 3 reaches CONFIG whatever bank its step 2 drew (log 16). -/
def Obligations.ResetEstablishes : Prop :=
  (∀ (k : Nat) (s t : State), s.irq.enabled = false → runOperation k .reset s = .next t → t.eng.pos = .idle →
    t.Ended .ok 0 ∧ t.chip.tcr = 0 ∧ t.chip.rcr = 0 ∧
      t.chip.config =
        (if s.params.usePower then s.params.configDefault ||| powerEn s.params else s.params.configDefault) ∧
      has t.chip.ctl (autoRelease s.params) = true ∧ (∀ q, t.chip.allocated q = false) ∧ t.chip.txFifo = [] ∧
      t.chip.rxFifo = [] ∧ t.chip.busy = false ∧ t.chip.intMask = 0 ∧ t.chip.bank = s.params.regs.pb ∧
      t.phy.addr = s.phy.addr ∧ t.eng.life = .reset) ∧
  ∀ s : State, s.env.tape = quietGaps (if s.params.usePower then 13 else 11) ++ agentGap .mmuDone →
    ∃ t, exec .reset s = .next t ∧ t.Ended .ok 0 ∧ t.eng.life = .reset ∧ t.hostMem = s.hostMem ∧ t.phy = s.phy

/-- ENABLE puts the default words in TCR and RCR, the driver's set in INT_MASK, and selects PB; nothing else of the chip
unit, the PHY or host memory changes (R303, R307). The remainders of the two words are parameters (log 4). SHUTDOWN
masks every interrupt, takes TXEN, RXEN and, with USE_POWER_ENABLE, POWER_EN away, in that order, whatever the agents and
the interrupt context do; CLOSE does the same (R304, R307, R311). With SOFT_RST set its read-modify-write of RCR would be a
soft reset again (R301), so that case is left out of what it leaves. "Whatever they do" is said of `exec`: where a handler
hangs in a gap, the step answers that hang instead (O41, log 46). -/
def Obligations.EnableAndShutdown : Prop :=
  (∀ s : State, ∃ t, exec .enable s = .next t ∧ t.Ended .ok 0 ∧ t.eng.life = .enabled ∧
    t.chip.bank = s.params.regs.pb ∧ (bitsOk s.params.bits → has t.chip.rcr (rxen s.params) = true) ∧
    has t.chip.rcr (softRst s.params) = false ∧ t.chip.intMask = s.params.driverIntSet ∧
    t.chip.pnr = s.chip.pnr ∧ t.chip.ptr = s.chip.ptr ∧ t.hostMem = s.hostMem ∧
    (s.Quiet → t.chip = { s.chip with
      bank := s.params.regs.pb, tcr := s.params.tcrRest ||| txen s.params,
      rcr := (s.params.rcrRest ||| rxen s.params) &&& ~~~softRst s.params, intMask := s.params.driverIntSet } ∧
      t.phy = s.phy ∧ t.irq = s.irq)) ∧
  ∀ (i : Instr) (s : State), i = .shutdown ∨ i = .closeOp →
    ∃ t, exec i s = .next t ∧ t.Ended .ok 0 ∧ t.hostMem = s.hostMem ∧
      t.eng.life = (if s.params.usePower then .powerDown else .disabled) ∧
      (has s.chip.rcr (softRst s.params) = false →
        t.chip.intMask = 0 ∧ has t.chip.tcr (txen s.params) = false ∧
        t.chip.rcr = s.chip.rcr &&& ~~~rxen s.params ∧
        t.chip.ctl = s.chip.ctl ∧ t.chip.pnr = s.chip.pnr ∧ t.chip.ptr = s.chip.ptr ∧
        t.chip.bank = (if s.params.usePower then s.params.regs.gb else s.params.regs.cb) ∧
        t.chip.config =
          (if s.params.usePower then s.chip.config &&& ~~~powerEn s.params else s.chip.config) ∧
        (s.Quiet → t.chip = { s.chip with
          intMask := 0, tcr := s.chip.tcr &&& ~~~txen s.params, rcr := t.chip.rcr, config := t.chip.config,
          bank := t.chip.bank } ∧ t.phy = s.phy ∧ t.irq = s.irq))

/-! ## The other ends of PHY_CONFIGURE (spec/45_phy_configure.md) -/

/-- The negotiation that does not end (R286, R287): with a PHY that completes its reset and then never acknowledges,
PHY_CONFIGURE raises PhyAutonegTimeout behind exactly 20 polls of PHY_STAT and as many waits, the window accesses those of
the two exchanges of the reset, the four of steps 4 to 8, and the polls. Where PHY_STAT shows a remote fault at every poll
each poll is followed by a write of PHY_CTRL that restarts the negotiation. -/
def Obligations.NegotiationEnds : Prop :=
  ∀ s : State, bitsOk s.params.bits → phyMapOk s.params.phyMap → s.phy.addr = some s.params.phyAddr →
    s.phy.rx = .hunt → s.env.tape = quietGaps 329 ++ agentGap .phyResetDone →
    ∃ t new, exec .phyConfigure s = .next t ∧ t.Ended .phyAutonegTimeout 0 ∧ t.env.trace = new ++ s.env.trace ∧
      new.countP (isDelayOf 500) = 20 ∧ t.phy.aneg = true ∧ t.phy.ctrl = anegEn s.params ∧
      t.phy.adv = advertise s.params s.params.phyDefStat ∧ t.phy.mask = s.params.phyIntMask ∧
      t.chip = { s.chip with mgmt := t.chip.mgmt } ∧
      (has s.params.phyDefStat (remFlt s.params) = false →
        new.reverse.filterMap windowAccess =
          exchangeAccesses 65 ++ exchangeAccesses 64 ++ exchangeAccesses 65 ++ exchangeAccesses 64 ++
            exchangeAccesses 65 ++ exchangeAccesses 65 ++ (List.replicate 20 (exchangeAccesses 64)).flatten) ∧
      (has s.params.phyDefStat (remFlt s.params) = true →
        new.reverse.filterMap windowAccess =
          exchangeAccesses 65 ++ exchangeAccesses 64 ++ exchangeAccesses 65 ++ exchangeAccesses 64 ++
            exchangeAccesses 65 ++ exchangeAccesses 65 ++
            (List.replicate 20 (exchangeAccesses 64 ++ exchangeAccesses 65)).flatten)

/-- PROBE reads the signature, as wide as REGMAP makes it and in whatever bank is selected where REGMAP shows it in every
one, and answers HardwareNotDetected for any other than the expected one (R308); OPEN then ends with -1 (R310). -/
def Obligations.ProbeChecksTheSignature : Prop :=
  (∀ s : State, s.chip.sigValue s.params = s.params.chipSignature →
    ∃ t, exec .probe s = .next t ∧ t.Ended .ok 0 ∧
      (s.Quiet → t.chip = { s.chip with bank := s.params.regs.sigBank.getD s.chip.bank } ∧ s.OnlyChip t ∧
        s.SamePackets t)) ∧
  ∀ s : State, s.chip.sigValue s.params ≠ s.params.chipSignature →
    (∃ t, exec .probe s = .next t ∧ t.Ended (.hardwareNotDetected (s.chip.sigValue s.params)) 0 ∧
      (s.Quiet → t.chip = { s.chip with bank := s.params.regs.sigBank.getD s.chip.bank } ∧ s.OnlyChip t ∧
        s.SamePackets t)) ∧
    ∃ t, exec .openOp s = .next t ∧ t.Ended (.hardwareNotDetected (s.chip.sigValue s.params)) (-1) ∧
      (s.Quiet → t.chip = { s.chip with bank := s.params.regs.sigBank.getD s.chip.bank } ∧ s.OnlyChip t ∧
        s.SamePackets t)

/-- The MAC address is the first of override, stored and on-chip value that is valid, else the fallback, which is taken
without a test of its validity (DESIGN CHOICE, log 29); it is missing only when there is none; a stored value that differs
from the on-chip one carries the warning. OPEN does not raise MacAddressMissing while there is a fallback (R309). -/
def Obligations.MacAddressSelection : Prop :=
  (∀ (valid : Mac → Bool) (override stored fallback : Option Mac) (chip : Mac),
    (∀ m, override = some m → valid m = true → selectMac valid override stored chip fallback = some (m, false)) ∧
    ((∀ m, override = some m → valid m = false) →
      (∀ m, stored = some m → valid m = true →
        selectMac valid override stored chip fallback = some (m, decide (m ≠ chip))) ∧
      ((∀ m, stored = some m → valid m = false) →
        (valid chip = true → selectMac valid override stored chip fallback = some (chip, false)) ∧
        (valid chip = false → (∀ m, fallback = some m →
          selectMac valid override stored chip fallback = some (m, false)) ∧
          (fallback = none → selectMac valid override stored chip fallback = none))))) ∧
  ∀ s t : State, s.params.macFallback.isSome = true →
    exec .openOp s = .next t ∨ (s.eng.pos = .openWait ∧ step s = .next t) → ¬ t.Ended .macAddressMissing (-1)

/-- OPEN with a chip of the expected signature and a fallback address brings the machine up: PB selected, the default
words in TCR, RCR and INT_MASK, a selected address in MACADDR, lifecycle state Enabled, result 0 (R310, R287, R309). That
its RESET goes on is log 15, its on-chip input and the untested fallback log 29, the arrow into Configured log 28 (D16). -/
def Obligations.OpenBringsTheMachineUp : Prop :=
  ∀ s : State, s.chip.sigValue s.params = s.params.chipSignature → s.params.macFallback.isSome = true →
    s.env.tape = quietGaps ((if s.params.usePower then 14 else 12) + if s.params.regs.sigBank.isSome then 1 else 0) ++
      agentGap .mmuDone →
    ∃ t w, exec .openOp s = .next t ∧ t.eng.pos = .idle ∧ t.eng.result = some ⟨.ok, 0, w⟩ ∧ t.eng.life = .enabled ∧
      t.chip.bank = s.params.regs.pb ∧ t.chip.tcr = s.params.tcrRest ||| txen s.params ∧
      t.chip.rcr = (s.params.rcrRest ||| rxen s.params) &&& ~~~softRst s.params ∧
      t.chip.intMask = s.params.driverIntSet ∧
      (∃ onChip, selectMac Config.macValid s.params.macOverride s.params.macStored onChip s.params.macFallback =
        some (t.chip.mac, w)) ∧
      t.hostMem = s.hostMem

end
end

