-- ==== Sys2Proof/Laws/State.lean ====
section
/-! SUPPORT. One lemma per field of the state per named update, each true by rfl, so that no later proof unfolds a
record update. -/

namespace Sys2Proof.Machine

variable (s : State)

/-! ### setChip -/

@[simp] theorem State.setChip_params (c : Chip) : (s.setChip c).params = s.params := rfl
@[simp] theorem State.setChip_chip (c : Chip) : (s.setChip c).chip = c := rfl
@[simp] theorem State.setChip_phy (c : Chip) : (s.setChip c).phy = s.phy := rfl
@[simp] theorem State.setChip_eng (c : Chip) : (s.setChip c).eng = s.eng := rfl
@[simp] theorem State.setChip_irq (c : Chip) : (s.setChip c).irq = s.irq := rfl
@[simp] theorem State.setChip_hostMem (c : Chip) : (s.setChip c).hostMem = s.hostMem := rfl
@[simp] theorem State.setChip_inbox (c : Chip) : (s.setChip c).inbox = s.inbox := rfl
@[simp] theorem State.setChip_env (c : Chip) : (s.setChip c).env = s.env := rfl
@[simp] theorem State.setChip_hang (c : Chip) : (s.setChip c).hang = s.hang := rfl

/-! ### setPhy -/

@[simp] theorem State.setPhy_params (p : Phy) : (s.setPhy p).params = s.params := rfl
@[simp] theorem State.setPhy_chip (p : Phy) : (s.setPhy p).chip = s.chip := rfl
@[simp] theorem State.setPhy_phy (p : Phy) : (s.setPhy p).phy = p := rfl
@[simp] theorem State.setPhy_eng (p : Phy) : (s.setPhy p).eng = s.eng := rfl
@[simp] theorem State.setPhy_irq (p : Phy) : (s.setPhy p).irq = s.irq := rfl
@[simp] theorem State.setPhy_hostMem (p : Phy) : (s.setPhy p).hostMem = s.hostMem := rfl
@[simp] theorem State.setPhy_inbox (p : Phy) : (s.setPhy p).inbox = s.inbox := rfl
@[simp] theorem State.setPhy_env (p : Phy) : (s.setPhy p).env = s.env := rfl
@[simp] theorem State.setPhy_hang (p : Phy) : (s.setPhy p).hang = s.hang := rfl

/-! ### setEng -/

@[simp] theorem State.setEng_params (e : Engine) : (s.setEng e).params = s.params := rfl
@[simp] theorem State.setEng_chip (e : Engine) : (s.setEng e).chip = s.chip := rfl
@[simp] theorem State.setEng_phy (e : Engine) : (s.setEng e).phy = s.phy := rfl
@[simp] theorem State.setEng_eng (e : Engine) : (s.setEng e).eng = e := rfl
@[simp] theorem State.setEng_irq (e : Engine) : (s.setEng e).irq = s.irq := rfl
@[simp] theorem State.setEng_hostMem (e : Engine) : (s.setEng e).hostMem = s.hostMem := rfl
@[simp] theorem State.setEng_inbox (e : Engine) : (s.setEng e).inbox = s.inbox := rfl
@[simp] theorem State.setEng_env (e : Engine) : (s.setEng e).env = s.env := rfl
@[simp] theorem State.setEng_hang (e : Engine) : (s.setEng e).hang = s.hang := rfl

/-! ### setIrq -/

@[simp] theorem State.setIrq_params (q : IrqCtx) : (s.setIrq q).params = s.params := rfl
@[simp] theorem State.setIrq_chip (q : IrqCtx) : (s.setIrq q).chip = s.chip := rfl
@[simp] theorem State.setIrq_phy (q : IrqCtx) : (s.setIrq q).phy = s.phy := rfl
@[simp] theorem State.setIrq_eng (q : IrqCtx) : (s.setIrq q).eng = s.eng := rfl
@[simp] theorem State.setIrq_irq (q : IrqCtx) : (s.setIrq q).irq = q := rfl
@[simp] theorem State.setIrq_hostMem (q : IrqCtx) : (s.setIrq q).hostMem = s.hostMem := rfl
@[simp] theorem State.setIrq_inbox (q : IrqCtx) : (s.setIrq q).inbox = s.inbox := rfl
@[simp] theorem State.setIrq_env (q : IrqCtx) : (s.setIrq q).env = s.env := rfl
@[simp] theorem State.setIrq_hang (q : IrqCtx) : (s.setIrq q).hang = s.hang := rfl

/-! ### setHost -/

@[simp] theorem State.setHost_params (m : Memory) : (s.setHost m).params = s.params := rfl
@[simp] theorem State.setHost_chip (m : Memory) : (s.setHost m).chip = s.chip := rfl
@[simp] theorem State.setHost_phy (m : Memory) : (s.setHost m).phy = s.phy := rfl
@[simp] theorem State.setHost_eng (m : Memory) : (s.setHost m).eng = s.eng := rfl
@[simp] theorem State.setHost_irq (m : Memory) : (s.setHost m).irq = s.irq := rfl
@[simp] theorem State.setHost_hostMem (m : Memory) : (s.setHost m).hostMem = m := rfl
@[simp] theorem State.setHost_inbox (m : Memory) : (s.setHost m).inbox = s.inbox := rfl
@[simp] theorem State.setHost_env (m : Memory) : (s.setHost m).env = s.env := rfl
@[simp] theorem State.setHost_hang (m : Memory) : (s.setHost m).hang = s.hang := rfl

/-! ### setPkt -/

@[simp] theorem State.setPkt_params (p : Option Pkt) : (s.setPkt p).params = s.params := rfl
@[simp] theorem State.setPkt_chip (p : Option Pkt) : (s.setPkt p).chip = s.chip := rfl
@[simp] theorem State.setPkt_phy (p : Option Pkt) : (s.setPkt p).phy = s.phy := rfl
@[simp] theorem State.setPkt_eng (p : Option Pkt) : (s.setPkt p).eng = { s.eng with pkt := p } := rfl
@[simp] theorem State.setPkt_irq (p : Option Pkt) : (s.setPkt p).irq = s.irq := rfl
@[simp] theorem State.setPkt_hostMem (p : Option Pkt) : (s.setPkt p).hostMem = s.hostMem := rfl
@[simp] theorem State.setPkt_inbox (p : Option Pkt) : (s.setPkt p).inbox = s.inbox := rfl
@[simp] theorem State.setPkt_env (p : Option Pkt) : (s.setPkt p).env = s.env := rfl
@[simp] theorem State.setPkt_hang (p : Option Pkt) : (s.setPkt p).hang = s.hang := rfl

/-! ### note -/

@[simp] theorem State.note_params (a : Access) : (s.note a).params = s.params := rfl
@[simp] theorem State.note_chip (a : Access) : (s.note a).chip = s.chip := rfl
@[simp] theorem State.note_phy (a : Access) : (s.note a).phy = s.phy := rfl
@[simp] theorem State.note_eng (a : Access) : (s.note a).eng = s.eng := rfl
@[simp] theorem State.note_irq (a : Access) : (s.note a).irq = s.irq := rfl
@[simp] theorem State.note_hostMem (a : Access) : (s.note a).hostMem = s.hostMem := rfl
@[simp] theorem State.note_inbox (a : Access) : (s.note a).inbox = s.inbox := rfl
@[simp] theorem State.note_env (a : Access) : (s.note a).env = { s.env with trace := a :: s.env.trace } := rfl
@[simp] theorem State.note_hang (a : Access) : (s.note a).hang = s.hang := rfl

/-! ### bump -/

@[simp] theorem State.bump_params (n : Nat) : (s.bump n).params = s.params := rfl
@[simp] theorem State.bump_chip (n : Nat) : (s.bump n).chip = s.chip := rfl
@[simp] theorem State.bump_phy (n : Nat) : (s.bump n).phy = s.phy := rfl
@[simp] theorem State.bump_eng (n : Nat) : (s.bump n).eng = s.eng := rfl
@[simp] theorem State.bump_irq (n : Nat) : (s.bump n).irq = s.irq := rfl
@[simp] theorem State.bump_hostMem (n : Nat) : (s.bump n).hostMem = s.hostMem := rfl
@[simp] theorem State.bump_inbox (n : Nat) : (s.bump n).inbox = s.inbox := rfl
@[simp] theorem State.bump_env (n : Nat) : (s.bump n).env = { s.env with draw := s.env.draw + n } := rfl
@[simp] theorem State.bump_hang (n : Nat) : (s.bump n).hang = s.hang := rfl

/-! ### send -/

@[simp] theorem State.send_params (f : SentFrame) : (s.send f).params = s.params := rfl
@[simp] theorem State.send_chip (f : SentFrame) : (s.send f).chip = s.chip := rfl
@[simp] theorem State.send_phy (f : SentFrame) : (s.send f).phy = s.phy := rfl
@[simp] theorem State.send_eng (f : SentFrame) : (s.send f).eng = s.eng := rfl
@[simp] theorem State.send_irq (f : SentFrame) : (s.send f).irq = s.irq := rfl
@[simp] theorem State.send_hostMem (f : SentFrame) : (s.send f).hostMem = s.hostMem := rfl
@[simp] theorem State.send_inbox (f : SentFrame) : (s.send f).inbox = s.inbox := rfl
@[simp] theorem State.send_env (f : SentFrame) : (s.send f).env = { s.env with sent := f :: s.env.sent } := rfl
@[simp] theorem State.send_hang (f : SentFrame) : (s.send f).hang = s.hang := rfl

/-! ### setHold -/

@[simp] theorem State.setHold_params (b : Bool) : (s.setHold b).params = s.params := rfl
@[simp] theorem State.setHold_chip (b : Bool) : (s.setHold b).chip = s.chip := rfl
@[simp] theorem State.setHold_phy (b : Bool) : (s.setHold b).phy = s.phy := rfl
@[simp] theorem State.setHold_eng (b : Bool) : (s.setHold b).eng = s.eng := rfl
@[simp] theorem State.setHold_irq (b : Bool) : (s.setHold b).irq = { s.irq with hold := b } := rfl
@[simp] theorem State.setHold_hostMem (b : Bool) : (s.setHold b).hostMem = s.hostMem := rfl
@[simp] theorem State.setHold_inbox (b : Bool) : (s.setHold b).inbox = s.inbox := rfl
@[simp] theorem State.setHold_env (b : Bool) : (s.setHold b).env = s.env := rfl
@[simp] theorem State.setHold_hang (b : Bool) : (s.setHold b).hang = s.hang := rfl

/-! ### irqAt -/

@[simp] theorem State.irqAt_params (p : IrqPos) : (s.irqAt p).params = s.params := rfl
@[simp] theorem State.irqAt_chip (p : IrqPos) : (s.irqAt p).chip = s.chip := rfl
@[simp] theorem State.irqAt_phy (p : IrqPos) : (s.irqAt p).phy = s.phy := rfl
@[simp] theorem State.irqAt_eng (p : IrqPos) : (s.irqAt p).eng = s.eng := rfl
@[simp] theorem State.irqAt_irq (p : IrqPos) : (s.irqAt p).irq = { s.irq with pos := p } := rfl
@[simp] theorem State.irqAt_hostMem (p : IrqPos) : (s.irqAt p).hostMem = s.hostMem := rfl
@[simp] theorem State.irqAt_inbox (p : IrqPos) : (s.irqAt p).inbox = s.inbox := rfl
@[simp] theorem State.irqAt_env (p : IrqPos) : (s.irqAt p).env = s.env := rfl
@[simp] theorem State.irqAt_hang (p : IrqPos) : (s.irqAt p).hang = s.hang := rfl

/-! ### advance -/

@[simp] theorem State.advance_params (n : Next) : (s.advance n).params = s.params := rfl
@[simp] theorem State.advance_chip (n : Next) : (s.advance n).chip = s.chip := rfl
@[simp] theorem State.advance_phy (n : Next) : (s.advance n).phy = s.phy := rfl
@[simp] theorem State.advance_eng (n : Next) : (s.advance n).eng = { s.eng with point := advancePoint n s.eng.point } := rfl
@[simp] theorem State.advance_irq (n : Next) : (s.advance n).irq = s.irq := rfl
@[simp] theorem State.advance_hostMem (n : Next) : (s.advance n).hostMem = s.hostMem := rfl
@[simp] theorem State.advance_inbox (n : Next) : (s.advance n).inbox = s.inbox := rfl
@[simp] theorem State.advance_env (n : Next) : (s.advance n).env = s.env := rfl
@[simp] theorem State.advance_hang (n : Next) : (s.advance n).hang = s.hang := rfl

/-! ### begin -/

@[simp] theorem State.begin_params (i : Instr) : (s.begin i).params = s.params := rfl
@[simp] theorem State.begin_chip (i : Instr) : (s.begin i).chip = s.chip := rfl
@[simp] theorem State.begin_phy (i : Instr) : (s.begin i).phy = s.phy := rfl
@[simp] theorem State.begin_eng (i : Instr) : (s.begin i).eng = { s.eng with point := [⟨i, 1, 1, .none⟩] } := rfl
@[simp] theorem State.begin_irq (i : Instr) : (s.begin i).irq = s.irq := rfl
@[simp] theorem State.begin_hostMem (i : Instr) : (s.begin i).hostMem = s.hostMem := rfl
@[simp] theorem State.begin_inbox (i : Instr) : (s.begin i).inbox = s.inbox := rfl
@[simp] theorem State.begin_env (i : Instr) : (s.begin i).env = s.env := rfl
@[simp] theorem State.begin_hang (i : Instr) : (s.begin i).hang = s.hang := rfl

/-! ### call -/

@[simp] theorem State.call_params (i : Instr) (back : Next) : (s.call i back).params = s.params := rfl
@[simp] theorem State.call_chip (i : Instr) (back : Next) : (s.call i back).chip = s.chip := rfl
@[simp] theorem State.call_phy (i : Instr) (back : Next) : (s.call i back).phy = s.phy := rfl
@[simp] theorem State.call_eng (i : Instr) (back : Next) : (s.call i back).eng = { s.eng with point := ⟨i, 1, 1, .none⟩ :: advancePoint back s.eng.point } := rfl
@[simp] theorem State.call_irq (i : Instr) (back : Next) : (s.call i back).irq = s.irq := rfl
@[simp] theorem State.call_hostMem (i : Instr) (back : Next) : (s.call i back).hostMem = s.hostMem := rfl
@[simp] theorem State.call_inbox (i : Instr) (back : Next) : (s.call i back).inbox = s.inbox := rfl
@[simp] theorem State.call_env (i : Instr) (back : Next) : (s.call i back).env = s.env := rfl
@[simp] theorem State.call_hang (i : Instr) (back : Next) : (s.call i back).hang = s.hang := rfl

/-! ### finishWith -/

@[simp] theorem State.finishWith_params (r : OpResult) : (s.finishWith r).params = s.params := rfl
@[simp] theorem State.finishWith_chip (r : OpResult) : (s.finishWith r).chip = s.chip := rfl
@[simp] theorem State.finishWith_phy (r : OpResult) : (s.finishWith r).phy = s.phy := rfl
@[simp] theorem State.finishWith_eng (r : OpResult) : (s.finishWith r).eng = { s.eng with pos := .idle, point := [], pkt := none, result := some r } := rfl
@[simp] theorem State.finishWith_irq (r : OpResult) : (s.finishWith r).irq = s.irq := rfl
@[simp] theorem State.finishWith_hostMem (r : OpResult) : (s.finishWith r).hostMem = s.hostMem := rfl
@[simp] theorem State.finishWith_inbox (r : OpResult) : (s.finishWith r).inbox = s.inbox := rfl
@[simp] theorem State.finishWith_env (r : OpResult) : (s.finishWith r).env = s.env := rfl
@[simp] theorem State.finishWith_hang (r : OpResult) : (s.finishWith r).hang = s.hang := rfl

/-! ### finish -/

@[simp] theorem State.finish_params (c : Condition) (v : Int) : (s.finish c v).params = s.params := rfl
@[simp] theorem State.finish_chip (c : Condition) (v : Int) : (s.finish c v).chip = s.chip := rfl
@[simp] theorem State.finish_phy (c : Condition) (v : Int) : (s.finish c v).phy = s.phy := rfl
@[simp] theorem State.finish_eng (c : Condition) (v : Int) : (s.finish c v).eng = { s.eng with pos := .idle, point := [], pkt := none, result := some ⟨c, v, false⟩ } := rfl
@[simp] theorem State.finish_irq (c : Condition) (v : Int) : (s.finish c v).irq = s.irq := rfl
@[simp] theorem State.finish_hostMem (c : Condition) (v : Int) : (s.finish c v).hostMem = s.hostMem := rfl
@[simp] theorem State.finish_inbox (c : Condition) (v : Int) : (s.finish c v).inbox = s.inbox := rfl
@[simp] theorem State.finish_env (c : Condition) (v : Int) : (s.finish c v).env = s.env := rfl
@[simp] theorem State.finish_hang (c : Condition) (v : Int) : (s.finish c v).hang = s.hang := rfl

/-! ### raise -/

@[simp] theorem State.raise_params (c : Condition) (v : Int) : (s.raise c v).params = s.params := rfl
@[simp] theorem State.raise_chip (c : Condition) (v : Int) : (s.raise c v).chip = s.chip := rfl
@[simp] theorem State.raise_phy (c : Condition) (v : Int) : (s.raise c v).phy = s.phy := rfl
@[simp] theorem State.raise_eng (c : Condition) (v : Int) : (s.raise c v).eng = { s.eng with pos := .idle, point := [], pkt := none, result := some ⟨c, v, false⟩ } := rfl
@[simp] theorem State.raise_irq (c : Condition) (v : Int) : (s.raise c v).irq = s.irq := rfl
@[simp] theorem State.raise_hostMem (c : Condition) (v : Int) : (s.raise c v).hostMem = s.hostMem := rfl
@[simp] theorem State.raise_inbox (c : Condition) (v : Int) : (s.raise c v).inbox = s.inbox := rfl
@[simp] theorem State.raise_env (c : Condition) (v : Int) : (s.raise c v).env = s.env := rfl
@[simp] theorem State.raise_hang (c : Condition) (v : Int) : (s.raise c v).hang = s.hang := rfl

/-! ### park -/

@[simp] theorem State.park_params (p : SeqPos) : (s.park p).params = s.params := rfl
@[simp] theorem State.park_chip (p : SeqPos) : (s.park p).chip = s.chip := rfl
@[simp] theorem State.park_phy (p : SeqPos) : (s.park p).phy = s.phy := rfl
@[simp] theorem State.park_eng (p : SeqPos) : (s.park p).eng = { s.eng with pos := p } := rfl
@[simp] theorem State.park_irq (p : SeqPos) : (s.park p).irq = s.irq := rfl
@[simp] theorem State.park_hostMem (p : SeqPos) : (s.park p).hostMem = s.hostMem := rfl
@[simp] theorem State.park_inbox (p : SeqPos) : (s.park p).inbox = s.inbox := rfl
@[simp] theorem State.park_env (p : SeqPos) : (s.park p).env = s.env := rfl
@[simp] theorem State.park_hang (p : SeqPos) : (s.park p).hang = s.hang := rfl

/-! ### setLife -/

@[simp] theorem State.setLife_params (l : Life) : (s.setLife l).params = s.params := rfl
@[simp] theorem State.setLife_chip (l : Life) : (s.setLife l).chip = s.chip := rfl
@[simp] theorem State.setLife_phy (l : Life) : (s.setLife l).phy = s.phy := rfl
@[simp] theorem State.setLife_eng (l : Life) : (s.setLife l).eng = { s.eng with life := l } := rfl
@[simp] theorem State.setLife_irq (l : Life) : (s.setLife l).irq = s.irq := rfl
@[simp] theorem State.setLife_hostMem (l : Life) : (s.setLife l).hostMem = s.hostMem := rfl
@[simp] theorem State.setLife_inbox (l : Life) : (s.setLife l).inbox = s.inbox := rfl
@[simp] theorem State.setLife_env (l : Life) : (s.setLife l).env = s.env := rfl
@[simp] theorem State.setLife_hang (l : Life) : (s.setLife l).hang = s.hang := rfl

/-! ### hostWrite -/

@[simp] theorem State.hostWrite_params (buf i : Nat) (b : Byte) : (s.hostWrite buf i b).params = s.params := rfl
@[simp] theorem State.hostWrite_chip (buf i : Nat) (b : Byte) : (s.hostWrite buf i b).chip = s.chip := rfl
@[simp] theorem State.hostWrite_phy (buf i : Nat) (b : Byte) : (s.hostWrite buf i b).phy = s.phy := rfl
@[simp] theorem State.hostWrite_eng (buf i : Nat) (b : Byte) : (s.hostWrite buf i b).eng = s.eng := rfl
@[simp] theorem State.hostWrite_irq (buf i : Nat) (b : Byte) : (s.hostWrite buf i b).irq = s.irq := rfl
@[simp] theorem State.hostWrite_hostMem (buf i : Nat) (b : Byte) : (s.hostWrite buf i b).hostMem = s.hostMem.write (buf + i) b := rfl
@[simp] theorem State.hostWrite_inbox (buf i : Nat) (b : Byte) : (s.hostWrite buf i b).inbox = s.inbox := rfl
@[simp] theorem State.hostWrite_env (buf i : Nat) (b : Byte) : (s.hostWrite buf i b).env = s.env := rfl
@[simp] theorem State.hostWrite_hang (buf i : Nat) (b : Byte) : (s.hostWrite buf i b).hang = s.hang := rfl

/-! ### takeRequest -/

@[simp] theorem takeRequest_params (buf : Nat) (rest : List Input) : (takeRequest buf rest s).params = s.params := rfl
@[simp] theorem takeRequest_chip (buf : Nat) (rest : List Input) : (takeRequest buf rest s).chip = s.chip := rfl
@[simp] theorem takeRequest_phy (buf : Nat) (rest : List Input) : (takeRequest buf rest s).phy = s.phy := rfl
@[simp] theorem takeRequest_eng (buf : Nat) (rest : List Input) : (takeRequest buf rest s).eng = { s.eng with bufRef := buf, result := none } := rfl
@[simp] theorem takeRequest_irq (buf : Nat) (rest : List Input) : (takeRequest buf rest s).irq = s.irq := rfl
@[simp] theorem takeRequest_hostMem (buf : Nat) (rest : List Input) : (takeRequest buf rest s).hostMem = s.hostMem := rfl
@[simp] theorem takeRequest_inbox (buf : Nat) (rest : List Input) : (takeRequest buf rest s).inbox = rest := rfl
@[simp] theorem takeRequest_env (buf : Nat) (rest : List Input) : (takeRequest buf rest s).env = s.env := rfl
@[simp] theorem takeRequest_hang (buf : Nat) (rest : List Input) : (takeRequest buf rest s).hang = s.hang := rfl

/-! ### takeIrqEnable -/

@[simp] theorem takeIrqEnable_params (on : Bool) (rest : List Input) : (takeIrqEnable on rest s).params = s.params := rfl
@[simp] theorem takeIrqEnable_chip (on : Bool) (rest : List Input) : (takeIrqEnable on rest s).chip = s.chip := rfl
@[simp] theorem takeIrqEnable_phy (on : Bool) (rest : List Input) : (takeIrqEnable on rest s).phy = s.phy := rfl
@[simp] theorem takeIrqEnable_eng (on : Bool) (rest : List Input) : (takeIrqEnable on rest s).eng = s.eng := rfl
@[simp] theorem takeIrqEnable_irq (on : Bool) (rest : List Input) : (takeIrqEnable on rest s).irq = { s.irq with enabled := on } := rfl
@[simp] theorem takeIrqEnable_hostMem (on : Bool) (rest : List Input) : (takeIrqEnable on rest s).hostMem = s.hostMem := rfl
@[simp] theorem takeIrqEnable_inbox (on : Bool) (rest : List Input) : (takeIrqEnable on rest s).inbox = rest := rfl
@[simp] theorem takeIrqEnable_env (on : Bool) (rest : List Input) : (takeIrqEnable on rest s).env = s.env := rfl
@[simp] theorem takeIrqEnable_hang (on : Bool) (rest : List Input) : (takeIrqEnable on rest s).hang = s.hang := rfl

/-! ### takeHostWrite -/

@[simp] theorem takeHostWrite_params (address : Nat) (bytes : List Byte) (rest : List Input) : (takeHostWrite address bytes rest s).params = s.params := rfl
@[simp] theorem takeHostWrite_chip (address : Nat) (bytes : List Byte) (rest : List Input) : (takeHostWrite address bytes rest s).chip = s.chip := rfl
@[simp] theorem takeHostWrite_phy (address : Nat) (bytes : List Byte) (rest : List Input) : (takeHostWrite address bytes rest s).phy = s.phy := rfl
@[simp] theorem takeHostWrite_eng (address : Nat) (bytes : List Byte) (rest : List Input) : (takeHostWrite address bytes rest s).eng = s.eng := rfl
@[simp] theorem takeHostWrite_irq (address : Nat) (bytes : List Byte) (rest : List Input) : (takeHostWrite address bytes rest s).irq = s.irq := rfl
@[simp] theorem takeHostWrite_hostMem (address : Nat) (bytes : List Byte) (rest : List Input) : (takeHostWrite address bytes rest s).hostMem = s.hostMem.writeBytes address bytes := rfl
@[simp] theorem takeHostWrite_inbox (address : Nat) (bytes : List Byte) (rest : List Input) : (takeHostWrite address bytes rest s).inbox = rest := rfl
@[simp] theorem takeHostWrite_env (address : Nat) (bytes : List Byte) (rest : List Input) : (takeHostWrite address bytes rest s).env = s.env := rfl
@[simp] theorem takeHostWrite_hang (address : Nat) (bytes : List Byte) (rest : List Input) : (takeHostWrite address bytes rest s).hang = s.hang := rfl

/-! ### thaw -/

@[simp] theorem thaw_params (h : Hang) : (thaw h s).params = s.params := rfl
@[simp] theorem thaw_chip (h : Hang) : (thaw h s).chip = h.chip := rfl
@[simp] theorem thaw_phy (h : Hang) : (thaw h s).phy = h.phy := rfl
@[simp] theorem thaw_eng (h : Hang) : (thaw h s).eng = { h.eng with pos := .irqHang, result := none } := rfl
@[simp] theorem thaw_irq (h : Hang) : (thaw h s).irq = h.irq := rfl
@[simp] theorem thaw_hostMem (h : Hang) : (thaw h s).hostMem = h.hostMem := rfl
@[simp] theorem thaw_inbox (h : Hang) : (thaw h s).inbox = s.inbox := rfl
@[simp] theorem thaw_env (h : Hang) : (thaw h s).env = h.env := rfl
@[simp] theorem thaw_hang (h : Hang) : (thaw h s).hang = none := rfl

/-! ### The sequencer position -/

@[simp] theorem advancePoint_nil (n : Next) : advancePoint n [] = [] := rfl
@[simp] theorem advancePoint_goto (f : SeqFrame) (rest : List SeqFrame) (step part : Nat) (sub : SeqSub) :
    advancePoint (.goto step part sub) (f :: rest) = ⟨f.op, step, part, sub⟩ :: rest := rfl
@[simp] theorem advancePoint_to (f : SeqFrame) (rest : List SeqFrame) (step part : Nat) (sub : SeqSub) :
    advancePoint (.to step part sub) (f :: rest) = ⟨f.op, step, part, sub⟩ :: rest := rfl
@[simp] theorem advancePoint_ret (f : SeqFrame) (rest : List SeqFrame) : advancePoint .ret (f :: rest) = rest := rfl

/-! ### settle -/

/-- A step that hangs nowhere answers what it has come to. -/
theorem settle_of_none {t : State} (h : t.hang = none) : settle (.next t) = .next t := by
  simp [settle, settled, h]

/-- A step whose interrupt context hangs answers the state there. -/
theorem settle_of_some {t : State} {h : Hang} (g : t.hang = some h) : settle (.next t) = .next (thaw h t) := by
  simp [settle, settled, g]

/-- What a settled step answers: it hangs nowhere, and is the state the meaning has come to or the one it hangs in. -/
theorem settle_next {o : Out} {u : State} (h : settle o = .next u) :
    ∃ t, o = .next t ∧ ((t.hang = none ∧ u = t) ∨ ∃ g, t.hang = some g ∧ u = thaw g t) := by
  cases o with
  | next t =>
    refine ⟨t, rfl, ?_⟩
    cases g : t.hang with
    | none => rw [settle_of_none g] at h; cases h; exact .inl ⟨rfl, rfl⟩
    | some k => rw [settle_of_some g] at h; cases h; exact .inr ⟨k, rfl, rfl⟩
  | fault f => cases h
  | refused r => cases h

end Sys2Proof.Machine
end

