-- ==== Sys2Proof/Laws/Memory.lean ====
section
/-! SUPPORT. Memory: a read after a write, the other addresses, and the canonical form that every operation keeps. -/

namespace Sys2Proof.Machine

/-! ## Reading -/

@[simp] theorem Memory.read_nil (x : Nat) : Memory.read [] x = none := rfl

theorem Memory.read_cons (a : Nat) (b : Byte) (m : Memory) (x : Nat) :
    Memory.read ((a, b) :: m) x = if x = a then some b else Memory.read m x := rfl

/-- A read after a write of one byte. -/
theorem Memory.read_write (m : Memory) (x y : Nat) (v : Byte) :
    (m.write x v).read y = if y = x then some v else m.read y := by
  induction m with
  | nil => simp [Memory.write, Memory.read]
  | cons c m ih =>
    obtain ⟨a, b⟩ := c
    simp only [Memory.write]
    split
    · simp [Memory.read_cons]
    · split
      · rename_i h; subst h; simp only [Memory.read_cons]; split <;> rfl
      · simp only [Memory.read_cons, ih]
        split
        · rename_i h; subst h; rw [if_neg (by omega)]
        · rfl

@[simp] theorem Memory.read_write_self (m : Memory) (x : Nat) (v : Byte) : (m.write x v).read x = some v := by
  simp [Memory.read_write]

theorem Memory.read_write_of_ne (m : Memory) {x y : Nat} (v : Byte) (h : y ≠ x) : (m.write x v).read y = m.read y := by
  simp [Memory.read_write, h]

/-- What the bytes written at rising addresses read as, and that every other address is left alone. -/
theorem Memory.read_writeBytes (bs : List Byte) : ∀ (m : Memory) (a y : Nat),
    (m.writeBytes a bs).read y =
      if h : a ≤ y ∧ y - a < bs.length then some (bs[y - a]'h.2) else m.read y := by
  induction bs with
  | nil => intro m a y; simp [Memory.writeBytes]
  | cons b bs ih =>
    intro m a y
    simp only [Memory.writeBytes, ih, List.length_cons]
    by_cases hy : y = a
    · subst hy
      rw [dif_neg (by omega), dif_pos (by omega)]
      simp
    · by_cases h : a ≤ y ∧ y - a < bs.length + 1
      · have e : y - a = (y - (a + 1)) + 1 := by omega
        rw [dif_pos (by omega), dif_pos h]
        simp only [e, List.getElem_cons_succ]
      · rw [dif_neg (by omega), dif_neg h, Memory.read_write_of_ne _ _ hy]

theorem Memory.read_writeBytes_of_out (bs : List Byte) (m : Memory) (a y : Nat) (h : y < a ∨ a + bs.length ≤ y) :
    (m.writeBytes a bs).read y = m.read y := by
  rw [Memory.read_writeBytes, dif_neg (by omega)]

/-- Forgotten addresses hold no byte, the others are left alone. -/
theorem Memory.read_forget (m : Memory) (lo n y : Nat) :
    (m.forget lo n).read y = if lo ≤ y ∧ y < lo + n then none else m.read y := by
  induction m with
  | nil => simp [Memory.forget]
  | cons c m ih =>
    obtain ⟨a, b⟩ := c
    unfold Memory.forget at ih ⊢
    by_cases ha : a < lo ∨ lo + n ≤ a
    · rw [List.filter_cons_of_pos (by simpa using ha)]
      simp only [Memory.read_cons, ih]
      split
      · rename_i h; subst h; rw [if_neg (by omega)]
      · rfl
    · rw [List.filter_cons_of_neg (by simpa using ha)]
      simp only [Memory.read_cons, ih]
      by_cases hy : y = a
      · subst hy; rw [if_pos (by omega), if_pos (by omega)]
      · rw [if_neg hy]

/-! ## The canonical form -/

theorem Memory.wf_nil : Memory.wf [] := List.Pairwise.nil

/-- The addresses a write leaves are the old ones and the one written. -/
theorem Memory.mem_write (m : Memory) (x : Nat) (v : Byte) (c : Host.Cell) (h : c ∈ m.write x v) :
    c = (x, v) ∨ c ∈ m := by
  induction m with
  | nil => simpa [Memory.write] using h
  | cons d m ih =>
    obtain ⟨a, b⟩ := d
    simp only [Memory.write] at h
    split at h
    · simpa using h
    · split at h
      · rcases List.mem_cons.1 h with h | h
        · exact .inl h
        · exact .inr (List.mem_cons_of_mem _ h)
      · rcases List.mem_cons.1 h with h | h
        · exact .inr (by simp [h])
        · rcases ih h with h | h
          · exact .inl h
          · exact .inr (List.mem_cons_of_mem _ h)

theorem Memory.wf_write (m : Memory) (x : Nat) (v : Byte) (h : m.wf) : (m.write x v).wf := by
  induction m with
  | nil => simp [Memory.write, Memory.wf]
  | cons d m ih =>
    obtain ⟨a, b⟩ := d
    obtain ⟨h1, h2⟩ := List.pairwise_cons.1 h
    simp only [Memory.write]
    split
    · rename_i hx
      refine List.pairwise_cons.2 ⟨?_, h⟩
      intro c hc
      rcases List.mem_cons.1 hc with rfl | hc
      · exact hx
      · exact Nat.lt_trans hx (h1 c hc)
    · split
      · rename_i hx; subst hx
        exact List.pairwise_cons.2 ⟨h1, h2⟩
      · refine List.pairwise_cons.2 ⟨?_, ih h2⟩
        intro c hc
        rcases Memory.mem_write m x v c hc with rfl | hc
        · show a < x; omega
        · exact h1 c hc

theorem Memory.wf_writeBytes (bs : List Byte) : ∀ (m : Memory) (a : Nat), m.wf → (m.writeBytes a bs).wf := by
  induction bs with
  | nil => intro m a h; exact h
  | cons b bs ih => intro m a h; exact ih _ _ (Memory.wf_write m a b h)

theorem Memory.wf_forget (m : Memory) (lo n : Nat) (h : m.wf) : (m.forget lo n).wf := List.Pairwise.filter _ h

/-- Reset memory has the canonical form. -/
theorem reset_memory_wf : State.reset.chip.pktMem.wf ∧ State.reset.hostMem.wf :=
  ⟨Memory.wf_nil, Memory.wf_nil⟩

/-! ## Host buffers -/

theorem State.hostRead_hostWrite (s : State) (buf i j : Nat) (b : Byte) :
    (s.hostWrite buf i b).hostRead buf j = if j = i then b else s.hostRead buf j := by
  simp only [State.hostRead, State.hostWrite_hostMem, Memory.read_write]
  by_cases h : j = i <;> simp [h]

end Sys2Proof.Machine
end

