-- ==== Sys2Proof/Laws/Table.lean ====
section
/-! SUPPORT. The allocation table: what an insertion, a removal and a drawn table read as, and the canonical form each
keeps. -/

namespace Sys2Proof.Machine

theorem tableWf_nil : tableWf [] := ⟨List.Pairwise.nil, by simp⟩

/-- An entry found stands in the table and carries the number asked for. -/
theorem findEntry_some {t : List Entry} {p : Pkt} {e : Entry} (h : findEntry t p = some e) : e ∈ t ∧ e.pkt = p := by
  induction t with
  | nil => simp [findEntry] at h
  | cons x t ih =>
    simp only [findEntry] at h
    split at h
    · rename_i hx; obtain rfl := Option.some.inj h; exact ⟨by simp, hx⟩
    · exact ⟨List.mem_cons_of_mem _ (ih h).1, (ih h).2⟩

theorem findEntry_none {t : List Entry} {p : Pkt} (h : findEntry t p = none) : ∀ e ∈ t, e.pkt ≠ p := by
  induction t with
  | nil => simp
  | cons x t ih =>
    simp only [findEntry] at h
    split at h
    · simp at h
    · rename_i hx
      intro e he
      rcases List.mem_cons.1 he with rfl | he
      · exact hx
      · exact ih h e he

/-- Finding after an insertion. -/
theorem findEntry_insertEntry (t : List Entry) (e : Entry) (p : Pkt) :
    findEntry (insertEntry t e) p = if p = e.pkt then some e else findEntry t p := by
  induction t with
  | nil =>
    simp only [insertEntry, findEntry]
    by_cases h : e.pkt = p
    · simp [h]
    · rw [if_neg h, if_neg (Ne.symm h)]
  | cons x t ih =>
    simp only [insertEntry]
    split
    · simp only [findEntry]
      by_cases h : e.pkt = p
      · simp [h]
      · rw [if_neg h, if_neg (Ne.symm h)]
    · split
      · rename_i hx
        simp only [findEntry]
        by_cases h : e.pkt = p
        · simp [h]
        · rw [if_neg h, if_neg (Ne.symm h), if_neg (by rw [← hx]; exact h)]
      · rename_i hx
        simp only [findEntry, ih]
        by_cases h : x.pkt = p
        · rw [if_pos h, if_pos h, if_neg (by rw [← h]; exact fun h' => hx h'.symm)]
        · rw [if_neg h, if_neg h]

/-- Finding after a removal. -/
theorem findEntry_filter (t : List Entry) (p q : Pkt) :
    findEntry (t.filter (fun e => e.pkt != q)) p = if p = q then none else findEntry t p := by
  induction t with
  | nil => simp [findEntry]
  | cons x t ih =>
    by_cases hx : x.pkt = q
    · rw [List.filter_cons_of_neg (by simp [hx]), ih]
      by_cases h : p = q
      · simp [h]
      · rw [if_neg h, if_neg h]; simp only [findEntry]; rw [if_neg (by rw [hx]; exact Ne.symm h)]
    · rw [List.filter_cons_of_pos (by simp [hx])]
      simp only [findEntry, ih]
      by_cases h : x.pkt = p
      · rw [if_pos h, if_pos h, if_neg (by rw [← h]; exact hx)]
      · rw [if_neg h, if_neg h]

theorem mem_insertEntry {t : List Entry} {e x : Entry} (h : x ∈ insertEntry t e) : x = e ∨ x ∈ t := by
  induction t with
  | nil => simpa [insertEntry] using h
  | cons y t ih =>
    simp only [insertEntry] at h
    split at h
    · simpa using h
    · split at h
      · rcases List.mem_cons.1 h with h | h
        · exact .inl h
        · exact .inr (List.mem_cons_of_mem _ h)
      · rcases List.mem_cons.1 h with h | h
        · exact .inr (by simp [h])
        · rcases ih h with h | h
          · exact .inl h
          · exact .inr (List.mem_cons_of_mem _ h)

/-- An insertion keeps the canonical form. -/
theorem tableWf_insertEntry {t : List Entry} {e : Entry} (h : tableWf t) (he : 1 ≤ e.pages ∧ e.pages ≤ 8) :
    tableWf (insertEntry t e) := by
  refine ⟨?_, fun x hx => ?_⟩
  · obtain ⟨h, -⟩ := h
    induction t with
    | nil => simp [insertEntry]
    | cons y t ih =>
      obtain ⟨h1, h2⟩ := List.pairwise_cons.1 h
      simp only [insertEntry]
      split
      · rename_i hy
        refine List.pairwise_cons.2 ⟨?_, h⟩
        intro x hx
        rcases List.mem_cons.1 hx with rfl | hx
        · exact hy
        · exact Nat.lt_trans hy (h1 x hx)
      · split
        · rename_i hy
          exact List.pairwise_cons.2 ⟨by rw [hy]; exact h1, h2⟩
        · rename_i hn hne
          have hlt : y.pkt.toNat < e.pkt.toNat := by
            have : e.pkt.toNat ≠ y.pkt.toNat := fun h' => hne (BitVec.eq_of_toNat_eq h')
            omega
          refine List.pairwise_cons.2 ⟨?_, ih h2⟩
          intro x hx
          rcases mem_insertEntry hx with rfl | hx
          · exact hlt
          · exact h1 x hx
  · rcases mem_insertEntry hx with rfl | hx
    · exact he
    · exact h.2 x hx

/-- A removal keeps the canonical form. -/
theorem tableWf_filter {t : List Entry} (f : Entry → Bool) (h : tableWf t) : tableWf (t.filter f) :=
  ⟨List.Pairwise.filter _ h.1, fun e he => h.2 e (List.mem_filter.1 he).1⟩

/-- A change that keeps number and pages keeps the canonical form. -/
theorem tableWf_map {t : List Entry} (f : Entry → Entry) (hp : ∀ e, (f e).pkt = e.pkt) (hg : ∀ e, (f e).pages = e.pages)
    (h : tableWf t) : tableWf (t.map f) := by
  refine ⟨?_, fun e he => ?_⟩
  · rw [List.pairwise_map]; simpa only [hp] using h.1
  · obtain ⟨x, hx, rfl⟩ := List.mem_map.1 he
    rw [hg]; exact h.2 x hx

/-- A drawn table is taken in canonical form. -/
theorem tableWf_normTable (t : List Entry) : tableWf (normTable t) := by
  refine ⟨?_, fun e he => ?_⟩
  · have hr : (List.range 64).Pairwise (· < ·) := List.pairwise_lt_range
    unfold normTable
    rw [List.pairwise_filterMap]
    refine hr.imp_of_mem ?_
    intro a b ha hb hab x hx y hy
    simp only [Option.map_eq_some_iff] at hx hy
    obtain ⟨_, _, rfl⟩ := hx
    obtain ⟨_, _, rfl⟩ := hy
    simp only [List.mem_range] at ha hb
    show (BitVec.ofNat 6 a).toNat < (BitVec.ofNat 6 b).toNat
    simp only [BitVec.toNat_ofNat]
    omega
  · unfold normTable at he
    simp only [List.mem_filterMap, Option.map_eq_some_iff] at he
    obtain ⟨k, -, _, -, rfl⟩ := he
    exact ⟨Nat.le_add_left 1 _, by show _ % 8 + 1 ≤ 8; omega⟩

/-! ## Buffers -/

@[simp] theorem Chip.freePkt_table (p : Pkt) (c : Chip) :
    (c.freePkt p).table = c.table.filter (fun e => e.pkt != p) := rfl

@[simp] theorem Chip.freePkt_pktMem (p : Pkt) (c : Chip) :
    (c.freePkt p).pktMem = c.pktMem.forget (pktAddr p 0) bufferSpan := rfl

@[simp] theorem Chip.takePkt_table (p : Pkt) (n k : Nat) (c : Chip) :
    (c.takePkt p n k).table = insertEntry c.table ⟨p, n, k⟩ := rfl

@[simp] theorem Chip.takePkt_pktMem (p : Pkt) (n k : Nat) (c : Chip) :
    (c.takePkt p n k).pktMem = c.pktMem.forget (pktAddr p 0) bufferSpan := rfl

/-- A number given back is free. -/
theorem Chip.freePkt_allocated (p q : Pkt) (c : Chip) :
    (c.freePkt p).allocated q = (q != p && c.allocated q) := by
  simp only [Chip.allocated, Chip.freePkt_table, findEntry_filter]
  by_cases h : q = p <;> simp [h]

/-- A number handed out is allocated. -/
theorem Chip.takePkt_allocated (p q : Pkt) (n k : Nat) (c : Chip) :
    (c.takePkt p n k).allocated q = (q == p || c.allocated q) := by
  simp only [Chip.allocated, Chip.takePkt_table, findEntry_insertEntry]
  by_cases h : q = p <;> simp [h]

/-- Two buffers never share an address. -/
theorem pktAddr_inj {p q : Pkt} {i j : Nat} (hi : i < bufferSpan) (hj : j < bufferSpan)
    (h : pktAddr p i = pktAddr q j) : p = q ∧ i = j := by
  unfold pktAddr bufferSpan at *
  have : p.toNat = q.toNat := by omega
  exact ⟨BitVec.eq_of_toNat_eq this, by omega⟩

end Sys2Proof.Machine
end

