-- ==== Sys2Proof/Laws/Bits.lean ====
section
/-! SUPPORT. Bits, bytes and computed flags: the byte halves of a word, fields sent most significant bit first, and what
the flags of the computed registers read as whatever their unnamed bits are. -/

namespace Sys2Proof.Machine

/-! ## Bytes and words -/

@[simp] theorem lowByte_wordOf (lo hi : Byte) : lowByte (wordOf lo hi) = lo := by
  apply BitVec.eq_of_getLsbD_eq
  intro i hi'
  rw [lowByte, wordOf, BitVec.getLsbD_extractLsb', BitVec.getLsbD_append]
  simp [hi']

@[simp] theorem highByte_wordOf (lo hi : Byte) : highByte (wordOf lo hi) = hi := by
  apply BitVec.eq_of_getLsbD_eq
  intro i hi'
  rw [highByte, wordOf, BitVec.getLsbD_extractLsb', BitVec.getLsbD_append, if_neg (by omega), Nat.add_sub_cancel_left]
  simp [hi']

@[simp] theorem wordOf_lowByte_highByte (w : Word) : wordOf (lowByte w) (highByte w) = w := by
  apply BitVec.eq_of_getLsbD_eq
  intro i hi'
  simp only [wordOf, lowByte, highByte, BitVec.getLsbD_append, BitVec.getLsbD_extractLsb']
  by_cases h : i < 8
  · simp [h]
  · have : i - 8 < 8 := by omega
    have e : 8 + (i - 8) = i := by omega
    simp [h, this, e]

@[simp] theorem lowWord_longOf (lo hi : Word) : lowWord (longOf lo hi) = lo := by
  apply BitVec.eq_of_getLsbD_eq
  intro i hi'
  rw [lowWord, longOf, BitVec.getLsbD_extractLsb', BitVec.getLsbD_append]
  simp [hi']

@[simp] theorem highWord_longOf (lo hi : Word) : highWord (longOf lo hi) = hi := by
  apply BitVec.eq_of_getLsbD_eq
  intro i hi'
  rw [highWord, longOf, BitVec.getLsbD_extractLsb', BitVec.getLsbD_append, if_neg (by omega), Nat.add_sub_cancel_left]
  simp [hi']

@[simp] theorem longOf_lowWord_highWord (l : Long) : longOf (lowWord l) (highWord l) = l := by
  apply BitVec.eq_of_getLsbD_eq
  intro i hi'
  simp only [longOf, lowWord, highWord, BitVec.getLsbD_append, BitVec.getLsbD_extractLsb']
  by_cases h : i < 16
  · simp [h]
  · have : i - 16 < 16 := by omega
    have e : 16 + (i - 16) = i := by omega
    simp [h, this, e]

@[simp] theorem lowByte_setWidth (b : Byte) : lowByte (b.setWidth 16) = b := by
  apply BitVec.eq_of_getLsbD_eq
  intro i hi'
  have : i < 16 := by omega
  simp [lowByte, hi', this]

@[simp] theorem lowWord_setWidth (w : Word) : lowWord (w.setWidth 32) = w := by
  apply BitVec.eq_of_getLsbD_eq
  intro i hi'
  have : i < 32 := by omega
  simp [lowWord, hi', this]

/-! ## Flags -/

/-- A test under a one-bit mask is that bit. -/
theorem has_twoPow {n : Nat} (w : BitVec n) (k : Nat) (hk : k < n) : has w (BitVec.twoPow n k) = w.getLsbD k := by
  unfold has
  by_cases h : w.getLsbD k
  · rw [h]
    simp only [bne_iff_ne, ne_eq]
    intro h0
    have h1 : (w &&& BitVec.twoPow n k).getLsbD k = false := by rw [h0]; simp
    rw [BitVec.getLsbD_and, h] at h1
    simp [hk] at h1
  · simp only [Bool.not_eq_true] at h
    rw [h]
    simp only [bne_eq_false_iff_eq]
    apply BitVec.eq_of_getLsbD_eq
    intro i hi
    by_cases hik : k = i
    · subst hik; simp [h]
    · simp [hik]

theorem has_zero {n : Nat} (m : BitVec n) : has 0#n m = false := by simp [has]

/-- A flag's test is the flag's bit. -/
theorem has_bit {n : Nat} (w : BitVec n) (i : Fin n) : has w (bit i) = w.getLsbD i.val := has_twoPow w i.val i.isLt

@[simp] theorem getLsbD_bit {n : Nat} (i : Fin n) (k : Nat) : (bit i).getLsbD k = decide (k = i.val) := by
  unfold bit
  rw [BitVec.getLsbD_twoPow]
  have := i.isLt
  by_cases h : k = i.val
  · simp [h]
  · simp [h, Ne.symm h]

@[simp] theorem getLsbD_without {n : Nat} (w m : BitVec n) (k : Nat) :
    (without w m).getLsbD k = (w.getLsbD k && !m.getLsbD k) := by
  unfold without
  by_cases h : k < n
  · simp [h]
  · simp [BitVec.getLsbD_of_ge _ _ (Nat.le_of_not_lt h)]

@[simp] theorem getLsbD_flag {n : Nat} (m : BitVec n) (b : Bool) (k : Nat) :
    (flag m b).getLsbD k = (b && m.getLsbD k) := by
  cases b <;> simp [flag]

@[simp] theorem getLsbD_getField {n : Nat} (k m : Nat) (w : BitVec n) (i : Nat) :
    (getField k m w).getLsbD i = (decide (i < m) && w.getLsbD (k + i)) := by
  simp [getField]

@[simp] theorem getLsbD_putField {m : Nat} (n k : Nat) (f : BitVec m) (j : Nat) :
    (putField n k f).getLsbD j = (decide (j < n) && decide (k ≤ j) && f.getLsbD (j - k)) := by
  simp only [putField, BitVec.getLsbD_shiftLeft, BitVec.getLsbD_setWidth]
  by_cases h1 : j < n <;> by_cases h2 : k ≤ j
  · have h3 : j - k < n := by omega
    simp [h1, h2, h3]
  · have h3 : j < k := by omega
    simp [h1, h2, h3]
  · simp [h1]
  · simp [h1]

@[simp] theorem getLsbD_fieldMask (n k m j : Nat) :
    (fieldMask n k m).getLsbD j = (decide (j < n) && decide (k ≤ j) && decide (j - k < m)) := by
  simp only [fieldMask, BitVec.getLsbD_shiftLeft, BitVec.getLsbD_setWidth, BitVec.getLsbD_allOnes]
  by_cases h1 : j < n <;> by_cases h2 : k ≤ j
  · have h3 : j - k < n := by omega
    simp [h1, h2, h3]
  · have h3 : j < k := by omega
    simp [h1, h2, h3]
  · simp [h1]
  · simp [h1]

/-- A field is read back from the place it is put at. -/
theorem getField_putField {m : Nat} (n k : Nat) (f : BitVec m) (h : k + m ≤ n) : getField k m (putField n k f) = f := by
  apply BitVec.eq_of_getLsbD_eq
  intro i hi
  have h1 : k + i < n := by omega
  rw [getLsbD_getField, getLsbD_putField, Nat.add_sub_cancel_left]
  simp only [hi, h1, Nat.le_add_right, decide_true, Bool.true_and]

/-- BUSY as read is BUSY, whatever the other bits of the register are. -/
@[simp] theorem has_mmuCmdValue (p : Config.Params) (b : Bool) (rest : Word) :
    has (mmuCmdValue p b rest) (busyBit p) = b := by
  rw [busyBit, has_bit]
  simp only [mmuCmdValue, busyBit, BitVec.getLsbD_or, getLsbD_without, getLsbD_flag, getLsbD_bit]
  simp

/-- REMPTY as read says whether the receive FIFO is empty. -/
@[simp] theorem has_fifoValue (p : Config.Params) (rx : List Pkt) (rest : Word) :
    has (fifoValue p rx rest) (rempty p) = rx.isEmpty := by
  rw [rempty, has_bit]
  cases rx <;> simp only [fifoValue, rempty, BitVec.getLsbD_or, getLsbD_without, getLsbD_bit] <;> simp

/-- FAILED of an ARR value (R31). -/
@[simp] theorem has_arrValue (p : Config.Params) (failed : Bool) (q : Pkt) (rest : Byte) :
    has (arrValue p failed q rest) (failedBit p) = failed := by
  rw [failedBit, has_bit]
  simp only [arrValue, failedBit, BitVec.getLsbD_or, getLsbD_without, getLsbD_flag, getLsbD_bit]
  simp

/-- APKT of an ARR value (R31), where FAILED is no bit of it. -/
theorem apktOf_arrValue (p : Config.Params) (failed : Bool) (q : Pkt) (rest : Byte)
    (h : p.bits.failed.val < p.bits.apkt.val ∨ p.bits.apkt.val + 6 ≤ p.bits.failed.val) :
    apktOf p (arrValue p failed q rest) = q := by
  apply BitVec.eq_of_getLsbD_eq
  intro i hi
  have h1 : ¬ (p.bits.apkt.val + i = p.bits.failed.val) := by omega
  have h2 := p.bits.apkt.isLt
  have h3 : p.bits.apkt.val + i < 8 := by omega
  simp only [apktOf, arrValue, failedBit, getLsbD_getField, BitVec.getLsbD_or, getLsbD_without, getLsbD_flag, getLsbD_bit,
    getLsbD_putField, getLsbD_fieldMask, Nat.add_sub_cancel_left, hi, h1, h3]
  simp

/-- The bank in a BSR word as it is read, whatever its unnamed bits are. -/
@[simp] theorem bankOf_bsrValue (p : Config.Params) (b : BitVec 2) (rest : Word) : bankOf p (bsrValue p b rest) = b := by
  apply BitVec.eq_of_getLsbD_eq
  intro i hi
  have h2 := p.bits.bank.isLt
  have h3 : p.bits.bank.val + i < 16 := by omega
  simp only [bankOf, bsrValue, bankMask, getLsbD_getField, BitVec.getLsbD_or, getLsbD_without, getLsbD_putField,
    getLsbD_fieldMask, Nat.add_sub_cancel_left, hi, h3]
  simp

@[simp] theorem bankOf_bsrWord (p : Config.Params) (c : Chip) (rest : Word) : bankOf p (bsrWord p c rest) = c.bank := by
  simp [bsrWord]

@[simp] theorem bankOf_bankWord (p : Config.Params) (b : BitVec 2) : bankOf p (bankWord p b) = b :=
  bankOf_bsrValue p b _

/-- PNR.PKT of the byte that selects a packet (R30). -/
@[simp] theorem pktSel_pktByte (p : Config.Params) (q : Pkt) : getField p.bits.pkt.val 6 (pktByte p q) = q :=
  getField_putField _ _ _ (by have := p.bits.pkt.isLt; omega)

/-! ## Fields, most significant bit first -/

/-- Bit `i` of a field sent most significant bit first is the bit sent at place `n - 1 - i`. -/
theorem getLsbD_fromMsb : ∀ (n : Nat) (f : Nat → Bool) (i : Nat), i < n → (fromMsb n f).getLsbD i = f (n - 1 - i)
  | 0, _, _, h => by omega
  | n + 1, f, i, h => by
    simp only [fromMsb, BitVec.getLsbD_cons]
    by_cases hi : i = n
    · subst hi; simp
    · rw [if_neg hi, getLsbD_fromMsb n _ i (by omega)]
      congr 1
      omega

/-- A field taken from the bits it was sent as. -/
theorem fromMsb_getLsbD {n : Nat} (w : BitVec n) : fromMsb n (fun k => w.getLsbD (n - 1 - k)) = w := by
  apply BitVec.eq_of_getLsbD_eq
  intro i hi
  rw [getLsbD_fromMsb n _ i hi]
  congr 1
  omega

/-- The bits of a field that agree on the first `n` places give the same field. -/
theorem fromMsb_congr {n : Nat} {f g : Nat → Bool} (h : ∀ k < n, f k = g k) : fromMsb n f = fromMsb n g := by
  apply BitVec.eq_of_getLsbD_eq
  intro i hi
  rw [getLsbD_fromMsb n _ i hi, getLsbD_fromMsb n _ i hi]
  exact h _ (by omega)

@[simp] theorem length_msbFirst {n : Nat} (w : BitVec n) : (msbFirst w).length = n := by simp [msbFirst]

theorem getD_msbFirst {n : Nat} (w : BitVec n) (k : Nat) (h : k < n) (d : Bool) :
    (msbFirst w).getD k d = w.getLsbD (n - 1 - k) := by
  simp [msbFirst, h]

end Sys2Proof.Machine
end

