-- ==== Sys2Proof/Laws/Agents.lean ====
section
/-! SUPPORT. What the agents' steps can change: everything they leave alone, said once, and lifted to the gap after an
access. -/

namespace Sys2Proof.Machine

/-! ## Kept by agents: reflexive and transitive -/

theorem State.Kept.refl (s : State) : s.Kept s := by constructor <;> rfl

theorem State.Kept.trans {s t u : State} (h : s.Kept t) (g : t.Kept u) : s.Kept u where
  params := g.params.trans h.params
  hostMem := g.hostMem.trans h.hostMem
  inbox := g.inbox.trans h.inbox
  eng := g.eng.trans h.eng
  enabled := g.enabled.trans h.enabled
  hold := g.hold.trans h.hold
  bank := g.bank.trans h.bank
  rcr := g.rcr.trans h.rcr
  config := g.config.trans h.config
  ctl := g.ctl.trans h.ctl
  pnr := g.pnr.trans h.pnr
  ptr := g.ptr.trans h.ptr
  intMask := g.intMask.trans h.intMask
  mgmt := g.mgmt.trans h.mgmt
  sig := g.sig.trans h.sig
  mac := g.mac.trans h.mac
  phyAddr := g.phyAddr.trans h.phyAddr
  phyOnes := g.phyOnes.trans h.phyOnes
  phyRx := g.phyRx.trans h.phyRx
  phyDrive := g.phyDrive.trans h.phyDrive

theorem without_without {n : Nat} (w m : BitVec n) : without (without w m) m = without w m := by
  simp [without, BitVec.and_assoc]

theorem and_eq_left_trans {n : Nat} {a b c : BitVec n} (h : a &&& b = a) (g : b &&& c = b) : a &&& c = a := by
  rw [← h, BitVec.and_assoc, g]

theorem State.KeptByAgents.refl (s : State) : s.KeptByAgents s where
  toKept := State.Kept.refl s
  irq := rfl
  dp := rfl
  dpStale := rfl
  arrSeen := rfl
  trace := rfl
  hang := rfl
  intStatus := BitVec.and_self
  tcr := .inl rfl

theorem State.KeptByAgents.trans {s t u : State} (h : s.KeptByAgents t) (g : t.KeptByAgents u) : s.KeptByAgents u where
  toKept := h.toKept.trans g.toKept
  irq := g.irq.trans h.irq
  dp := g.dp.trans h.dp
  dpStale := g.dpStale.trans h.dpStale
  arrSeen := g.arrSeen.trans h.arrSeen
  trace := g.trace.trans h.trace
  hang := g.hang.trans h.hang
  intStatus := and_eq_left_trans h.intStatus g.intStatus
  tcr := by
    have hp := h.params
    rcases g.tcr with g | g <;> rcases h.tcr with h | h <;> rw [h] at g
    all_goals try rw [hp] at g
    · exact .inl g
    · exact .inr g
    · exact .inr g
    · exact .inr (by rw [g, without_without])

/-! ## One agent step -/

/-- A step that changes only the table, packet memory, ARR, the pending command, the FIFOs, the packet in flight and the
auto-releases, sets INT_STATUS bits and at most clears TXEN. -/
theorem keptByAgents_of_chip {s t : State} (c : Chip) (n : Nat) (ht : t = (s.setChip c).bump n)
    (h : c = { s.chip with
      tcr := c.tcr
      pending := c.pending
      autoFree := c.autoFree
      arr := c.arr
      intStatus := c.intStatus
      table := c.table
      pktMem := c.pktMem
      txFifo := c.txFifo
      rxFifo := c.rxFifo
      inFlight := c.inFlight
      failed := c.failed })
    (hi : s.chip.intStatus &&& c.intStatus = s.chip.intStatus)
    (htcr : c.tcr = s.chip.tcr ∨ c.tcr = without s.chip.tcr (txen s.params)) : s.KeptByAgents t := by
  subst ht
  exact {
    params := rfl
    hostMem := rfl
    inbox := rfl
    eng := rfl
    enabled := rfl
    hold := rfl
    bank := (congrArg Chip.bank h :)
    rcr := (congrArg Chip.rcr h :)
    config := (congrArg Chip.config h :)
    ctl := (congrArg Chip.ctl h :)
    pnr := (congrArg Chip.pnr h :)
    ptr := (congrArg Chip.ptr h :)
    intMask := (congrArg Chip.intMask h :)
    mgmt := (congrArg Chip.mgmt h :)
    sig := (congrArg Chip.sig h :)
    mac := (congrArg Chip.mac h :)
    phyAddr := rfl
    phyOnes := rfl
    phyRx := rfl
    phyDrive := rfl
    irq := rfl
    dp := (congrArg Chip.dp h :)
    dpStale := (congrArg Chip.dpStale h :)
    arrSeen := (congrArg Chip.arrSeen h :)
    trace := rfl
    hang := rfl
    intStatus := hi
    tcr := htcr }

theorem bump_zero (s : State) : s.bump 0 = s := rfl

theorem and_or_self_left {n : Nat} (a b : BitVec n) : a &&& (a ||| b) = a := by
  apply BitVec.eq_of_getLsbD_eq
  intro i _
  simp only [BitVec.getLsbD_and, BitVec.getLsbD_or]
  cases a.getLsbD i <;> simp

theorem allocSuccess_kept (silent : Bool) (p : Pkt) (s : State) : s.KeptByAgents (allocSuccess silent p s) := by
  unfold allocSuccess
  split
  · split
    · refine keptByAgents_of_chip _ 1 rfl rfl ?_ (.inl rfl)
      show s.chip.intStatus &&& (if silent then s.chip.intStatus else s.chip.intStatus ||| intAlloc s.params) = _
      split
      · exact BitVec.and_self
      · exact and_or_self_left _ _
    · exact .refl s
  all_goals exact .refl s

theorem allocFailure_kept (s : State) : s.KeptByAgents (allocFailure s) := by
  unfold allocFailure
  split
  · exact keptByAgents_of_chip _ 2 rfl rfl (and_or_self_left _ _) (.inl rfl)
  all_goals exact .refl s

/-- What a completion of the MMU agent leaves alone in the chip unit. -/
theorem mmuCompletion_frame (c : Chip) :
    mmuCompletion c = { c with
      pending := (mmuCompletion c).pending
      autoFree := (mmuCompletion c).autoFree
      table := (mmuCompletion c).table
      pktMem := (mmuCompletion c).pktMem
      txFifo := (mmuCompletion c).txFifo
      rxFifo := (mmuCompletion c).rxFifo
      inFlight := (mmuCompletion c).inFlight
      failed := (mmuCompletion c).failed } := by
  unfold mmuCompletion
  split <;> (try split) <;> rfl

theorem autoFreeCompletion_frame (c : Chip) :
    autoFreeCompletion c = { c with
      autoFree := (autoFreeCompletion c).autoFree
      table := (autoFreeCompletion c).table
      pktMem := (autoFreeCompletion c).pktMem
      failed := (autoFreeCompletion c).failed } := by
  unfold autoFreeCompletion
  split <;> rfl

theorem txSuccess_frame (tx : Bool) (p : Config.Params) (c : Chip) :
    txSuccess tx p c = { c with
      inFlight := (txSuccess tx p c).inFlight
      autoFree := (txSuccess tx p c).autoFree
      failed := (txSuccess tx p c).failed
      intStatus := (txSuccess tx p c).intStatus } := by
  unfold txSuccess
  split <;> rfl

theorem txFailure_frame (tx ct : Bool) (p : Config.Params) (c : Chip) :
    txFailure tx ct p c = { c with
      inFlight := (txFailure tx ct p c).inFlight
      failed := (txFailure tx ct p c).failed
      intStatus := (txFailure tx ct p c).intStatus
      tcr := (txFailure tx ct p c).tcr } := by
  unfold txFailure
  split <;> rfl

theorem mmuCompletion_kept (s : State) : s.KeptByAgents (s.setChip (mmuCompletion s.chip)) := by
  refine keptByAgents_of_chip _ 0 (bump_zero _).symm ?_ ?_ (.inl ?_) <;> rw [mmuCompletion_frame]
  exact BitVec.and_self

theorem autoFreeCompletion_kept (s : State) : s.KeptByAgents (s.setChip (autoFreeCompletion s.chip)) := by
  refine keptByAgents_of_chip _ 0 (bump_zero _).symm ?_ ?_ (.inl ?_) <;> rw [autoFreeCompletion_frame]
  exact BitVec.and_self

/-- A record of what is sent changes nothing that is kept. -/
theorem keptByAgents_send {s t : State} (f : SentFrame) (h : s.KeptByAgents t) : s.KeptByAgents (t.send f) :=
  { h with }

theorem txTake_kept (s : State) : s.KeptByAgents (txTake s) := by
  unfold txTake
  split
  · split
    · exact .refl s
    · exact keptByAgents_send _ (keptByAgents_of_chip _ 0 (bump_zero _).symm rfl BitVec.and_self (.inl rfl))
  · exact .refl s

theorem txSuccess_kept (tx : Bool) (s : State) : s.KeptByAgents (s.setChip (txSuccess tx s.params s.chip)) := by
  refine keptByAgents_of_chip _ 0 (bump_zero _).symm ?_ ?_ (.inl ?_)
  · rw [txSuccess_frame]
  · unfold txSuccess
    split
    · exact BitVec.and_self
    · simp only [BitVec.or_assoc]; exact and_or_self_left _ _
  · rw [txSuccess_frame]

theorem txFailure_kept (tx ct : Bool) (s : State) : s.KeptByAgents (s.setChip (txFailure tx ct s.params s.chip)) := by
  refine keptByAgents_of_chip _ 0 (bump_zero _).symm ?_ ?_ ?_
  · rw [txFailure_frame]
  · unfold txFailure
    split
    · exact BitVec.and_self
    · simp only [BitVec.or_assoc]; exact and_or_self_left _ _
  · unfold txFailure
    split
    · exact .inl rfl
    · cases ct
      · exact .inl rfl
      · exact .inr rfl

theorem rxArrive_kept (p : Pkt) (pages : Nat) (status lenWord : Word) (payload : List Byte) (s : State) :
    s.KeptByAgents (rxArrive p pages status lenWord payload s) := by
  unfold rxArrive
  split
  · exact keptByAgents_of_chip _ 1 rfl rfl BitVec.and_self (.inl rfl)
  · exact .refl s

/-- A step of the PHY of its own accord. -/
theorem keptByAgents_of_phy {s : State} (p : Phy) (ha : p.addr = s.phy.addr) (ho : p.ones = s.phy.ones)
    (hr : p.rx = s.phy.rx) (hd : p.drive = s.phy.drive) : s.KeptByAgents (s.setPhy p) where
  params := rfl
  hostMem := rfl
  inbox := rfl
  eng := rfl
  enabled := rfl
  hold := rfl
  bank := rfl
  rcr := rfl
  config := rfl
  ctl := rfl
  pnr := rfl
  ptr := rfl
  intMask := rfl
  mgmt := rfl
  sig := rfl
  mac := rfl
  phyAddr := ha
  phyOnes := ho
  phyRx := hr
  phyDrive := hd
  irq := rfl
  dp := rfl
  dpStale := rfl
  arrSeen := rfl
  trace := rfl
  hang := rfl
  intStatus := BitVec.and_self
  tcr := .inl rfl

/-- Everything an agent's step can do to what the engine holds: nothing (R101, R196, R212 to R214, R232, R266, R267). -/
theorem agentStep_kept (e : AgentEvent) (s : State) : s.KeptByAgents (agentStep e s) := by
  cases e <;> simp only [agentStep] <;> split
  case phyResetDone.isTrue => exact keptByAgents_of_phy _ rfl rfl rfl rfl
  case phySetAck.isTrue => exact keptByAgents_of_phy _ rfl rfl rfl rfl
  case phySetRemFlt.isTrue => exact keptByAgents_of_phy _ rfl rfl rfl rfl
  case phyClrRemFlt.isTrue => exact keptByAgents_of_phy _ rfl rfl rfl rfl
  case allocOk.isFalse => exact allocSuccess_kept _ _ _
  case allocSilent.isFalse => exact allocSuccess_kept _ _ _
  case allocFail.isFalse => exact allocFailure_kept _
  case mmuDone.isFalse => exact mmuCompletion_kept _
  case autoFreeDone.isFalse => exact autoFreeCompletion_kept _
  case txDequeue.isFalse => exact txTake_kept _
  case txDone.isFalse => exact txSuccess_kept _ _
  case txFail.isFalse => exact txFailure_kept _ _ _
  case rxFrame.isFalse => exact rxArrive_kept _ _ _ _ _ _
  all_goals exact .refl _

theorem agentSteps_kept (es : List AgentEvent) : ∀ s : State, s.KeptByAgents (agentSteps es s) := by
  induction es with
  | nil => exact fun s => .refl s
  | cons e es ih => exact fun s => (agentStep_kept e s).trans (ih _)

/-! ## Gaps -/

@[simp] theorem agentSteps_nil (s : State) : agentSteps [] s = s := rfl

@[simp] theorem agentSteps_cons (e : AgentEvent) (es : List AgentEvent) (s : State) :
    agentSteps (e :: es) s = agentSteps es (agentStep e s) := rfl

@[simp] theorem eventSteps_nil (s : State) : eventSteps [] s = s := rfl

@[simp] theorem eventSteps_cons (e : Event) (es : List Event) (s : State) :
    eventSteps (e :: es) s = eventSteps es (eventStep e s) := rfl

@[simp] theorem eventStep_agent (e : AgentEvent) (s : State) : eventStep (.agent e) s = agentStep e s := rfl

/-- While the platform's enable is off the interrupt context does not start (R330). -/
theorem runHandler_of_disabled (h : HandlerRun) (s : State) (he : s.irq.enabled = false) : runHandler h s = none := by
  simp [runHandler, canInterrupt, he]

theorem eventStep_irq_of_disabled (h : HandlerRun) (s : State) (he : s.irq.enabled = false) :
    eventStep (.irq h) s = s := by
  simp [eventStep, runHandler_of_disabled h s he]

theorem eventSteps_kept (es : List Event) :
    ∀ s : State, s.irq.enabled = false → s.KeptByAgents (eventSteps es s) := by
  induction es with
  | nil => exact fun s _ => .refl s
  | cons e es ih =>
    intro s he
    have h1 : s.KeptByAgents (eventStep e s) := by
      cases e with
      | agent e => exact agentStep_kept e s
      | irq h => rw [eventStep_irq_of_disabled h s he]; exact .refl s
    exact h1.trans (ih _ (by rw [h1.enabled, he]))

/-- With an empty tape nothing happens in a gap. -/
theorem gap_quiet {s : State} (h : s.Quiet) : gap s = s := by
  unfold State.Quiet at h
  simp [gap, h]

/-- A gap takes one element of the tape. -/
theorem gap_cons {s : State} {g : Gap} {rest : List Gap} (h : s.env.tape = g :: rest) :
    gap s = eventSteps g.events { s with env := { s.env with tape := rest, now := s.env.now + g.dt } } := by
  simp [gap, h]

/-- A gap in which nothing happens. -/
theorem gap_cons_nil {s : State} {rest : List Gap} (h : s.env.tape = ⟨0, []⟩ :: rest) :
    gap s = { s with env := { s.env with tape := rest } } := by
  rw [gap_cons h]; rfl

/-- The tape and the clock are no part of what is kept. -/
theorem keptByAgents_env {s t u : State} (h : t = { s with env := { s.env with tape := t.env.tape, now := t.env.now } })
    (g : t.KeptByAgents u) : s.KeptByAgents u := by
  refine State.KeptByAgents.trans ?_ g
  rw [h]
  exact { State.KeptByAgents.refl s with }

/-- Whatever the agents do in a gap while the platform's enable is off, they leave alone what the engine holds. -/
theorem gap_kept (s : State) (he : s.irq.enabled = false) : s.KeptByAgents (gap s) := by
  cases h : s.env.tape with
  | nil => rw [gap_quiet h]; exact .refl s
  | cons g rest =>
    rw [gap_cons h]
    exact keptByAgents_env rfl (eventSteps_kept _ _ he)

end Sys2Proof.Machine
end

