-- ==== Sys2Proof/Laws/Access.lean ====
section
/-! SUPPORT. What a register access can do: the frame of a read, of a write to each register and to the management
pins, and of the engine's access primitives. -/

namespace Sys2Proof.Machine

/-! ## Reads -/

/-- Everything a read of a register can change: the model's own `arrSeen` and the draw counter (R85). -/
theorem readReg_state (r : Reg) (s : State) :
    ∃ n, (readReg r s).2 = (s.setChip { s.chip with
      arrSeen := (readReg r s).2.chip.arrSeen }).bump n := by
  cases r with
  | bsr => exact ⟨1, rfl⟩
  | mmuCmd => exact ⟨1, rfl⟩
  | fifo => exact ⟨1, rfl⟩
  | mgmt => exact ⟨1, rfl⟩
  | arr =>
    by_cases h : s.chip.arrSeen
    · have e : (readReg .arr s).2 = s := by simp [readReg, h]
      exact ⟨0, by rw [e]; rfl⟩
    · have e : (readReg .arr s).2 = s.bump 1 := by simp [readReg, h]
      exact ⟨1, by rw [e]; rfl⟩
  | _ => exact ⟨0, rfl⟩

theorem readReg_chip (r : Reg) (s : State) :
    (readReg r s).2.chip = { s.chip with arrSeen := (readReg r s).2.chip.arrSeen } := by
  obtain ⟨n, h⟩ := readReg_state r s
  exact (congrArg State.chip h).trans rfl

@[simp] theorem readReg_params (r : Reg) (s : State) : (readReg r s).2.params = s.params := by
  obtain ⟨n, h⟩ := readReg_state r s; rw [h]; rfl

@[simp] theorem readReg_phy (r : Reg) (s : State) : (readReg r s).2.phy = s.phy := by
  obtain ⟨n, h⟩ := readReg_state r s; rw [h]; rfl

@[simp] theorem readReg_eng (r : Reg) (s : State) : (readReg r s).2.eng = s.eng := by
  obtain ⟨n, h⟩ := readReg_state r s; rw [h]; rfl

@[simp] theorem readReg_irq (r : Reg) (s : State) : (readReg r s).2.irq = s.irq := by
  obtain ⟨n, h⟩ := readReg_state r s; rw [h]; rfl

@[simp] theorem readReg_hostMem (r : Reg) (s : State) : (readReg r s).2.hostMem = s.hostMem := by
  obtain ⟨n, h⟩ := readReg_state r s; rw [h]; rfl

@[simp] theorem readReg_inbox (r : Reg) (s : State) : (readReg r s).2.inbox = s.inbox := by
  obtain ⟨n, h⟩ := readReg_state r s; rw [h]; rfl

@[simp] theorem readReg_hang (r : Reg) (s : State) : (readReg r s).2.hang = s.hang := by
  obtain ⟨n, h⟩ := readReg_state r s; rw [h]; rfl

@[simp] theorem readReg_sent (r : Reg) (s : State) : (readReg r s).2.env.sent = s.env.sent := by
  obtain ⟨n, h⟩ := readReg_state r s; rw [h]; rfl

@[simp] theorem readReg_tape (r : Reg) (s : State) : (readReg r s).2.env.tape = s.env.tape := by
  obtain ⟨n, h⟩ := readReg_state r s; rw [h]; rfl

@[simp] theorem readReg_now (r : Reg) (s : State) : (readReg r s).2.env.now = s.env.now := by
  obtain ⟨n, h⟩ := readReg_state r s; rw [h]; rfl

@[simp] theorem readReg_trace (r : Reg) (s : State) : (readReg r s).2.env.trace = s.env.trace := by
  obtain ⟨n, h⟩ := readReg_state r s; rw [h]; rfl

/-! ### The values the engine tests -/

@[simp] theorem readReg_bsr_bank (s : State) : bankOf s.params (readReg .bsr s).1 = s.chip.bank :=
  bankOf_bsrWord _ _ _

@[simp] theorem readReg_mmuCmd_busy (s : State) : has (readReg .mmuCmd s).1 (busyBit s.params) = s.chip.busy :=
  has_mmuCmdValue _ _ _

@[simp] theorem readReg_fifo_rempty (s : State) : has (readReg .fifo s).1 (rempty s.params) = s.chip.rxFifo.isEmpty :=
  has_fifoValue _ _ _

@[simp] theorem readReg_intStatus (s : State) : lowByte (readReg .intStatus s).1 = s.chip.intStatus :=
  lowByte_setWidth _

@[simp] theorem readReg_intMask (s : State) : lowByte (readReg .intMask s).1 = s.chip.intMask := lowByte_setWidth _

@[simp] theorem readReg_pnr (s : State) : lowByte (readReg .pnr s).1 = s.chip.pnr := lowByte_setWidth _

@[simp] theorem readReg_ptr (s : State) : (readReg .ptr s).1 = s.chip.ptr := rfl

@[simp] theorem readReg_sig (i : Nat) (s : State) : lowByte (readReg (.sig i) s).1 = sigByte s.chip.sig i :=
  lowByte_setWidth _

/-- A read at INT_ACK is one of INT_STATUS (R85). -/
@[simp] theorem readReg_intAck (s : State) : readReg .intAck s = readReg .intStatus s := rfl

/-- ARR once ALLOC has been seen for the current command (R31, R379). -/
theorem readReg_arr (s : State) (h : s.chip.arrSeen = true) : lowByte (readReg .arr s).1 = s.chip.arr := by
  simp [readReg, h]

/-! ## The management pins -/

/-- A rising edge changes only the PHY and the draw counter (R262). -/
theorem phyEdge_state (d : Drive) (s : State) : ∃ p n, phyEdge d s = (s.setPhy p).bump n := by
  unfold phyEdge
  split
  · exact ⟨s.phy, 0, rfl⟩
  · exact ⟨_, 4, rfl⟩

/-- A write to MGMT changes the register, the PHY and the draw counter, nothing else (R37, R260). -/
theorem mgmtWrite_state (v : Word) (s : State) :
    ∃ p n, mgmtWrite v s = ((s.setChip { s.chip with mgmt := without v (mdi s.params) }).setPhy p).bump n := by
  unfold mgmtWrite
  dsimp only
  split
  · obtain ⟨p, n, h⟩ := phyEdge_state ⟨has v (mdoe s.params), has v (mdo s.params)⟩ (s.setChip { s.chip with mgmt := without v (mdi s.params) })
    exact ⟨p, n, h⟩
  · exact ⟨s.phy, 0, rfl⟩

@[simp] theorem mgmtWrite_chip (v : Word) (s : State) :
    (mgmtWrite v s).chip = { s.chip with mgmt := without v (mdi s.params) } := by
  obtain ⟨p, n, h⟩ := mgmtWrite_state v s; rw [h]; rfl

@[simp] theorem mgmtWrite_params (v : Word) (s : State) : (mgmtWrite v s).params = s.params := by
  obtain ⟨p, n, h⟩ := mgmtWrite_state v s; rw [h]; rfl

@[simp] theorem mgmtWrite_eng (v : Word) (s : State) : (mgmtWrite v s).eng = s.eng := by
  obtain ⟨p, n, h⟩ := mgmtWrite_state v s; rw [h]; rfl

@[simp] theorem mgmtWrite_irq (v : Word) (s : State) : (mgmtWrite v s).irq = s.irq := by
  obtain ⟨p, n, h⟩ := mgmtWrite_state v s; rw [h]; rfl

@[simp] theorem mgmtWrite_hostMem (v : Word) (s : State) : (mgmtWrite v s).hostMem = s.hostMem := by
  obtain ⟨p, n, h⟩ := mgmtWrite_state v s; rw [h]; rfl

@[simp] theorem mgmtWrite_inbox (v : Word) (s : State) : (mgmtWrite v s).inbox = s.inbox := by
  obtain ⟨p, n, h⟩ := mgmtWrite_state v s; rw [h]; rfl

@[simp] theorem mgmtWrite_hang (v : Word) (s : State) : (mgmtWrite v s).hang = s.hang := by
  obtain ⟨p, n, h⟩ := mgmtWrite_state v s; rw [h]; rfl

@[simp] theorem mgmtWrite_sent (v : Word) (s : State) : (mgmtWrite v s).env.sent = s.env.sent := by
  obtain ⟨p, n, h⟩ := mgmtWrite_state v s; rw [h]; rfl

@[simp] theorem mgmtWrite_tape (v : Word) (s : State) : (mgmtWrite v s).env.tape = s.env.tape := by
  obtain ⟨p, n, h⟩ := mgmtWrite_state v s; rw [h]; rfl

@[simp] theorem mgmtWrite_now (v : Word) (s : State) : (mgmtWrite v s).env.now = s.env.now := by
  obtain ⟨p, n, h⟩ := mgmtWrite_state v s; rw [h]; rfl

@[simp] theorem mgmtWrite_trace (v : Word) (s : State) : (mgmtWrite v s).env.trace = s.env.trace := by
  obtain ⟨p, n, h⟩ := mgmtWrite_state v s; rw [h]; rfl

/-! ## Writes -/

/-- What no register write changes: the parameters, the engine, the interrupt context, host memory, the inbox, the tape,
the clock and the trace. -/
theorem setReg_outside (r : Reg) (v : Word) (s : State) :
    (setReg r v s).params = s.params ∧ (setReg r v s).eng = s.eng ∧ (setReg r v s).irq = s.irq ∧
      (setReg r v s).hostMem = s.hostMem ∧ (setReg r v s).inbox = s.inbox ∧
      (setReg r v s).env.tape = s.env.tape ∧ (setReg r v s).env.now = s.env.now ∧
      (setReg r v s).env.trace = s.env.trace ∧ (setReg r v s).hang = s.hang ∧
      (setReg r v s).env.sent = s.env.sent := by
  cases r with
  | rcr =>
    simp only [setReg]
    split
    · simp [softReset]
    · simp
  | config =>
    simp only [setReg]
    split
    · simp [powerUp]
    · simp
  | mgmt => simp [setReg]
  | _ => simp [setReg, writePtr]

@[simp] theorem setReg_params (r : Reg) (v : Word) (s : State) : (setReg r v s).params = s.params :=
  (setReg_outside r v s).1

@[simp] theorem setReg_eng (r : Reg) (v : Word) (s : State) : (setReg r v s).eng = s.eng := (setReg_outside r v s).2.1

@[simp] theorem setReg_irq (r : Reg) (v : Word) (s : State) : (setReg r v s).irq = s.irq := (setReg_outside r v s).2.2.1

@[simp] theorem setReg_hostMem (r : Reg) (v : Word) (s : State) : (setReg r v s).hostMem = s.hostMem :=
  (setReg_outside r v s).2.2.2.1

@[simp] theorem setReg_inbox (r : Reg) (v : Word) (s : State) : (setReg r v s).inbox = s.inbox :=
  (setReg_outside r v s).2.2.2.2.1

@[simp] theorem setReg_tape (r : Reg) (v : Word) (s : State) : (setReg r v s).env.tape = s.env.tape :=
  (setReg_outside r v s).2.2.2.2.2.1

@[simp] theorem setReg_now (r : Reg) (v : Word) (s : State) : (setReg r v s).env.now = s.env.now :=
  (setReg_outside r v s).2.2.2.2.2.2.1

@[simp] theorem setReg_trace (r : Reg) (v : Word) (s : State) : (setReg r v s).env.trace = s.env.trace :=
  (setReg_outside r v s).2.2.2.2.2.2.2.1

@[simp] theorem setReg_hang (r : Reg) (v : Word) (s : State) : (setReg r v s).hang = s.hang :=
  (setReg_outside r v s).2.2.2.2.2.2.2.2.1

@[simp] theorem setReg_sent (r : Reg) (v : Word) (s : State) : (setReg r v s).env.sent = s.env.sent :=
  (setReg_outside r v s).2.2.2.2.2.2.2.2.2

/-! ### The chip unit after a write to each register (R85) -/

theorem setReg_bsr (v : Word) (s : State) : setReg .bsr v s = s.setChip { s.chip with bank := bankOf s.params v } := rfl

theorem setReg_tcr (v : Word) (s : State) : setReg .tcr v s = s.setChip { s.chip with tcr := v } := rfl

theorem setReg_rcr (v : Word) (s : State) (h : has v (softRst s.params) = false) :
    setReg .rcr v s = s.setChip { s.chip with rcr := v } := by
  simp [setReg, h]

theorem setReg_rcr_reset (v : Word) (s : State) (h : has v (softRst s.params) = true) : setReg .rcr v s = softReset s := by
  simp [setReg, h]

theorem setReg_config (v : Word) (s : State) (h : has v (powerEn s.params) = false ∨ has s.chip.config (powerEn s.params) = true) :
    setReg .config v s = s.setChip { s.chip with config := v } := by
  rcases h with h | h <;> simp [setReg, h]

theorem setReg_config_powerUp (v : Word) (s : State) (h : has v (powerEn s.params) = true)
    (hc : has s.chip.config (powerEn s.params) = false) :
    setReg .config v s = powerUp (s.setChip { s.chip with config := v }) := by
  simp [setReg, h, hc]

theorem setReg_ctl (v : Word) (s : State) : setReg .ctl v s = s.setChip { s.chip with ctl := v } := rfl

theorem setReg_mac (i : Nat) (v : Word) (s : State) :
    setReg (.mac i) v s = s.setChip { s.chip with mac := setMacByte s.chip.mac i (lowByte v) } := rfl

theorem setReg_pnr (v : Word) (s : State) : setReg .pnr v s = s.setChip { s.chip with pnr := lowByte v } := rfl

theorem setReg_ptr (v : Word) (s : State) :
    setReg .ptr v s = s.setChip { s.chip with ptr := v, dp := offsetOf s.params v, dpStale := false } := rfl

theorem setReg_intStatus (v : Word) (s : State) : setReg .intStatus v s = s := rfl

theorem setReg_intAck (v : Word) (s : State) :
    setReg .intAck v s = s.setChip { s.chip with intStatus := without s.chip.intStatus (lowByte v) } := rfl

theorem setReg_intMask (v : Word) (s : State) : setReg .intMask v s = s.setChip { s.chip with intMask := lowByte v } :=
  rfl

theorem setReg_mgmt (v : Word) (s : State) : setReg .mgmt v s = mgmtWrite v s := rfl

/-- CONFIG and SIG after the soft reset are what they were, SOFT_RST reads 1, and nothing outside the chip unit has
changed: the PHY is a device of its own (R301, R75). -/
theorem softReset_frame (s : State) :
    (softReset s).chip.config = s.chip.config ∧ (softReset s).chip.sig = s.chip.sig ∧
      has (softReset s).chip.rcr (softRst s.params) = true ∧ (softReset s).phy = s.phy := by
  refine ⟨rfl, rfl, ?_, rfl⟩
  rw [softRst, has_bit]
  show ((drawnChip s.params s.chip s.env.draw).rcr ||| bit s.params.bits.softRst).getLsbD _ = true
  rw [BitVec.getLsbD_or, getLsbD_bit]
  simp

/-- CONFIG and SIG outlast the low-power state, and a soft reset that is held stays held (R352, R301). -/
theorem powerUp_frame (s : State) :
    (powerUp s).chip.config = s.chip.config ∧ (powerUp s).chip.sig = s.chip.sig ∧ (powerUp s).phy = s.phy ∧
      (s.chip.inSoftReset s.params = true → has (powerUp s).chip.rcr (softRst s.params) = true) := by
  refine ⟨rfl, rfl, rfl, fun h => ?_⟩
  rw [softRst, has_bit]
  show ((drawnChip s.params s.chip s.env.draw).rcr
    ||| flag (softRst s.params) (s.chip.inSoftReset s.params)).getLsbD _ = true
  rw [h, BitVec.getLsbD_or, getLsbD_flag, softRst, getLsbD_bit]
  simp

/-! ## The engine's access primitives -/

/-- A register read: the value of the register, then the gap. -/
theorem rd_eq (n : Next) (r : Reg) (w : Nat) (s : State) :
    rd n r w s =
      ((readReg r s).1, gap (((readReg r s).2.note (.read r w ((readReg r s).1.setWidth 32))).advance n)) := rfl

@[simp] theorem rd_fst (n : Next) (r : Reg) (w : Nat) (s : State) : (rd n r w s).1 = (readReg r s).1 := rfl

/-- A register read that the engine keeps: the value is in its place before the gap. -/
theorem rdKeep_eq (n : Next) (r : Reg) (w : Nat) (keep : Word → Engine → Engine) (s : State) :
    rdKeep n r w keep s =
      gap ((((readReg r s).2.setEng (keep (readReg r s).1 s.eng)).note
        (.read r w ((readReg r s).1.setWidth 32))).advance n) := by
  rw [← readReg_eng r s]
  rfl

/-- A register write: the write, then the gap. -/
theorem wr_eq (n : Next) (r : Reg) (w : Nat) (v : Word) (s : State) :
    wr n r w v s = gap (((setReg r v s).note (.write r w (v.setWidth 32))).advance n) := rfl

theorem delay_eq (n : Next) (t : Nat) (s : State) : delay n t s = gap ((s.note (.delay t)).advance n) := rfl

/-- A read changes nothing the agents could not change, but for its trace entry, `arrSeen` and the position. -/
theorem rd_kept (n : Next) (r : Reg) (w : Nat) (s : State) (he : s.irq.enabled = false) :
    (s.advance n).Kept (rd n r w s).2 := by
  have h := gap_kept (((readReg r s).2.note (.read r w ((readReg r s).1.setWidth 32))).advance n) (by simpa using he)
  refine State.Kept.trans ?_ h.toKept
  obtain ⟨k, hs⟩ := readReg_state r s
  rw [hs]
  constructor <;> rfl

theorem delay_kept (n : Next) (t : Nat) (s : State) (he : s.irq.enabled = false) :
    (s.advance n).Kept (delay n t s) :=
  State.Kept.trans (by constructor <;> rfl) (gap_kept ((s.note (.delay t)).advance n) he).toKept

/-- Where no handler hangs a refusal stands. -/
theorem refuse_of_none {α : Type} {s : State} (e : Refusal) (a : α) (h : s.hang = none) : s.refuse e a = .error e := by
  simp [State.refuse, h]

/-- Where a handler hangs nothing is refused (R324, log 46). -/
theorem refuse_of_hang {α : Type} {s : State} {g : Hang} (e : Refusal) (a : α) (h : s.hang = some g) :
    s.refuse e a = .ok a := by
  simp [State.refuse, h]

/-- What `refuse` can do. -/
theorem refuse_cases {α : Type} (e : Refusal) (a : α) (s : State) :
    (s.hang = none ∧ s.refuse e a = .error e) ∨ (s.hang ≠ none ∧ s.refuse e a = .ok a) := by
  cases h : s.hang with
  | none => exact .inl ⟨rfl, refuse_of_none e a h⟩
  | some g => exact .inr ⟨by simp, refuse_of_hang e a h⟩

theorem refuse_ok {α : Type} {e : Refusal} {a b : α} {s : State} (h : s.refuse e a = .ok b) : s.hang ≠ none ∧ b = a := by
  rcases refuse_cases e a s with ⟨-, g⟩ | ⟨hh, g⟩ <;> rw [g] at h
  · simp at h
  · exact ⟨hh, (Except.ok.inj h).symm⟩

/-- A command that is not refused: the state is the one behind its write and its gap, or a handler hangs. -/
theorem wrMmu_ok {n : Next} {k : MmuCode} {s t : State} (h : wrMmu n k s = .ok t) :
    (mmuGuard k s.params s.chip = none ∧ t = mmuIssue n k s) ∨ (s.hang ≠ none ∧ t = s.advance n) := by
  unfold wrMmu at h
  split at h
  · exact .inr (refuse_ok h)
  · rename_i hg; exact .inl ⟨hg, (Except.ok.inj h).symm⟩

theorem wrMmu_of_guard {n : Next} {k : MmuCode} {s : State} (h : mmuGuard k s.params s.chip = none) :
    wrMmu n k s = .ok (mmuIssue n k s) := by
  simp [wrMmu, h]

theorem wrMmu_error {n : Next} {k : MmuCode} {s : State} {e : Refusal} :
    wrMmu n k s = .error e ↔ s.hang = none ∧ mmuGuard k s.params s.chip = some e := by
  unfold wrMmu State.refuse
  split
  · cases s.hang <;> simp_all
  · simp_all

@[simp] theorem mmuTake_chip (k : MmuCode) (s : State) : (mmuTake k s).chip = mmuEffect k s.params s.chip := rfl

/-- MMU_ENQUEUE ends the handle before anything else can happen (R63, R186, R210). -/
theorem mmuTake_enqueue_pkt (s : State) : (mmuTake .enqueue s).eng.pkt = none := rfl

/-- The default words of R131 are taken for the commands they stand for. -/
theorem decodeMmuCode_defaultCodes :
    decodeMmuCode Config.defaultCodes (encodeMmuCode Config.defaultCodes .reset) = some .reset ∧
      decodeMmuCode Config.defaultCodes (encodeMmuCode Config.defaultCodes .release) = some .release ∧
      decodeMmuCode Config.defaultCodes (encodeMmuCode Config.defaultCodes .free) = some .free ∧
      decodeMmuCode Config.defaultCodes (encodeMmuCode Config.defaultCodes .enqueue) = some .enqueue := by
  decide

/-! ## Ways out of an access that can be refused -/

@[simp] theorem andThen_ok {α : Type} (a : α) (k : α → Out) : andThen (.ok a) k = k a := rfl

@[simp] theorem andThen_error {α : Type} (e : Refusal) (k : α → Out) : andThen (.error e) k = .refused e := rfl

/-- What follows an access answers next only behind an access that was not refused. -/
theorem andThen_next {α : Type} {r : Except Refusal α} {k : α → Out} {t : State} (h : andThen r k = .next t) :
    ∃ a, r = .ok a ∧ k a = .next t := by
  cases r with
  | ok a => exact ⟨a, rfl, h⟩
  | error e => simp [andThen] at h

/-- An operation on the packet bank answers next only with the packet bank selected. -/
theorem inPacketBank_next {s t : State} {k : Out} (h : inPacketBank s k = .next t) :
    s.chip.bank = s.params.regs.pb ∧ k = .next t := by
  unfold inPacketBank at h
  split at h
  · exact ⟨‹_›, h⟩
  · simp at h

theorem inPacketBank_of_bank {s : State} (k : Out) (h : s.chip.bank = s.params.regs.pb) : inPacketBank s k = k := by
  simp [inPacketBank, h]

/-- One poll of BUSY, then the rest of the operation or one more wait (R183). -/
theorem waitPoll_cases (p : SeqPos) (k : State → Out) (s : State) :
    (s.chip.busy = true ∧
      waitPoll p k s = .next ((delay (.to 1) s.params.mmuPollDelay (rd (.to 1 2) .mmuCmd 2 s).2).park p)) ∨
    (s.chip.busy = false ∧ waitPoll p k s = k ((rd (.to 1 2) .mmuCmd 2 s).2.advance .ret)) := by
  unfold waitPoll
  simp only [rd_fst, readReg_mmuCmd_busy]
  cases s.chip.busy
  · exact .inr ⟨rfl, rfl⟩
  · exact .inl ⟨rfl, rfl⟩

end Sys2Proof.Machine
end

