-- ==== Sys2Proof/Laws/Quiet.lean ====
section
/-! SUPPORT. Runs with the agents at rest: a gap with an empty tape does nothing, a quiet gap only moves the tape on, so
every access is its register's effect and a trace entry. -/

namespace Sys2Proof.Machine

/-! ## Gaps of a known tape -/

/-- The state with another tape. -/
def State.withTape (l : List Gap) (s : State) : State := { s with env := { s.env with tape := l } }

@[simp] theorem withTape_tape (l : List Gap) (s : State) : (s.withTape l).env.tape = l := rfl

@[simp] theorem withTape_chip (l : List Gap) (s : State) : (s.withTape l).chip = s.chip := rfl

@[simp] theorem withTape_phy (l : List Gap) (s : State) : (s.withTape l).phy = s.phy := rfl

@[simp] theorem withTape_eng (l : List Gap) (s : State) : (s.withTape l).eng = s.eng := rfl

@[simp] theorem withTape_irq (l : List Gap) (s : State) : (s.withTape l).irq = s.irq := rfl

@[simp] theorem withTape_hostMem (l : List Gap) (s : State) : (s.withTape l).hostMem = s.hostMem := rfl

@[simp] theorem withTape_inbox (l : List Gap) (s : State) : (s.withTape l).inbox = s.inbox := rfl

@[simp] theorem withTape_params (l : List Gap) (s : State) : (s.withTape l).params = s.params := rfl

@[simp] theorem withTape_hang (l : List Gap) (s : State) : (s.withTape l).hang = s.hang := rfl

@[simp] theorem withTape_sent (l : List Gap) (s : State) : (s.withTape l).env.sent = s.env.sent := rfl

@[simp] theorem withTape_trace (l : List Gap) (s : State) : (s.withTape l).env.trace = s.env.trace := rfl

@[simp] theorem withTape_now (l : List Gap) (s : State) : (s.withTape l).env.now = s.env.now := rfl

@[simp] theorem withTape_draw (l : List Gap) (s : State) : (s.withTape l).env.draw = s.env.draw := rfl

@[simp] theorem withTape_withTape (l m : List Gap) (s : State) : (s.withTape l).withTape m = s.withTape m := rfl

theorem withTape_self {l : List Gap} {s : State} (h : s.env.tape = l) : s.withTape l = s := by
  subst h
  rfl

/-- `n + 1` quiet gaps are one and `n` more. -/
theorem quietGaps_succ (n : Nat) : quietGaps (n + 1) = ⟨0, []⟩ :: quietGaps n := rfl

theorem quietGaps_add (m n : Nat) : quietGaps (m + n) = quietGaps m ++ quietGaps n := by
  unfold quietGaps
  exact List.replicate_add ..

/-- A quiet gap only moves the tape on. -/
theorem gap_quietGaps {s : State} {n : Nat} {rest : List Gap} (h : s.env.tape = quietGaps (n + 1) ++ rest) :
    gap s = s.withTape (quietGaps n ++ rest) := by
  rw [quietGaps_succ, List.cons_append] at h
  rw [gap_cons h]
  rfl

/-- A gap in which one agent takes one step. -/
theorem gap_agentGap {s : State} {e : AgentEvent} {rest : List Gap} (h : s.env.tape = agentGap e ++ rest) :
    gap s = agentStep e (s.withTape rest) := by
  have h' : s.env.tape = ⟨0, [.agent e]⟩ :: rest := h
  rw [gap_cons h']
  rfl

/-! ## Accesses in a quiet run -/

theorem rd_quiet {s : State} (n : Next) (r : Reg) (w : Nat) (h : s.Quiet) :
    (rd n r w s).2 = ((readReg r s).2.note (.read r w ((readReg r s).1.setWidth 32))).advance n := by
  rw [rd_eq]
  exact gap_quiet ((readReg_tape r s).trans h)

theorem rdKeep_quiet {s : State} (n : Next) (r : Reg) (w : Nat) (keep : Word → Engine → Engine) (h : s.Quiet) :
    rdKeep n r w keep s =
      (((readReg r s).2.setEng (keep (readReg r s).1 s.eng)).note
        (.read r w ((readReg r s).1.setWidth 32))).advance n := by
  rw [rdKeep_eq]
  exact gap_quiet ((readReg_tape r s).trans h)

theorem wr_quiet {s : State} (n : Next) (r : Reg) (w : Nat) (v : Word) (h : s.Quiet) :
    wr n r w v s = ((setReg r v s).note (.write r w (v.setWidth 32))).advance n := by
  rw [wr_eq]
  exact gap_quiet ((setReg_tape r v s).trans h)

theorem delay_quiet {s : State} (n : Next) (t : Nat) (h : s.Quiet) : delay n t s = (s.note (.delay t)).advance n := by
  rw [delay_eq]
  exact gap_quiet h

theorem rd_stays_quiet {s : State} (n : Next) (r : Reg) (w : Nat) (h : s.Quiet) : (rd n r w s).2.Quiet := by
  rw [rd_quiet n r w h]
  exact (readReg_tape r s).trans h

theorem rdKeep_stays_quiet {s : State} (n : Next) (r : Reg) (w : Nat) (keep : Word → Engine → Engine) (h : s.Quiet) :
    (rdKeep n r w keep s).Quiet := by
  rw [rdKeep_quiet n r w keep h]
  exact (readReg_tape r s).trans h

theorem wr_stays_quiet {s : State} (n : Next) (r : Reg) (w : Nat) (v : Word) (h : s.Quiet) : (wr n r w v s).Quiet := by
  rw [wr_quiet n r w v h]
  exact (setReg_tape r v s).trans h

theorem delay_stays_quiet {s : State} (n : Next) (t : Nat) (h : s.Quiet) : (delay n t s).Quiet := by
  rw [delay_quiet n t h]
  exact h

/-! ## Accesses over a quiet part of the tape -/

theorem rd_quietGaps {s : State} {k : Nat} {rest : List Gap} (n : Next) (r : Reg) (w : Nat)
    (h : s.env.tape = quietGaps (k + 1) ++ rest) :
    (rd n r w s).2 =
      (((readReg r s).2.note (.read r w ((readReg r s).1.setWidth 32))).advance n).withTape (quietGaps k ++ rest) := by
  rw [rd_eq]
  exact gap_quietGaps ((readReg_tape r s).trans h)

theorem rdKeep_quietGaps {s : State} {k : Nat} {rest : List Gap} (n : Next) (r : Reg) (w : Nat)
    (keep : Word → Engine → Engine) (h : s.env.tape = quietGaps (k + 1) ++ rest) :
    rdKeep n r w keep s =
      ((((readReg r s).2.setEng (keep (readReg r s).1 s.eng)).note
        (.read r w ((readReg r s).1.setWidth 32))).advance n).withTape (quietGaps k ++ rest) := by
  rw [rdKeep_eq]
  exact gap_quietGaps ((readReg_tape r s).trans h)

theorem wr_quietGaps {s : State} {k : Nat} {rest : List Gap} (n : Next) (r : Reg) (w : Nat) (v : Word)
    (h : s.env.tape = quietGaps (k + 1) ++ rest) :
    wr n r w v s =
      (((setReg r v s).note (.write r w (v.setWidth 32))).advance n).withTape (quietGaps k ++ rest) := by
  rw [wr_eq]
  exact gap_quietGaps ((setReg_tape r v s).trans h)

theorem delay_quietGaps {s : State} {k : Nat} {rest : List Gap} (n : Next) (t : Nat)
    (h : s.env.tape = quietGaps (k + 1) ++ rest) :
    delay n t s = ((s.note (.delay t)).advance n).withTape (quietGaps k ++ rest) := by
  rw [delay_eq]
  exact gap_quietGaps (s := (s.note (.delay t)).advance n) h

/-- What a quiet read leaves unchanged: all of the chip unit but `arrSeen`, and everything outside it but the position. -/
theorem rd_quiet_frame {s : State} (n : Next) (r : Reg) (w : Nat) (h : s.Quiet) :
    (rd n r w s).2.chip = { s.chip with arrSeen := (rd n r w s).2.chip.arrSeen } ∧ (rd n r w s).2.phy = s.phy ∧
      (rd n r w s).2.eng = { s.eng with point := advancePoint n s.eng.point } ∧ (rd n r w s).2.irq = s.irq ∧
      (rd n r w s).2.hostMem = s.hostMem ∧ (rd n r w s).2.inbox = s.inbox ∧ (rd n r w s).2.params = s.params ∧
      (rd n r w s).2.hang = s.hang ∧ (rd n r w s).2.env.sent = s.env.sent ∧
      (rd n r w s).2.env.trace = .read r w ((readReg r s).1.setWidth 32) :: s.env.trace := by
  rw [rd_quiet n r w h]
  obtain ⟨k, hs⟩ := readReg_state r s
  rw [hs]
  exact ⟨rfl, rfl, rfl, rfl, rfl, rfl, rfl, rfl, rfl, rfl⟩

/-- What a quiet read that the engine keeps leaves: the value in its place, all else as a read leaves it. -/
theorem rdKeep_quiet_frame {s : State} (n : Next) (r : Reg) (w : Nat) (keep : Word → Engine → Engine) (h : s.Quiet) :
    (rdKeep n r w keep s).chip = { s.chip with arrSeen := (rdKeep n r w keep s).chip.arrSeen } ∧
      (rdKeep n r w keep s).phy = s.phy ∧
      (rdKeep n r w keep s).eng =
        { keep (readReg r s).1 s.eng with point := advancePoint n (keep (readReg r s).1 s.eng).point } ∧
      (rdKeep n r w keep s).irq = s.irq ∧ (rdKeep n r w keep s).hostMem = s.hostMem ∧
      (rdKeep n r w keep s).inbox = s.inbox ∧ (rdKeep n r w keep s).params = s.params ∧
      (rdKeep n r w keep s).hang = s.hang := by
  rw [rdKeep_quiet n r w keep h]
  obtain ⟨k, hs⟩ := readReg_state r s
  rw [hs]
  exact ⟨rfl, rfl, rfl, rfl, rfl, rfl, rfl, rfl⟩

/-- What a quiet write leaves unchanged outside the chip unit and the PHY. -/
theorem wr_quiet_outside {s : State} (n : Next) (r : Reg) (w : Nat) (v : Word) (h : s.Quiet) :
    (wr n r w v s).params = s.params ∧
      (wr n r w v s).eng = { s.eng with point := advancePoint n s.eng.point } ∧ (wr n r w v s).irq = s.irq ∧
      (wr n r w v s).hostMem = s.hostMem ∧ (wr n r w v s).inbox = s.inbox ∧ (wr n r w v s).env.now = s.env.now ∧
      (wr n r w v s).chip = (setReg r v s).chip ∧ (wr n r w v s).phy = (setReg r v s).phy ∧
      (wr n r w v s).hang = s.hang ∧ (wr n r w v s).env.sent = s.env.sent ∧
      (wr n r w v s).env.trace = .write r w (v.setWidth 32) :: s.env.trace := by
  rw [wr_quiet n r w v h]
  simp

/-! ## The busy wait -/

/-- BUSY = 0 ends the wait at its first poll. -/
theorem waitPoll_of_idle (p : SeqPos) (k : State → Out) {s : State} (h : s.chip.busy = false) :
    waitPoll p k s = k ((rd (.to 1 2) .mmuCmd 2 s).2.advance .ret) := by
  rcases waitPoll_cases p k s with ⟨hb, _⟩ | ⟨_, he⟩
  · rw [h] at hb
    exact absurd hb (by decide)
  · exact he

/-- BUSY = 1 leaves the engine at the wait. -/
theorem waitPoll_of_busy (p : SeqPos) (k : State → Out) {s : State} (h : s.chip.busy = true) :
    waitPoll p k s = .next ((delay (.to 1) s.params.mmuPollDelay (rd (.to 1 2) .mmuCmd 2 s).2).park p) := by
  rcases waitPoll_cases p k s with ⟨_, he⟩ | ⟨hb, _⟩
  · exact he
  · rw [h] at hb
    exact absurd hb (by decide)

/-- The same of a wait that a rule calls. -/
theorem waitIdle_of_idle (back : Next) (p : SeqPos) (k : State → Out) {s : State} (h : s.chip.busy = false) :
    waitIdle back p k s = k ((rd (.to 1 2) .mmuCmd 2 (s.call .waitMmuIdle back)).2.advance .ret) :=
  waitPoll_of_idle p k (s := s.call .waitMmuIdle back) h

theorem waitIdle_of_busy (back : Next) (p : SeqPos) (k : State → Out) {s : State} (h : s.chip.busy = true) :
    waitIdle back p k s = .next
      ((delay (.to 1) s.params.mmuPollDelay (rd (.to 1 2) .mmuCmd 2 (s.call .waitMmuIdle back)).2).park p) :=
  waitPoll_of_busy p k (s := s.call .waitMmuIdle back) h

/-! ## ALLOCATE's polls in a quiet run (R181) -/

/-- Without INT_STATUS.ALLOC an attempt makes all its reads and changes nothing but the trace, the draw counter and the
position. -/
theorem spinAlloc_quiet (a k : Nat) : ∀ (j : Nat) (s : State), s.Quiet →
    has s.chip.intStatus (intAlloc s.params) = false →
    (spinAlloc a k j s).1 = false ∧ (spinAlloc a k j s).2.Quiet ∧ (spinAlloc a k j s).2.chip = s.chip ∧
      (spinAlloc a k j s).2.phy = s.phy ∧ (spinAlloc a k j s).2.irq = s.irq ∧
      (spinAlloc a k j s).2.hostMem = s.hostMem ∧ (spinAlloc a k j s).2.inbox = s.inbox ∧
      (spinAlloc a k j s).2.params = s.params ∧
      (spinAlloc a k j s).2.eng = { s.eng with point := (spinAlloc a k j s).2.eng.point } ∧
      (spinAlloc a k j s).2.env.trace =
        List.replicate k (.read .intStatus 1 (s.chip.intStatus.setWidth 32)) ++ s.env.trace := by
  induction k with
  | zero => exact fun j s h _ => ⟨rfl, h, rfl, rfl, rfl, rfl, rfl, rfl, rfl, rfl⟩
  | succ k ih =>
    intro j s h ha
    let n : Next := .to 5 1 (.spin a j)
    have hq := rd_stays_quiet n .intStatus 1 h
    have hc : (rd n .intStatus 1 s).2.chip = s.chip := by
      rw [rd_quiet _ _ _ h]
      simp [readReg, readIntStatus, ha]
    have hv : lowByte (rd n .intStatus 1 s).1 = s.chip.intStatus := by
      rw [rd_fst]
      exact lowByte_setWidth _
    obtain ⟨_, f1, f2, f3, f4, f5, f6, _, _, f7⟩ := rd_quiet_frame n .intStatus 1 h
    obtain ⟨i0, i1, i2, i3, i4, i5, i6, i7, i8, i9⟩ := ih (j + 1) _ hq (by rw [hc, f6]; exact ha)
    have he : spinAlloc a (k + 1) j s = spinAlloc a k (j + 1) (rd n .intStatus 1 s).2 := by
      show (if has (lowByte (rd n .intStatus 1 s).1) (intAlloc s.params) = true then _ else _) = _
      rw [hv, ha]
      rfl
    rw [he]
    refine ⟨i0, i1, i2.trans hc, i3.trans f1, i4.trans f3, i5.trans f4, i6.trans f5, i7.trans f6, ?_, ?_⟩
    · rw [i8, f2]
    · rw [i9, f7, hc, List.replicate_succ']
      have hw : ((readReg .intStatus s).1.setWidth 32 : Long) = s.chip.intStatus.setWidth 32 := by
        simp [readReg, readIntStatus]
      rw [hw]
      simp

end Sys2Proof.Machine
end

