-- ==== Sys2Proof/Laws/Data.lean ====
section
/-! SUPPORT. What a DATA access within its conditions does (spec/20_memory.md R86 to R92), and the compound accesses of the
engine in a quiet run: DATA, MMU commands, save and restore. -/

namespace Sys2Proof.Machine

/-- The buffer an access within its conditions reaches. -/
theorem State.DataReady.dataEntry {s : State} {p : Pkt} {e : Entry} {w : Nat} {reading : Bool}
    (h : s.DataReady p e w reading) : s.chip.dataEntry s.params w reading = some e := by
  have ht : s.chip.target s.params = some p := by
    have := h.target
    unfold Chip.target
    by_cases hr : has s.chip.ptr (ptrRcv s.params) = true
    · rw [if_pos hr] at this ⊢
      exact this
    · rw [if_neg hr] at this ⊢
      rw [this]
  have hc : has s.chip.ptr (ptrRead s.params) = reading ∧ s.chip.dp + w ≤ e.capacity ∧ s.chip.dp % w = 0 :=
    ⟨h.mode, h.range, h.aligned⟩
  simp only [Chip.dataEntry, ht, h.entry]
  exact if_pos hc

/-- A read of DATA within its conditions (R90): the bytes at `dp`, and `dp` advances. -/
theorem State.DataReady.dataRead {s : State} {p : Pkt} {e : Entry} {w : Nat} (h : s.DataReady p e w true) :
    dataRead w s = .ok (longOf (wordOf (s.chip.dataByte e w 0) (s.chip.dataByte e w 1))
        (wordOf (s.chip.dataByte e w 2) (s.chip.dataByte e w 3)), s.setChip (s.chip.advance w s.params)) := by
  simp only [Machine.dataRead, h.dataEntry]

/-- A write of DATA within its conditions (R91): its bytes stand at `dp`, and `dp` advances. -/
theorem State.DataReady.dataWrite {s : State} {p : Pkt} {e : Entry} {w : Nat} (v : Long) (h : s.DataReady p e w false) :
    dataWrite w v s = .ok (s.setChip ({ s.chip with
      pktMem := s.chip.pktMem.writeBytes (pktAddr e.pkt s.chip.dp) (dataBytes w v) }.advance w s.params)) := by
  simp only [Machine.dataWrite, h.dataEntry]

/-- `dp` behind an access of `w` bytes (R45); nothing else of the chip unit changes. -/
theorem advance_eq (s : State) (w : Nat) : s.chip.advance w s.params = { s.chip with dp := s.advanced w } := by
  unfold Chip.advance State.advanced
  split <;> rfl

/-! ## Quiet runs -/

/-- A word read of DATA in a quiet run. -/
theorem State.DataReady.rdData_quiet {s : State} {p : Pkt} {e : Entry} (n : Next) (h : s.DataReady p e 2 true)
    (hq : s.Quiet) :
    ∃ v : Long, lowWord v = wordOf (s.chip.bufByte e s.chip.dp) (s.chip.bufByte e (s.chip.dp + 1)) ∧
      rdData n s =
        .ok (lowWord v, ((s.setChip { s.chip with dp := s.advanced 2 }).note (.read .data 2 v)).advance n) := by
  refine ⟨longOf (wordOf (s.chip.dataByte e 2 0) (s.chip.dataByte e 2 1))
      (wordOf (s.chip.dataByte e 2 2) (s.chip.dataByte e 2 3)), ?_, ?_⟩
  · rw [lowWord_longOf]
    rfl
  · unfold rdData
    rw [h.dataRead]
    dsimp only
    rw [gap_quiet (s := ((s.setChip (s.chip.advance 2 s.params)).note _).advance n) hq, advance_eq]

/-- A word write of DATA in a quiet run. -/
theorem State.DataReady.wrData_quiet {s : State} {p : Pkt} {e : Entry} (n : Next) (v : Word)
    (h : s.DataReady p e 2 false) (hq : s.Quiet) :
    wrData n v s = .ok (((s.setChip { s.chip with
      pktMem := s.chip.pktMem.writeBytes (pktAddr e.pkt s.chip.dp) [lowByte v, highByte v]
      dp := s.advanced 2 }).note (.write .data 2 (v.setWidth 32))).advance n) := by
  unfold wrData
  rw [h.dataWrite]
  dsimp only
  have hg : ∀ (c : Chip) (a : Access), gap (((s.setChip c).note a).advance n) = ((s.setChip c).note a).advance n :=
    fun _ _ => gap_quiet hq
  rw [hg]
  have hb : dataBytes 2 (v.setWidth 32) = [lowByte v, highByte v] := by
    simp [dataBytes, wordBytes]
  rw [hb]
  unfold Chip.advance State.advanced
  dsimp only
  split <;> rfl

/-- A command the chip unit takes, in a quiet run. -/
theorem wrMmu_quiet {s : State} {n : Next} {k : MmuCode} (h : mmuGuard k s.params s.chip = none) (hq : s.Quiet) :
    wrMmu n k s =
      .ok (((mmuTake k s).note (.write .mmuCmd 2 ((encodeMmuCode s.params.codes k).setWidth 32))).advance n) := by
  rw [wrMmu_of_guard h]
  exact congrArg Except.ok (gap_quiet hq)

/-- Saving the selection in a quiet run changes the two slots, the position and the trace (R158). -/
theorem saveCtx_quiet {s : State} (n m : Next) (h : s.Quiet) :
    (saveCtx n m s).Quiet ∧ (saveCtx n m s).chip = s.chip ∧ (saveCtx n m s).phy = s.phy ∧
      (saveCtx n m s).irq = s.irq ∧ (saveCtx n m s).hostMem = s.hostMem ∧ (saveCtx n m s).inbox = s.inbox ∧
      (saveCtx n m s).params = s.params ∧ (saveCtx n m s).env.now = s.env.now ∧
      (saveCtx n m s).eng = { s.eng with
        savedPnr := s.chip.pnr, savedPtr := s.chip.ptr,
        point := advancePoint m (advancePoint n s.eng.point) } := by
  unfold saveCtx
  rw [rdKeep_quiet m .ptr 2 _ (rdKeep_stays_quiet n .pnr 1 _ h), rdKeep_quiet n .pnr 1 _ h, readReg_pnr]
  exact ⟨h, rfl, rfl, rfl, rfl, rfl, rfl, rfl, rfl⟩

/-- Restoring the selection in a quiet run puts PNR and PTR back and reloads `dp` (R158, R45). -/
theorem restoreCtx_quiet {s : State} (n m : Next) (h : s.Quiet) :
    (restoreCtx n m s).Quiet ∧
      (restoreCtx n m s).chip = { s.chip with
        pnr := s.eng.savedPnr, ptr := s.eng.savedPtr, dp := offsetOf s.params s.eng.savedPtr, dpStale := false } ∧
      (restoreCtx n m s).phy = s.phy ∧ (restoreCtx n m s).irq = s.irq ∧ (restoreCtx n m s).hostMem = s.hostMem ∧
      (restoreCtx n m s).inbox = s.inbox ∧ (restoreCtx n m s).params = s.params ∧
      (restoreCtx n m s).eng = { s.eng with point := advancePoint m (advancePoint n s.eng.point) } := by
  unfold restoreCtx
  dsimp only
  have e1 : wr n .pnr 1 (s.eng.savedPnr.setWidth 16) s =
      ((s.setChip { s.chip with pnr := s.eng.savedPnr }).note
        (.write .pnr 1 ((s.eng.savedPnr.setWidth 16).setWidth 32))).advance n := by
    rw [wr_quiet n .pnr 1 _ h, setReg_pnr, lowByte_setWidth]
  have e2 : ∀ (c : Chip) (a : Access) (v : Word), wr m .ptr 2 v (((s.setChip c).note a).advance n) =
      ((setReg .ptr v (((s.setChip c).note a).advance n)).note (.write .ptr 2 (v.setWidth 32))).advance m :=
    fun _ _ v => wr_quiet m .ptr 2 v h
  rw [e1, e2, setReg_ptr]
  exact ⟨h, rfl, rfl, rfl, rfl, rfl, rfl, rfl⟩

/-! ## The MII executor in a quiet run -/

@[simp] theorem sample_length (i : Nat) (b : Bool) (q : List Cycle) : (sample i b q).length = q.length := by
  simp [sample]

/-- A sample changes no `oe` and no `do` (R105). -/
@[simp] theorem sample_drives (i : Nat) (b : Bool) (q : List Cycle) :
    (sample i b q).map (fun c => Drive.mk c.oe c.dat) = q.map (fun c => Drive.mk c.oe c.dat) := by
  apply List.ext_getElem
  · simp
  · intro k h1 h2
    simp only [List.getElem_map, sample, List.getElem_modify]
    split <;> rfl

/-- What the executor leaves unchanged between two of its states in a quiet run: everything but MGMT, the PHY, the `in` flags
of the sequence, the position and the bookkeeping. -/
structure State.KeptByCycles (s t : State) : Prop where
  quiet : t.Quiet
  params : t.params = s.params
  irq : t.irq = s.irq
  hostMem : t.hostMem = s.hostMem
  inbox : t.inbox = s.inbox
  hang : t.hang = s.hang
  drives : t.eng.seqBuf.map (fun c => Drive.mk c.oe c.dat) = s.eng.seqBuf.map (fun c => Drive.mk c.oe c.dat)

theorem State.KeptByCycles.refl {s : State} (h : s.Quiet) : s.KeptByCycles s := ⟨h, rfl, rfl, rfl, rfl, rfl, rfl⟩

theorem State.KeptByCycles.trans {s t u : State} (h : s.KeptByCycles t) (k : t.KeptByCycles u) : s.KeptByCycles u :=
  ⟨k.quiet, k.params.trans h.params, k.irq.trans h.irq, k.hostMem.trans h.hostMem, k.inbox.trans h.inbox,
    k.hang.trans h.hang, k.drives.trans h.drives⟩

theorem wr_keptByCycles {s : State} (n : Next) (r : Reg) (w : Nat) (v : Word) (h : s.Quiet) :
    s.KeptByCycles (wr n r w v s) := by
  obtain ⟨p, e, i, m, b, -, -, -, g, -⟩ := wr_quiet_outside n r w v h
  exact ⟨wr_stays_quiet n r w v h, p, i, m, b, g, by rw [e]⟩

theorem delay_keptByCycles {s : State} (n : Next) (t : Nat) (h : s.Quiet) : s.KeptByCycles (delay n t s) := by
  rw [delay_quiet n t h]
  exact ⟨h, rfl, rfl, rfl, rfl, rfl, rfl⟩

theorem rd_keptByCycles {s : State} (n : Next) (r : Reg) (w : Nat) (h : s.Quiet) : s.KeptByCycles (rd n r w s).2 := by
  obtain ⟨-, -, e, i, m, b, p, g, -⟩ := rd_quiet_frame n r w h
  exact ⟨rd_stays_quiet n r w h, p, i, m, b, g, by rw [e]⟩

theorem sample_keptByCycles {s : State} (n : Next) (i : Nat) (f : Word → Bool) (h : s.Quiet) :
    s.KeptByCycles (rdKeep n .mgmt 2 (fun v e => { e with seqBuf := sample i (f v) e.seqBuf }) s) := by
  obtain ⟨-, -, e, q, m, b, p, g⟩ :=
    rdKeep_quiet_frame n .mgmt 2 (fun v e => { e with seqBuf := sample i (f v) e.seqBuf }) h
  exact ⟨rdKeep_stays_quiet _ _ _ _ h, p, q, m, b, g, by rw [e]; exact sample_drives _ _ _⟩

/-- One cycle in a quiet run. -/
theorem runCycle_quiet (next : Next) (base : Word) (i : Nat) (c : Cycle) {s : State} (h : s.Quiet) :
    s.KeptByCycles (runCycle next base i c s) := by
  have hw := fun (n m : Next) (v : Word) {u : State} (hu : u.Quiet) =>
    (wr_keptByCycles n .mgmt 2 v hu).trans (delay_keptByCycles m Config.miiHalfPeriod (wr_stays_quiet n .mgmt 2 v hu))
  unfold runCycle
  dsimp only
  refine State.KeptByCycles.trans ?_ (sample_keptByCycles next i _ ?_)
  · exact (hw _ _ _ h).trans (hw _ _ _ (hw _ _ _ h).quiet)
  · exact (hw _ _ _ (hw _ _ _ h).quiet).quiet

/-- Any number of cycles in a quiet run. -/
theorem runCycles_quiet (base : Word) (cs : List Cycle) : ∀ (i : Nat) {s : State}, s.Quiet →
    s.KeptByCycles (runCycles base i cs s) := by
  induction cs with
  | nil => exact fun i s h => .refl h
  | cons c cs ih =>
    intro i s h
    have hc := runCycle_quiet (afterCycle i cs) base i c h
    exact hc.trans (ih (i + 1) hc.quiet)

/-- R243 line 1: the read of BSR, with the bank in its save slot. -/
def saveBank (s : State) : State := rdKeep (runLine 2) .bsr 2 (fun v e => { e with savedBank := bankOf s.params v }) s

/-- The executor behind its first access, in a run that is quiet from there on. -/
theorem runSequence_quiet {s : State} (h : (saveBank s).Quiet) : (saveBank s).KeptByCycles (runSequence s) := by
  unfold runSequence
  dsimp only
  have h1 := wr_keptByCycles (runLine 3) .bsr 2 (bankWord (saveBank s).params s.params.regs.mb) h
  have h2 := h1.trans (rd_keptByCycles (inCycle 0 .low 1) .mgmt 2 h1.quiet)
  have h3 := fun base cs => h2.trans (runCycles_quiet base cs 0 h2.quiet)
  have h4 := fun base cs => (h3 base cs).trans (wr_keptByCycles (runLine 6) .mgmt 2 base (h3 base cs).quiet)
  exact (h4 _ _).trans (wr_keptByCycles (.to 3) .bsr 2 _ (h4 _ _).quiet)

end Sys2Proof.Machine
end

