-- ==== Sys2Proof/Laws/PerInstr.lean ====
section
/-! SUPPORT. One lemma per constructor of `Instr`: the encoding of an operation has the length the opcode table gives its
row (spec/30_encoding.md R121, R122, R130, R146, R147). -/

namespace Sys2Proof.Laws.EncodedSize

/-- How many bits a request is long; a cycle of a frame counts as one, as the opcode table's patterns count it. -/
def requestBits : Request → Nat
  | .descriptor bytes => 8 * bytes.length
  | .mmuWord _ => 16
  | .frame cycles => cycles.length

/-- The length of each row of the opcode table in bits. -/
def tableBits : Instr → Nat
  | .selectBank _ => 16
  | .readByte _ => 16
  | .readWord _ => 16
  | .readLong _ => 16
  | .writeByte _ _ => 24
  | .writeWord _ _ => 32
  | .writeLong _ _ => 48
  | .readBlock _ _ => 32
  | .writeBlock _ _ => 32
  | .allocate _ => 16
  | .release => 8
  | .free _ => 16
  | .waitMmuIdle => 8
  | .transmit _ => 24
  | .receive => 8
  | .miiRead _ => 16
  | .miiWrite _ _ => 32
  | .phyConfigure => 8
  | .reset => 8
  | .enable => 8
  | .shutdown => 8
  | .probe => 8
  | .openOp => 8
  | .closeOp => 8
  | .mmuAlloc _ => 16
  | .mmuReset => 16
  | .mmuRelease => 16
  | .mmuFree => 16
  | .mmuEnqueue => 16
  | .miiReadFrame _ _ => 64
  | .miiWriteFrame _ _ _ => 65

/-- The encoding has the length of its row, whatever MMU_CODES is. -/
def Statement (i : Instr) : Prop := ∀ c : Config.MmuCodes, requestBits (encode c i) = tableBits i

theorem selectBank (n : Byte) : Statement (.selectBank n) := fun _ => rfl

theorem readByte (off : Byte) : Statement (.readByte off) := fun _ => rfl

theorem readWord (off : Byte) : Statement (.readWord off) := fun _ => rfl

theorem readLong (off : Byte) : Statement (.readLong off) := fun _ => rfl

theorem writeByte (off v : Byte) : Statement (.writeByte off v) := fun _ => rfl

theorem writeWord (off : Byte) (v : Word) : Statement (.writeWord off v) := fun _ => rfl

theorem writeLong (off : Byte) (v : Long) : Statement (.writeLong off v) := fun _ => rfl

theorem readBlock (off : Byte) (count : Word) : Statement (.readBlock off count) := fun _ => rfl

theorem writeBlock (off : Byte) (count : Word) : Statement (.writeBlock off count) := fun _ => rfl

theorem allocate (n : Byte) : Statement (.allocate n) := fun _ => rfl

theorem release : Statement .release := fun _ => rfl

theorem free (p : Byte) : Statement (.free p) := fun _ => rfl

theorem waitMmuIdle : Statement .waitMmuIdle := fun _ => rfl

theorem transmit (len : Word) : Statement (.transmit len) := fun _ => rfl

theorem receive : Statement .receive := fun _ => rfl

theorem miiRead (reg : Byte) : Statement (.miiRead reg) := fun _ => rfl

theorem miiWrite (reg : Byte) (v : Word) : Statement (.miiWrite reg v) := fun _ => rfl

theorem phyConfigure : Statement .phyConfigure := fun _ => rfl

theorem reset : Statement .reset := fun _ => rfl

theorem enable : Statement .enable := fun _ => rfl

theorem shutdown : Statement .shutdown := fun _ => rfl

theorem probe : Statement .probe := fun _ => rfl

theorem openOp : Statement .openOp := fun _ => rfl

theorem closeOp : Statement .closeOp := fun _ => rfl

theorem mmuAlloc (n : BitVec 3) : Statement (.mmuAlloc n) := fun _ => rfl

theorem mmuReset : Statement .mmuReset := fun _ => rfl

theorem mmuRelease : Statement .mmuRelease := fun _ => rfl

theorem mmuFree : Statement .mmuFree := fun _ => rfl

theorem mmuEnqueue : Statement .mmuEnqueue := fun _ => rfl

theorem miiReadFrame (phy reg : BitVec 5) : Statement (.miiReadFrame phy reg) := fun _ => rfl

theorem miiWriteFrame (phy reg : BitVec 5) (v : Word) : Statement (.miiWriteFrame phy reg v) := fun _ => rfl

end Sys2Proof.Laws.EncodedSize
end

