-- ==== Sys2Proof/Laws/Shows.lean ====
section
/-! SUPPORT. What a read of each register shows, said once (spec/10_state.md R22 to R39, spec/20_memory.md R85). -/

namespace Sys2Proof.Machine

/-- A flag put into a word in which its bit is clear. -/
theorem has_or_flag {n : Nat} (w : BitVec n) (i : Fin n) (b : Bool) (h : has w (bit i) = false) :
    has (w ||| flag (bit i) b) (bit i) = b := by
  rw [has_bit] at h ⊢
  rw [BitVec.getLsbD_or, h, getLsbD_flag, getLsbD_bit]
  simp

/-- Every read shows its register (R22 to R39, R85). -/
theorem readReg_shows (r : Reg) {s : State} (hb : bitsOk s.params.bits) (hm : has s.chip.mgmt (mdi s.params) = false) :
    s.Shows r (readReg r s).1 := by
  cases r with
  | bsr => exact bankOf_bsrWord _ _ _
  | sig i => exact readReg_sig i s
  | mac i =>
    intro h
    show lowByte ((macByte s.chip.mac i).setWidth 16) = s.chip.mac[i]
    rw [lowByte_setWidth]
    simp [macByte, Vector.getD, h]
  | mmuCmd =>
    show has (readReg .mmuCmd s).1 (busyBit s.params) = true ↔ _
    rw [readReg_mmuCmd_busy]
    unfold Chip.busy
    rcases s.chip.pending with _ | _ | _ | _ | _ <;> simp
  | pnr => exact readReg_pnr s
  | arr => exact readReg_arr s
  | fifo =>
    refine ⟨by rw [readReg_fifo_rempty]; simp, fun p rest h => ?_⟩
    show getField s.params.bits.rxpkt.val 6 (fifoValue s.params s.chip.rxFifo _) = p
    rw [h]
    apply BitVec.eq_of_getLsbD_eq
    intro i hi
    have hr := hb.2.2.2.2.2.2
    have hx := s.params.bits.rxpkt.isLt
    simp only [fifoValue, rempty, rxpktMask, getLsbD_getField, BitVec.getLsbD_or, getLsbD_without, getLsbD_putField,
      getLsbD_bit, getLsbD_fieldMask]
    have e1 : s.params.bits.rempty.val ≠ s.params.bits.rxpkt.val + i := by omega
    have e2 : s.params.bits.rxpkt.val + i < 16 := by omega
    simp only [hi, e2, e1.symm, decide_true, decide_false, Nat.le_add_right, Nat.add_sub_cancel_left, Bool.and_true, Bool.true_and,
      Bool.not_true, Bool.not_false, Bool.and_false, Bool.false_or]
  | data => trivial
  | intStatus => exact readReg_intStatus s
  | intAck => exact readReg_intStatus s
  | intMask => exact readReg_intMask s
  | mgmt =>
    have hv : has (readReg .mgmt s).1 (mdi s.params) =
        pinLevel s.params s.chip.mgmt s.phy.drive (Config.freeBit s.env.draw) := has_or_flag _ _ _ hm
    refine ⟨?_, fun h => ?_, fun b h g => ?_⟩
    · show (s.chip.mgmt ||| flag (mdi s.params) _) &&& ~~~mdi s.params = _
      generalize pinLevel s.params s.chip.mgmt s.phy.drive (Config.freeBit s.env.draw) = b
      apply BitVec.eq_of_getLsbD_eq
      intro i hi
      simp only [mdi, BitVec.getLsbD_and, BitVec.getLsbD_or, BitVec.getLsbD_not, getLsbD_flag, getLsbD_bit]
      by_cases e : i = s.params.bits.mdi.val <;> simp [e]
    · rw [hv]; simp [pinLevel, h]
    · rw [hv]; simp [pinLevel, h, g]
  | _ => rfl

end Sys2Proof.Machine
end

