-- ==== Sys2Proof/Laws/Wf.lean ====
section
/-! SUPPORT. Every shared operation keeps the invariant `State.Wf`. -/

namespace Sys2Proof.Machine

/-- The canonical forms read these fields. -/
theorem State.Wf.of_eq {s t : State} (h : s.Wf) (h0 : t.params = s.params) (h1 : t.chip.pktMem = s.chip.pktMem)
    (h2 : t.hostMem = s.hostMem) (h3 : t.chip.table = s.chip.table) (h4 : t.chip.mgmt = s.chip.mgmt)
    (h5 : t.phy.ones = s.phy.ones) (h6 : t.phy.ctrl = s.phy.ctrl) (h7 : t.hang = s.hang) : t.Wf where
  parts := {
    pktMem := by rw [h1]; exact h.parts.pktMem
    hostMem := by rw [h2]; exact h.parts.hostMem
    table := by rw [h3]; exact h.parts.table
    mdiClear := by rw [h4, h0]; exact h.parts.mdiClear
    onesBound := by rw [h5]; exact h.parts.onesBound
    ctrlClear := by rw [h6, h0]; exact h.parts.ctrlClear }
  hang := by rw [h7, h0]; exact h.hang

/-- A change of the chip unit that keeps its two canonical forms and MGMT. -/
theorem State.Wf.setChip {s : State} (h : s.Wf) {c : Chip} (h1 : c.pktMem.wf) (h2 : tableWf c.table)
    (h3 : has c.mgmt (mdi s.params) = false) : (s.setChip c).Wf where
  parts := { h.parts with pktMem := h1, table := h2, mdiClear := h3 }
  hang := h.hang

/-- A change of the chip unit that leaves packet memory, the table and MGMT alone. -/
theorem State.Wf.setChip_same {s : State} (h : s.Wf) {c : Chip} (h1 : c.pktMem = s.chip.pktMem)
    (h2 : c.table = s.chip.table) (h3 : c.mgmt = s.chip.mgmt) : (s.setChip c).Wf :=
  h.of_eq rfl h1 rfl h2 h3 rfl rfl rfl

theorem State.Wf.setPhy {s : State} (h : s.Wf) {p : Phy} (h1 : p.ones ≤ 32)
    (h2 : has p.ctrl (phyVolatile s.params) = false) : (s.setPhy p).Wf where
  parts := { h.parts with onesBound := h1, ctrlClear := h2 }
  hang := h.hang

theorem State.Wf.setEng {s : State} (h : s.Wf) (e : Engine) : (s.setEng e).Wf :=
  h.of_eq rfl rfl rfl rfl rfl rfl rfl rfl

theorem State.Wf.setPkt {s : State} (h : s.Wf) (p : Option Pkt) : (s.setPkt p).Wf := h.setEng _

theorem State.Wf.setIrq {s : State} (h : s.Wf) (q : IrqCtx) : (s.setIrq q).Wf :=
  h.of_eq rfl rfl rfl rfl rfl rfl rfl rfl

theorem State.Wf.irqAt {s : State} (h : s.Wf) (p : IrqPos) : (s.irqAt p).Wf := h.setIrq _

theorem State.Wf.setEnv {s : State} (h : s.Wf) (e : Env) : ({ s with env := e } : State).Wf :=
  h.of_eq rfl rfl rfl rfl rfl rfl rfl rfl

theorem State.Wf.note {s : State} (h : s.Wf) (a : Access) : (s.note a).Wf := h.setEnv _

theorem State.Wf.bump {s : State} (h : s.Wf) (n : Nat) : (s.bump n).Wf := h.setEnv _

theorem State.Wf.send {s : State} (h : s.Wf) (f : SentFrame) : (s.send f).Wf := h.setEnv _

theorem State.Wf.setHold {s : State} (h : s.Wf) (b : Bool) : (s.setHold b).Wf :=
  h.of_eq rfl rfl rfl rfl rfl rfl rfl rfl

theorem State.Wf.advance {s : State} (h : s.Wf) (n : Next) : (s.advance n).Wf := h.setEng _

theorem State.Wf.begin {s : State} (h : s.Wf) (i : Instr) : (s.begin i).Wf := h.setEng _

theorem State.Wf.call {s : State} (h : s.Wf) (i : Instr) (back : Next) : (s.call i back).Wf := h.setEng _

theorem State.Wf.finishWith {s : State} (h : s.Wf) (r : OpResult) : (s.finishWith r).Wf := h.setEng _

theorem State.Wf.finish {s : State} (h : s.Wf) (c : Condition) (v : Int) : (s.finish c v).Wf := h.setEng _

theorem State.Wf.raise {s : State} (h : s.Wf) (c : Condition) (v : Int) : (s.raise c v).Wf := h.setEng _

theorem State.Wf.park {s : State} (h : s.Wf) (p : SeqPos) : (s.park p).Wf := h.setEng _

theorem State.Wf.setLife {s : State} (h : s.Wf) (l : Life) : (s.setLife l).Wf := h.setEng _

theorem State.Wf.hostWrite {s : State} (h : s.Wf) (buf i : Nat) (b : Byte) : (s.hostWrite buf i b).Wf where
  parts := { h.parts with hostMem := Memory.wf_write _ _ _ h.parts.hostMem }
  hang := h.hang

/-- A settled step keeps the canonical forms, and hangs nowhere. -/
theorem settle_wf {o : Out} {u : State} (h : ∀ t, o = .next t → t.Wf) (hu : settle o = .next u) :
    u.Wf ∧ u.hang = none := by
  obtain ⟨t, rfl, ⟨hn, rfl⟩ | ⟨g, hg, rfl⟩⟩ := settle_next hu
  · exact ⟨h _ rfl, hn⟩
  · exact ⟨⟨(h t rfl).hang g hg, fun k hk => by simp at hk⟩, rfl⟩

/-! ## Agents -/

theorem State.Wf.freePkt {s : State} (h : s.Wf) (p : Pkt) :
    (s.chip.freePkt p).pktMem.wf ∧ tableWf (s.chip.freePkt p).table :=
  ⟨Memory.wf_forget _ _ _ h.parts.pktMem, tableWf_filter _ h.parts.table⟩

theorem State.Wf.takePkt {s : State} (h : s.Wf) (p : Pkt) (n k : Nat) (hn : 1 ≤ n ∧ n ≤ 8) :
    (s.chip.takePkt p n k).pktMem.wf ∧ tableWf (s.chip.takePkt p n k).table :=
  ⟨Memory.wf_forget _ _ _ h.parts.pktMem, tableWf_insertEntry h.parts.table hn⟩

theorem allocSuccess_wf {s : State} (h : s.Wf) (silent : Bool) (p : Pkt) : (allocSuccess silent p s).Wf := by
  unfold allocSuccess
  split
  · rename_i n _
    split
    · have hn : n.toNat < 8 := n.isLt
      have ht := h.takePkt p (n.toNat + 1) s.env.draw ⟨by omega, by omega⟩
      refine State.Wf.bump ?_ 1
      exact h.setChip ht.1 ht.2 h.parts.mdiClear
    · exact h
  all_goals exact h

theorem allocFailure_wf {s : State} (h : s.Wf) : (allocFailure s).Wf := by
  unfold allocFailure
  split
  · refine State.Wf.bump ?_ 2
    exact h.setChip_same rfl rfl rfl
  all_goals exact h

theorem mmuCompletion_wf {s : State} (h : s.Wf) : (s.setChip (mmuCompletion s.chip)).Wf := by
  refine h.setChip ?_ ?_ ?_
  · unfold mmuCompletion
    split <;> (try split) <;> first | exact h.parts.pktMem | exact (h.freePkt _).1 | exact Memory.wf_nil
  · unfold mmuCompletion
    split <;> (try split) <;> first | exact h.parts.table | exact (h.freePkt _).2 | exact tableWf_nil
  · rw [mmuCompletion_frame]; exact h.parts.mdiClear

theorem autoFreeCompletion_wf {s : State} (h : s.Wf) : (s.setChip (autoFreeCompletion s.chip)).Wf := by
  unfold autoFreeCompletion
  split
  · exact h
  · exact h.setChip (h.freePkt _).1 (h.freePkt _).2 h.parts.mdiClear

theorem txTake_wf {s : State} (h : s.Wf) : (txTake s).Wf := by
  unfold txTake
  split
  · split
    · exact h
    · refine State.Wf.send ?_ _
      exact h.setChip_same rfl rfl rfl
  · exact h

theorem txSuccess_wf {s : State} (h : s.Wf) (tx : Bool) : (s.setChip (txSuccess tx s.params s.chip)).Wf :=
  h.setChip_same (by rw [txSuccess_frame]) (by rw [txSuccess_frame]) (by rw [txSuccess_frame])

theorem txFailure_wf {s : State} (h : s.Wf) (tx ct : Bool) : (s.setChip (txFailure tx ct s.params s.chip)).Wf :=
  h.setChip_same (by rw [txFailure_frame]) (by rw [txFailure_frame]) (by rw [txFailure_frame])

theorem rxArrive_wf {s : State} (h : s.Wf) (p : Pkt) (pages : Nat) (status lenWord : Word) (payload : List Byte) :
    (rxArrive p pages status lenWord payload s).Wf := by
  unfold rxArrive
  split
  · rename_i hc
    simp only [Bool.and_eq_true, decide_eq_true_eq] at hc
    have ht := h.takePkt p pages s.env.draw ⟨hc.2.1, hc.2.2.1⟩
    refine State.Wf.bump ?_ 1
    exact h.setChip (Memory.wf_writeBytes _ _ _ ht.1) ht.2 h.parts.mdiClear
  · exact h

theorem has_without_self {n : Nat} (w m : BitVec n) : has (without w m) m = false := by
  have : without w m &&& m = 0#n := by simp [without, BitVec.and_assoc]
  simp [has, this]

theorem agentStep_wf {s : State} (h : s.Wf) (e : AgentEvent) : (agentStep e s).Wf := by
  cases e <;> simp only [agentStep] <;> split
  case phyResetDone.isTrue => exact h.setPhy h.parts.onesBound (has_without_self _ _)
  case phySetAck.isTrue => exact h.setPhy h.parts.onesBound h.parts.ctrlClear
  case phySetRemFlt.isTrue => exact h.setPhy h.parts.onesBound h.parts.ctrlClear
  case phyClrRemFlt.isTrue => exact h.setPhy h.parts.onesBound h.parts.ctrlClear
  case allocOk.isFalse => exact allocSuccess_wf h _ _
  case allocSilent.isFalse => exact allocSuccess_wf h _ _
  case allocFail.isFalse => exact allocFailure_wf h
  case mmuDone.isFalse => exact mmuCompletion_wf h
  case autoFreeDone.isFalse => exact autoFreeCompletion_wf h
  case txDequeue.isFalse => exact txTake_wf h
  case txDone.isFalse => exact txSuccess_wf h _
  case txFail.isFalse => exact txFailure_wf h _ _
  case rxFrame.isFalse => exact rxArrive_wf h _ _ _ _ _
  all_goals exact h

theorem agentSteps_wf (es : List AgentEvent) : ∀ {s : State}, s.Wf → (agentSteps es s).Wf := by
  induction es with
  | nil => exact fun h => h
  | cons e es ih => exact fun h => ih (agentStep_wf h e)

/-! ## Registers and pins -/

theorem readReg_wf {s : State} (h : s.Wf) (r : Reg) : (readReg r s).2.Wf := by
  obtain ⟨n, hs⟩ := readReg_state r s
  rw [hs]
  refine State.Wf.bump ?_ n
  exact h.setChip_same rfl rfl rfl

theorem onesAfter_le (n : Nat) (d : Drive) : onesAfter n d ≤ 32 := by
  unfold onesAfter
  split <;> omega

theorem Phy.garble_ones (cfg : Config.Params) (p : Phy) (n : Nat) : (p.garble cfg n).ones = p.ones := rfl

theorem Phy.garble_ctrl (cfg : Config.Params) (p : Phy) (n : Nat) : has (p.garble cfg n).ctrl (phyVolatile cfg) = false :=
  has_without_self _ _

theorem Phy.recognise_ones (cfg : Config.Params) (p : Phy) (bits : BitVec 14) (rest : Word) : (p.recognise cfg bits rest).ones = p.ones := by
  unfold Phy.recognise
  dsimp only
  split <;> (try split) <;> rfl

theorem Phy.recognise_ctrl (cfg : Config.Params) (p : Phy) (bits : BitVec 14) (rest : Word) : (p.recognise cfg bits rest).ctrl = p.ctrl := by
  unfold Phy.recognise
  dsimp only
  split <;> (try split) <;> rfl

theorem Phy.writeReg_ones (cfg : Config.Params) (p : Phy) (r : BitVec 5) (d : Word) : (p.writeReg cfg r d).ones = p.ones := by
  unfold Phy.writeReg
  split
  · rfl
  · split
    · rfl
    · split <;> (try split) <;> rfl

theorem Phy.writeReg_ctrl (cfg : Config.Params) (p : Phy) (r : BitVec 5) (d : Word) (h : has p.ctrl (phyVolatile cfg) = false) :
    has (p.writeReg cfg r d).ctrl (phyVolatile cfg) = false := by
  unfold Phy.writeReg
  split
  · exact has_without_self _ _
  · split
    · exact h
    · split <;> (try split) <;> exact h

/-- One rising edge keeps the count of ones and never stores RESET or ANEG_RESTART (R263, R266, R267). -/
theorem Phy.edge_wf (cfg : Config.Params) (p : Phy) (before : Nat) (d : Drive) (n : Nat)
    (h : has p.ctrl (phyVolatile cfg) = false) :
    (p.edge cfg before d n).ones = p.ones ∧ has (p.edge cfg before d n).ctrl (phyVolatile cfg) = false := by
  have hg : ∀ m, (p.garble cfg m).ones = p.ones ∧ has (p.garble cfg m).ctrl (phyVolatile cfg) = false :=
    fun m => ⟨rfl, has_without_self _ _⟩
  unfold Phy.edge
  split
  · split
    · split
      · exact ⟨rfl, h⟩
      · split
        · exact ⟨rfl, h⟩
        · exact hg n
    · split
      · exact ⟨rfl, h⟩
      · exact hg n
  · split
    · dsimp only
      split
      · split
        · exact ⟨rfl, h⟩
        · exact hg n
      · split
        · split
          · exact ⟨rfl, h⟩
          · exact hg n
        · split
          · exact ⟨Phy.recognise_ones _ _ _ _, by rw [Phy.recognise_ctrl]; exact h⟩
          · exact ⟨rfl, h⟩
    · exact hg n
  · split
    · exact hg n
    · split
      · exact ⟨rfl, h⟩
      · split <;> exact ⟨rfl, h⟩
  · split
    · split
      · exact hg n
      · exact ⟨rfl, h⟩
    · split
      · dsimp only
        split
        · exact ⟨Phy.writeReg_ones _ _ _ _, Phy.writeReg_ctrl _ _ _ _ h⟩
        · exact ⟨rfl, h⟩
      · split
        · exact hg n
        · exact ⟨rfl, h⟩
  · split
    · exact hg n
    · split <;> exact ⟨rfl, h⟩
  · split
    · split
      · exact hg n
      · exact ⟨rfl, h⟩
    · exact ⟨rfl, h⟩

theorem phyEdge_wf {s : State} (h : s.Wf) (d : Drive) : (phyEdge d s).Wf := by
  unfold phyEdge
  split
  · exact h
  · have he := Phy.edge_wf s.params { s.phy with ones := onesAfter s.phy.ones d } s.phy.ones d s.env.draw h.parts.ctrlClear
    exact (h.setPhy (by rw [he.1]; exact onesAfter_le _ _) he.2).bump 4

theorem mgmtWrite_wf {s : State} (h : s.Wf) (v : Word) : (mgmtWrite v s).Wf := by
  have h' : (s.setChip { s.chip with mgmt := without v (mdi s.params) }).Wf := h.setChip h.parts.pktMem h.parts.table (has_without_self _ _)
  unfold mgmtWrite
  dsimp only
  split
  · exact phyEdge_wf h' _
  · exact h'

theorem drawnChip_wf {s : State} (h : s.Wf) (w : Word) :
    (s.setChip { drawnChip s.params s.chip s.env.draw with rcr := w }).Wf :=
  h.setChip Memory.wf_nil (tableWf_normTable _) (has_without_self _ _)

theorem softReset_wf {s : State} (h : s.Wf) : (softReset s).Wf := (drawnChip_wf h _).bump 1

theorem powerUp_wf {s : State} (h : s.Wf) : (powerUp s).Wf := (drawnChip_wf h _).bump 1

theorem setReg_wf {s : State} (h : s.Wf) (r : Reg) (v : Word) : (setReg r v s).Wf := by
  cases r with
  | rcr =>
    simp only [setReg]
    split
    · exact softReset_wf h
    · exact h.setChip_same rfl rfl rfl
  | config =>
    simp only [setReg]
    split
    · exact powerUp_wf (h.setChip_same rfl rfl rfl)
    · exact h.setChip_same rfl rfl rfl
  | mgmt => exact mgmtWrite_wf h v
  | sig _ => exact h
  | intStatus => exact h
  | mmuCmd => exact h
  | arr => exact h
  | fifo => exact h
  | data => exact h
  | _ => exact h.setChip_same rfl rfl rfl

theorem mmuTake_wf {s : State} (h : s.Wf) (k : MmuCode) : (mmuTake k s).Wf := by
  refine State.Wf.setPkt (State.Wf.setHold (h.setChip_same ?_ ?_ ?_) false) _ <;> cases k <;> rfl

theorem mmuWrite_wf {s t : State} {w : Word} (h : s.Wf) (ht : mmuWrite w s = .ok t) : t.Wf := by
  unfold mmuWrite at ht
  split at ht
  · simp at ht
  · split at ht
    · simp at ht
    · obtain rfl := Except.ok.inj ht; exact mmuTake_wf h _

theorem writeReg_wf {s t : State} {r : Reg} {v : Word} (h : s.Wf) (ht : writeReg r v s = .ok t) : t.Wf := by
  cases r with
  | mmuCmd => exact mmuWrite_wf h ht
  | _ => obtain rfl := Except.ok.inj ht; exact setReg_wf h _ v

theorem Chip.advance_same (w : Nat) (p : Config.Params) (c : Chip) :
    (c.advance w p).pktMem = c.pktMem ∧ (c.advance w p).table = c.table ∧ (c.advance w p).mgmt = c.mgmt := by
  unfold Chip.advance
  split <;> exact ⟨rfl, rfl, rfl⟩

theorem dataRead_wf {s : State} {w : Nat} {r : Long × State} (h : s.Wf) (ht : dataRead w s = .ok r) : r.2.Wf := by
  obtain ⟨h1, h2, h3⟩ := Chip.advance_same w s.params s.chip
  unfold dataRead at ht
  split at ht
  · obtain rfl := Except.ok.inj ht; exact h.setChip_same h1 h2 h3
  · split at ht
    · obtain rfl := Except.ok.inj ht; exact (h.setChip_same h1 h2 h3).bump 2
    · simp at ht

theorem dataWrite_wf {s t : State} {w : Nat} {v : Long} (h : s.Wf) (ht : dataWrite w v s = .ok t) : t.Wf := by
  unfold dataWrite at ht
  split at ht
  · rename_i e _
    obtain rfl := Except.ok.inj ht
    obtain ⟨h1, h2, h3⟩ := Chip.advance_same w s.params
      { s.chip with pktMem := s.chip.pktMem.writeBytes (pktAddr e.pkt s.chip.dp) (dataBytes w v) }
    exact h.setChip (by rw [h1]; exact Memory.wf_writeBytes _ _ _ h.parts.pktMem) (by rw [h2]; exact h.parts.table)
      (by rw [h3]; exact h.parts.mdiClear)
  · split at ht
    · obtain rfl := Except.ok.inj ht
      obtain ⟨h1, h2, h3⟩ := Chip.advance_same w s.params (s.chip.scramblePackets s.env.draw)
      refine State.Wf.bump ?_ 64
      exact h.setChip (by rw [h1]; exact Memory.wf_nil)
        (by rw [h2]; exact tableWf_map _ (fun _ => rfl) (fun _ => rfl) h.parts.table) (by rw [h3]; exact h.parts.mdiClear)
    · simp at ht

/-! ## The window -/

theorem readPlace_wf {s : State} {p : Place} {r : Byte × State} (h : s.Wf) (ht : readPlace p s = .ok r) : r.2.Wf := by
  cases p with
  | data =>
    simp only [readPlace] at ht
    split at ht
    · rename_i hd; obtain rfl := Except.ok.inj ht; exact dataRead_wf h hd
    · simp at ht
  | byte q high => obtain rfl := Except.ok.inj ht; exact readReg_wf h q

theorem writePlace_wf {s t : State} {p : Place} {v : Byte} (h : s.Wf) (ht : writePlace p v s = .ok t) : t.Wf := by
  cases p with
  | data => exact dataWrite_wf h ht
  | byte q high => exact writeReg_wf h ht

theorem winReadByte_wf {s : State} {off : Nat} {r : Byte × State} (h : s.Wf) (ht : winReadByte off s = .ok r) :
    r.2.Wf := by
  unfold winReadByte at ht
  split at ht
  · simp at ht
  · exact readPlace_wf h ht

theorem winWriteByte_wf {s t : State} {off : Nat} {v : Byte} (h : s.Wf) (ht : winWriteByte off v s = .ok t) : t.Wf := by
  unfold winWriteByte at ht
  split at ht
  · simp at ht
  · exact writePlace_wf h ht

theorem readWordAt_wf {s : State} {b : BitVec 2} {off : Nat} {r : Word × State} (h : s.Wf)
    (ht : readWordAt b off s = .ok r) : r.2.Wf := by
  unfold readWordAt at ht
  split at ht
  · simp at ht
  · split at ht
    · rename_i hd; obtain rfl := Except.ok.inj ht; exact dataRead_wf h hd
    · simp at ht
  · split at ht
    · split at ht
      · obtain rfl := Except.ok.inj ht; exact readReg_wf h _
      · obtain rfl := Except.ok.inj ht; exact readReg_wf (readReg_wf h _) _
    · simp at ht
    · simp at ht

theorem writeWordAt_wf {s t : State} {b : BitVec 2} {off : Nat} {v : Word} (h : s.Wf)
    (ht : writeWordAt b off v s = .ok t) : t.Wf := by
  unfold writeWordAt at ht
  split at ht
  · simp at ht
  · exact dataWrite_wf h ht
  · split at ht
    · split at ht
      · exact writeReg_wf h ht
      · split at ht
        · simp at ht
        · rename_i hw; exact writePlace_wf (writePlace_wf h hw) ht
    · simp at ht
    · simp at ht

theorem winReadWord_wf {s : State} {off : Nat} {r : Word × State} (h : s.Wf) (ht : winReadWord off s = .ok r) :
    r.2.Wf := by
  unfold winReadWord at ht
  split at ht
  · exact readWordAt_wf h ht
  · simp at ht

theorem winWriteWord_wf {s t : State} {off : Nat} {v : Word} (h : s.Wf) (ht : winWriteWord off v s = .ok t) : t.Wf := by
  unfold winWriteWord at ht
  split at ht
  · exact writeWordAt_wf h ht
  · simp at ht

theorem winReadLong_wf {s : State} {off : Nat} {r : Long × State} (h : s.Wf) (ht : winReadLong off s = .ok r) :
    r.2.Wf := by
  unfold winReadLong at ht
  split at ht
  · split at ht
    · exact dataRead_wf h ht
    · split at ht
      · simp at ht
      · rename_i hlo
        split at ht
        · simp at ht
        · rename_i hhi; obtain rfl := Except.ok.inj ht; exact readWordAt_wf (readWordAt_wf h hlo) hhi
  · simp at ht

theorem winWriteLong_wf {s t : State} {off : Nat} {v : Long} (h : s.Wf) (ht : winWriteLong off v s = .ok t) : t.Wf := by
  unfold winWriteLong at ht
  split at ht
  · split at ht
    · exact dataWrite_wf h ht
    · split at ht
      · simp at ht
      · rename_i hlo; exact writeWordAt_wf (writeWordAt_wf h hlo) ht
  · simp at ht

end Sys2Proof.Machine
end

