-- ==== Sys2Proof/Laws/WfOps.lean ====
section
/-! SUPPORT. The engine's primitives keep the invariant `State.Wf`: the interrupt context's runs, gaps, and every kind of
access. -/

namespace Sys2Proof.Machine

/-- The canonical forms under given parameters, which no operation changes. -/
def State.WfFor (p : Config.Params) (s : State) : Prop := s.params = p ∧ s.Wf

/-- The canonical forms of either end of a part of a handler run. -/
def handlingWf (p : Config.Params) : Except State Handling → Prop
  | .ok x => x.1.WfFor p
  | .error t => t.WfFor p

variable {p : Config.Params} {x : Handling}

theorem handlerGap_wf (h : x.1.WfFor p) : (handlerGap x).1.WfFor p := by
  unfold handlerGap
  split
  · exact h
  · exact ⟨(agentSteps_kept _ _).params.trans h.1, agentSteps_wf _ h.2⟩

theorem handlerRead_wf (n : IrqPos) (r : Reg) (w : Nat) (h : x.1.WfFor p) : (handlerRead n r w x).2.1.WfFor p :=
  handlerGap_wf (x := (((readReg r x.1).2.note _).irqAt n, x.2))
    ⟨(readReg_params r x.1).trans h.1, ((readReg_wf h.2 r).note _).irqAt n⟩

theorem handlerKeep_wf (n : IrqPos) (r : Reg) (w : Nat) (keep : Word → IrqCtx → IrqCtx) (h : x.1.WfFor p) :
    (handlerKeep n r w keep x).1.WfFor p :=
  handlerGap_wf (x := ((((readReg r x.1).2.setIrq _).note _).irqAt n, x.2))
    ⟨(readReg_params r x.1).trans h.1, (((readReg_wf h.2 r).setIrq _).note _).irqAt n⟩

theorem handlerWrite_wf (n : IrqPos) (r : Reg) (w : Nat) (v : Word) (h : x.1.WfFor p) :
    (handlerWrite n r w v x).1.WfFor p :=
  handlerGap_wf (x := (((setReg r v x.1).note _).irqAt n, x.2))
    ⟨(setReg_params r v x.1).trans h.1, ((setReg_wf h.2 r v).note _).irqAt n⟩

theorem handlerWritePtr_wf (n : IrqPos) (v : Word) (h : x.1.WfFor p) : (handlerWritePtr n v x).1.WfFor p := by
  refine handlerGap_wf (x := (_, x.2)) ⟨h.1, State.Wf.irqAt (State.Wf.note ?_ _) n⟩
  exact h.2.setChip_same rfl rfl rfl

theorem handlerDelay_wf (n : IrqPos) (t : Nat) (h : x.1.WfFor p) : (handlerDelay n t x).1.WfFor p :=
  handlerGap_wf (x := (_, x.2)) ⟨h.1, (h.2.note _).irqAt n⟩

theorem handlerGoto_wf (n : IrqPos) (h : x.1.WfFor p) : (handlerGoto n x).1.WfFor p := ⟨h.1, h.2.irqAt n⟩

theorem irqEnter_wf (touch : Bool) (h : x.1.WfFor p) : (irqEnter touch x).1.WfFor p := by
  have h0 := fun keep => handlerKeep_wf (.save 2) .bsr 2 keep h
  unfold irqEnter
  dsimp only
  split
  · exact handlerKeep_wf _ _ _ _ (handlerKeep_wf _ _ _ _ (handlerWrite_wf _ _ _ _ (h0 _)))
  · exact handlerWrite_wf _ _ _ _ (h0 _)

theorem irqExit_wf (touch : Bool) (h : x.1.WfFor p) : (irqExit touch x).1.WfFor p := by
  unfold irqExit
  dsimp only
  refine handlerWrite_wf _ _ _ _ ?_
  split
  · exact handlerWritePtr_wf _ _ (handlerWrite_wf _ _ _ _ h)
  · exact h

theorem handlerWait_wf (exit : IrqPos) : ∀ (fuel k : Nat) {x : Handling}, x.1.WfFor p →
    handlingWf p (handlerWait exit fuel k x)
  | 0, _, _, h => h
  | fuel + 1, k, x, h => by
    have hr := handlerRead_wf (.wait k 2) .mmuCmd 2 h
    simp only [handlerWait]
    split
    · exact handlerWait_wf exit fuel (k + 1) (handlerDelay_wf _ _ hr)
    · exact handlerGoto_wf exit hr

theorem handlerFree_wf (exit : IrqPos) (q : Pkt) (h : x.1.WfFor p) : handlingWf p (handlerFree exit q x) := by
  have hw := handlerWrite_wf (.body 8) .pnr 1 ((pktByte x.1.params q).setWidth 16) h
  unfold handlerFree
  dsimp only
  split
  · refine handlerWait_wf exit _ 1 (handlerGap_wf (x := (_, _)) ⟨hw.1, State.Wf.irqAt (State.Wf.note ?_ _) _⟩)
    exact hw.2.setChip_same rfl rfl rfl
  · exact handlerGoto_wf exit hw

theorem handlerReenable_wf (n : IrqPos) (h : x.1.WfFor p) : (handlerReenable n x).1.WfFor p :=
  handlerWrite_wf _ _ _ _ (handlerWrite_wf _ _ _ _ (handlerRead_wf _ .tcr 2 (handlerWrite_wf _ _ _ _ h)))

theorem handlerRepair_wf (exit : IrqPos) (r : HandlerRun) (h : x.1.WfFor p) :
    handlingWf p (handlerRepair exit r x) := by
  have h1 : ∀ n, (if r.reenable = true then handlerReenable n x else x).1.WfFor p := by
    intro n
    split
    · exact handlerReenable_wf n h
    · exact h
  unfold handlerRepair
  split
  · exact h1 exit
  · exact handlerFree_wf exit _ (h1 (.body 7))

theorem txErrBody_wf (exit : IrqPos) (r : HandlerRun) (h : x.1.WfFor p) : handlingWf p (txErrBody exit r x) := by
  have hr := handlerRead_wf (.body 2) .intStatus 1 h
  unfold txErrBody
  dsimp only
  split
  · split
    · exact handlerRepair_wf exit r (handlerWrite_wf _ _ _ _ hr)
    · exact handlerGoto_wf exit hr
  · split
    · exact handlerWrite_wf _ _ _ _ h
    · exact handlerGoto_wf exit h

/-- A run of the interrupt context keeps the canonical forms, whether it ends or hangs. -/
theorem runHandler_wf {r : HandlerRun} {s : State} {o : Except State State} (h : s.Wf) (ho : runHandler r s = some o) :
    (∀ t, o = .ok t → t.WfFor s.params) ∧ ∀ t, o = .error t → t.WfFor s.params := by
  unfold runHandler at ho
  split at ho
  · have hb := txErrBody_wf (irqExitPos r.touches) r
      (irqEnter_wf (x := (s.irqAt (.save 1), r.gaps)) r.touches ⟨rfl, h.irqAt _⟩)
    split at ho
    · rename_i he
      rw [he] at hb
      obtain rfl := Option.some.inj ho
      exact ⟨fun t ht => by simp at ht, fun t ht => by obtain rfl := Except.error.inj ht; exact hb⟩
    · rename_i he
      rw [he] at hb
      obtain rfl := Option.some.inj ho
      exact ⟨fun t ht => by obtain rfl := Except.ok.inj ht; exact irqExit_wf _ hb, fun t ht => by simp at ht⟩
  · simp at ho

theorem noteHang_wf {s t : State} (h : s.Wf) (ht : t.WfFor s.params) : (s.noteHang t).Wf := by
  unfold State.noteHang
  split
  · exact h
  · refine ⟨h.parts, fun k hk => ?_⟩
    obtain rfl := Option.some.inj hk
    have := ht.2.parts
    rw [ht.1] at this
    exact this

theorem eventStep_wf {s : State} (h : s.Wf) (e : Event) : (eventStep e s).Wf := by
  cases e with
  | agent e => exact agentStep_wf h e
  | irq r =>
    unfold eventStep
    dsimp only
    split
    · exact h
    · rename_i hr; exact ((runHandler_wf h hr).1 _ rfl).2
    · rename_i hr; exact noteHang_wf h ((runHandler_wf h hr).2 _ rfl)

theorem eventSteps_wf (es : List Event) : ∀ {s : State}, s.Wf → (eventSteps es s).Wf := by
  induction es with
  | nil => exact fun h => h
  | cons e es ih => exact fun h => ih (eventStep_wf h e)

/-- Whatever happens in a gap, the canonical forms are kept. -/
theorem gap_wf {s : State} (h : s.Wf) : (gap s).Wf := by
  unfold gap
  split
  · exact h
  · exact eventSteps_wf _ (h.setEnv _)

/-! ## The engine's accesses -/

theorem rd_wf {s : State} (h : s.Wf) (n : Next) (r : Reg) (w : Nat) : (rd n r w s).2.Wf :=
  gap_wf (((readReg_wf h r).note _).advance n)

theorem rdKeep_wf {s : State} (h : s.Wf) (n : Next) (r : Reg) (w : Nat) (keep : Word → Engine → Engine) :
    (rdKeep n r w keep s).Wf :=
  gap_wf ((((readReg_wf h r).setEng _).note _).advance n)

theorem wr_wf {s : State} (h : s.Wf) (n : Next) (r : Reg) (w : Nat) (v : Word) : (wr n r w v s).Wf :=
  gap_wf (((setReg_wf h r v).note _).advance n)

theorem wrBank_wf {s : State} (h : s.Wf) (n : Next) (b : BitVec 2) : (wrBank n b s).Wf := wr_wf h _ _ _ _

theorem wrBankHold_wf {s : State} (h : s.Wf) (n : Next) (b : BitVec 2) : (wrBankHold n b s).Wf :=
  wrBank_wf (h.setHold true) n b

theorem mmuIssue_wf {s : State} (h : s.Wf) (n : Next) (k : MmuCode) : (mmuIssue n k s).Wf :=
  gap_wf (((mmuTake_wf h k).note _).advance n)

theorem wrMmu_wf {s t : State} {n : Next} {k : MmuCode} (h : s.Wf) (ht : wrMmu n k s = .ok t) : t.Wf := by
  rcases wrMmu_ok ht with ⟨-, rfl⟩ | ⟨-, rfl⟩
  · exact mmuIssue_wf h n k
  · exact h.advance n

theorem wrMmuReset_wf {s : State} (h : s.Wf) (n : Next) : (wrMmuReset n s).Wf := mmuIssue_wf h n _

theorem rdData_wf {s : State} {n : Next} {r : Word × State} (h : s.Wf) (ht : rdData n s = .ok r) : r.2.Wf := by
  unfold rdData at ht
  split at ht
  · obtain ⟨-, rfl⟩ := refuse_ok ht; exact h.advance n
  · rename_i hd; obtain rfl := Except.ok.inj ht; exact gap_wf (((dataRead_wf h hd).note _).advance n)

theorem wrData_wf {s t : State} {n : Next} {v : Word} (h : s.Wf) (ht : wrData n v s = .ok t) : t.Wf := by
  unfold wrData at ht
  split at ht
  · obtain ⟨-, rfl⟩ := refuse_ok ht; exact h.advance n
  · rename_i hd; obtain rfl := Except.ok.inj ht; exact gap_wf (((dataWrite_wf h hd).note _).advance n)

theorem delay_wf {s : State} (h : s.Wf) (n : Next) (t : Nat) : (delay n t s).Wf := gap_wf ((h.note _).advance n)

theorem saveCtx_wf {s : State} (h : s.Wf) (n m : Next) : (saveCtx n m s).Wf :=
  rdKeep_wf (rdKeep_wf h n .pnr 1 _) m .ptr 2 _

theorem restoreCtx_wf {s : State} (h : s.Wf) (n m : Next) : (restoreCtx n m s).Wf := by
  unfold restoreCtx
  exact wr_wf (wr_wf h _ _ _ _) _ _ _ _

theorem restoreOnFailure_wf {s : State} (h : s.Wf) (n m : Next) : (restoreOnFailure n m s).Wf := by
  unfold restoreOnFailure
  split
  · exact restoreCtx_wf h n m
  · exact h

/-- A busy wait keeps the canonical forms if the rest of the operation does. -/
theorem waitPoll_wf {q : SeqPos} {k : State → Out} {s t : State} (h : s.Wf)
    (hk : ∀ u : State, u.Wf → k u = .next t → t.Wf) (ht : waitPoll q k s = .next t) : t.Wf := by
  rcases waitPoll_cases q k s with ⟨-, e⟩ | ⟨-, e⟩ <;> rw [e] at ht
  · obtain rfl := Host.Outcome.next.inj ht
    exact (delay_wf (rd_wf h _ .mmuCmd 2) _ _).park q
  · exact hk _ ((rd_wf h _ .mmuCmd 2).advance .ret) ht

theorem waitIdle_wf {back : Next} {q : SeqPos} {k : State → Out} {s t : State} (h : s.Wf)
    (hk : ∀ u : State, u.Wf → k u = .next t → t.Wf) (ht : waitIdle back q k s = .next t) : t.Wf :=
  waitPoll_wf (h.call _ _) hk ht

end Sys2Proof.Machine
end

