-- ==== Sys2Proof/Tests/Slice0.lean ====
section
/-! SUPPORT. The model's own tests: the checks of WellFormed, every constructor's decoding from words written out from
spec/30_encoding.md, single steps with the results spec/95_test_vectors.md gives, and for every statement a state that
meets its hypotheses. -/

namespace Sys2Proof.Tests

open Sys2Proof Sys2Proof.Machine

/-! ## WellFormed refuses what R123 refuses -/

theorem test_selectBank_4_is_ill_formed : ¬ (Instr.selectBank 4).WellFormed := by decide

theorem test_allocate_8_is_ill_formed : ¬ (Instr.allocate 8).WellFormed := by decide

theorem test_miiRead_32_is_ill_formed : ¬ (Instr.miiRead 32).WellFormed := by decide

theorem test_miiWrite_32_is_ill_formed : ¬ (Instr.miiWrite 32 0).WellFormed := by decide

theorem test_ill_formed_descriptors_are_refused :
    decode Config.defaultCodes (.descriptor [0x00, 0x04]) = .error (.operandRange 0x00) ∧
      decode Config.defaultCodes (.descriptor [0x10, 0x08]) = .error (.operandRange 0x10) ∧
      decode Config.defaultCodes (.descriptor [0x30, 0x20]) = .error (.operandRange 0x30) ∧
      decode Config.defaultCodes (.descriptor [0x31, 0x20, 0, 0]) = .error (.operandRange 0x31) := ⟨rfl, rfl, rfl, rfl⟩

/-! ## Decoding: the descriptors of R121 and R122, byte by byte -/

theorem test_decode_selectBank : decode Config.defaultCodes (.descriptor [0x00, 0x02]) = .ok (.selectBank 2) := rfl

theorem test_decode_readByte : decode Config.defaultCodes (.descriptor [0x01, 0x0F]) = .ok (.readByte 0x0F) := rfl

theorem test_decode_readWord : decode Config.defaultCodes (.descriptor [0x02, 0x02]) = .ok (.readWord 0x02) := rfl

theorem test_decode_readLong : decode Config.defaultCodes (.descriptor [0x03, 0x04]) = .ok (.readLong 0x04) := rfl

theorem test_decode_writeByte : decode Config.defaultCodes (.descriptor [0x04, 0x0C, 0x04]) = .ok (.writeByte 0x0C 0x04) := rfl

theorem test_decode_writeWord : decode Config.defaultCodes (.descriptor [0x05, 0x06, 0x00, 0x40]) = .ok (.writeWord 0x06 0x4000) := rfl

theorem test_decode_writeLong :
    decode Config.defaultCodes (.descriptor [0x06, 0x08, 0x00, 0x00, 0x42, 0x00]) = .ok (.writeLong 0x08 0x00420000) := rfl

theorem test_decode_readBlock : decode Config.defaultCodes (.descriptor [0x07, 0x08, 0x02, 0x01]) = .ok (.readBlock 0x08 0x0102) := rfl

theorem test_decode_writeBlock : decode Config.defaultCodes (.descriptor [0x08, 0x08, 0x02, 0x00]) = .ok (.writeBlock 0x08 2) := rfl

theorem test_decode_allocate : decode Config.defaultCodes (.descriptor [0x10, 0x07]) = .ok (.allocate 7) := rfl

theorem test_decode_release : decode Config.defaultCodes (.descriptor [0x11]) = .ok .release := rfl

theorem test_decode_free : decode Config.defaultCodes (.descriptor [0x12, 0x03]) = .ok (.free 3) := rfl

theorem test_decode_waitMmuIdle : decode Config.defaultCodes (.descriptor [0x13]) = .ok .waitMmuIdle := rfl

theorem test_decode_transmit : decode Config.defaultCodes (.descriptor [0x20, 0xEA, 0x05]) = .ok (.transmit 1514) := rfl

theorem test_decode_receive : decode Config.defaultCodes (.descriptor [0x21]) = .ok .receive := rfl

theorem test_decode_miiRead : decode Config.defaultCodes (.descriptor [0x30, 0x15]) = .ok (.miiRead 0x15) := rfl

theorem test_decode_miiWrite : decode Config.defaultCodes (.descriptor [0x31, 0x13, 0xC3, 0xA5]) = .ok (.miiWrite 19 0xA5C3) := rfl

theorem test_decode_phyConfigure : decode Config.defaultCodes (.descriptor [0x32]) = .ok .phyConfigure := rfl

theorem test_decode_reset : decode Config.defaultCodes (.descriptor [0x40]) = .ok .reset := rfl

theorem test_decode_enable : decode Config.defaultCodes (.descriptor [0x41]) = .ok .enable := rfl

theorem test_decode_shutdown : decode Config.defaultCodes (.descriptor [0x42]) = .ok .shutdown := rfl

theorem test_decode_probe : decode Config.defaultCodes (.descriptor [0x43]) = .ok .probe := rfl

theorem test_decode_openOp : decode Config.defaultCodes (.descriptor [0x44]) = .ok .openOp := rfl

theorem test_decode_closeOp : decode Config.defaultCodes (.descriptor [0x45]) = .ok .closeOp := rfl

/-! ## The command words of R131 -/

theorem test_decode_mmuAlloc : decode Config.defaultCodes (.mmuWord 0x0027) = .ok (.mmuAlloc 7) := rfl

theorem test_decode_mmuReset : decode Config.defaultCodes (.mmuWord 0x0040) = .ok .mmuReset := rfl

theorem test_decode_mmuRelease : decode Config.defaultCodes (.mmuWord 0x0080) = .ok .mmuRelease := rfl

theorem test_decode_mmuFree : decode Config.defaultCodes (.mmuWord 0x00A0) = .ok .mmuFree := rfl

theorem test_decode_mmuEnqueue : decode Config.defaultCodes (.mmuWord 0x00C0) = .ok .mmuEnqueue := rfl

theorem test_decode_unknown_command : decode Config.defaultCodes (.mmuWord 0x0060) = .error (.unknownMmuWord 0x0060) := rfl

/-! ## The frames of V22 and V25, cycle 0 leftmost -/

/-- The cycles of an `oe` row and a `do` row of `n` cycles. -/
def rows (n oe dat : Nat) : List Drive := (List.range n).map (fun k => ⟨oe.testBit (n - 1 - k), dat.testBit (n - 1 - k)⟩)

/-- V22. -/
def readRows : List Drive :=
  rows 64
    0b11111111111111111111111111111111_11_11_11111_11111_0_0000000000000000_0
    0b11111111111111111111111111111111_01_10_01010_10101_0_0000000000000000_0

/-- V25. -/
def writeRows : List Drive :=
  rows 65
    0b11111111111111111111111111111111_11_11_11111_11111_00_1111111111111111_0
    0b11111111111111111111111111111111_01_01_00001_10011_00_1010010111000011_0

theorem test_decode_miiReadFrame : decodeFrame readRows = some (.miiReadFrame 0x0A 0x15) := by decide +kernel

theorem test_decode_miiWriteFrame : decodeFrame writeRows = some (.miiWriteFrame 1 19 0xA5C3) := by decide +kernel

theorem test_build_read_V22 : buildRead 0x0A 0x15 = readRows := by decide +kernel

theorem test_build_write_V25 : buildWrite 1 19 0xA5C3 = writeRows := by decide +kernel

/-! ## Single steps -/

/-- The next state of an outcome. -/
def after : Out → Option State
  | .next t => some t
  | .fault _ => none
  | .refused _ => none

/-- The value an operation that has ended hands back. -/
def value (o : Out) : Option Int := (after o).bind (fun t => t.eng.result.map (fun r => r.value))

/-- The condition an operation that has ended hands back. -/
def condition (o : Out) : Option Condition := (after o).bind (fun t => t.eng.result.map (fun r => r.cond))

/-- A machine at rest with bank `b` selected, the transmitter on, power on, auto-release engaged. -/
def chipIn (b : BitVec 2) : Chip :=
  { resetChip with
    bank := b, tcr := 0x0001, rcr := 0x0100, config := 0x80B1, ctl := 0x1A10, intStatus := 0x00, pnr := 0x05,
    arr := 0x85, arrSeen := true, ptr := 0x4000, mac := #v[1, 2, 3, 4, 5, 6] }

def stateIn (b : BitVec 2) : State := { State.reset with chip := chipIn b }

/-- Packet 5 has a buffer of one page that begins with these bytes, and the chip unit is otherwise at rest. -/
def withBuffer (ptr : Word) (dp : Nat) (bytes : List Byte) : State :=
  let s := stateIn 2
  s.setChip { s.chip with
    table := [⟨5, 1, 0⟩], pktMem := Memory.writeBytes [] (pktAddr 5 0) bytes, ptr := ptr, dp := dp }

/-- V1. -/
theorem test_selectBank : (after (exec (.selectBank 2) (stateIn 1))).map (fun t => t.chip.bank) = some 2 := by decide

/-- V60. -/
theorem test_readByte : value (exec (.readByte 0x0F) (stateIn 0)) = some 0x33 := by decide

/-- V4. -/
theorem test_readWord : value (exec (.readWord 0x02) (stateIn 2)) = some 0x8505 := by decide

/-- R163, R39: bytes 0 to 3 of MACADDR in one long. -/
theorem test_readLong : value (exec (.readLong 0x04) (stateIn 1)) = some 0x04030201 := by decide

/-- V6. -/
theorem test_writeByte :
    (after (exec (.writeByte 0x0C 0x04) ((stateIn 2).setChip { chipIn 2 with intStatus := 0x0C }))).map
      (fun t => t.chip.intStatus) = some 0x08 := by decide

/-- R45: a write to PTR loads `dp` from OFFSET. -/
theorem test_writeWord :
    (after (exec (.writeWord 0x06 0xE123) (stateIn 2))).map (fun t => (t.chip.ptr, t.chip.dp)) =
      some (0xE123, 0x123) := by decide

/-- V7. -/
theorem test_writeLong :
    (after (exec (.writeLong 0x08 0x00420000) (withBuffer 0x4000 0 []))).map
      (fun t => (t.chip.dp, (List.range 4).map (t.packetByte 5))) =
      some (4, [some 0x00, some 0x00, some 0x42, some 0x00]) := by decide

/-- V9. -/
theorem test_readBlock :
    (after (exec (.readBlock 0x08 2)
      ((withBuffer 0xE000 4 [0, 0, 8, 0, 0xAA, 0xBB, 0xCC, 0xDD]).setChip
        { (withBuffer 0xE000 4 [0, 0, 8, 0, 0xAA, 0xBB, 0xCC, 0xDD]).chip with rxFifo := [5] }))).map
      (fun t => (t.chip.dp, t.hostMem)) = some (8, [(0, 0xAA), (1, 0xBB), (2, 0xCC), (3, 0xDD)]) := by decide

/-- V8. -/
theorem test_writeBlock :
    (after (exec (.writeBlock 0x08 2)
      ((withBuffer 0x4000 4 []).setHost [(0, 0x01), (1, 0x02), (2, 0x03), (3, 0x04)]))).map
      (fun t => (t.chip.dp, (List.range 4).map (fun k => t.packetByte 5 (4 + k)))) =
      some (8, [some 0x01, some 0x02, some 0x03, some 0x04]) := by decide

/-- V13: the MMU agent answers between the second and the third read; the buffer has 2048 bytes. -/
theorem test_allocate :
    (match wrMmu (.to 2 1 (.spin 1 1)) (.alloc 7) ((stateIn 2).withTape (quietGaps 2 ++ agentGap (.allocOk 9))) with
      | .ok t =>
        let a := attemptAlloc 16 5 1 t
        some (a.1, a.2.env.trace.countP (isReadOf .intStatus), (findEntry a.2.chip.table 9).map (fun e => e.capacity))
      | .error _ => none) = some (true, 3, some 2048) := by decide

/-- V17: a stale ALLOC is no completion. -/
theorem test_allocate_stale_flag :
    condition (exec (.allocate 0) ((stateIn 2).setChip { chipIn 2 with intStatus := 0x08 })) =
      some .allocationExhausted := by decide +kernel

/-- V19b, up to its wait: the state behind the command, with the MMU agent's completion in its gap. -/
theorem test_release :
    (match wrMmu (.to 2) .release (((stateIn 2).setChip { chipIn 2 with
        rxFifo := [5, 6], table := [⟨5, 1, 0⟩, ⟨6, 1, 0⟩] }).withTape (agentGap .mmuDone)) with
      | .ok t => some (t.chip.rxFifo, t.chip.allocated 5, t.chip.allocated 6, t.chip.busy)
      | .error _ => none) = some ([6], false, true, false) := by decide

/-- V19a, up to its wait. -/
theorem test_free :
    (match wrMmu (.to 3) .free (((stateIn 2).setChip { chipIn 2 with
        pnr := 3, table := [⟨3, 1, 0⟩] }).withTape (agentGap .mmuDone)) with
      | .ok t => some (t.chip.table, t.chip.pnr, t.chip.busy)
      | .error _ => none) = some ([], 3, false) := by decide

/-- V18. -/
theorem test_waitMmuIdle : ∃ t, exec .waitMmuIdle (stateIn 2) = .next t ∧ t.Ended .ok 0 :=
  ⟨_, waitPoll_of_idle .waitIdle finishOk (s := (stateIn 2).begin .waitMmuIdle) rfl, rfl, rfl⟩

/-- V33. -/
theorem test_transmit_too_large : condition (exec (.transmit 2042) (stateIn 2)) = some .frameTooLarge := by decide

/-- V32: the ends of the envelope of a 61-byte frame, its last byte 0xBC in the control word. -/
theorem test_transmit_envelope :
    (match packFrame 61 61 5 ((withBuffer 0x0000 0 []).setHost [(60, 0xBC)]) with
      | .ok t => some ((List.range 4).map (t.packetByte 5), t.packetByte 5 64, t.packetByte 5 65)
      | .error _ => none) = some ([some 0x00, some 0x00, some 0x43, some 0x00], some 0xBC, some 0x20) := by
  decide +kernel

/-- V32: the decoder on the 33 words of the vector. -/
theorem test_decodeEnvelope_V32 :
    decodeEnvelope Config.ex1 (fun k => if k = 2 then 0x43 else if k < 4 then 0x00 else if k = 65 then 0x20
      else BitVec.ofNat 8 (0x80 + (k - 4))) = some ((List.range 61).map (fun i => BitVec.ofNat 8 (0x80 + i))) := by
  decide +kernel

/-- RECEIVE before its look at the FIFO. -/
def beforeFifo (s : State) : State :=
  saveCtx (.to 2 2) (.to 3) (wrBank (.to 2) s.params.regs.pb (s.begin .receive))

/-- RECEIVE looks at the FIFO and, finding it empty, ends with 0; finding a frame, it goes on with the header. -/
theorem execReceive_cases (s : State) (hp : (beforeFifo s).params = s.params) :
    ((beforeFifo s).chip.rxFifo = [] → exec .receive s = .next ((rd (.to 4) .fifo 2 (beforeFifo s)).2.finish .ok 0)) ∧
      ((beforeFifo s).chip.rxFifo ≠ [] → exec .receive s = rxHeader (rd (.to 4) .fifo 2 (beforeFifo s)).2) := by
  have hf : has (rd (.to 4) .fifo 2 (beforeFifo s)).1 (rempty s.params) = (beforeFifo s).chip.rxFifo.isEmpty := by
    rw [rd_fst, ← hp, readReg_fifo_rempty]
  refine ⟨fun h => if_pos (hf.trans (by rw [h]; rfl)), fun h => if_neg ?_⟩
  show ¬ has (rd (.to 4) .fifo 2 (beforeFifo s)).1 (rempty s.params) = true
  rw [hf]
  simpa using h

/-- V40: a poll-miss. -/
theorem test_receive_poll_miss : ∃ t, exec .receive (stateIn 2) = .next t ∧ t.Ended .ok 0 :=
  ⟨_, (execReceive_cases (stateIn 2) rfl).1 rfl, rfl, rfl⟩

/-- V20: register 1 holds 0x782D. -/
theorem test_miiRead :
    value (exec (.miiRead 1)
      { stateIn 2 with chip := { chipIn 2 with mgmt := 0x0008 }, phy := { resetPhy with stat := 0x782D } }) =
      some 0x782D := by decide +kernel

/-- V23: the PHY commits 0x01E1 to register 4. -/
theorem test_miiWrite :
    (after (exec (.miiWrite 4 0x01E1)
      { stateIn 2 with chip := { chipIn 2 with mgmt := 0x0008 }, phy := { resetPhy with adv := 0 } })).map
      (fun t => t.phy.adv) = some 0x01E1 := by decide +kernel

/-- R256, V28: another address reads nothing the PHY holds, and leaves it alone. -/
theorem test_miiReadFrame :
    (after (exec (.miiReadFrame 9 1) { stateIn 2 with chip := { chipIn 2 with mgmt := 0x0008 } })).map
      (fun t => (t.phy.rx, t.phy.drive)) = some (.hunt, none) := by decide +kernel

/-- R268: a write of PHY_STAT is dropped. -/
theorem test_miiWriteFrame :
    (after (exec (.miiWriteFrame 0 1 0xFFFF) { stateIn 2 with chip := { chipIn 2 with mgmt := 0x0008 } })).map
      (fun t => t.phy.stat) = some 0x7809 := by decide +kernel

/-- No PHY on the pins, and a pull-up. -/
def pulledUp : State := { stateIn 2 with phy := { resetPhy with addr := none, drive := some true } }

/-- G15, V28, P4: every poll of PHY_CTRL reads 0xFFFF. -/
theorem test_phyConfigure_no_phy : condition (exec .phyConfigure pulledUp) = some .phyResetTimeout := by
  decide +kernel

/-- V60 with a wrong signature. -/
theorem test_probe :
    condition (exec .probe ((stateIn 2).setChip { chipIn 2 with sig := 0xFF })) =
      some (.hardwareNotDetected 0xFF) := by decide

theorem test_openOp_not_detected :
    value (exec .openOp ((stateIn 2).setChip { chipIn 2 with sig := 0xFF })) = some (-1) := by decide

/-- A machine at rest whose MMU agent completes a command in the gap behind `n` quiet ones. -/
def answering (n : Nat) : State := (stateIn 2).withTape (quietGaps n ++ agentGap .mmuDone)

/-- The machine in which RESET waits. -/
theorem resetHead_idle : (resetHead ((answering 13).begin .reset)).chip.busy = false := by decide +kernel

/-- RESET behind that wait. -/
def resetEnd : State :=
  (resetTail ((rd (.to 1 2) .mmuCmd 2
    ((resetHead ((answering 13).begin .reset)).call .waitMmuIdle (.to 7))).2.advance .ret)).finish .ok 0

theorem resetEnd_hang : resetEnd.hang = none := by decide +kernel

theorem execReset_resetEnd : exec .reset (answering 13) = .next resetEnd :=
  waitIdle_of_idle (.to 7) .resetWait resetDone resetHead_idle

/-- RESET ends with 0. -/
theorem test_reset : ∃ t, exec .reset (answering 13) = .next t ∧ t.Ended .ok 0 :=
  ⟨resetEnd, execReset_resetEnd, rfl, rfl⟩

/-- P1, the trace of ENABLE. -/
theorem test_enable :
    (after (exec .enable (stateIn 1))).map (fun t => (t.chip.tcr, t.chip.rcr, t.chip.intMask, t.chip.bank)) =
      some (0x0001, 0x0100, 0x20, 2) := by decide

/-- V62. -/
theorem test_shutdown :
    (after (exec .shutdown (stateIn 2))).map
      (fun t => (t.chip.tcr, t.chip.rcr, t.chip.config, t.chip.bank, t.eng.life)) =
      some (0x0000, 0x0000, 0x00B1, 1, .powerDown) := by decide

theorem test_closeOp : value (exec .closeOp (stateIn 2)) = some 0 := by decide

/-- R190: the write clears ALLOC. -/
theorem test_mmuAlloc :
    (after (exec (.mmuAlloc 2) ((stateIn 2).setChip { chipIn 2 with intStatus := 0x0C }))).map
      (fun t => (t.chip.intStatus, t.chip.pending)) = some (0x04, some (.alloc 2)) := by decide

theorem test_mmuReset :
    (after (exec .mmuReset (stateIn 2))).map (fun t => t.chip.busy) = some true := by decide

/-- U10: a release with an empty receive FIFO. -/
theorem test_mmuRelease_empty : exec .mmuRelease (stateIn 2) = .refused .badPacket := rfl

/-- R193: the packet number is latched at the write. -/
theorem test_mmuFree :
    (after (exec .mmuFree (withBuffer 0x4000 0 []))).map (fun t => t.chip.pending) = some (some (.free 5)) := by decide

/-- R195, R186: the packet is queued and the handle dead. -/
theorem test_mmuEnqueue :
    (after (exec .mmuEnqueue ((withBuffer 0x4000 0 []).setPkt (some 5)))).map (fun t => (t.chip.txFifo, t.eng.pkt)) =
      some ([5], none) := by decide

/-- V50. -/
theorem test_advertise :
    advertise Config.ex1 0x782D = 0x01E1 ∧ advertise Config.ex1 0x8000 = 0x0201 ∧
      advertise Config.ex1 0x07FF = 0x0001 := by decide

/-- R320, D17: the codes 0 to 10, and the pair of R122. -/
theorem test_condition_codes :
    [Condition.ok, .hardwareNotDetected 0, .allocationExhausted, .allocationFailed 0, .frameTooLarge,
      .transmitAllocationFailed .exhausted, .transmitTimeout, .receiveError 0, .phyResetTimeout, .phyAutonegTimeout,
      .macAddressMissing].map Condition.code = List.range 11 ∧
      OpResult.pair ⟨.hardwareNotDetected 0xFF, -1, false⟩ = (1, -1) := by decide

/-- A layout that is not the default: TCR at offset 6 of bank 2, SIG a long at offset 8 of bank 3, INT_STATUS and INT_ACK
apart. -/
def otherRegs : Config.RegMap :=
  { Config.defaultRegs with
    cb := 2, gb := 3, pb := 0, mb := 1, macBank := 2, sigBank := some 3, sigWidth := .long, sig := 8, tcr := 6, rcr := 2, mac := 8
    config := 4, ctl := 0, mmuCmd := 4, pnr := 8, arr := 9, fifo := 0, ptr := 2, data := 12, intStatus := 6
    intAck := 10, intMask := 7, mgmt := 0 }

/-- The same machine under that layout. -/
def movedTo (b : BitVec 2) : State := { stateIn b with params := { Config.ex1 with regs := otherRegs } }

/-- R9, R170: an access goes where REGMAP says, and PROBE selects the bank of SIG (R308). -/
theorem test_other_layout :
    value (exec (.readWord 6) ((movedTo 2).setChip { chipIn 2 with tcr := 0xBEEF })) = some 0xBEEF ∧
      (after (exec .probe (movedTo 2))).map (fun t => t.chip.bank) = some 3 := by decide

/-- R35, R85, R164: with INT_ACK apart from INT_STATUS a write of INT_STATUS is ignored, one of INT_ACK clears the bits
written as 1, and INT_ACK reads as INT_STATUS. -/
theorem test_int_ack_apart :
    (after (exec (.writeByte 6 0xFF) ((movedTo 0).setChip { chipIn 0 with intStatus := 0x0C }))).map
      (fun t => t.chip.intStatus) = some 0x0C ∧
    (after (exec (.writeByte 10 0x04) ((movedTo 0).setChip { chipIn 0 with intStatus := 0x0C }))).map
      (fun t => t.chip.intStatus) = some 0x08 ∧
    value (exec (.readByte 10) ((movedTo 0).setChip { chipIn 0 with intStatus := 0x0C })) = some 0x0C := by decide

/-- C9, R308: a SIG of 32 bits is read whole, by READ_LONG and by PROBE. -/
theorem test_wide_signature :
    value (exec (.readLong 8) ((movedTo 3).setChip { chipIn 3 with sig := 0x91110033 })) = some 0x91110033 ∧
      condition (exec .probe ((movedTo 3).setChip { chipIn 3 with sig := 0x91110033 })) =
        some (.hardwareNotDetected 0x91110033) := by decide

/-- R352, R301: leaving the low-power state keeps CONFIG, SIG and the PHY. -/
theorem test_power_up :
    (after (exec (.writeWord 0 0x8012) ((stateIn 1).setChip { chipIn 1 with config := 0 }))).map
      (fun t => (t.chip.config, t.chip.sig, t.phy)) = some (0x8012, 0x33, resetPhy) := by decide

/-! ## States and operands that meet the hypotheses of the statements, at the ends of their ranges -/

theorem defaultCodes_ok : codesOk Config.defaultCodes := by
  refine ⟨by decide, fun w h => ?_, by decide⟩
  simp only [List.mem_cons, List.not_mem_nil, or_false] at h
  rcases h with rfl | rfl | rfl | rfl <;> decide

theorem witness_DecodeEncodeRoundTrip :
    codesOk Config.defaultCodes ∧ (Instr.selectBank 3).WellFormed ∧ (Instr.allocate 7).WellFormed ∧
      (Instr.miiRead 31).WellFormed ∧ (Instr.miiWrite 31 0xFFFF).WellFormed ∧
      (Instr.miiWriteFrame 31 31 0xFFFF).WellFormed := ⟨defaultCodes_ok, by decide⟩

/-- The default layout and another one. -/
theorem witness_RegmapPlacesTheRegisters : regsOk Config.defaultRegs ∧ regsOk otherRegs := by decide +kernel

/-- A machine that is handed this descriptor. -/
def handed (bytes : List Byte) : State := { State.reset with inbox := [.op (.descriptor bytes) 0] }

theorem witness_OutOfRangeOperationsAreRefused :
    (handed [0x00#8, 4]).eng.pos = .idle ∧ 4 ≤ (4 : Byte).toNat ∧
      (handed [0x00#8, 4]).inbox = .op (.descriptor [0x00#8, 4]) 0 :: [] ∧
      8 ≤ (8 : Byte).toNat ∧ (handed [0x10#8, 8]).inbox = .op (.descriptor [0x10#8, 8]) 0 :: [] ∧
      32 ≤ (32 : Byte).toNat ∧ (handed [0x30#8, 32]).inbox = .op (.descriptor [0x30#8, 32]) 0 :: [] ∧
      (handed [0x31#8, 32, 0, 0]).inbox = .op (.descriptor [0x31#8, 32, 0, 0]) 0 :: [] ∧
      (handed [0x09#8]).inbox = .op (.descriptor (0x09#8 :: [])) 0 :: [] ∧
      (0x09#8) ∉ [0x00#8, 0x01#8, 0x02#8, 0x03#8, 0x04#8, 0x05#8, 0x06#8, 0x07#8, 0x08#8, 0x10#8, 0x11#8, 0x12#8,
        0x13#8, 0x20#8, 0x21#8, 0x30#8, 0x31#8, 0x32#8, 0x40#8, 0x41#8, 0x42#8, 0x43#8, 0x44#8, 0x45#8] := by decide

theorem witness_StepRunsDecodedOperation :
    (handed [0x00#8, 3]).eng.pos = .idle ∧ (handed [0x00#8, 3]).inbox = .op (.descriptor [0x00#8, 3]) 0 :: [] ∧
      decode (handed [0x00#8, 3]).params.codes (.descriptor [0x00#8, 3]) = .ok (.selectBank 3) ∧
      (handed [0x00#8, 3]).Quiet := ⟨rfl, rfl, rfl, rfl⟩

/-- A TRANSMIT at its poll. -/
def polling (status : Byte) (now : Nat) : State :=
  { stateIn 2 with
    chip := { chipIn 2 with intStatus := status }
    eng := { resetEngine with pos := .txPoll 60, point := [⟨.transmit 60, 15, 1, .none⟩] }
    env := ⟨now, [], 0, [], []⟩ }

theorem witness_OperationsKeepInputsAndConfiguration :
    ((polling 0 0).eng.pos ≠ .idle ∧ ∃ t, step (polling 0 0) = .next t) ∧
      ∃ t, exec (.selectBank 3) (stateIn 0) = .next t := ⟨⟨by decide, _, rfl⟩, _, rfl⟩

/-- An operation that waits, and one that stands at its poll and goes on. -/
theorem witness_SequencerStandsAtItsStep :
    standsAt (.transmit 60) (polling 0 0).eng.pos ∧
    (∃ t, exec .waitMmuIdle ((stateIn 2).setChip { chipIn 2 with autoFree := [1] }) = .next t ∧
      t.eng.pos = .waitIdle) ∧
    (polling 0 0).eng.pos ≠ .idle ∧ (polling 0 0).eng.point = waitPoint (.transmit 60) (polling 0 0).eng.pos ∧
      ∃ t, step (polling 0 0) = .next t ∧ t.eng.pos ≠ .irqHang :=
  ⟨⟨60, rfl, by decide⟩, ⟨_, waitPoll_of_busy .waitIdle finishOk
      (s := ((stateIn 2).setChip { chipIn 2 with autoFree := [1] }).begin .waitMmuIdle) rfl, rfl⟩,
    by decide, by decide, _, rfl, by decide⟩

theorem wf_withBuffer : (withBuffer 0x4000 4 [1, 2]).Wf :=
  ⟨⟨by decide, by decide, by decide, by decide, by decide, by decide⟩, fun _ h => Option.noConfusion rfl (heq_of_eq h)⟩

theorem witness_StepKeepsInvariant :
    (withBuffer 0x4000 4 [1, 2]).Inv ∧ ∃ t, step (withBuffer 0x4000 4 [1, 2]) = .next t :=
  ⟨⟨wf_withBuffer, rfl, fun _ => rfl, fun _ => rfl⟩, _, rfl⟩

/-- The interrupt line is asserted by these bits and the platform's enable is on; packet 5 has failed. -/
def interrupted (status : Byte) : State :=
  { stateIn 3 with
    chip := { chipIn 3 with
      intStatus := status, intMask := 0xFF, failed := [5], table := [⟨5, 1, 0⟩, ⟨6, 1, 0⟩] }
    irq := { resetIrq with enabled := true }
    eng := { resetEngine with pkt := some 6 } }

/-- The run ends, and ends well. -/
def endsWell : Option (Except State State) → Bool
  | some (.ok _) => true
  | some (.error _) => false
  | none => false

theorem exists_of_endsWell {o : Option (Except State State)} (h : endsWell o = true) : ∃ t, o = some (.ok t) := by
  match o with
  | some (.ok t) => exact ⟨t, rfl⟩
  | some (.error _) => exact absurd h (by simp [endsWell])
  | none => exact absurd h (by simp [endsWell])

theorem interrupted_endsWell : endsWell (runHandler ⟨true, false, none, []⟩ (interrupted 0x20)) = true := by
  decide +kernel

theorem witness_HandlerRestoresTheSelection :
    (∃ t, runHandler ⟨true, false, none, []⟩ (interrupted 0x20) = some (.ok t)) ∧
      (⟨true, false, none, []⟩ : HandlerRun).touches = true ∧ (interrupted 0x20).eng.pkt = some 6 ∧
      (interrupted 0x20).chip.allocated 6 = true ∧ (interrupted 0x20).chip.queued 6 = false ∧
      (interrupted 0x20).chip.pending ≠ some (.free 6) ∧ (interrupted 0x20).chip.pending ≠ some .reset ∧
      0 < bufferSpan :=
  ⟨exists_of_endsWell interrupted_endsWell, rfl, rfl, rfl, rfl, by decide, by decide, by decide⟩

theorem witness_HandlerEntryAndAcknowledge :
    (stateIn 3).irq.enabled = false ∧ ((stateIn 3).setHold true).irq.hold = true ∧
      (stateIn 3).chip.intStatus &&& (stateIn 3).chip.intMask = 0 ∧ (interrupted 0x20).irq.enabled = true ∧
      (interrupted 0x20).irq.hold = false ∧ (interrupted 0x20).chip.intStatus &&& (interrupted 0x20).chip.intMask ≠ 0 ∧
      has (interrupted 0x20).chip.intStatus (intTxErr (interrupted 0x20).params) = true ∧
      5 ∈ (interrupted 0x20).chip.failed ∧ (interrupted 0x20).eng.pkt ≠ some 5 ∧
      (interrupted 0x20).chip.allocated 5 = true ∧ (interrupted 0x20).chip.queued 5 = false ∧
      (interrupted 0x20).chip.pending = none ∧ (interrupted 0x20).chip.autoFree = [] ∧
      has (interrupted 0x20).chip.rcr (softRst (interrupted 0x20).params) = false := by decide

/-- The line asserted by TX_ERR, and by TX alone. -/
theorem witness_HandlerAccessOrder :
    ∀ st : Byte, st = 0x20 ∨ st = 0x02 → (interrupted st).irq.enabled = true ∧ (interrupted st).irq.hold = false ∧
      (interrupted st).chip.intStatus &&& (interrupted st).chip.intMask ≠ 0 ∧
      has (interrupted st).chip.intStatus (intTxErr (interrupted st).params) = (st == 0x20) := by
  rintro st (rfl | rfl) <;> decide

/-- PB selected, with a RELEASE handed over next. -/
theorem witness_CriticalSequenceExcludesHandler :
    ((interrupted 0x20).setHold true).irq.hold = true ∧
      (∃ t, exec (.selectBank 2) { stateIn 0 with inbox := [.op (.descriptor [0x11]) 0] } = .next t) ∧
      (stateIn 0).params.regs.pb = (2 : Byte).setWidth 2 ∧
      (∃ t, wrMmu .ret .reset (stateIn 2) = .ok t ∧ t.hang = none) ∧
      ∃ t, exec .mmuReset (stateIn 2) = .next t ∧ t.hang = none :=
  ⟨rfl, ⟨_, rfl⟩, rfl, ⟨_, rfl, rfl⟩, _, rfl, rfl⟩

theorem witness_AgentsRestInResetAndLowPower :
    has ((stateIn 0).setChip { chipIn 0 with rcr := 0x8000 }).chip.rcr (softRst (stateIn 0).params) = true ∧
      has ((stateIn 0).setChip { chipIn 0 with config := 0x00B1 }).chip.config (powerEn (stateIn 0).params) = false ∧
      has ((stateIn 0).setChip { chipIn 0 with tcr := 0 }).chip.tcr (txen (stateIn 0).params) = false ∧
      has ((stateIn 0).setChip { chipIn 0 with rcr := 0 }).chip.rcr (rxen (stateIn 0).params) = false := by decide

/-- Two packets in the receive FIFO, and a pending command. -/
def pendingWith (k : Option MmuCmd) : State :=
  (stateIn 2).setChip { chipIn 2 with rxFifo := [5, 6], table := [⟨3, 1, 0⟩, ⟨5, 8, 0⟩, ⟨6, 1, 0⟩], pending := k }

theorem witness_MmuAgentCompletesCommands :
    has (pendingWith (some .release)).chip.rcr (softRst (stateIn 2).params) = false ∧
      (pendingWith (some .release)).chip.pending = some .release ∧
      (pendingWith (some .release)).chip.rxFifo = 5 :: [6] ∧
      (pendingWith (some (.free 3))).chip.pending = some (.free 3) ∧
      (pendingWith (some .reset)).chip.pending = some .reset := by decide

/-- A packet in flight. -/
def flying (ctl : Word) (queue : List Pkt) : State :=
  (stateIn 2).setChip { chipIn 2 with ctl := ctl, inFlight := some 5, txFifo := queue, table := [⟨5, 1, 0⟩] }

theorem witness_TransmitterCompletes :
    bitsOk (flying 0x0800 []).params.bits ∧ has (flying 0x0800 []).chip.rcr (softRst (flying 0x0800 []).params) = false ∧
      (flying 0x0800 []).chip.inFlight = some 5 ∧
      has (flying 0x0800 []).chip.ctl (autoRelease (flying 0x0800 []).params) = true ∧
      has (flying 0 [6]).chip.ctl (autoRelease (flying 0 [6]).params) = false ∧
      (flying 0x0800 []).chip.txFifo = [] ∧ (flying 0 [6]).chip.txFifo ≠ [] := by decide

/-- A frame of the greatest raw length fills a buffer of eight pages. -/
theorem witness_ReceiverFillsAWholeBuffer :
    has (stateIn 2).chip.rcr (softRst (stateIn 2).params) = false ∧
      has (stateIn 2).chip.rcr (rxen (stateIn 2).params) = true ∧
      has (stateIn 2).chip.config (powerEn (stateIn 2).params) = true ∧ (stateIn 2).chip.allocated 63 = false ∧
      usedPages (stateIn 2).chip.table + 8 ≤ (stateIn 2).params.totalPages ∧ 1 ≤ 8 ∧ 8 ≤ 8 ∧
      rawLen 0x07FF + rawLen 0x07FF % 2 ≤ 8 * 256 ∧ (List.replicate 2043 (0 : Byte)).length = rawLen 0x07FF - 4 := by
  refine ⟨by decide, by decide, by decide, by decide, by decide, by decide, by decide, by decide, ?_⟩
  rw [List.length_replicate]
  decide

theorem witness_SelectBankSelects : (0 : Byte).toNat < 4 ∧ (3 : Byte).toNat < 4 ∧ (stateIn 1).Quiet := by decide

/-- Bytes of every bank: TCR, the ends of MACADDR, ARR once ALLOC has been seen, the upper half of MGMT, SIG. -/
theorem witness_ReadByteReturnsTheRegister :
    (stateIn 0).byteAt (0x01 : Byte).toNat = some 0x00 ∧ (stateIn 1).byteAt (0x04 : Byte).toNat = some 1 ∧
      (stateIn 1).byteAt (0x09 : Byte).toNat = some 6 ∧ (stateIn 2).byteAt (0x03 : Byte).toNat = some 0x85 ∧
      (stateIn 3).byteAt (0x09 : Byte).toNat = some 0x33 ∧ (stateIn 3).byteAt (0x0F : Byte).toNat = some 0x33 ∧
      (movedTo 3).byteAt (0x08 : Byte).toNat = some 0x33 ∧ (stateIn 0).Quiet := by decide

/-- One register, and two that share a word. -/
theorem witness_ReadWordReturnsTheRegister :
    (0x04 : Byte).toNat % 2 = 0 ∧ (stateIn 0).byteAt (0x04 : Byte).toNat = some 0x00 ∧
      (stateIn 0).byteAt ((0x04 : Byte).toNat + 1) = some 0x01 ∧ (0x02 : Byte).toNat % 2 = 0 ∧
      (stateIn 2).byteAt (0x02 : Byte).toNat = some 0x05 ∧
      (stateIn 2).byteAt ((0x02 : Byte).toNat + 1) = some 0x85 ∧ (stateIn 0).Quiet := by decide

/-- A byte of each register with bits the spec leaves unspecified, and the last byte of the widest signature; words of one
register and of two. -/
theorem witness_ReadWordShowsTheFlags_bytes :
    bitsOk (stateIn 3).params.bits ∧ has (stateIn 3).chip.mgmt (mdi (stateIn 3).params) = false ∧
      placeAt (stateIn 3).params.regs (stateIn 3).chip.bank (0x08 : Byte).toNat = some (.byte .mgmt false) ∧
      placeAt (stateIn 3).params.regs (stateIn 3).chip.bank (0x0E : Byte).toNat = some (.byte .bsr false) ∧
      placeAt (stateIn 2).params.regs (stateIn 2).chip.bank (0x00 : Byte).toNat = some (.byte .mmuCmd false) ∧
      placeAt (stateIn 2).params.regs (stateIn 2).chip.bank (0x05 : Byte).toNat = some (.byte .fifo true) ∧
      placeAt (movedTo 3).params.regs (movedTo 3).chip.bank (0x0B : Byte).toNat = some (.byte (.sig 3) false) := by decide

theorem registersAt_of {s : State} {off : Nat} {r q : Reg} {h k : Bool}
    (h1 : placeAt s.params.regs s.chip.bank off = some (.byte r h))
    (h2 : placeAt s.params.regs s.chip.bank (off + 1) = some (.byte q k)) : s.RegistersAt off := ⟨⟨r, h, h1⟩, ⟨q, k, h2⟩⟩

theorem mmuCmd_there : (stateIn 2).RegistersAt (0x00 : Byte).toNat :=
  registersAt_of (r := .mmuCmd) (q := .mmuCmd) (h := false) (k := true) (by decide) (by decide)

theorem pnr_there : (stateIn 2).RegistersAt ((0x00 : Byte).toNat + 2) :=
  registersAt_of (r := .pnr) (q := .arr) (h := false) (k := false) (by decide) (by decide)

theorem witness_ReadWordShowsTheFlags_words :
    (0x00 : Byte).toNat % 2 = 0 ∧ (stateIn 2).RegistersAt (0x00 : Byte).toNat ∧
      (stateIn 2).RegistersAt (0x0C : Byte).toNat :=
  ⟨rfl, mmuCmd_there,
    registersAt_of (r := .intAck) (q := .intMask) (h := false) (k := false) (by decide) (by decide)⟩

/-- BSR without SIG over it stands in the other layout. -/
theorem witness_ReadWordShowsTheFlags :
    (0x0E : Byte).toNat % 2 = 0 ∧ (movedTo 1).WordAt (0x0E : Byte).toNat .bsr ∧
      placeAt (stateIn 2).params.regs (stateIn 2).chip.bank (0x0E : Byte).toNat = some (.byte .bsr false) ∧
      placeAt (stateIn 2).params.regs (stateIn 2).chip.bank ((0x0E : Byte).toNat + 1) = some (.byte (.sig 0) false) ∧
      (stateIn 2).WordAt (0x00 : Byte).toNat .mmuCmd ∧ bitsOk (stateIn 2).params.bits ∧
      (stateIn 2).WordAt (0x04 : Byte).toNat .fifo ∧ (pendingWith none).chip.rxFifo = 5 :: [6] ∧
      (stateIn 3).WordAt (0x08 : Byte).toNat .mgmt ∧
      has (stateIn 3).chip.mgmt (mdi (stateIn 3).params) = false ∧
      has (stateIn 3).chip.mgmt (mdoe (stateIn 3).params) = false ∧
      { stateIn 3 with phy := { resetPhy with drive := some true } }.phy.drive = some true ∧
      has ((stateIn 3).setChip { chipIn 3 with mgmt := 0x0008 }).chip.mgmt (mdoe (stateIn 3).params) = true := by decide

theorem witness_ReadLongReturnsTwoWords :
    (0x04 : Byte).toNat % 4 = 0 ∧ (stateIn 1).byteAt 4 = some 1 ∧ (stateIn 1).byteAt 5 = some 2 ∧
      (stateIn 1).byteAt 6 = some 3 ∧ (stateIn 1).byteAt 7 = some 4 ∧ (stateIn 2).WordAt (0x04 : Byte).toNat .fifo ∧
      (stateIn 2).byteAt 6 = some 0x00 ∧ (stateIn 2).byteAt 7 = some 0x40 ∧ (stateIn 1).Quiet := by decide

/-- DATA in the upper word of a long, FIFO below it, with the last word of a buffer at `dp`. -/
def dataAbove : State :=
  { withBuffer 0x6000 254 [] with params := { Config.ex1 with regs := { Config.defaultRegs with data := 6, ptr := 8 } } }

theorem witness_ReadLongReturnsTwoWords_registers :
    bitsOk (stateIn 2).params.bits ∧ has (stateIn 2).chip.mgmt (mdi (stateIn 2).params) = false ∧
      (0x00 : Byte).toNat % 4 = 0 ∧ (stateIn 2).RegistersAt (0x00 : Byte).toNat ∧
      (stateIn 2).RegistersAt ((0x00 : Byte).toNat + 2) ∧
      (stateIn 2).RegistersAt ((0x0C : Byte).toNat + 2) :=
  ⟨by decide, by decide, rfl, mmuCmd_there, pnr_there,
    registersAt_of (r := .bsr) (q := .sig 0) (h := false) (k := false) (by decide) (by decide)⟩

theorem witness_ReadLongReturnsTwoWords_data :
    bitsOk dataAbove.params.bits ∧ has dataAbove.chip.mgmt (mdi dataAbove.params) = false ∧
      dataAbove.RegistersAt (0x04 : Byte).toNat ∧ dataAbove.DataAt ((0x04 : Byte).toNat + 2) ∧
      dataAbove.DataReady 5 ⟨5, 1, 0⟩ 2 true := by
  refine ⟨by decide, by decide,
    registersAt_of (r := .fifo) (q := .fifo) (h := false) (k := true) (by decide) (by decide), by decide, ?_⟩
  constructor <;> decide

/-- The ends of MACADDR, a half of TCR, BSR, and a register that ignores the byte. -/
theorem witness_WriteByteChangesTheRegister :
    (placeAt (stateIn 1).params.regs (stateIn 1).chip.bank (0x04 : Byte).toNat = some (.byte (.mac 0) false) ∧
      ByteStored (stateIn 1).params (.mac 0) false 7 (chipIn 1) { chipIn 1 with mac := (chipIn 1).mac.set 0 7 }) ∧
    (placeAt (stateIn 1).params.regs (stateIn 1).chip.bank (0x09 : Byte).toNat = some (.byte (.mac 5) false) ∧
      ByteStored (stateIn 1).params (.mac 5) false 7 (chipIn 1) { chipIn 1 with mac := (chipIn 1).mac.set 5 7 }) ∧
    (placeAt (stateIn 0).params.regs (stateIn 0).chip.bank (0x01 : Byte).toNat = some (.byte .tcr true) ∧
      ByteStored (stateIn 0).params .tcr true 0xAB (chipIn 0) { chipIn 0 with tcr := 0xAB01 }) ∧
    (placeAt (stateIn 2).params.regs (stateIn 2).chip.bank (0x03 : Byte).toNat = some (.byte .arr false) ∧
      ByteStored (stateIn 2).params .arr false 7 (chipIn 2) (chipIn 2)) ∧
    (placeAt (movedTo 0).params.regs (movedTo 0).chip.bank (0x06 : Byte).toNat = some (.byte .intStatus false) ∧
      ByteStored (movedTo 0).params .intStatus false 7 (chipIn 0) (chipIn 0)) ∧ (stateIn 0).Quiet :=
  ⟨⟨by decide, .inr (.inr (.inr (.inr (.inr (.inr (.inr (.inr ⟨0, rfl, rfl⟩)))))))⟩,
    ⟨by decide, .inr (.inr (.inr (.inr (.inr (.inr (.inr (.inr ⟨5, rfl, rfl⟩)))))))⟩,
    ⟨by decide, .inl ⟨0x0001, .inr (.inl ⟨rfl, rfl⟩), .inr (.inl ⟨rfl, by decide⟩)⟩⟩,
    ⟨by decide, .inr (.inr (.inr (.inl ⟨rfl, rfl⟩)))⟩, ⟨by decide, .inr (.inr (.inl ⟨rfl, rfl⟩))⟩, rfl⟩

/-- One register; two that share the word; the last word of MACADDR; MGMT with a rising clock. -/
theorem witness_WriteWordChangesTheRegister :
    ((0x06 : Byte).toNat % 2 = 0 ∧ StoredAt (stateIn 2).params (stateIn 2).chip.bank (0x06 : Byte).toNat 0xE123
      (chipIn 2) { chipIn 2 with ptr := 0xE123, dp := 0x123, dpStale := false }) ∧
    StoredAt (stateIn 2).params (stateIn 2).chip.bank (0x0C : Byte).toNat 0x1201 (chipIn 2)
      { chipIn 2 with intStatus := 0x00, intMask := 0x12 } ∧
    StoredAt (stateIn 1).params (stateIn 1).chip.bank (0x08 : Byte).toNat 0x0807 (chipIn 1)
      { chipIn 1 with mac := #v[1, 2, 3, 4, 7, 8] } ∧
    (stateIn 3).WordAt (0x08 : Byte).toNat .mgmt ∧ has (0x333C : Word) (mclk (stateIn 3).params) = true ∧
      has (stateIn 3).chip.mgmt (mclk (stateIn 3).params) = false ∧
      has (0x000D : Word) (mdoe (stateIn 3).params) = true ∧ has (0x000D : Word) (mdo (stateIn 3).params) = true ∧
      (stateIn 3).phy.addr ≠ none ∧ (stateIn 3).phy.rx = .hunt ∧ (stateIn 3).Quiet :=
  ⟨⟨by decide, .inl ⟨.ptr, by decide, by decide,
      .inr (.inr (.inr (.inr (.inr (.inr (.inl ⟨rfl, by decide⟩))))))⟩⟩,
    .inr ⟨.intAck, .intMask, false, false, chipIn 2, by decide, by decide, by decide,
      .inr (.inr (.inr (.inr (.inr (.inr (.inr (.inl ⟨rfl, by decide⟩))))))),
      .inr (.inr (.inr (.inr (.inr (.inr (.inl ⟨rfl, by decide⟩))))))⟩,
    .inr ⟨.mac 4, .mac 5, false, false, { chipIn 1 with mac := #v[1, 2, 3, 4, 7, 6] }, by decide, by decide, by decide,
      .inr (.inr (.inr (.inr (.inr (.inr (.inr (.inr ⟨4, rfl, by decide⟩))))))),
      .inr (.inr (.inr (.inr (.inr (.inr (.inr (.inr ⟨5, rfl, by decide⟩)))))))⟩,
    by decide, by decide, by decide, by decide, by decide, by decide, by decide, rfl⟩

/-- FIFO ignores the low word, PTR takes the high one. -/
theorem witness_WriteLongWritesTwoWords :
    (0x04 : Byte).toNat % 4 = 0 ∧ StoredAt (stateIn 2).params (stateIn 2).chip.bank (0x04 : Byte).toNat
      (lowWord 0x07FF1234) (chipIn 2) (chipIn 2) ∧
    StoredAt (stateIn 2).params (stateIn 2).chip.bank ((0x04 : Byte).toNat + 2) (highWord 0x07FF1234) (chipIn 2)
      { chipIn 2 with ptr := 0x07FF, dp := 2047, dpStale := false } ∧ (stateIn 2).Quiet :=
  ⟨by decide, .inl ⟨.fifo, by decide, by decide, .inr (.inr (.inr (.inr (.inr (.inl ⟨rfl, rfl⟩)))))⟩,
    .inl ⟨.ptr, by decide, by decide, .inr (.inr (.inr (.inr (.inr (.inr (.inl ⟨rfl, by decide⟩))))))⟩, rfl⟩

/-- A byte of MGMT that raises MCLK; one written to its other half raises nothing. -/
theorem witness_WriteWordChangesTheRegister_byte :
    placeAt (stateIn 3).params.regs (stateIn 3).chip.bank (0x08 : Byte).toNat = some (.byte .mgmt false) ∧
      has (highByte (stateIn 3).chip.mgmt ++ (0x0D : Byte) : Word) (mclk (stateIn 3).params) = true ∧
      placeAt (stateIn 3).params.regs (stateIn 3).chip.bank (0x09 : Byte).toNat = some (.byte .mgmt true) ∧
      has ((0xFF : Byte) ++ lowByte (stateIn 3).chip.mgmt : Word) (mclk (stateIn 3).params) = false := by decide

/-- A command in the low word with PNR and ARR above it; a word that is no command; RCR with nothing above it; a low word
that selects another bank. -/
theorem witness_WriteLongWritesTwoWords_twoWrites :
    (stateIn 2).Quiet ∧ (0x00 : Byte).toNat % 4 = 0 ∧ ¬ (stateIn 2).DataAt (0x00 : Byte).toNat ∧
      (∃ u w, exec (.writeWord 0 (lowWord 0x12340040)) (stateIn 2) = .next u ∧ u.chip.bank = (stateIn 2).chip.bank ∧
        exec (.writeWord (0 + 2) (highWord 0x12340040))
          { u with chip := { u.chip with bank := (stateIn 2).chip.bank } } = .next w) ∧
      exec (.writeWord 0 (lowWord 0x12340028)) (stateIn 2) = .refused .unknownMmuCommand ∧
      ¬ (stateIn 0).DataAt (0x04 : Byte).toNat ∧
      ∃ u, exec (.writeWord 4 (lowWord 0)) (stateIn 0) = .next u ∧
        exec (.writeWord (4 + 2) (highWord 0))
          { u with chip := { u.chip with bank := (stateIn 0).chip.bank } } = .refused .noRegister :=
  ⟨rfl, rfl, by decide, ⟨_, _, rfl, rfl, rfl⟩, rfl, by decide, _, rfl, rfl⟩

theorem witness_SoftResetKeepsConfigAndSignature :
    has (0x8000 : Word) (softRst (stateIn 0).params) = true ∧ (0x04 : Byte).toNat % 2 = 0 ∧
      (stateIn 0).WordAt (0x04 : Byte).toNat .rcr ∧
      placeAt (stateIn 0).params.regs (stateIn 0).chip.bank (0x05 : Byte).toNat = some (.byte .rcr true) ∧
      has ((0x80 : Byte) ++ lowByte (stateIn 0).chip.rcr : Word) (softRst (stateIn 0).params) = true ∧
      placeAt (stateIn 1).params.regs (stateIn 1).chip.bank (0x01 : Byte).toNat = some (.byte .config true) ∧
      has ((0x80 : Byte) ++ lowByte { chipIn 1 with config := 0 }.config : Word) (powerEn (stateIn 1).params) = true ∧
      (stateIn 1).WordAt (0x00 : Byte).toNat .config ∧ has (0x8000 : Word) (powerEn (stateIn 1).params) = true ∧
      has ((stateIn 1).setChip { chipIn 1 with config := 0 }).chip.config (powerEn (stateIn 1).params) = false ∧
      (stateIn 0).Quiet := by decide

/-- 0x0028 is next to the words of MMU_ALLOC and no command. -/
theorem witness_WriteWordIssuesTheCommand :
    codesOk (stateIn 2).params.codes ∧ (0x00 : Byte).toNat % 2 = 0 ∧ (stateIn 2).WordAt (0x00 : Byte).toNat .mmuCmd ∧
      ∀ k, (0x0028 : Word) ≠ encodeMmuCode (stateIn 2).params.codes k := by
  refine ⟨defaultCodes_ok, rfl, by decide, fun k => ?_⟩
  cases k with
  | alloc n => revert n; decide
  | release => decide
  | free => decide
  | reset => decide
  | enqueue => decide

/-- The byte of MMU_RESET, where it is taken and where it is refused, and a byte that is no command; with command words of
another layout the upper half. -/
theorem witness_WriteWordIssuesTheCommand_byte :
    (stateIn 2).hang = none ∧
      placeAt (stateIn 2).params.regs (stateIn 2).chip.bank (0x00 : Byte).toNat = some (.byte .mmuCmd false) ∧
      (0#8 ++ (0x40 : Byte) : Word) = encodeMmuCode (stateIn 2).params.codes .reset ∧
      (∃ u, exec MmuCode.reset.toInstr (stateIn 2) = .next u) ∧
      exec MmuCode.reset.toInstr (pendingWith (some .reset)) = .refused .mmuBusy ∧
      placeAt (stateIn 2).params.regs (stateIn 2).chip.bank (0x01 : Byte).toNat = some (.byte .mmuCmd true) ∧
      ((0x40 : Byte) ++ 0#8 : Word) = encodeMmuCode { Config.defaultCodes with reset := 0x4000 } .reset ∧
      ∀ k, ((0x28 : Byte) ++ 0#8 : Word) ≠ encodeMmuCode (stateIn 2).params.codes k := by
  refine ⟨rfl, by decide, by decide, ⟨_, rfl⟩, rfl, by decide, by decide, fun k => ?_⟩
  cases k with
  | alloc n => revert n; decide
  | release => decide
  | free => decide
  | reset => decide
  | enqueue => decide

/-- In bank 0 a long at 4 has RCR and then nothing; in the packet bank nothing stands behind INT_MASK. -/
theorem witness_BadOffsetsAreRefused :
    (0x01 : Byte).toNat % 2 = 1 ∧ (0xFF : Byte).toNat % 2 = 1 ∧ (0x02 : Byte).toNat % 4 ≠ 0 ∧
      placeAt (stateIn 0).params.regs (stateIn 0).chip.bank (0x06 : Byte).toNat = none ∧ (0x06 : Byte).toNat % 2 = 0 ∧
      placeAt (stateIn 2).params.regs (stateIn 2).chip.bank (0x10 : Byte).toNat = none ∧ (0x04 : Byte).toNat % 4 = 0 ∧
      ¬ (stateIn 0).DataAt (0x04 : Byte).toNat ∧
      (∀ h, placeAt (stateIn 0).params.regs (stateIn 0).chip.bank (0x04 : Byte).toNat ≠ some (.byte .mmuCmd h) ∧
        placeAt (stateIn 0).params.regs (stateIn 0).chip.bank ((0x04 : Byte).toNat + 1) ≠ some (.byte .mmuCmd h)) ∧
      (stateIn 0).params.regs = Config.defaultRegs ∧ (stateIn 0).chip.bank = 0 := by decide

theorem witness_BadOffsetsAreRefused_word :
    noWordAt (stateIn 0).params.regs (stateIn 0).chip.bank (0x06 : Byte).toNat ∧
      noWordAt (stateIn 0).params.regs (stateIn 0).chip.bank ((0x04 : Byte).toNat + 2) ∧
      noWordAt (stateIn 2).params.regs (stateIn 2).chip.bank (0x10 : Byte).toNat :=
  ⟨.inl (by decide), .inl (by decide), .inl (by decide)⟩

/-- DATA accesses of the three widths at the end of a one-page buffer. -/
theorem witness_DataReadReturnsBufferBytes :
    (withBuffer 0x6000 255 []).DataReady 5 ⟨5, 1, 0⟩ 1 true ∧ (withBuffer 0x6000 254 []).DataReady 5 ⟨5, 1, 0⟩ 2 true ∧
      (withBuffer 0x6000 252 []).DataReady 5 ⟨5, 1, 0⟩ 4 true ∧ (withBuffer 0x6000 252 []).DataAt (0x08 : Byte).toNat ∧
      (0x08 : Byte).toNat % 4 = 0 ∧ (withBuffer 0x6000 252 []).Quiet := by
  refine ⟨?_, ?_, ?_, by decide, rfl, rfl⟩ <;> constructor <;> decide

theorem witness_DataWriteStoresBufferBytes :
    (withBuffer 0x4000 255 []).DataReady 5 ⟨5, 1, 0⟩ 1 false ∧
      (withBuffer 0x4000 254 []).DataReady 5 ⟨5, 1, 0⟩ 2 false ∧
      (withBuffer 0x4000 252 []).DataReady 5 ⟨5, 1, 0⟩ 4 false ∧
      (withBuffer 0x4000 252 []).DataAt (0x08 : Byte).toNat ∧ (0x08 : Byte).toNat % 4 = 0 ∧
      (withBuffer 0x4000 252 []).Quiet := by
  refine ⟨?_, ?_, ?_, by decide, rfl, rfl⟩ <;> constructor <;> decide

/-- The last byte is inside the buffer, the byte behind it is not; PNR names a buffer that is not allocated; a head of the
receive FIFO that is not allocated. -/
theorem witness_BadDataAccessesAreRefused :
    (withBuffer 0x6000 256 []).DataAt (0x08 : Byte).toNat ∧ (withBuffer 0x6000 256 []).chip.dpStale = false ∧
      (0x08 : Byte).toNat % 4 = 0 ∧ (withBuffer 0x6000 256 []).chip.dataEntry Config.ex1 1 true = none ∧
      (withBuffer 0x4000 254 []).chip.dataEntry Config.ex1 4 false = none ∧
      (stateIn 2).chip.dataEntry Config.ex1 2 false = none ∧
      ((stateIn 2).setChip { chipIn 2 with ptr := 0xE000, rxFifo := [9] }).chip.dataEntry Config.ex1 2 true = none ∧
      findEntry (withBuffer 0x6000 256 []).chip.table 5 = some ⟨5, 1, 0⟩ ∧
      has (withBuffer 0x6000 256 []).chip.ptr (ptrRcv (withBuffer 0x6000 256 []).params) = false ∧
      (withBuffer 0x6000 256 []).chip.pktSel (withBuffer 0x6000 256 []).params = 5 ∧
      (⟨5, 1, 0⟩ : Entry).pages * 256 < (withBuffer 0x6000 256 []).chip.dp + 1 := by decide

/-- An access that reaches an entry is one that is ready; so none is ready where `dataEntry` answers none. -/
theorem not_ready_of_dataEntry {s : State} {w : Nat} {reading : Bool} (h : s.chip.dataEntry s.params w reading = none) :
    ¬ ∃ p e, s.DataReady p e w reading := by
  rintro ⟨p, e, hr⟩
  rw [hr.dataEntry] at h
  exact absurd h (by simp)

/-- A block that ends where the buffer ends. -/
theorem witness_BlockTransfersCopyWords :
    ((withBuffer 0x6000 252 []).Quiet ∧ (0x08 : Byte).toNat % 2 = 0 ∧ (withBuffer 0x6000 252 []).DataAt (0x08 : Byte).toNat ∧
      (withBuffer 0x6000 252 []).DataReady 5 ⟨5, 1, 0⟩ 2 true ∧
      has (withBuffer 0x6000 252 []).chip.ptr (ptrAutoinc (withBuffer 0x6000 252 []).params) = true ∧
      (withBuffer 0x6000 252 []).chip.dp + 2 * (2 : Word).toNat ≤ 1 * 256) ∧
    (withBuffer 0x4000 252 []).Quiet ∧ (withBuffer 0x4000 252 []).DataAt (0x08 : Byte).toNat ∧
      (withBuffer 0x4000 252 []).DataReady 5 ⟨5, 1, 0⟩ 2 false ∧
      has (withBuffer 0x4000 252 []).chip.ptr (ptrAutoinc (withBuffer 0x4000 252 []).params) = true ∧
      (withBuffer 0x4000 252 []).chip.dp + 2 * (2 : Word).toNat ≤ 1 * 256 := by
  refine ⟨⟨rfl, rfl, by decide, ?_, by decide, by decide⟩, rfl, by decide, ?_, by decide, by decide⟩ <;>
    constructor <;> decide

/-- Without AUTOINC, at the end of the buffer. -/
theorem witness_BlockTransfersCopyWords_still :
    (withBuffer 0x2000 254 []).DataAt (0x08 : Byte).toNat ∧ (withBuffer 0x2000 254 []).DataReady 5 ⟨5, 1, 0⟩ 2 true ∧
      has (withBuffer 0x2000 254 []).chip.ptr (ptrAutoinc (withBuffer 0x2000 254 []).params) = false ∧
      (withBuffer 0x0000 254 []).DataReady 5 ⟨5, 1, 0⟩ 2 false ∧
      has (withBuffer 0x0000 254 []).chip.ptr (ptrAutoinc (withBuffer 0x0000 254 []).params) = false ∧
      0 < (0xFFFF : Word).toNat := by
  refine ⟨by decide, ?_, by decide, ?_, by decide, by decide⟩ <;> constructor <;> decide

/-- A block of a register: TCR is written twice; an odd offset is refused. -/
theorem witness_BlockTransfersCopyWords_registers :
    (stateIn 2).RegistersAt (0x00 : Byte).toNat ∧ (0x00 : Byte).toNat % 2 = 0 ∧ 0 < (2 : Word).toNat ∧
      (∃ u v, exec (.writeWord 0 ((stateIn 0).hostRead (stateIn 0).eng.bufRef 1 ++
          (stateIn 0).hostRead (stateIn 0).eng.bufRef 0)) (stateIn 0) = .next u ∧
        exec (.writeBlock 0 (2 - 1)) { u with eng := { u.eng with bufRef := (stateIn 0).eng.bufRef + 2 } } = .next v) ∧
      exec (.readWord 1) (stateIn 0) = .refused .misaligned ∧
      exec (.writeWord 1 ((stateIn 0).hostRead (stateIn 0).eng.bufRef 1 ++
        (stateIn 0).hostRead (stateIn 0).eng.bufRef 0)) (stateIn 0) = .refused .misaligned ∧
      (stateIn 0).hang = none :=
  ⟨mmuCmd_there, rfl, by decide, ⟨_, _, rfl, rfl⟩, rfl, rfl, rfl⟩

/-- MMU_RESET written twice: the second finds BUSY. -/
def twoResets : State := (stateIn 2).setHost [(0, 0x40), (1, 0x00), (2, 0x40), (3, 0x00)]

theorem witness_BlockTransfersCopyWords_refused :
    twoResets.hang = none ∧ twoResets.Quiet ∧ ∃ u,
      exec (.writeWord 0 (twoResets.hostRead twoResets.eng.bufRef 1 ++ twoResets.hostRead twoResets.eng.bufRef 0)) twoResets =
        .next u ∧
      exec (.writeBlock 0 (2 - 1)) { u with eng := { u.eng with bufRef := twoResets.eng.bufRef + 2 } } =
        .refused .mmuBusy := ⟨rfl, rfl, _, rfl, rfl⟩

/-- A READ_BLOCK of two words whose second begins where the buffer ends, and one of three words; a WRITE_BLOCK of two. -/
theorem witness_BlockTransfersCopyWords_beyond :
    (withBuffer 0x6000 254 []).Quiet ∧ (withBuffer 0x6000 254 []).hang = none ∧ (0x08 : Byte).toNat % 2 = 0 ∧
      (withBuffer 0x6000 254 []).DataAt (0x08 : Byte).toNat ∧ (withBuffer 0x6000 254 []).chip.dpStale = false ∧
      (withBuffer 0x6000 254 []).DataReady 5 ⟨5, 1, 0⟩ 2 true ∧
      has (withBuffer 0x6000 254 []).chip.ptr (ptrAutoinc (withBuffer 0x6000 254 []).params) = true ∧
      (withBuffer 0x4000 254 []).DataReady 5 ⟨5, 1, 0⟩ 2 false ∧
      has (withBuffer 0x4000 254 []).chip.ptr (ptrAutoinc (withBuffer 0x4000 254 []).params) = true ∧
      (⟨5, 1, 0⟩ : Entry).pages * 256 < (withBuffer 0x6000 254 []).chip.dp + 2 * (2 : Word).toNat ∧
      (∃ u, exec (.readWord 8) (withBuffer 0x6000 254 []) = .next u ∧
        exec (.readBlock 8 (2 - 1)) u = .refused .dataAccess) := by
  refine ⟨rfl, rfl, rfl, by decide, rfl, ?_, by decide, ?_, by decide, by decide, _, rfl, rfl⟩ <;> constructor <;> decide

/-- A READ_BLOCK as its first word and the block of the rest: two words of DATA. -/
theorem witness_BlockTransfersCopyWords_firstRead :
    ∃ u v w, exec (.readWord 8) (withBuffer 0x6000 0 [1, 2, 3, 4]) = .next u ∧ u.Ended .ok (w : Word).toNat ∧
      exec (.readBlock 8 (2 - 1)) { u with
        hostMem := ((withBuffer 0x6000 0 [1, 2, 3, 4]).hostMem.write
          (withBuffer 0x6000 0 [1, 2, 3, 4]).eng.bufRef (lowByte w)).write
          ((withBuffer 0x6000 0 [1, 2, 3, 4]).eng.bufRef + 1) (highByte w)
        eng := { u.eng with bufRef := (withBuffer 0x6000 0 [1, 2, 3, 4]).eng.bufRef + 2 } } = .next v :=
  ⟨_, _, 0x0201, rfl, by decide, rfl⟩

/-- A PHY whose reset and negotiation run. -/
theorem witness_PhyTakesItsOwnSteps :
    { stateIn 0 with phy := { resetPhy with resetting := true, aneg := true } }.phy.resetting = true ∧
      { stateIn 0 with phy := { resetPhy with resetting := true, aneg := true } }.phy.aneg = true ∧
      (stateIn 0).phy.resetting = false ∧ (stateIn 0).phy.aneg = false := by decide

theorem witness_UntakenCommandsAreRefused :
    (stateIn 2).hang = none ∧ (pendingWith (some .reset)).hang = none ∧ (pendingWith (some (.alloc 0))).hang = none ∧
      (pendingWith none).hang = none ∧ (stateIn 3).chip.bank ≠ (stateIn 3).params.regs.pb ∧ (7 : Byte).toNat < 8 ∧
      (pendingWith (some .reset)).chip.bank = (stateIn 2).params.regs.pb ∧
      (pendingWith (some .reset)).chip.busy = true ∧ (pendingWith (some .reset)).Quiet ∧
      (pendingWith (some (.alloc 0))).chip.allocPending = true ∧
      (stateIn 2).chip.pending = none ∧ (stateIn 2).chip.autoFree = [] ∧ (stateIn 2).chip.rxFifo = [] ∧
      (stateIn 2).chip.allocated ((stateIn 2).chip.pktSel (stateIn 2).params) = false ∧
      (pendingWith none).chip.queued ((pendingWith none).chip.pktSel (stateIn 2).params) = true ∧
      (stateIn 2).chip.allocated ((0xFF : Byte).setWidth 6) = false ∧
      (pendingWith none).chip.queued ((0x05 : Byte).setWidth 6) = true ∧ (pendingWith none).Quiet := by decide

theorem witness_UntakenCommands_not_alloc : ∀ n, MmuCode.release ≠ .alloc n := fun _ h => MmuCode.noConfusion h

theorem witness_MmuCommandsTakeEffect :
    (pendingWith none).chip.bank = (stateIn 2).params.regs.pb ∧ (pendingWith none).chip.busy = false ∧
      (pendingWith none).chip.allocPending = false ∧ (pendingWith none).chip.rxFifo ≠ [] ∧
      (withBuffer 0x4000 0 []).chip.bank = (stateIn 2).params.regs.pb ∧ (withBuffer 0x4000 0 []).chip.busy = false ∧
      (withBuffer 0x4000 0 []).chip.allocPending = false ∧
      (withBuffer 0x4000 0 []).chip.allocated ((withBuffer 0x4000 0 []).chip.pktSel (stateIn 2).params) = true ∧
      (withBuffer 0x4000 0 []).chip.queued ((withBuffer 0x4000 0 []).chip.pktSel (stateIn 2).params) = false ∧
      (withBuffer 0x4000 0 []).Quiet := by decide

theorem witness_AllocateReturnsThePacket :
    bitsOk (stateIn 2).params.bits ∧ (7 : Byte).toNat < 8 ∧ (stateIn 2).chip.bank = (stateIn 2).params.regs.pb ∧
      (stateIn 2).chip.busy = false ∧
      has (stateIn 2).chip.rcr (softRst (stateIn 2).params) = false ∧ (stateIn 2).chip.allocated 63 = false ∧
      usedPages (stateIn 2).chip.table + ((7 : Byte).toNat + 1) ≤ (stateIn 2).params.totalPages ∧
      1 ≤ (stateIn 2).params.allocAttempts ∧ 1 ≤ (stateIn 2).params.allocSpin ∧
      ((stateIn 2).withTape [⟨0, [.agent (.allocOk 63)]⟩]).env.tape = [⟨0, [.agent (.allocOk 63)]⟩] := by decide

theorem witness_AllocateFailures :
    (7 : Byte).toNat < 8 ∧ (stateIn 2).chip.bank = (stateIn 2).params.regs.pb ∧ (stateIn 2).chip.busy = false ∧
      (stateIn 2).Quiet ∧
      has (stateIn 2).chip.rcr (softRst (stateIn 2).params) = false ∧ 1 ≤ (stateIn 2).params.allocAttempts ∧
      1 ≤ (stateIn 2).params.allocSpin ∧ (stateIn 2).chip.allocated 63 = false ∧
      usedPages (stateIn 2).chip.table + ((7 : Byte).toNat + 1) ≤ (stateIn 2).params.totalPages ∧
      ((stateIn 2).withTape [⟨0, [.agent .allocFail]⟩]).env.tape = [⟨0, [.agent .allocFail]⟩] ∧
      ((stateIn 2).withTape [⟨0, [.agent (.allocSilent 63)]⟩]).env.tape = [⟨0, [.agent (.allocSilent 63)]⟩] := by decide

theorem witness_ReleaseAndFreeGiveBack :
    (pendingWith none).chip.bank = (stateIn 2).params.regs.pb ∧ (pendingWith none).chip.pending = none ∧
      (pendingWith none).chip.autoFree = [] ∧
      has (pendingWith none).chip.rcr (softRst (stateIn 2).params) = false ∧ (pendingWith none).chip.rxFifo = 5 :: [6] ∧
      ((pendingWith none).withTape [⟨0, [.agent .mmuDone]⟩]).env.tape = [⟨0, [.agent .mmuDone]⟩] ∧
      (pendingWith none).chip.allocated ((3 : Byte).setWidth 6) = true ∧
      (pendingWith none).chip.queued ((3 : Byte).setWidth 6) = false ∧
      ((pendingWith none).withTape (quietGaps 1 ++ agentGap .mmuDone)).env.tape = quietGaps 1 ++ agentGap .mmuDone := by
  decide

theorem witness_WaitMmuIdleWaitsForBusy :
    (stateIn 2).chip.bank = (stateIn 2).params.regs.pb ∧ (stateIn 2).chip.busy = false ∧
      (pendingWith (some .reset)).chip.bank = (stateIn 2).params.regs.pb ∧
      (pendingWith (some .reset)).chip.busy = true ∧ ((stateIn 2).park .waitIdle).eng.pos = .waitIdle ∧
      ((stateIn 2).park .waitIdle).chip.busy = false ∧ ((stateIn 2).park .waitIdle).hang = none ∧
      ((stateIn 2).park .waitIdle).irq.enabled = false ∧
      ((pendingWith (some .reset)).park .waitIdle).eng.pos = .waitIdle ∧
      ((pendingWith (some .reset)).park .waitIdle).chip.busy = true ∧
      ((pendingWith (some .reset)).park .waitIdle).hang = none ∧
      ((pendingWith (some .reset)).park .waitIdle).Quiet ∧
      ((pendingWith (some .reset)).park .irqHang).eng.pos = .irqHang := by decide

/-- A handler that frees packet 5 while the MMU agent never comes. -/
def hanging : HandlerRun := ⟨true, false, some 5, []⟩

/-- A run that frees, and finds TX_ERR, comes to its FREE behind the acknowledge. -/
theorem txErrBody_of_free {exit : IrqPos} {h : HandlerRun} {p : Pkt} {x : Handling} (hf : h.freed = some p)
    (hr : h.reenable = false)
    (hv : has (lowByte (handlerRead (.body 2) .intStatus 1 x).1)
      (intTxErr (handlerRead (.body 2) .intStatus 1 x).2.1.params) = true) :
    txErrBody exit h x = handlerFree exit p (handlerAck (.body 7) (handlerRead (.body 2) .intStatus 1 x).2) := by
  unfold txErrBody
  simp [hf, hr, hv, handlerRepair, handlerAckNext]

/-- A FREE that the chip unit takes, in a run whose gaps are used up, polls BUSY once behind its command. -/
theorem handlerFree_busy (exit : IrqPos) (p : Pkt) (x : Handling)
    (hg : ((handlerWrite (.body 8) .pnr 1 ((pktByte x.1.params p).setWidth 16) x).1.chip.failed.contains p &&
      (handlerWrite (.body 8) .pnr 1 ((pktByte x.1.params p).setWidth 16) x).1.eng.pkt != some p &&
      (mmuGuard .free (handlerWrite (.body 8) .pnr 1 ((pktByte x.1.params p).setWidth 16) x).1.params
        (handlerWrite (.body 8) .pnr 1 ((pktByte x.1.params p).setWidth 16) x).1.chip).isNone) = true)
    (hx : x.2 = []) : ∃ u, handlerFree exit p x = .error u := by
  have hq : (handlerWrite (.body 8) .pnr 1 ((pktByte x.1.params p).setWidth 16) x).2 = [] := by
    simp [handlerWrite, handlerGap, hx]
  unfold handlerFree
  dsimp only
  rw [if_pos hg]
  generalize handlerWrite (.body 8) .pnr 1 ((pktByte x.1.params p).setWidth 16) x = y at hq
  obtain ⟨s, gs⟩ := y
  obtain rfl : gs = [] := hq
  refine ⟨_, if_pos ?_⟩
  show has (readReg .mmuCmd _).1 (busyBit _) = true
  exact readReg_mmuCmd_busy _

/-- The handler of `hanging` behind its acknowledge. -/
def hangingAcked (s : State) : Handling :=
  handlerAck (.body 7) (handlerRead (.body 2) .intStatus 1 (irqEnter true (s.irqAt (.save 1), []))).2

/-- The chip unit takes the FREE of packet 5 at the end of these accesses. -/
def takesFree (y : Handling) : Bool :=
  y.1.chip.failed.contains 5 && y.1.eng.pkt != some 5 && (mmuGuard .free y.1.params y.1.chip).isNone

/-- What the handler's read of INT_STATUS shows. -/
def showsTxErr (v : Word × Handling) : Bool := has (lowByte v.1) (intTxErr v.2.1.params)

/-- The handler of `hanging` may start in `s`, finds TX_ERR, and comes to a FREE that the chip unit takes. -/
def hangsIn (s : State) : Bool :=
  (canInterrupt s && showsTxErr (handlerRead (.body 2) .intStatus 1 (irqEnter true (s.irqAt (.save 1), [])))) &&
    takesFree (handlerWrite (.body 8) .pnr 1 ((pktByte (hangingAcked s).1.params 5).setWidth 16) (hangingAcked s))

theorem runHandler_of_error {h : HandlerRun} {s u : State} (hc : canInterrupt s = true)
    (hb : txErrBody (irqExitPos h.touches) h (irqEnter h.touches (s.irqAt (.save 1), h.gaps)) = .error u) :
    runHandler h s = some (.error u) := by
  unfold runHandler
  rw [if_pos hc, hb]

/-- The handler's FREE hangs: its poll finds BUSY = 1. -/
theorem hanging_of {s : State} (h : hangsIn s = true) : ∃ u, runHandler hanging s = some (.error u) := by
  unfold hangsIn at h
  rw [Bool.and_eq_true, Bool.and_eq_true] at h
  obtain ⟨u, hu⟩ := handlerFree_busy (.restore 1) 5 (hangingAcked s) h.2 rfl
  exact ⟨u, runHandler_of_error h.1.1 ((txErrBody_of_free (h := hanging) (p := 5) rfl rfl h.1.2).trans hu)⟩

theorem interrupted_hangs : hangsIn (interrupted 0x20) = true := by decide +kernel

/-- A gap that holds only the handler of `hanging` notes its hang. -/
theorem gap_of_hangsIn_quiet {s : State} (ht : s.env.tape = [⟨0, [.irq hanging]⟩]) (hn : s.hang = none)
    (hh : hangsIn (s.withTape []) = true) : ∃ g, (gap s).hang = some g ∧ (gap s).Quiet := by
  obtain ⟨u, hu⟩ := hanging_of hh
  have e : gap s = (s.withTape []).noteHang u := by
    rw [gap_cons ht]
    show eventStep (.irq hanging) (s.withTape []) = _
    simp only [eventStep, hu]
  rw [e]
  unfold State.noteHang
  rw [show (s.withTape []).hang = none from hn]
  exact ⟨_, rfl, rfl⟩

theorem gap_of_hangsIn {s : State} (ht : s.env.tape = [⟨0, [.irq hanging]⟩]) (hn : s.hang = none)
    (hh : hangsIn (s.withTape []) = true) : ∃ g, (gap s).hang = some g :=
  (gap_of_hangsIn_quiet ht hn hh).imp fun _ h => h.1

/-- A machine whose handler is to hang in the gap before its operation, or behind the write of it. -/
def handedHang (quiet : Nat) : State :=
  { interrupted 0x20 with
    inbox := [.op (.descriptor [0x00#8, 3]) 0]
    env := { (interrupted 0x20).env with tape := quietGaps quiet ++ [⟨0, [.irq hanging]⟩] } }

/-- It with its operation taken. -/
def taken (s : State) : State :=
  { s with inbox := [], eng := { s.eng with bufRef := 0, result := none, point := [⟨.selectBank 3, 1, 1, .none⟩] } }

theorem witness_StepRunsDecodedOperation_hang :
    (handedHang 0).eng.pos = .idle ∧ (handedHang 0).inbox = .op (.descriptor [0x00#8, 3]) 0 :: [] ∧
      decode (handedHang 0).params.codes (.descriptor [0x00#8, 3]) = .ok (.selectBank 3) ∧
      ∃ g, (gap (taken (handedHang 0))).hang = some g :=
  ⟨rfl, rfl, rfl, gap_of_hangsIn rfl rfl (by decide +kernel)⟩

/-- SELECT_BANK behind its write, before its gap. -/
def written : State :=
  ((setReg .bsr (bankWord Config.ex1 3) ((gap (taken (handedHang 1))).begin (.selectBank 3) |>.setHold false)).note
    (.write .bsr 2 ((bankWord Config.ex1 3).setWidth 32))).advance .ret

theorem exec_written : exec (.selectBank 3) (gap (taken (handedHang 1))) = .next ((gap written).finish .ok 0) := rfl

theorem witness_WaitMmuIdleWaitsForBusy_operation :
    (gap (taken (handedHang 1))).hang = none ∧
      ∃ t g, exec (.selectBank 3) (gap (taken (handedHang 1))) = .next t ∧ t.hang = some g := by
  obtain ⟨g, hg⟩ := gap_of_hangsIn (s := written) rfl rfl (by decide +kernel)
  exact ⟨rfl, _, g, exec_written, hg⟩

/-- WAIT_MMU_IDLE behind its last poll, before the gap of it. -/
def polled : State :=
  ((readReg .mmuCmd ((handedHang 0).park .waitIdle)).2.note
    (.read .mmuCmd 2 ((readReg .mmuCmd ((handedHang 0).park .waitIdle)).1.setWidth 32))).advance (.to 1 2)

theorem resume_polled : resume ((handedHang 0).park .waitIdle) = .next (((gap polled).advance .ret).finish .ok 0) :=
  waitPoll_of_idle .waitIdle finishOk (s := (handedHang 0).park .waitIdle) rfl

theorem witness_WaitMmuIdleWaitsForBusy_wait :
    ((handedHang 0).park .waitIdle).eng.pos ≠ .idle ∧
      ∃ t g, resume ((handedHang 0).park .waitIdle) = .next t ∧ t.hang = some g := by
  obtain ⟨g, hg⟩ := gap_of_hangsIn (s := polled) rfl rfl (by decide +kernel)
  exact ⟨by decide, _, g, resume_polled, hg⟩

/-- A machine inside a step in which a handler has hung, with nothing in its receive FIFO to release. -/
def hung : State :=
  { stateIn 2 with hang := some ⟨chipIn 2, resetPhy, resetEngine, resetIrq, [], ⟨0, [], 0, [], []⟩⟩ }

theorem witness_WaitMmuIdleWaitsForBusy_hung :
    hung.hang.isSome = true ∧ hung.chip.bank = hung.params.regs.pb ∧ (7 : Byte).toNat < 8 ∧
      (∃ t, exec (.selectBank 3) hung = .next t) ∧ mmuGuard .release hung.params hung.chip = some .badPacket :=
  ⟨rfl, rfl, by decide, ⟨_, rfl⟩, rfl⟩

theorem witness_WaitMmuIdleWaitsForBusy_hang :
    (∃ u, runHandler hanging (interrupted 0x20) = some (.error u)) ∧
      ((interrupted 0x20).withTape [⟨0, [.irq hanging]⟩]).eng.pos = .idle ∧
      ((interrupted 0x20).withTape [⟨0, [.irq hanging]⟩]).inbox = [] ∧
      ((interrupted 0x20).withTape [⟨0, [.irq hanging]⟩]).hang = none := ⟨hanging_of interrupted_hangs, rfl, rfl, rfl⟩

theorem witness_OversizeFramesAreRejected :
    2041 < (2042 : Word).toNat ∧ (2041 : Word).toNat ≤ 2041 ∧
      ∃ t, exec (.transmit 2041) { stateIn 2 with params := { Config.ex1 with allocSpin := 1 } } = .next t :=
  ⟨by decide, by decide, _, rfl⟩

/-- The machine of the TRANSMIT statements with this tape. -/
def sending (tape : List Gap) : State := (stateIn 2).withTape tape

theorem witness_TransmitSendsTheFrame (tape : List Gap) :
    bitsOk (sending tape).params.bits ∧ (2041 : Word).toNat ≤ 2041 ∧ (sending tape).chip.busy = false ∧
      has (sending tape).chip.rcr (softRst (sending tape).params) = false ∧
      (sending tape).chip.allocated 63 = false ∧ (sending tape).chip.queued 63 = false ∧
      usedPages (sending tape).chip.table + (pageCode (paddedLength (2041 : Word).toNat) + 1) ≤
        (sending tape).params.totalPages ∧
      1 ≤ (sending tape).params.allocAttempts ∧ 1 ≤ (sending tape).params.allocSpin ∧
      (sending tape).chip.txFifo = [] ∧ (sending tape).chip.inFlight = none ∧
      has (sending tape).chip.tcr (txen (sending tape).params) = true ∧
      has (sending tape).chip.config (powerEn (sending tape).params) = true ∧
      has (sending tape).chip.ctl (autoRelease (sending tape).params) = true ∧
      (sending tape).env.tape = tape :=
  ⟨(by decide : bitsOk Config.defaultBits), by decide, rfl,
    (by decide : has (0x0100 : Word) (softRst Config.ex1) = false), rfl, rfl,
    (by decide : 0 + (pageCode (paddedLength (2041 : Word).toNat) + 1) ≤ 32),
    (by decide : 1 ≤ 5), (by decide : 1 ≤ 16), rfl, rfl,
    (by decide : has (0x0001 : Word) (txen Config.ex1) = true),
    (by decide : has (0x80B1 : Word) (powerEn Config.ex1) = true),
    (by decide : has (0x1A10 : Word) (autoRelease Config.ex1) = true), rfl⟩

/-- The shortest and the longest frame, and the first with an odd padded length. -/
theorem witness_TransmitWritesTheEnvelope (tape : List Gap) :
    ((0 : Word).toNat ≤ 2041 ∧ (2041 : Word).toNat ≤ 2041 ∧ paddedLength (0 : Word).toNat % 2 = 0 ∧
      paddedLength (61 : Word).toNat % 2 = 1) ∧
    bitsOk (sending tape).params.bits ∧ (sending tape).chip.busy = false ∧
      has (sending tape).chip.rcr (softRst (sending tape).params) = false ∧
      (sending tape).chip.allocated 63 = false ∧ (sending tape).chip.queued 63 = false ∧
      usedPages (sending tape).chip.table + (pageCode (paddedLength (2041 : Word).toNat) + 1) ≤
        (sending tape).params.totalPages ∧
      1 ≤ (sending tape).params.allocAttempts ∧ 1 ≤ (sending tape).params.allocSpin ∧
      1 ≤ (sending tape).params.txTimeout ∧
      has (sending tape).chip.intStatus (intTxEmpty (sending tape).params) = false ∧
      (sending tape).env.tape = tape :=
  ⟨by decide, (by decide : bitsOk Config.defaultBits), rfl,
    (by decide : has (0x0100 : Word) (softRst Config.ex1) = false), rfl, rfl,
    (by decide : 0 + (pageCode (paddedLength (2041 : Word).toNat) + 1) ≤ 32),
    (by decide : 1 ≤ 5), (by decide : 1 ≤ 16), (by decide : 1 ≤ 30),
    (by decide : has (0x00 : Byte) (intTxEmpty Config.ex1) = false), rfl⟩

/-- The clauses at the poll at the last moment before the timeout and at the first behind it; those before the poll on
any tape of the machine above. -/
theorem witness_TransmitOtherEnds :
    (2041 : Word).toNat ≤ 2041 ∧ (stateIn 2).chip.busy = false ∧ (stateIn 2).Quiet ∧
      has (stateIn 2).chip.rcr (softRst (stateIn 2).params) = false ∧ (stateIn 2).chip.allocated 63 = false ∧
      usedPages (stateIn 2).chip.table + (pageCode (paddedLength (2041 : Word).toNat) + 1) ≤
        (stateIn 2).params.totalPages ∧
      1 ≤ (stateIn 2).params.allocAttempts ∧ 1 ≤ (stateIn 2).params.allocSpin ∧
      (polling 0x04 30).eng.pos = .txPoll 60 ∧ (polling 0x04 30).chip.busy = false ∧ (polling 0x04 30).hang = none ∧
      (polling 0x04 30).Quiet ∧
      has (polling 0x04 30).chip.intStatus (intTxEmpty (polling 0x04 30).params) = true ∧
      has (polling 0x00 30).chip.intStatus (intTxEmpty (polling 0x00 30).params) = false ∧
      (polling 0x00 30).params.txTimeout ≤ (polling 0x00 30).env.now - (polling 0x00 30).eng.t0 ∧
      (polling 0x00 29).env.now - (polling 0x00 29).eng.t0 < (polling 0x00 29).params.txTimeout := by decide

theorem witness_TransmitOtherEnds_tape (tape : List Gap) : (sending tape).env.tape = tape := rfl

/-- A frame with this status and length word at the head of the receive FIFO. -/
def arrived (pages : Nat) (status lenWord : Word) (tape : List Gap) : State :=
  ((stateIn 2).setChip { chipIn 2 with
    rxFifo := [5, 6], table := [⟨5, pages, 0⟩, ⟨6, 1, 0⟩]
    pktMem := Memory.writeBytes [] (pktAddr 5 0) (wordBytes status ++ wordBytes lenWord) }).withTape tape

/-- The shortest and the longest frame. -/
theorem witness_ReceiveDeliversTheFrame :
    (∀ n ∈ [0, 1, 2043], bitsOk (arrived 8 0 (BitVec.ofNat 16 (n + 4)) []).params.bits ∧
      (arrived 8 0 (BitVec.ofNat 16 (n + 4)) []).chip.pending = none ∧
      (arrived 8 0 (BitVec.ofNat 16 (n + 4)) []).chip.autoFree = [] ∧
      has (arrived 8 0 (BitVec.ofNat 16 (n + 4)) []).chip.rcr (softRst (stateIn 2).params) = false ∧
      (arrived 8 0 (BitVec.ofNat 16 (n + 4)) []).chip.rxFifo = 5 :: [6] ∧
      findEntry (arrived 8 0 (BitVec.ofNat 16 (n + 4)) []).chip.table 5 = some ⟨5, 8, 0⟩ ∧
      has ((arrived 8 0 (BitVec.ofNat 16 (n + 4)) []).chip.bufByte ⟨5, 8, 0⟩ 1 ++
        (arrived 8 0 (BitVec.ofNat 16 (n + 4)) []).chip.bufByte ⟨5, 8, 0⟩ 0 : Word)
          (rxErrorMask (stateIn 2).params) = false ∧
      (((arrived 8 0 (BitVec.ofNat 16 (n + 4)) []).chip.bufByte ⟨5, 8, 0⟩ 3 ++
        (arrived 8 0 (BitVec.ofNat 16 (n + 4)) []).chip.bufByte ⟨5, 8, 0⟩ 2 : Word) &&& 0x07FF).toNat = n + 4 ∧
      n + n % 2 + 4 ≤ 8 * 256) ∧
    ∀ tape, (arrived 8 0 4 tape).env.tape = tape := ⟨by decide, fun _ => rfl⟩

theorem witness_ReceiveOtherEnds :
    (stateIn 2).chip.rxFifo = [] ∧ (stateIn 2).Quiet ∧ bitsOk (arrived 1 0x8000 2 []).params.bits ∧
      (arrived 1 0x8000 2 []).chip.pending = none ∧
      (arrived 1 0x8000 2 []).chip.autoFree = [] ∧
      has (arrived 1 0x8000 2 []).chip.rcr (softRst (stateIn 2).params) = false ∧
      (arrived 1 0x8000 2 []).chip.rxFifo = 5 :: [6] ∧
      findEntry (arrived 1 0x8000 2 []).chip.table 5 = some ⟨5, 1, 0⟩ ∧ 1 ≤ 1 ∧
      has ((arrived 1 0x8000 2 []).chip.bufByte ⟨5, 1, 0⟩ 1 ++
        (arrived 1 0x8000 2 []).chip.bufByte ⟨5, 1, 0⟩ 0 : Word) (rxErrorMask (stateIn 2).params) = true ∧
      has ((arrived 1 0 3 []).chip.bufByte ⟨5, 1, 0⟩ 1 ++
        (arrived 1 0 3 []).chip.bufByte ⟨5, 1, 0⟩ 0 : Word) (rxErrorMask (stateIn 2).params) = false ∧
      (((arrived 1 0 3 []).chip.bufByte ⟨5, 1, 0⟩ 3 ++
        (arrived 1 0 3 []).chip.bufByte ⟨5, 1, 0⟩ 2 : Word) &&& 0x07FF).toNat < 4 ∧ (arrived 1 0 3 []).Quiet ∧
      (arrived 1 0 3 []).hang = none := by
  decide

theorem witness_ReceiveOtherEnds_tape :
    (arrived 1 0x8000 2 (quietGaps 8 ++ agentGap .mmuDone)).env.tape = quietGaps 8 ++ agentGap .mmuDone := rfl

/-- An operation that has ended in one step. -/
theorem runOperation_of_exec {i : Instr} {s t : State} (k : Nat) (h : exec i s = .next t) (hh : t.hang = none)
    (hp : t.eng.pos = .idle) : runOperation k i s = .next t := by
  unfold runOperation
  rw [h]
  cases k <;> simp [settle, settled, hh, runToIdle, hp]

/-- A poll-miss. -/
theorem witness_ReceiveReleasesOncePerFrame :
    codesOk (stateIn 2).params.codes ∧ ∃ t, runOperation 0 .receive (stateIn 2) = .next t ∧ t.eng.pos = .idle :=
  ⟨defaultCodes_ok, _, runOperation_of_exec 0 ((execReceive_cases (stateIn 2) rfl).1 rfl) rfl rfl, rfl⟩

/-- A frame with an error flag, whose release the MMU agent completes. -/
def seen : State := arrived 1 0x8000 2 (quietGaps 8 ++ agentGap .mmuDone)

/-- RECEIVE of `seen` before its first header word, before the second, and behind it. -/
def seenFifo : State := (rd (.to 4) .fifo 2 (beforeFifo seen)).2

def seenHead : State := wr (.to 6) .ptr 2 (ptrRxRead seenFifo.params) seenFifo

/-- The long and the machine a word read of DATA answers in `seen`'s buffer. -/
def seenLong (s : State) : Long :=
  longOf (wordOf (s.chip.dataByte ⟨5, 1, 0⟩ 2 0) (s.chip.dataByte ⟨5, 1, 0⟩ 2 1))
    (wordOf (s.chip.dataByte ⟨5, 1, 0⟩ 2 2) (s.chip.dataByte ⟨5, 1, 0⟩ 2 3))

def seenNext (n : Next) (s : State) : State :=
  gap (((s.setChip (s.chip.advance 2 s.params)).note (.read .data 2 (seenLong s))).advance n)

theorem rdData_seen {s : State} (n : Next) (h : s.DataReady 5 ⟨5, 1, 0⟩ 2 true) :
    rdData n s = .ok (lowWord (seenLong s), seenNext n s) := by
  unfold rdData
  rw [h.dataRead]
  rfl

def seenHeader : State := seenNext (.to 8) (seenNext (.to 7) seenHead)

theorem seenHead_ready : seenHead.DataReady 5 ⟨5, 1, 0⟩ 2 true := by constructor <;> decide +kernel

theorem seenHead_ready' : (seenNext (.to 7) seenHead).DataReady 5 ⟨5, 1, 0⟩ 2 true := by constructor <;> decide +kernel

theorem seen_status : lowWord (seenLong seenHead) = 0x8000 := by decide +kernel

theorem seenHeader_idle : seenHeader.chip.busy = false := by decide +kernel

/-- `seen` behind its first wait, behind the release, and at its end. -/
def seenWaited : State := (rd (.to 1 2) .mmuCmd 2 (seenHeader.call .waitMmuIdle (.to 15))).2.advance .ret

def seenReleased : State := mmuIssue (.to 16) .release seenWaited

def seenEnd : State :=
  (restoreCtx (.to 17 2) (.to 18) ((rd (.to 1 2) .mmuCmd 2 (seenReleased.call .waitMmuIdle (.to 17))).2.advance .ret)).raise
    (.receiveError 0x8000) 0

theorem seenWaited_guard : mmuGuard .release seenWaited.params seenWaited.chip = none := by decide +kernel

theorem seenReleased_idle : seenReleased.chip.busy = false := by decide +kernel

theorem seenEnd_hang : seenEnd.hang = none := by decide +kernel

theorem beforeFifo_seen : (beforeFifo seen).chip.rxFifo ≠ [] := by decide +kernel

theorem rxRelease_seen : rxRelease (.discarded 0x8000) seenWaited = .next seenEnd := by
  unfold rxRelease
  rw [wrMmu_of_guard seenWaited_guard]
  exact waitIdle_of_idle (.to 17) (.rxReleaseWait (.discarded 0x8000)) (rxFinish (.discarded 0x8000)) seenReleased_idle

theorem rxBody_seen (w : Word) : rxBody (lowWord (seenLong seenHead)) w seenHeader = .next seenEnd := by
  rw [seen_status]
  exact (waitIdle_of_idle (.to 15) (.rxWait (.discarded 0x8000)) (rxRelease (.discarded 0x8000)) seenHeader_idle).trans
    rxRelease_seen

/-- The header of a frame whose two words can be read. -/
theorem rxHeader_of_ready {s t : State} (ht : wr (.to 6) .ptr 2 (ptrRxRead s.params) s = t)
    (h1 : t.DataReady 5 ⟨5, 1, 0⟩ 2 true) (h2 : (seenNext (.to 7) t).DataReady 5 ⟨5, 1, 0⟩ 2 true) :
    rxHeader s = rxBody (lowWord (seenLong t)) (lowWord (seenLong (seenNext (.to 7) t)))
      (seenNext (.to 8) (seenNext (.to 7) t)) := by
  simp only [rxHeader, ht, andThen, rdData_seen _ h1, rdData_seen _ h2]

theorem rxHeader_seen : rxHeader seenFifo = .next seenEnd :=
  (rxHeader_of_ready rfl seenHead_ready seenHead_ready').trans (rxBody_seen _)

theorem execReceive_seen : exec .receive seen = .next seenEnd :=
  ((execReceive_cases seen rfl).2 beforeFifo_seen).trans rxHeader_seen

/-- A frame is seen and released. -/
theorem witness_ReceiveReleasesOncePerFrame_seen :
    ∃ t, runOperation 0 .receive seen = .next t ∧ t.eng.pos = .idle ∧
      t.env.trace.countP (isReleaseWrite t.params.codes) = 1 :=
  ⟨seenEnd, runOperation_of_exec 0 execReceive_seen seenEnd_hang rfl, rfl, by decide +kernel⟩

theorem witness_ExchangesRestoreTheBank :
    (0 : Byte).toNat < 32 ∧ (31 : Byte).toNat < 32 ∧ (stateIn 0).Quiet := by decide

/-- MII_READ of register 1 with its sequence built. -/
def built : State :=
  (((handedHang 0).begin (.miiRead 1)).setEng { ((handedHang 0).begin (.miiRead 1)).eng with
    seqBuf := toSequence (buildRead 0 1) }).advance (runLine 1)

/-- It behind its read of BSR, before the gap in which the handler hangs. -/
def bankSaved : State :=
  (((readReg .bsr built).2.setEng { built.eng with savedBank := bankOf built.params (readReg .bsr built).1 }).note
    (.read .bsr 2 ((readReg .bsr built).1.setWidth 32))).advance (runLine 2)

/-- A handler may hang inside an exchange. -/
theorem witness_ExchangesRestoreTheBank_hang :
    (handedHang 0).hang = none ∧ (1 : Byte).toNat < 32 ∧
      ∃ t g, exec (.miiRead 1) (handedHang 0) = .next t ∧ t.hang = some g := by
  obtain ⟨g, hg, hq⟩ := gap_of_hangsIn_quiet (s := bankSaved) rfl rfl (by decide +kernel)
  have hs : saveBank built = gap bankSaved := rdKeep_eq _ _ _ _ _
  rw [← hs] at hg hq
  refine ⟨rfl, by decide, _, g, rfl, ?_⟩
  show (runSequence built).hang = some g
  rw [(runSequence_quiet hq).hang, hg]

theorem witness_ExchangeAccessOrder :
    bitsOk (stateIn 0).params.bits ∧ (stateIn 0).irq.enabled = false ∧ (31 : Byte).toNat < 32 := by decide

/-- The PHY's address, another one, and a register YF255 does not name. -/
theorem witness_ExchangesReachThePhy :
    bitsOk (stateIn 0).params.bits ∧ phyMapOk (stateIn 0).params.phyMap ∧
      (stateIn 0).Quiet ∧ (stateIn 0).phy.addr = some 0 ∧ (stateIn 0).phy.rx = .hunt ∧
      (0 : BitVec 5) = (stateIn 0).params.phyAddr ∧
      (31 : BitVec 5) ∉ [(stateIn 0).params.phyMap.ctrl, (stateIn 0).params.phyMap.stat, (stateIn 0).params.phyMap.ad,
        (stateIn 0).params.phyMap.mask] ∧ (stateIn 0).phy.addr ≠ some 31 := by decide

theorem witness_AdvertisementMapping : phyMapOk Config.ex1.phyMap := by decide

theorem witness_PhyConfigureCompletes (tape : List Gap) :
    bitsOk ((stateIn 0).withTape tape).params.bits ∧ phyMapOk ((stateIn 0).withTape tape).params.phyMap ∧
      ((stateIn 0).withTape tape).phy.addr = some ((stateIn 0).withTape tape).params.phyAddr ∧
      ((stateIn 0).withTape tape).phy.rx = .hunt ∧ ((stateIn 0).withTape tape).env.tape = tape :=
  ⟨(by decide : bitsOk Config.defaultBits), (by decide : phyMapOk Config.defaultPhyMap), rfl, rfl, rfl⟩

theorem witness_PhyResetTimeoutStopsWriting :
    (pulledUp.irq.enabled = false ∧ ∃ t, exec .phyConfigure pulledUp = .next t ∧ t.Ended .phyResetTimeout 0) ∧
      bitsOk (stateIn 0).params.bits ∧ phyMapOk (stateIn 0).params.phyMap ∧
      (stateIn 0).Quiet ∧ (stateIn 0).phy.addr = some (stateIn 0).params.phyAddr ∧ (stateIn 0).phy.rx = .hunt := by
  have h : (phyConfigureRun (pulledUp.begin .phyConfigure)).1 = .phyResetTimeout := by decide +kernel
  refine ⟨⟨rfl, _, rfl, rfl, ?_⟩, by decide, by decide, rfl, rfl, rfl⟩
  show some (OpResult.mk (phyConfigureRun (pulledUp.begin .phyConfigure)).1 0 false) = _
  rw [h]

theorem witness_ResetEstablishes :
    (answering 13).irq.enabled = false ∧
      (∃ t, runOperation 0 .reset (answering 13) = .next t ∧ t.eng.pos = .idle) ∧
      ∀ tape, ((stateIn 2).withTape tape).env.tape = tape :=
  ⟨rfl, ⟨resetEnd, runOperation_of_exec 0 execReset_resetEnd resetEnd_hang rfl, rfl⟩, fun _ => rfl⟩

theorem witness_EnableAndShutdown :
    bitsOk (stateIn 1).params.bits ∧ (stateIn 1).Quiet ∧
      has (stateIn 2).chip.rcr (softRst (stateIn 2).params) = false ∧ (stateIn 2).Quiet := by decide

/-- A PHY that never acknowledges, with and without a remote fault in what it shows. -/
theorem witness_NegotiationEnds :
    bitsOk (stateIn 0).params.bits ∧ phyMapOk (stateIn 0).params.phyMap ∧
      (stateIn 0).phy.addr = some (stateIn 0).params.phyAddr ∧ (stateIn 0).phy.rx = .hunt ∧
      has (stateIn 0).params.phyDefStat (remFlt (stateIn 0).params) = false ∧
      has ({ Config.ex1 with phyDefStat := 0x7819 } : Config.Params).phyDefStat (remFlt Config.ex1) = true := by decide

/-- The narrowest and the widest signature. -/
theorem witness_ProbeChecksTheSignature :
    (stateIn 2).chip.sigValue (stateIn 2).params = (stateIn 2).params.chipSignature ∧ (stateIn 2).Quiet ∧
      (movedTo 2).chip.sigValue (movedTo 2).params = (movedTo 2).params.chipSignature ∧
      { chipIn 2 with sig := 0xFF }.sigValue (stateIn 2).params ≠ (stateIn 2).params.chipSignature ∧
      { chipIn 2 with sig := 0x80000033 }.sigValue (movedTo 2).params ≠ (movedTo 2).params.chipSignature := by decide

/-- The valid addresses of the next theorem: those whose first byte is 1. -/
def startsWithOne (m : Mac) : Bool := m[0] == 1

/-- V61: its seven rows meet the hypotheses of the seven cases. -/
theorem test_mac_selection_V61 :
    let v : Mac := #v[1, 2, 3, 4, 5, 6]
    let w : Mac := #v[1, 0, 0, 0, 0, 0]
    let x : Mac := #v[2, 2, 2, 2, 2, 2]
    selectMac startsWithOne (some v) (some w) w (some w) = some (v, false) ∧
      selectMac startsWithOne none (some v) v (some w) = some (v, false) ∧
      selectMac startsWithOne none (some v) w (some w) = some (v, true) ∧
      selectMac startsWithOne none none v (some w) = some (v, false) ∧
      selectMac startsWithOne none (some x) v none = some (v, false) ∧
      selectMac startsWithOne none none x (some v) = some (v, false) ∧
      selectMac startsWithOne none none x none = none := by decide

/-- A machine with a fallback address. -/
def fallen : State :=
  { pendingWith (some .reset) with params := { Config.ex1 with macFallback := some #v[2, 0, 0, 0, 0, 1] } }

theorem witness_MacAddressSelection :
    startsWithOne #v[1, 2, 3, 4, 5, 6] = true ∧ startsWithOne #v[2, 2, 3, 4, 5, 6] = false ∧
      fallen.params.macFallback.isSome = true ∧
      (∃ t, exec .openOp (fallen.setChip { chipIn 2 with sig := 0 }) = .next t) ∧
      (fallen.park .openWait).eng.pos = .openWait ∧ ∃ t, step (fallen.park .openWait) = .next t := by
  refine ⟨by decide, by decide, rfl, ⟨_, rfl⟩, rfl, ?_⟩
  have h := waitPoll_of_busy .openWait openAfterReset (s := fallen.park .openWait) rfl
  exact ⟨_, (congrArg settle h).trans rfl⟩

/-- The machine of the next theorem: a fallback address, and this tape. -/
def opening (tape : List Gap) : State :=
  { (stateIn 2).withTape tape with params := { Config.ex1 with macFallback := some #v[2, 0, 0, 0, 0, 1] } }

theorem witness_OpenBringsTheMachineUp (tape : List Gap) :
    (opening tape).chip.sigValue (opening tape).params = (opening tape).params.chipSignature ∧
      (opening tape).params.macFallback.isSome = true ∧ (opening tape).env.tape = tape :=
  ⟨(by decide : (chipIn 2).sigValue Config.ex1 = Config.ex1.chipSignature), rfl, rfl⟩

end Sys2Proof.Tests
end

section
/-! PROOFS. What no operation changes, whatever the agents and the interrupt context do in its gaps: the parameters, the
platform's enable, the inbox, SIG and the PHY's address (spec/00_scope.md R9, spec/10_state.md R38, spec/60_exceptions.md
R327, spec/70_reset_and_hazards.md R382). They are gathered in one view of the state, `State.steady`, and each function of
the model has one lemma that says it leaves that view alone. -/

namespace Sys2Proof.Machine

/-- What no operation changes. While the platform's enable is off no handler runs (R330), so that none hangs either. -/
structure Steady where
  params : Config.Params
  enabled : Bool
  inbox : List Input
  sig : Long
  phyAddr : Option (BitVec 5)
  /-- Where a handler hangs, left out while the enable is on. -/
  hang : Option Hang

/-- The part of the state that no operation changes. -/
def State.steady (s : State) : Steady where
  params := s.params
  enabled := s.irq.enabled
  inbox := s.inbox
  sig := s.chip.sig
  phyAddr := s.phy.addr
  hang := if s.irq.enabled then none else s.hang

/-- The view read field by field. -/
theorem State.steady_eq_iff {s t : State} :
    t.steady = s.steady ↔
      t.params = s.params ∧ t.irq.enabled = s.irq.enabled ∧ t.inbox = s.inbox ∧ t.chip.sig = s.chip.sig ∧
        t.phy.addr = s.phy.addr ∧ (s.irq.enabled = false → t.hang = s.hang) := by
  simp only [State.steady, Steady.mk.injEq]
  constructor
  · rintro ⟨hp, he, hi, hs, ha, hh⟩
    exact ⟨hp, he, hi, hs, ha, fun h => by simpa [he, h] using hh⟩
  · rintro ⟨hp, he, hi, hs, ha, hh⟩
    refine ⟨hp, he, hi, hs, ha, ?_⟩
    cases h : s.irq.enabled <;> simp_all

/-! ## Updates of the state -/

section
variable (s : State)

theorem State.setChip_steady {c : Chip} (h : c.sig = s.chip.sig) : (s.setChip c).steady = s.steady :=
  State.steady_eq_iff.2 ⟨rfl, rfl, rfl, h, rfl, fun _ => rfl⟩

theorem State.setPhy_steady {p : Phy} (h : p.addr = s.phy.addr) : (s.setPhy p).steady = s.steady :=
  State.steady_eq_iff.2 ⟨rfl, rfl, rfl, rfl, h, fun _ => rfl⟩

theorem State.setIrq_steady {q : IrqCtx} (h : q.enabled = s.irq.enabled) : (s.setIrq q).steady = s.steady :=
  State.steady_eq_iff.2 ⟨rfl, h, rfl, rfl, rfl, fun _ => rfl⟩

@[simp] theorem State.setEng_steady (e : Engine) : (s.setEng e).steady = s.steady := rfl
@[simp] theorem State.setPkt_steady (p : Option Pkt) : (s.setPkt p).steady = s.steady := rfl
@[simp] theorem State.note_steady (a : Access) : (s.note a).steady = s.steady := rfl
@[simp] theorem State.bump_steady (n : Nat) : (s.bump n).steady = s.steady := rfl
@[simp] theorem State.setHold_steady (b : Bool) : (s.setHold b).steady = s.steady := rfl
@[simp] theorem State.irqAt_steady (p : IrqPos) : (s.irqAt p).steady = s.steady := rfl
@[simp] theorem State.advance_steady (n : Next) : (s.advance n).steady = s.steady := rfl
@[simp] theorem State.begin_steady (i : Instr) : (s.begin i).steady = s.steady := rfl
@[simp] theorem State.call_steady (i : Instr) (back : Next) : (s.call i back).steady = s.steady := rfl
@[simp] theorem State.hostWrite_steady (buf i : Nat) (b : Byte) : (s.hostWrite buf i b).steady = s.steady := rfl
@[simp] theorem State.finishWith_steady (r : OpResult) : (s.finishWith r).steady = s.steady := rfl
@[simp] theorem State.finish_steady (c : Condition) (v : Int) : (s.finish c v).steady = s.steady := rfl
@[simp] theorem State.raise_steady (c : Condition) (v : Int) : (s.raise c v).steady = s.steady := rfl
@[simp] theorem State.park_steady (p : SeqPos) : (s.park p).steady = s.steady := rfl
@[simp] theorem State.setLife_steady (l : Life) : (s.setLife l).steady = s.steady := rfl

/-- A hang that is noted is part of the view only while the enable is off. -/
theorem State.noteHang_steady (t : State) (h : s.irq.enabled = true) : (s.noteHang t).steady = s.steady := by
  unfold State.noteHang
  split
  · rfl
  · simp [State.steady, h]

end

/-! ## Registers and pins -/

@[simp] theorem readReg_steady (r : Reg) (s : State) : (readReg r s).2.steady = s.steady := by
  obtain ⟨n, h⟩ := readReg_state r s
  rw [h]
  rfl

@[simp] theorem Phy.garble_addr (cfg : Config.Params) (p : Phy) (n : Nat) : (p.garble cfg n).addr = p.addr := rfl

@[simp] theorem Phy.recognise_addr (cfg : Config.Params) (p : Phy) (bits : BitVec 14) (rest : Word) :
    (p.recognise cfg bits rest).addr = p.addr := by
  simp [Phy.recognise, apply_ite Phy.addr]

@[simp] theorem Phy.writeReg_addr (cfg : Config.Params) (p : Phy) (r : BitVec 5) (d : Word) :
    (p.writeReg cfg r d).addr = p.addr := by
  simp [Phy.writeReg, apply_ite Phy.addr]

/-- An edge gives the PHY no other address, whatever frame it is in (R50, R262). -/
theorem Phy.edge_addr (cfg : Config.Params) (p : Phy) (before : Nat) (d : Drive) (n : Nat) :
    (p.edge cfg before d n).addr = p.addr := by
  unfold Phy.edge
  split <;> simp [apply_ite Phy.addr]

theorem phyEdge_steady (d : Drive) (s : State) : (phyEdge d s).steady = s.steady := by
  unfold phyEdge
  split
  · rfl
  · exact s.setPhy_steady (Phy.edge_addr _ _ _ _ _)

theorem mgmtWrite_steady (v : Word) (s : State) : (mgmtWrite v s).steady = s.steady := by
  unfold mgmtWrite
  dsimp only
  split
  · exact phyEdge_steady _ _
  · rfl

/-- No register write changes SIG, not even one that resets the chip unit or wakes it (R38, R301, R352). -/
@[simp] theorem setReg_steady (r : Reg) (v : Word) (s : State) : (setReg r v s).steady = s.steady := by
  cases r with
  | rcr => simp only [setReg]; split <;> rfl
  | config => simp only [setReg]; split <;> rfl
  | mgmt => exact mgmtWrite_steady v s
  | _ => rfl

@[simp] theorem mmuEffect_sig (k : MmuCode) (p : Config.Params) (c : Chip) : (mmuEffect k p c).sig = c.sig := by
  cases k <;> rfl

@[simp] theorem mmuTake_steady (k : MmuCode) (s : State) : (mmuTake k s).steady = s.steady :=
  s.setChip_steady (mmuEffect_sig k s.params s.chip)

/-! ## Gaps -/

/-- What the agents leave alone holds the whole view. -/
theorem State.KeptByAgents.steady {s t : State} (h : s.KeptByAgents t) : t.steady = s.steady :=
  State.steady_eq_iff.2 ⟨h.params, h.enabled, h.inbox, h.sig, h.phyAddr, fun _ => h.hang⟩

@[simp] theorem handlerGap_steady (x : Handling) : (handlerGap x).1.steady = x.1.steady := by
  unfold handlerGap
  split
  · rfl
  · exact (agentSteps_kept _ _).steady

@[simp] theorem handlerRead_steady (n : IrqPos) (r : Reg) (w : Nat) (x : Handling) :
    (handlerRead n r w x).2.1.steady = x.1.steady := by
  simp [handlerRead]

@[simp] theorem handlerWrite_steady (n : IrqPos) (r : Reg) (w : Nat) (v : Word) (x : Handling) :
    (handlerWrite n r w v x).1.steady = x.1.steady := by
  simp [handlerWrite]

@[simp] theorem handlerWritePtr_steady (n : IrqPos) (v : Word) (x : Handling) :
    (handlerWritePtr n v x).1.steady = x.1.steady :=
  handlerGap_steady _

@[simp] theorem handlerDelay_steady (n : IrqPos) (t : Nat) (x : Handling) :
    (handlerDelay n t x).1.steady = x.1.steady := by
  simp [handlerDelay]

@[simp] theorem handlerGoto_steady (n : IrqPos) (x : Handling) : (handlerGoto n x).1.steady = x.1.steady := rfl

/-- A save slot is not the platform's enable. -/
theorem handlerKeep_steady (n : IrqPos) (r : Reg) (w : Nat) (keep : Word → IrqCtx → IrqCtx) (x : Handling)
    (h : ∀ v q, (keep v q).enabled = q.enabled) : (handlerKeep n r w keep x).1.steady = x.1.steady := by
  simp [handlerKeep, State.setIrq_steady, h]

@[simp] theorem irqEnter_steady (touch : Bool) (x : Handling) : (irqEnter touch x).1.steady = x.1.steady := by
  unfold irqEnter
  dsimp only
  split <;> simp [handlerKeep_steady]

@[simp] theorem irqExit_steady (touch : Bool) (x : Handling) : (irqExit touch x).1.steady = x.1.steady := by
  unfold irqExit
  dsimp only
  split <;> simp

@[simp] theorem handlerReenable_steady (n : IrqPos) (x : Handling) : (handlerReenable n x).1.steady = x.1.steady := by
  simp [handlerReenable]

theorem handlerWait_steady (exit : IrqPos) : ∀ (fuel k : Nat) (x y : Handling),
    handlerWait exit fuel k x = .ok y → y.1.steady = x.1.steady
  | 0, _, _, _, h => by simp [handlerWait] at h
  | fuel + 1, k, x, y, h => by
    simp only [handlerWait] at h
    split at h
    · simpa using handlerWait_steady exit fuel (k + 1) _ y h
    · obtain rfl := Except.ok.inj h
      simp

theorem handlerFree_steady {exit : IrqPos} {p : Pkt} {x y : Handling} (h : handlerFree exit p x = .ok y) :
    y.1.steady = x.1.steady := by
  unfold handlerFree at h
  dsimp only at h
  split at h
  · simpa [State.setChip_steady] using handlerWait_steady exit _ 1 _ y h
  · obtain rfl := Except.ok.inj h
    simp

theorem handlerRepair_steady {exit : IrqPos} {r : HandlerRun} {x y : Handling} (h : handlerRepair exit r x = .ok y) :
    y.1.steady = x.1.steady := by
  have hre : ∀ n, (if r.reenable then handlerReenable n x else x).1.steady = x.1.steady := by
    intro n
    split
    · exact handlerReenable_steady n x
    · rfl
  unfold handlerRepair at h
  split at h
  · obtain rfl := Except.ok.inj h
    exact hre exit
  · exact (handlerFree_steady h).trans (hre _)

theorem txErrBody_steady {exit : IrqPos} {r : HandlerRun} {x y : Handling} (h : txErrBody exit r x = .ok y) :
    y.1.steady = x.1.steady := by
  unfold txErrBody at h
  dsimp only at h
  split at h
  · split at h
    · simpa [handlerAck] using handlerRepair_steady h
    · obtain rfl := Except.ok.inj h
      simp
  · split at h <;> obtain rfl := Except.ok.inj h
    · simp [handlerAck]
    · simp

/-- A run of the interrupt context starts with the platform's enable on (R330). -/
theorem enabled_of_runHandler {r : HandlerRun} {s : State} {o : Except State State} (h : runHandler r s = some o) :
    s.irq.enabled = true := by
  by_contra he
  rw [runHandler_of_disabled r s (by simpa using he)] at h
  cases h

theorem runHandler_steady {r : HandlerRun} {s t : State} (h : runHandler r s = some (.ok t)) : t.steady = s.steady := by
  unfold runHandler at h
  split at h
  · split at h
    · cases h
    · rename_i hb
      obtain rfl := Except.ok.inj (Option.some.inj h)
      simpa using txErrBody_steady hb
  · cases h

theorem eventStep_steady (e : Event) (s : State) : (eventStep e s).steady = s.steady := by
  cases e with
  | agent e => exact (agentStep_kept e s).steady
  | irq r =>
    unfold eventStep
    dsimp only
    split
    · rfl
    · rename_i h; exact runHandler_steady h
    · rename_i h; exact s.noteHang_steady _ (enabled_of_runHandler h)

theorem eventSteps_steady (es : List Event) : ∀ s : State, (eventSteps es s).steady = s.steady := by
  induction es with
  | nil => exact fun _ => rfl
  | cons e es ih => exact fun s => (ih _).trans (eventStep_steady e s)

/-- Whatever the agents and the interrupt context do in a gap (R101, R328), the view stays. -/
@[simp] theorem gap_steady (s : State) : (gap s).steady = s.steady := by
  unfold gap
  split
  · rfl
  · exact eventSteps_steady _ _

/-! ## The engine's accesses -/

@[simp] theorem rd_steady (n : Next) (r : Reg) (w : Nat) (s : State) : (rd n r w s).2.steady = s.steady := by
  simp [rd]

@[simp] theorem rdKeep_steady (n : Next) (r : Reg) (w : Nat) (keep : Word → Engine → Engine) (s : State) :
    (rdKeep n r w keep s).steady = s.steady := by
  simp [rdKeep]

@[simp] theorem wr_steady (n : Next) (r : Reg) (w : Nat) (v : Word) (s : State) :
    (wr n r w v s).steady = s.steady := by
  simp [wr]

@[simp] theorem wrBank_steady (n : Next) (b : BitVec 2) (s : State) : (wrBank n b s).steady = s.steady := by
  simp [wrBank]

@[simp] theorem wrBankHold_steady (n : Next) (b : BitVec 2) (s : State) : (wrBankHold n b s).steady = s.steady := by
  simp [wrBankHold]

@[simp] theorem mmuIssue_steady (n : Next) (k : MmuCode) (s : State) : (mmuIssue n k s).steady = s.steady := by
  simp [mmuIssue]

@[simp] theorem delay_steady (n : Next) (t : Nat) (s : State) : (delay n t s).steady = s.steady := by
  simp [delay]

@[simp] theorem accessed_steady (a : Access) (s : State) : (accessed a s).steady = s.steady := by
  simp [accessed]

@[simp] theorem saveCtx_steady (n m : Next) (s : State) : (saveCtx n m s).steady = s.steady := by
  simp [saveCtx]

@[simp] theorem restoreCtx_steady (n m : Next) (s : State) : (restoreCtx n m s).steady = s.steady := by
  simp [restoreCtx]

@[simp] theorem restoreOnFailure_steady (n m : Next) (s : State) : (restoreOnFailure n m s).steady = s.steady := by
  unfold restoreOnFailure
  split <;> simp

theorem wrMmu_steady {n : Next} {k : MmuCode} {s t : State} (h : wrMmu n k s = .ok t) : t.steady = s.steady := by
  rcases wrMmu_ok h with ⟨-, rfl⟩ | ⟨-, rfl⟩ <;> simp

theorem mmuWrite_steady {w : Word} {s t : State} (h : mmuWrite w s = .ok t) : t.steady = s.steady := by
  unfold mmuWrite at h
  split at h
  · cases h
  · split at h
    · cases h
    · obtain rfl := Except.ok.inj h
      simp

theorem writeReg_steady {r : Reg} {v : Word} {s t : State} (h : writeReg r v s = .ok t) : t.steady = s.steady := by
  cases r with
  | mmuCmd => exact mmuWrite_steady h
  | _ => obtain rfl := Except.ok.inj h; exact setReg_steady _ v s

/-! ## DATA and the window -/

@[simp] theorem Chip.advance_sig (w : Nat) (p : Config.Params) (c : Chip) : (c.advance w p).sig = c.sig := by
  unfold Chip.advance
  split <;> rfl

theorem dataRead_steady {w : Nat} {s : State} {r : Long × State} (h : dataRead w s = .ok r) :
    r.2.steady = s.steady := by
  unfold dataRead at h
  split at h
  · obtain rfl := Except.ok.inj h
    exact s.setChip_steady (Chip.advance_sig ..)
  · split at h
    · obtain rfl := Except.ok.inj h
      exact s.setChip_steady (Chip.advance_sig ..)
    · cases h

theorem dataWrite_steady {w : Nat} {v : Long} {s t : State} (h : dataWrite w v s = .ok t) : t.steady = s.steady := by
  unfold dataWrite at h
  split at h
  · obtain rfl := Except.ok.inj h
    exact s.setChip_steady (Chip.advance_sig ..)
  · split at h
    · obtain rfl := Except.ok.inj h
      exact s.setChip_steady (Chip.advance_sig ..)
    · cases h

theorem rdData_steady {n : Next} {s : State} {r : Word × State} (h : rdData n s = .ok r) : r.2.steady = s.steady := by
  unfold rdData at h
  split at h
  · obtain ⟨-, rfl⟩ := refuse_ok h
    rfl
  · rename_i hd
    obtain rfl := Except.ok.inj h
    simpa using dataRead_steady hd

theorem wrData_steady {n : Next} {v : Word} {s t : State} (h : wrData n v s = .ok t) : t.steady = s.steady := by
  unfold wrData at h
  split at h
  · obtain ⟨-, rfl⟩ := refuse_ok h
    rfl
  · rename_i hd
    obtain rfl := Except.ok.inj h
    simpa using dataWrite_steady hd

theorem readPlace_steady {p : Place} {s : State} {r : Byte × State} (h : readPlace p s = .ok r) :
    r.2.steady = s.steady := by
  cases p with
  | data =>
    simp only [readPlace] at h
    split at h
    · rename_i hd; obtain rfl := Except.ok.inj h; exact dataRead_steady hd
    · cases h
  | byte q high => obtain rfl := Except.ok.inj h; exact readReg_steady q s

theorem writePlace_steady {p : Place} {v : Byte} {s t : State} (h : writePlace p v s = .ok t) :
    t.steady = s.steady := by
  cases p with
  | data => exact dataWrite_steady h
  | byte q high => exact writeReg_steady h

theorem winReadByte_steady {off : Nat} {s : State} {r : Byte × State} (h : winReadByte off s = .ok r) :
    r.2.steady = s.steady := by
  unfold winReadByte at h
  split at h
  · cases h
  · exact readPlace_steady h

theorem winWriteByte_steady {off : Nat} {v : Byte} {s t : State} (h : winWriteByte off v s = .ok t) :
    t.steady = s.steady := by
  unfold winWriteByte at h
  split at h
  · cases h
  · exact writePlace_steady h

theorem readWordAt_steady {b : BitVec 2} {off : Nat} {s : State} {r : Word × State} (h : readWordAt b off s = .ok r) :
    r.2.steady = s.steady := by
  unfold readWordAt at h
  split at h
  · cases h
  · split at h
    · rename_i hd; obtain rfl := Except.ok.inj h; exact dataRead_steady hd
    · cases h
  · split at h
    · split at h <;> obtain rfl := Except.ok.inj h <;> simp
    · cases h
    · cases h

theorem writeWordAt_steady {b : BitVec 2} {off : Nat} {v : Word} {s t : State} (h : writeWordAt b off v s = .ok t) :
    t.steady = s.steady := by
  unfold writeWordAt at h
  split at h
  · cases h
  · exact dataWrite_steady h
  · split at h
    · split at h
      · exact writeReg_steady h
      · split at h
        · cases h
        · rename_i hlo; exact (writePlace_steady h).trans (writePlace_steady hlo)
    · cases h
    · cases h

theorem winReadWord_steady {off : Nat} {s : State} {r : Word × State} (h : winReadWord off s = .ok r) :
    r.2.steady = s.steady := by
  unfold winReadWord at h
  split at h
  · exact readWordAt_steady h
  · cases h

theorem winWriteWord_steady {off : Nat} {v : Word} {s t : State} (h : winWriteWord off v s = .ok t) :
    t.steady = s.steady := by
  unfold winWriteWord at h
  split at h
  · exact writeWordAt_steady h
  · cases h

theorem winReadLong_steady {off : Nat} {s : State} {r : Long × State} (h : winReadLong off s = .ok r) :
    r.2.steady = s.steady := by
  unfold winReadLong at h
  split at h
  · split at h
    · exact dataRead_steady h
    · split at h
      · cases h
      · rename_i hlo
        split at h
        · cases h
        · rename_i hhi
          obtain rfl := Except.ok.inj h
          exact (readWordAt_steady hhi).trans (readWordAt_steady hlo)
  · cases h

theorem winWriteLong_steady {off : Nat} {v : Long} {s t : State} (h : winWriteLong off v s = .ok t) :
    t.steady = s.steady := by
  unfold winWriteLong at h
  split at h
  · split at h
    · exact dataWrite_steady h
    · split at h
      · cases h
      · rename_i hlo; exact (writeWordAt_steady h).trans (writeWordAt_steady hlo)
  · cases h

/-! ## The busy wait -/

/-- A busy wait keeps the view if what follows it does. -/
theorem waitPoll_steady {q : SeqPos} {k : State → Out} {s t : State}
    (hk : ∀ u, k u = .next t → t.steady = u.steady) (h : waitPoll q k s = .next t) : t.steady = s.steady := by
  rcases waitPoll_cases q k s with ⟨-, e⟩ | ⟨-, e⟩ <;> rw [e] at h
  · obtain rfl := Host.Outcome.next.inj h
    simp
  · simpa using hk _ h

theorem waitIdle_steady {back : Next} {q : SeqPos} {k : State → Out} {s t : State}
    (hk : ∀ u, k u = .next t → t.steady = u.steady) (h : waitIdle back q k s = .next t) : t.steady = s.steady :=
  waitPoll_steady (s := s.call .waitMmuIdle back) hk h

theorem finishOk_steady {s t : State} (h : finishOk s = .next t) : t.steady = s.steady := by
  obtain rfl := Host.Outcome.next.inj h
  rfl

/-! ## The register bank (spec/40_register_bank.md) -/

theorem execSelectBank_steady {n : Byte} {s t : State} (h : execSelectBank n s = .next t) : t.steady = s.steady := by
  unfold execSelectBank at h
  split at h
  · obtain rfl := Host.Outcome.next.inj h
    simp
  · cases h

/-- An operation of one read: the access keeps the view, and what is behind it does. -/
theorem oneRead_steady {α : Type} {r : Except Refusal (α × State)} {a : α × State → Access} {v : α × State → Int}
    {s t : State} (hr : ∀ x, r = .ok x → x.2.steady = s.steady)
    (h : andThen r (fun x => .next ((accessed (a x) x.2).finish .ok (v x))) = .next t) : t.steady = s.steady := by
  obtain ⟨x, hx, hn⟩ := andThen_next h
  obtain rfl := Host.Outcome.next.inj hn
  simpa using hr x hx

/-- An operation of one write. -/
theorem oneWrite_steady {r : Except Refusal State} {a : Access} {s t : State} (hr : ∀ u, r = .ok u → u.steady = s.steady)
    (h : andThen r (fun u => .next ((accessed a u).finish .ok 0)) = .next t) : t.steady = s.steady := by
  obtain ⟨u, hu, hn⟩ := andThen_next h
  obtain rfl := Host.Outcome.next.inj hn
  simpa using hr u hu

theorem execReadByte_steady {off : Byte} {s t : State} (h : execReadByte off s = .next t) : t.steady = s.steady :=
  oneRead_steady (s := s.begin (.readByte off)) (fun _ => winReadByte_steady) h

theorem execReadWord_steady {off : Byte} {s t : State} (h : execReadWord off s = .next t) : t.steady = s.steady :=
  oneRead_steady (s := s.begin (.readWord off)) (fun _ => winReadWord_steady) h

theorem execReadLong_steady {off : Byte} {s t : State} (h : execReadLong off s = .next t) : t.steady = s.steady :=
  oneRead_steady (s := s.begin (.readLong off)) (fun _ => winReadLong_steady) h

theorem execWriteByte_steady {off : Byte} {v : Byte} {s t : State} (h : execWriteByte off v s = .next t) :
    t.steady = s.steady :=
  oneWrite_steady (s := s.begin (.writeByte off v)) (fun _ => winWriteByte_steady) h

theorem execWriteWord_steady {off : Byte} {v : Word} {s t : State} (h : execWriteWord off v s = .next t) :
    t.steady = s.steady :=
  oneWrite_steady (s := s.begin (.writeWord off v)) (fun _ => winWriteWord_steady) h

theorem execWriteLong_steady {off : Byte} {v : Long} {s t : State} (h : execWriteLong off v s = .next t) :
    t.steady = s.steady :=
  oneWrite_steady (s := s.begin (.writeLong off v)) (fun _ => winWriteLong_steady) h

theorem readBlockLoop_steady (off : Byte) (buf n : Nat) : ∀ (k : Nat) (s t : State),
    readBlockLoop off buf n k s = .ok t → t.steady = s.steady := by
  induction n with
  | zero => intro k s t h; obtain rfl := Except.ok.inj h; rfl
  | succ n ih =>
    intro k s t h
    unfold readBlockLoop at h
    split at h
    · obtain ⟨-, rfl⟩ := refuse_ok h
      rfl
    · rename_i hr
      simpa using (ih _ _ _ h).trans (by simpa using winReadWord_steady hr)

theorem execReadBlock_steady {off : Byte} {count : Word} {s t : State} (h : execReadBlock off count s = .next t) :
    t.steady = s.steady := by
  obtain ⟨u, hu, hn⟩ := andThen_next h
  obtain rfl := Host.Outcome.next.inj hn
  simpa using readBlockLoop_steady _ _ _ _ _ _ hu

theorem writeBlockLoop_steady (off : Byte) (buf n : Nat) : ∀ (k : Nat) (s t : State),
    writeBlockLoop off buf n k s = .ok t → t.steady = s.steady := by
  induction n with
  | zero => intro k s t h; obtain rfl := Except.ok.inj h; rfl
  | succ n ih =>
    intro k s t h
    unfold writeBlockLoop at h
    dsimp only at h
    split at h
    · obtain ⟨-, rfl⟩ := refuse_ok h
      rfl
    · rename_i hw
      exact (ih _ _ _ h).trans (by simpa using winWriteWord_steady hw)

theorem execWriteBlock_steady {off : Byte} {count : Word} {s t : State} (h : execWriteBlock off count s = .next t) :
    t.steady = s.steady := by
  obtain ⟨u, hu, hn⟩ := andThen_next h
  obtain rfl := Host.Outcome.next.inj hn
  simpa using writeBlockLoop_steady _ _ _ _ _ _ hu

/-! ## The allocator (spec/41_allocator.md) -/

@[simp] theorem spinAlloc_steady (a k : Nat) : ∀ (j : Nat) (s : State), (spinAlloc a k j s).2.steady = s.steady := by
  induction k with
  | zero => exact fun _ _ => rfl
  | succ k ih =>
    intro j s
    unfold spinAlloc
    dsimp only
    split
    · simp
    · simp [ih]

@[simp] theorem attemptAlloc_steady (spin k : Nat) : ∀ (a : Nat) (s : State),
    (attemptAlloc spin k a s).2.steady = s.steady := by
  induction k with
  | zero => exact fun _ _ => rfl
  | succ k ih =>
    intro a s
    unfold attemptAlloc
    dsimp only
    split
    · simp
    · simp [ih]

@[simp] theorem readResult_steady (s : State) : (readResult s).2.steady = s.steady := by
  unfold readResult
  dsimp only
  split <;> simp

theorem allocateSteps_steady {n : BitVec 3} {s : State} {r : Except AllocCause Pkt × State}
    (h : allocateSteps n s = .ok r) : r.2.steady = s.steady := by
  unfold allocateSteps at h
  split at h
  · cases h
  · rename_i hw
    dsimp only at h
    split at h <;> obtain rfl := Except.ok.inj h <;> simpa using wrMmu_steady hw

theorem execAllocate_steady {n : Byte} {s t : State} (h : execAllocate n s = .next t) : t.steady = s.steady := by
  unfold execAllocate at h
  split at h
  · obtain ⟨r, hr, hn⟩ := andThen_next (inPacketBank_next h).2
    have hs := allocateSteps_steady hr
    split at hn <;> obtain rfl := Host.Outcome.next.inj hn <;> exact hs
  · cases h

theorem execRelease_steady {s t : State} (h : execRelease s = .next t) : t.steady = s.steady := by
  obtain ⟨u, hu, hn⟩ := andThen_next (inPacketBank_next h).2
  exact (waitIdle_steady (fun _ => finishOk_steady) hn).trans (by simpa using wrMmu_steady hu)

theorem execFree_steady {p : Byte} {s t : State} (h : execFree p s = .next t) : t.steady = s.steady := by
  obtain ⟨u, hu, hn⟩ := andThen_next (inPacketBank_next h).2
  exact (waitIdle_steady (fun _ => finishOk_steady) hn).trans (by simpa using wrMmu_steady hu)

theorem execWaitMmuIdle_steady {s t : State} (h : execWaitMmuIdle s = .next t) : t.steady = s.steady :=
  waitPoll_steady (s := s.begin .waitMmuIdle) (fun _ => finishOk_steady) (inPacketBank_next h).2

theorem issueCommand_steady {k : MmuCode} {s t : State} (h : issueCommand k s = .next t) : t.steady = s.steady := by
  obtain ⟨u, hu, hn⟩ := andThen_next (inPacketBank_next h).2
  obtain rfl := Host.Outcome.next.inj hn
  simpa using wrMmu_steady hu

/-! ## TRANSMIT (spec/42_transmit.md) -/

@[simp] theorem txByte_steady (len i : Nat) (s : State) : (txByte len i s).2.steady = s.steady := by
  unfold txByte
  split <;> rfl

theorem sendWords_steady (len n : Nat) : ∀ (k : Nat) (s t : State), sendWords len n k s = .ok t →
    t.steady = s.steady := by
  induction n with
  | zero => intro k s t h; obtain rfl := Except.ok.inj h; rfl
  | succ n ih =>
    intro k s t h
    unfold sendWords at h
    dsimp only at h
    split at h
    · cases h
    · rename_i hw
      exact (ih _ _ _ h).trans (by simpa using wrData_steady hw)

theorem sendTrailer_steady {len length : Nat} {s t : State} (h : sendTrailer len length s = .ok t) :
    t.steady = s.steady := by
  unfold sendTrailer at h
  split at h
  · exact wrData_steady h
  · simpa using wrData_steady h

theorem packFrame_steady {len length : Nat} {p : Pkt} {s t : State} (h : packFrame len length p s = .ok t) :
    t.steady = s.steady := by
  unfold packFrame at h
  dsimp only at h
  split at h
  · cases h
  · rename_i h0
    split at h
    · cases h
    · rename_i h1
      split at h
      · cases h
      · rename_i h2
        calc t.steady = _ := sendTrailer_steady h
          _ = _ := sendWords_steady _ _ _ _ _ h2
          _ = _ := wrData_steady h1
          _ = _ := wrData_steady h0
          _ = s.steady := by simp

@[simp] theorem enableTxInts_steady (s : State) : (enableTxInts s).steady = s.steady := by
  simp [enableTxInts]

theorem txDone_steady {length : Nat} {s t : State} (h : txDone length s = .next t) : t.steady = s.steady := by
  obtain rfl := Host.Outcome.next.inj h
  simp

theorem txTimedOut_steady {s t : State} (h : txTimedOut s = .next t) : t.steady = s.steady := by
  obtain rfl := Host.Outcome.next.inj h
  simp

theorem txPollRound_steady {length : Nat} {s t : State} (h : txPollRound length s = .next t) :
    t.steady = s.steady := by
  unfold txPollRound at h
  dsimp only at h
  split at h
  · simpa using waitIdle_steady (fun _ => txDone_steady) h
  · split at h
    · simpa using waitIdle_steady (fun _ => txTimedOut_steady) h
    · obtain rfl := Host.Outcome.next.inj h
      simp

theorem sendPacked_steady {length : Nat} {s t : State} (h : sendPacked length s = .next t) : t.steady = s.steady := by
  obtain ⟨u, hu, hn⟩ := andThen_next h
  exact (txPollRound_steady hn).trans (by simpa using wrMmu_steady hu)

theorem claimBuffer_steady {code : Nat} {s : State} {r : Except AllocCause Pkt × State}
    (h : claimBuffer code s = .ok r) : r.2.steady = s.steady := by
  simpa using allocateSteps_steady h

theorem execTransmit_steady {len : Word} {s t : State} (h : execTransmit len s = .next t) : t.steady = s.steady := by
  unfold execTransmit at h
  dsimp only at h
  split at h
  · obtain rfl := Host.Outcome.next.inj h
    rfl
  · obtain ⟨r, hr, hn⟩ := andThen_next h
    have hc := claimBuffer_steady hr
    split at hn
    · obtain rfl := Host.Outcome.next.inj hn
      simpa using hc
    · obtain ⟨u, hu, hs⟩ := andThen_next hn
      exact (sendPacked_steady hs).trans ((packFrame_steady hu).trans hc)

/-! ## RECEIVE (spec/43_receive.md) -/

theorem copyWords_steady (sink n : Nat) : ∀ (k : Nat) (s t : State), copyWords sink n k s = .ok t →
    t.steady = s.steady := by
  induction n with
  | zero => intro k s t h; obtain rfl := Except.ok.inj h; rfl
  | succ n ih =>
    intro k s t h
    unfold copyWords at h
    split at h
    · cases h
    · rename_i hr
      exact (ih _ _ _ h).trans (by simpa using rdData_steady hr)

theorem copyPayload_steady {sink n : Nat} {s t : State} (h : copyPayload sink n s = .ok t) : t.steady = s.steady := by
  unfold copyPayload at h
  split at h
  · cases h
  · rename_i hw
    have hws := copyWords_steady _ _ _ _ _ hw
    split at h
    · split at h
      · cases h
      · rename_i hr
        obtain rfl := Except.ok.inj h
        simpa using (rdData_steady hr).trans hws
    · obtain rfl := Except.ok.inj h
      exact hws

theorem rxFinish_steady {o : RxOutcome} {s t : State} (h : rxFinish o s = .next t) : t.steady = s.steady := by
  cases o <;> obtain rfl := Host.Outcome.next.inj h <;> simp

theorem rxRelease_steady {o : RxOutcome} {s t : State} (h : rxRelease o s = .next t) : t.steady = s.steady := by
  obtain ⟨u, hu, hn⟩ := andThen_next h
  exact (waitIdle_steady (fun _ => rxFinish_steady) hn).trans (wrMmu_steady hu)

theorem lengthFault_steady {s t : State} (h : lengthFault s = .next t) : t.steady = s.steady := by
  unfold lengthFault at h
  split at h
  · cases h
  · obtain rfl := Host.Outcome.next.inj h
    rfl

theorem rxBody_steady {status lenWord : Word} {s t : State} (h : rxBody status lenWord s = .next t) :
    t.steady = s.steady := by
  unfold rxBody at h
  split at h
  · exact waitIdle_steady (fun _ => rxRelease_steady) h
  · split at h
    · exact lengthFault_steady h
    · obtain ⟨u, hu, hn⟩ := andThen_next h
      exact (waitIdle_steady (fun _ => rxRelease_steady) hn).trans (copyPayload_steady hu)

theorem rxHeader_steady {s t : State} (h : rxHeader s = .next t) : t.steady = s.steady := by
  obtain ⟨a, ha, h⟩ := andThen_next h
  obtain ⟨b, hb, h⟩ := andThen_next h
  calc t.steady = _ := rxBody_steady h
    _ = _ := rdData_steady hb
    _ = _ := rdData_steady ha
    _ = s.steady := by simp

theorem execReceive_steady {s t : State} (h : execReceive s = .next t) : t.steady = s.steady := by
  unfold execReceive at h
  dsimp only at h
  split at h
  · obtain rfl := Host.Outcome.next.inj h
    simp
  · simpa using rxHeader_steady h

/-! ## MII and PHY_CONFIGURE (spec/44_mii.md, spec/45_phy_configure.md) -/

@[simp] theorem runCycle_steady (next : Next) (base : Word) (i : Nat) (c : Cycle) (s : State) :
    (runCycle next base i c s).steady = s.steady := by
  simp [runCycle]

@[simp] theorem runCycles_steady (base : Word) (cs : List Cycle) : ∀ (i : Nat) (s : State),
    (runCycles base i cs s).steady = s.steady := by
  induction cs with
  | nil => exact fun _ _ => rfl
  | cons c cs ih => intro i s; simp [runCycles, ih]

@[simp] theorem runFrame_steady (c : List Drive) (s : State) : (runFrame c s).steady = s.steady := by
  simp [runFrame, runSequence]

@[simp] theorem discardSequence_steady (s : State) : (discardSequence s).steady = s.steady := rfl

@[simp] theorem miiReadAt_steady (phy reg : BitVec 5) (s : State) : (miiReadAt phy reg s).2.steady = s.steady := by
  simp [miiReadAt]

@[simp] theorem miiWriteAt_steady (phy reg : BitVec 5) (v : Word) (s : State) :
    (miiWriteAt phy reg v s).steady = s.steady := by
  simp [miiWriteAt]

@[simp] theorem miiReadReg_steady (back : Next) (reg : BitVec 5) (s : State) :
    (miiReadReg back reg s).2.steady = s.steady := by
  simp [miiReadReg]

@[simp] theorem miiWriteReg_steady (back : Next) (reg : BitVec 5) (v : Word) (s : State) :
    (miiWriteReg back reg v s).steady = s.steady := by
  simp [miiWriteReg]

theorem execMiiRead_steady {reg : Byte} {s t : State} (h : execMiiRead reg s = .next t) : t.steady = s.steady := by
  unfold execMiiRead at h
  split at h
  · obtain rfl := Host.Outcome.next.inj h
    simp
  · cases h

theorem execMiiWrite_steady {reg : Byte} {v : Word} {s t : State} (h : execMiiWrite reg v s = .next t) :
    t.steady = s.steady := by
  unfold execMiiWrite at h
  split at h
  · obtain rfl := Host.Outcome.next.inj h
    simp
  · cases h

theorem execMiiReadFrame_steady {phy reg : BitVec 5} {s t : State} (h : execMiiReadFrame phy reg s = .next t) :
    t.steady = s.steady := by
  obtain rfl := Host.Outcome.next.inj h
  simp

theorem execMiiWriteFrame_steady {phy reg : BitVec 5} {v : Word} {s t : State}
    (h : execMiiWriteFrame phy reg v s = .next t) : t.steady = s.steady := by
  obtain rfl := Host.Outcome.next.inj h
  simp

@[simp] theorem pollPhyReset_steady (k : Nat) : ∀ (i : Nat) (s : State), (pollPhyReset k i s).2.steady = s.steady := by
  induction k with
  | zero => exact fun _ _ => rfl
  | succ k ih =>
    intro i s
    unfold pollPhyReset
    dsimp only
    split
    · simp [ih]
    · simp

@[simp] theorem pollPhyAneg_steady (k : Nat) : ∀ (i : Nat) (s : State), (pollPhyAneg k i s).2.steady = s.steady := by
  induction k with
  | zero => exact fun _ _ => rfl
  | succ k ih =>
    intro i s
    unfold pollPhyAneg
    dsimp only
    split
    · simp
    · rw [ih, delay_steady]
      split <;> simp

@[simp] theorem phyAdvertise_steady (s : State) : (phyAdvertise s).steady = s.steady := by
  simp [phyAdvertise]

@[simp] theorem phyConfigureRun_steady (s : State) : (phyConfigureRun s).2.steady = s.steady := by
  unfold phyConfigureRun
  dsimp only
  split <;> simp

@[simp] theorem markConfigured_steady (s : State) : (markConfigured s).steady = s.steady := by
  unfold markConfigured
  split <;> rfl

theorem execPhyConfigure_steady {s t : State} (h : execPhyConfigure s = .next t) : t.steady = s.steady := by
  obtain rfl := Host.Outcome.next.inj h
  simp

/-! ## The lifecycle (spec/46_lifecycle.md) -/

@[simp] theorem setBits_steady (n m : Next) (r : Reg) (bits : Word) (s : State) :
    (setBits n m r bits s).steady = s.steady := by
  simp [setBits]

@[simp] theorem clearBits_steady (n m : Next) (r : Reg) (bits : Word) (s : State) :
    (clearBits n m r bits s).steady = s.steady := by
  simp [clearBits]

@[simp] theorem resetConfig_steady (s : State) : (resetConfig s).steady = s.steady := by
  unfold resetConfig
  dsimp only
  split <;> simp

@[simp] theorem resetControl_steady (s : State) : (resetControl s).steady = s.steady := by
  simp [resetControl]

@[simp] theorem resetHead_steady (s : State) : (resetHead s).steady = s.steady := by
  simp [resetHead, wrMmuReset]

@[simp] theorem resetTail_steady (s : State) : (resetTail s).steady = s.steady := by
  simp [resetTail]

theorem resetDone_steady {s t : State} (h : resetDone s = .next t) : t.steady = s.steady := by
  obtain rfl := Host.Outcome.next.inj h
  simp

theorem execReset_steady {s t : State} (h : execReset s = .next t) : t.steady = s.steady := by
  simpa using waitIdle_steady (fun _ => resetDone_steady) h

@[simp] theorem enableRun_steady (s : State) : (enableRun s).steady = s.steady := by
  simp [enableRun]

theorem execEnable_steady {s t : State} (h : execEnable s = .next t) : t.steady = s.steady := by
  obtain rfl := Host.Outcome.next.inj h
  simp

@[simp] theorem shutdownRun_steady (s : State) : (shutdownRun s).steady = s.steady := by
  unfold shutdownRun
  dsimp only
  split <;> simp

theorem execShutdown_steady {s t : State} (h : execShutdown s = .next t) : t.steady = s.steady := by
  obtain rfl := Host.Outcome.next.inj h
  simp

@[simp] theorem selectSig_steady (s : State) : (selectSig s).steady = s.steady := by
  unfold selectSig
  split <;> simp

@[simp] theorem probeRun_steady (s : State) : (probeRun s).2.steady = s.steady := by
  simp [probeRun]

theorem execProbe_steady {s t : State} (h : execProbe s = .next t) : t.steady = s.steady := by
  unfold execProbe at h
  dsimp only at h
  split at h <;> obtain rfl := Host.Outcome.next.inj h <;> simp

@[simp] theorem writeMac_steady (m : Mac) (s : State) : (writeMac m s).steady = s.steady := by
  simp [writeMac, List.range_succ]

theorem openRest_steady {s t : State} (h : openRest s = .next t) : t.steady = s.steady := by
  unfold openRest at h
  dsimp only at h
  split at h <;> obtain rfl := Host.Outcome.next.inj h <;> simp

theorem openAfterReset_steady {s t : State} (h : openAfterReset s = .next t) : t.steady = s.steady := by
  simpa using openRest_steady h

theorem execOpen_steady {s t : State} (h : execOpen s = .next t) : t.steady = s.steady := by
  unfold execOpen at h
  dsimp only at h
  split at h
  · simpa using waitIdle_steady (fun _ => openAfterReset_steady) h
  · obtain rfl := Host.Outcome.next.inj h
    simp

theorem execClose_steady {s t : State} (h : execClose s = .next t) : t.steady = s.steady := by
  obtain rfl := Host.Outcome.next.inj h
  simp

/-! ## Every operation, and every round of a wait -/

/-- No operation changes the view, whether it ends in its step or stands in a wait. -/
theorem exec_steady {i : Instr} {s t : State} (h : exec i s = .next t) : t.steady = s.steady := by
  cases i with
  | selectBank n => exact execSelectBank_steady h
  | readByte off => exact execReadByte_steady h
  | readWord off => exact execReadWord_steady h
  | readLong off => exact execReadLong_steady h
  | writeByte off v => exact execWriteByte_steady h
  | writeWord off v => exact execWriteWord_steady h
  | writeLong off v => exact execWriteLong_steady h
  | readBlock off count => exact execReadBlock_steady h
  | writeBlock off count => exact execWriteBlock_steady h
  | allocate n => exact execAllocate_steady h
  | release => exact execRelease_steady h
  | free p => exact execFree_steady h
  | waitMmuIdle => exact execWaitMmuIdle_steady h
  | transmit len => exact execTransmit_steady h
  | receive => exact execReceive_steady h
  | miiRead reg => exact execMiiRead_steady h
  | miiWrite reg v => exact execMiiWrite_steady h
  | phyConfigure => exact execPhyConfigure_steady h
  | reset => exact execReset_steady h
  | enable => exact execEnable_steady h
  | shutdown => exact execShutdown_steady h
  | probe => exact execProbe_steady h
  | openOp => exact execOpen_steady h
  | closeOp => exact execClose_steady h
  | mmuAlloc n => exact issueCommand_steady h
  | mmuReset => exact issueCommand_steady h
  | mmuRelease => exact issueCommand_steady h
  | mmuFree => exact issueCommand_steady h
  | mmuEnqueue => exact issueCommand_steady h
  | miiReadFrame phy reg => exact execMiiReadFrame_steady h
  | miiWriteFrame phy reg v => exact execMiiWriteFrame_steady h

theorem hangRound_steady (s : State) : (hangRound s).steady = s.steady := by
  simp [hangRound]

/-- One more round of the loop the engine stands in changes nothing of the view. -/
theorem resume_steady {s t : State} (h : resume s = .next t) : t.steady = s.steady := by
  unfold resume at h
  generalize s.eng.pos = p at h
  cases p with
  | idle => obtain rfl := Host.Outcome.next.inj h; rfl
  | waitIdle => exact waitPoll_steady (fun _ => finishOk_steady) h
  | releaseWait => exact waitPoll_steady (fun _ => finishOk_steady) h
  | freeWait => exact waitPoll_steady (fun _ => finishOk_steady) h
  | txPoll length => exact txPollRound_steady h
  | txTimeoutWait => exact waitPoll_steady (fun _ => txTimedOut_steady) h
  | txDoneWait length => exact waitPoll_steady (fun _ => txDone_steady) h
  | rxWait o => exact waitPoll_steady (fun _ => rxRelease_steady) h
  | rxReleaseWait o => exact waitPoll_steady (fun _ => rxFinish_steady) h
  | resetWait => exact waitPoll_steady (fun _ => resetDone_steady) h
  | openWait => exact waitPoll_steady (fun _ => openAfterReset_steady) h
  | irqHang => obtain rfl := Host.Outcome.next.inj h; exact hangRound_steady s

/-- An engine that is not idle goes on with the operation in progress (R60, R382). -/
theorem step_of_not_idle {s : State} (h : s.eng.pos ≠ .idle) : step s = settle (resume s) := by
  unfold step
  split
  · contradiction
  · rfl

/-- The inbox and the parameters are the machine's, not the snapshot's: a hang leaves them alone (log 46). -/
theorem settle_inbox_params {o : Out} {u : State} (h : settle o = .next u) :
    ∃ t, o = .next t ∧ u.inbox = t.inbox ∧ u.params = t.params := by
  obtain ⟨t, rfl, ⟨-, rfl⟩ | ⟨g, -, rfl⟩⟩ := settle_next h
  · exact ⟨u, rfl, rfl, rfl⟩
  · exact ⟨t, rfl, rfl, rfl⟩

/-- Settles O8: a round of a wait and every operation leave `State.steady` alone. -/
theorem operationsKeepInputsAndConfiguration : Obligations.OperationsKeepInputsAndConfiguration := by
  refine ⟨fun s u hp h => ?_, fun i s t h => ?_⟩
  · rw [step_of_not_idle hp] at h
    obtain ⟨t, ht, hi, hq⟩ := settle_inbox_params h
    obtain ⟨params, -, inbox, -⟩ := State.steady_eq_iff.1 (resume_steady ht)
    exact ⟨hi.trans inbox, hq.trans params⟩
  · exact State.steady_eq_iff.1 (exec_steady h)

end Sys2Proof.Machine
end

section
/-! PROOFS. The engine's own state in the gaps of an operation (spec/20_memory.md R101, spec/60_exceptions.md R334): neither
the agents nor the interrupt context touch it, whether the platform's enable is on or off, so that the sequencer position
(spec/10_state.md R60) moves by the foreground's accesses alone. -/

namespace Sys2Proof.Machine

/-! ## The interrupt context -/

@[simp] theorem handlerGap_eng (x : Handling) : (handlerGap x).1.eng = x.1.eng := by
  unfold handlerGap
  split
  · rfl
  · exact (agentSteps_kept _ _).eng

@[simp] theorem handlerRead_eng (n : IrqPos) (r : Reg) (w : Nat) (x : Handling) :
    (handlerRead n r w x).2.1.eng = x.1.eng := by
  simp [handlerRead]

@[simp] theorem handlerKeep_eng (n : IrqPos) (r : Reg) (w : Nat) (keep : Word → IrqCtx → IrqCtx) (x : Handling) :
    (handlerKeep n r w keep x).1.eng = x.1.eng := by
  simp [handlerKeep]

@[simp] theorem handlerWrite_eng (n : IrqPos) (r : Reg) (w : Nat) (v : Word) (x : Handling) :
    (handlerWrite n r w v x).1.eng = x.1.eng := by
  simp [handlerWrite]

@[simp] theorem handlerWritePtr_eng (n : IrqPos) (v : Word) (x : Handling) :
    (handlerWritePtr n v x).1.eng = x.1.eng := by
  simp [handlerWritePtr]

@[simp] theorem handlerDelay_eng (n : IrqPos) (t : Nat) (x : Handling) : (handlerDelay n t x).1.eng = x.1.eng := by
  simp [handlerDelay]

@[simp] theorem handlerGoto_eng (n : IrqPos) (x : Handling) : (handlerGoto n x).1.eng = x.1.eng := rfl

@[simp] theorem handlerReenable_eng (n : IrqPos) (x : Handling) : (handlerReenable n x).1.eng = x.1.eng := by
  simp [handlerReenable]

@[simp] theorem irqEnter_eng (touch : Bool) (x : Handling) : (irqEnter touch x).1.eng = x.1.eng := by
  unfold irqEnter
  dsimp only
  split <;> simp

@[simp] theorem irqExit_eng (touch : Bool) (x : Handling) : (irqExit touch x).1.eng = x.1.eng := by
  unfold irqExit
  dsimp only
  split <;> simp

theorem handlerWait_eng (exit : IrqPos) : ∀ (fuel k : Nat) (x y : Handling),
    handlerWait exit fuel k x = .ok y → y.1.eng = x.1.eng
  | 0, _, _, _, h => by simp [handlerWait] at h
  | fuel + 1, k, x, y, h => by
    simp only [handlerWait] at h
    split at h
    · simpa using handlerWait_eng exit fuel (k + 1) _ y h
    · obtain rfl := Except.ok.inj h
      simp

theorem handlerFree_eng {exit : IrqPos} {p : Pkt} {x y : Handling} (h : handlerFree exit p x = .ok y) :
    y.1.eng = x.1.eng := by
  unfold handlerFree at h
  dsimp only at h
  split at h
  · simpa using handlerWait_eng exit _ 1 _ y h
  · obtain rfl := Except.ok.inj h
    simp

theorem handlerRepair_eng {exit : IrqPos} {r : HandlerRun} {x y : Handling} (h : handlerRepair exit r x = .ok y) :
    y.1.eng = x.1.eng := by
  have hre : ∀ n, (if r.reenable then handlerReenable n x else x).1.eng = x.1.eng := by
    intro n
    split <;> simp
  unfold handlerRepair at h
  split at h
  · obtain rfl := Except.ok.inj h
    exact hre exit
  · exact (handlerFree_eng h).trans (hre _)

theorem txErrBody_eng {exit : IrqPos} {r : HandlerRun} {x y : Handling} (h : txErrBody exit r x = .ok y) :
    y.1.eng = x.1.eng := by
  unfold txErrBody at h
  dsimp only at h
  split at h
  · split at h
    · simpa [handlerAck] using handlerRepair_eng h
    · obtain rfl := Except.ok.inj h
      simp
  · split at h <;> obtain rfl := Except.ok.inj h <;> simp [handlerAck]

/-- A handler run that ends leaves the engine's own state alone (R333, R334). -/
theorem runHandler_eng {r : HandlerRun} {s t : State} (h : runHandler r s = some (.ok t)) : t.eng = s.eng := by
  unfold runHandler at h
  split at h
  · split at h
    · cases h
    · rename_i hb
      obtain rfl := Except.ok.inj (Option.some.inj h)
      simpa using txErrBody_eng hb
  · cases h

/-! ## Gaps -/

@[simp] theorem State.noteHang_eng (s t : State) : (s.noteHang t).eng = s.eng := by
  unfold State.noteHang
  split <;> rfl

theorem eventStep_eng (e : Event) (s : State) : (eventStep e s).eng = s.eng := by
  cases e with
  | agent e => exact (agentStep_kept e s).eng
  | irq r =>
    unfold eventStep
    dsimp only
    split
    · rfl
    · rename_i h; exact runHandler_eng h
    · exact s.noteHang_eng _

theorem eventSteps_eng (es : List Event) : ∀ s : State, (eventSteps es s).eng = s.eng := by
  induction es with
  | nil => exact fun _ => rfl
  | cons e es ih => exact fun s => (ih _).trans (eventStep_eng e s)

/-- Whatever happens in a gap, the engine is where it was (R60, R101). -/
@[simp] theorem gap_eng (s : State) : (gap s).eng = s.eng := by
  unfold gap
  split
  · rfl
  · exact eventSteps_eng _ _

/-! ## Where an access leaves the sequencer -/

@[simp] theorem rd_point (n : Next) (r : Reg) (w : Nat) (s : State) :
    (rd n r w s).2.eng.point = advancePoint n s.eng.point := by
  simp [rd]

theorem rdKeep_point (n : Next) (r : Reg) (w : Nat) {keep : Word → Engine → Engine} (s : State)
    (h : ∀ v e, (keep v e).point = e.point) : (rdKeep n r w keep s).eng.point = advancePoint n s.eng.point := by
  simp [rdKeep, h]

@[simp] theorem wr_point (n : Next) (r : Reg) (w : Nat) (v : Word) (s : State) :
    (wr n r w v s).eng.point = advancePoint n s.eng.point := by
  simp [wr]

@[simp] theorem delay_point (n : Next) (d : Nat) (s : State) :
    (delay n d s).eng.point = advancePoint n s.eng.point := by
  simp [delay]

@[simp] theorem mmuIssue_point (n : Next) (k : MmuCode) (s : State) :
    (mmuIssue n k s).eng.point = advancePoint n s.eng.point := by
  simp [mmuIssue, mmuTake]

theorem wrMmu_point {n : Next} {k : MmuCode} {s t : State} (h : wrMmu n k s = .ok t) :
    t.eng.point = advancePoint n s.eng.point := by
  rcases wrMmu_ok h with ⟨-, rfl⟩ | ⟨-, rfl⟩ <;> simp

theorem dataRead_eng {w : Nat} {s : State} {r : Long × State} (h : dataRead w s = .ok r) : r.2.eng = s.eng := by
  unfold dataRead at h
  split at h
  · obtain rfl := Except.ok.inj h; rfl
  · split at h
    · obtain rfl := Except.ok.inj h; rfl
    · cases h

theorem dataWrite_eng {w : Nat} {v : Long} {s t : State} (h : dataWrite w v s = .ok t) : t.eng = s.eng := by
  unfold dataWrite at h
  split at h
  · obtain rfl := Except.ok.inj h; rfl
  · split at h
    · obtain rfl := Except.ok.inj h; rfl
    · cases h

theorem rdData_point {n : Next} {s : State} {r : Word × State} (h : rdData n s = .ok r) :
    r.2.eng.point = advancePoint n s.eng.point := by
  unfold rdData at h
  split at h
  · obtain ⟨-, rfl⟩ := refuse_ok h
    rfl
  · rename_i hd
    obtain rfl := Except.ok.inj h
    simp [← dataRead_eng hd]

theorem wrData_point {n : Next} {v : Word} {s t : State} (h : wrData n v s = .ok t) :
    t.eng.point = advancePoint n s.eng.point := by
  unfold wrData at h
  split at h
  · obtain ⟨-, rfl⟩ := refuse_ok h
    rfl
  · rename_i hd
    obtain rfl := Except.ok.inj h
    simp [dataWrite_eng hd]

end Sys2Proof.Machine
end

section
/-! PROOFS. What the parts of an operation keep: the canonical forms (spec/10_state.md R37, R42, R51), and the rule that
the sequencer is in (R60). Each part has one lemma that says both, or the canonical forms alone where no operation waits
behind it. -/

namespace Sys2Proof.Machine

/-! ## The two ways a part of an operation ends -/

/-- The sequencer goes to a step of the same rule. -/
def Next.isGoto : Next → Bool
  | .goto _ _ _ => true
  | .ret => false

theorem Next.isGoto_ite {c : Prop} [Decidable c] {n m : Next} (hn : n.isGoto = true) (hm : m.isGoto = true) :
    (if c then n else m).isGoto = true := by
  split <;> assumption

/-- A step of the same rule leaves no mark on where the sequencer goes from there. -/
theorem advancePoint_goto_point {n : Next} (hn : n.isGoto = true) (m : Next) (l : List SeqFrame) :
    advancePoint m (advancePoint n l) = advancePoint m l := by
  cases n with
  | goto => cases l <;> cases m <;> rfl
  | ret => cases hn

/-- From `s` to `t` the canonical forms are kept and the sequencer stays in its rule: whatever its next position is, it is
the same from either (R60). -/
structure State.Within (s t : State) : Prop where
  wf : s.Wf → t.Wf
  goesTo : ∀ n, advancePoint n t.eng.point = advancePoint n s.eng.point

/-- From `s` to `t` the canonical forms are kept and the sequencer has come back to the rule that called the one it was
in. -/
structure State.Returns (s t : State) : Prop where
  wf : s.Wf → t.Wf
  point : t.eng.point = advancePoint .ret s.eng.point

namespace State.Within

variable {s u t : State}

theorem refl : s.Within s := ⟨id, fun _ => rfl⟩

theorem trans (h : s.Within u) (g : u.Within t) : s.Within t :=
  ⟨fun hs => g.wf (h.wf hs), fun n => (g.goesTo n).trans (h.goesTo n)⟩

/-- One access that takes the sequencer on within its rule. -/
theorem access {n : Next} (h : s.Within u) (hw : u.Wf → t.Wf) (hp : t.eng.point = advancePoint n u.eng.point)
    (hn : n.isGoto = true) : s.Within t :=
  ⟨fun hs => hw (h.wf hs), fun m => by rw [hp, advancePoint_goto_point hn, h.goesTo]⟩

/-- What leaves the sequencer where it is. -/
theorem still (h : s.Within u) (hw : u.Wf → t.Wf) (hp : t.eng.point = u.eng.point) : s.Within t :=
  ⟨fun hs => hw (h.wf hs), fun m => by rw [hp, h.goesTo]⟩

theorem advance (h : s.Within u) {n : Next} (hn : n.isGoto = true := by rfl) : s.Within (u.advance n) :=
  h.access (fun g => g.advance n) rfl hn

theorem hostWrite (h : s.Within u) {buf i : Nat} {b : Byte} : s.Within (u.hostWrite buf i b) :=
  h.still (fun g => g.hostWrite buf i b) rfl

theorem rd (h : s.Within u) {n : Next} {r : Reg} {w : Nat} (hn : n.isGoto = true := by rfl) :
    s.Within (Machine.rd n r w u).2 :=
  h.access (fun g => rd_wf g n r w) (rd_point n r w u) hn

theorem wr (h : s.Within u) {n : Next} {r : Reg} {w : Nat} {v : Word} (hn : n.isGoto = true := by rfl) :
    s.Within (Machine.wr n r w v u) :=
  h.access (fun g => wr_wf g n r w v) (wr_point n r w v u) hn

theorem wrBank (h : s.Within u) {n : Next} {b : BitVec 2} (hn : n.isGoto = true := by rfl) :
    s.Within (Machine.wrBank n b u) :=
  h.wr hn

theorem wrBankHold (h : s.Within u) {n : Next} {b : BitVec 2} (hn : n.isGoto = true := by rfl) :
    s.Within (Machine.wrBankHold n b u) :=
  (h.still (fun g => g.setHold true) rfl).wrBank hn

theorem wrMmuReset (h : s.Within u) {n : Next} (hn : n.isGoto = true := by rfl) : s.Within (Machine.wrMmuReset n u) :=
  h.access (fun g => wrMmuReset_wf g n) (mmuIssue_point n .reset u) hn

theorem wrMmu {n : Next} {k : MmuCode} (h : Machine.wrMmu n k u = .ok t) (hn : n.isGoto = true := by rfl) : u.Within t :=
  refl.access (fun g => wrMmu_wf g h) (wrMmu_point h) hn

theorem rdData {n : Next} {r : Word × State} (h : Machine.rdData n u = .ok r) (hn : n.isGoto = true := by rfl) :
    u.Within r.2 :=
  refl.access (fun g => rdData_wf g h) (rdData_point h) hn

theorem wrData {n : Next} {v : Word} (h : Machine.wrData n v u = .ok t) (hn : n.isGoto = true := by rfl) : u.Within t :=
  refl.access (fun g => wrData_wf g h) (wrData_point h) hn

theorem setBits (h : s.Within u) {n m : Next} {r : Reg} {bits : Word} (hn : n.isGoto = true := by rfl)
    (hm : m.isGoto = true := by rfl) : s.Within (Machine.setBits n m r bits u) :=
  (h.rd hn).wr hm

theorem saveCtx (h : s.Within u) {n m : Next} (hn : n.isGoto = true := by rfl) (hm : m.isGoto = true := by rfl) :
    s.Within (Machine.saveCtx n m u) := by
  have h1 : s.Within (rdKeep n .pnr 1 (fun v e => { e with savedPnr := lowByte v }) u) :=
    h.access (fun g => rdKeep_wf g n .pnr 1 _) (rdKeep_point n .pnr 1 u fun _ _ => rfl) hn
  exact h1.access (fun g => rdKeep_wf g m .ptr 2 _) (rdKeep_point m .ptr 2 _ fun _ _ => rfl) hm

/-- The rule ends. -/
theorem ret (h : s.Within u) : s.Returns (u.advance .ret) := ⟨fun hs => (h.wf hs).advance .ret, h.goesTo .ret⟩

/-- A rule that is called and comes back leaves the sequencer in the calling one. -/
theorem of_call {i : Instr} {back : Next} (h : (s.call i back).Returns t) (hb : back.isGoto = true := by rfl) :
    s.Within t :=
  refl.access (fun g => h.wf (g.call i back)) h.point hb

end State.Within

/-! ## ALLOCATE (spec/41_allocator.md R181) -/

theorem spinAlloc_within (a k : Nat) : ∀ (j : Nat) (s : State), s.Within (spinAlloc a k j s).2 := by
  induction k with
  | zero => exact fun _ _ => .refl
  | succ k ih =>
    intro j s
    have h : s.Within (rd (.to 5 1 (.spin a j)) .intStatus 1 s).2 := .rd .refl
    unfold spinAlloc
    dsimp only
    split
    · exact h
    · exact h.trans (ih _ _)

theorem attemptAlloc_within (spin k : Nat) : ∀ (a : Nat) (s : State), s.Within (attemptAlloc spin k a s).2 := by
  induction k with
  | zero => exact fun _ _ => .refl
  | succ k ih =>
    intro a s
    have h := spinAlloc_within a spin 1 s
    unfold attemptAlloc
    dsimp only
    split
    · exact h
    · exact h.trans (ih _ _)

theorem readResult_within (s : State) : s.Within (readResult s).2 := by
  unfold readResult
  dsimp only
  have h : s.Wf → ((readReg .arr s).2.note (.read .arr 1 ((readReg .arr s).1.setWidth 32))).Wf :=
    fun hs => (readReg_wf hs .arr).note _
  split
  · exact State.Within.refl.access (n := .to 8) (fun hs => gap_wf ((h hs).advance _)) (by simp) rfl
  · exact State.Within.refl.access (n := .to 8) (fun hs => gap_wf (((h hs).setPkt _).advance _)) (by simp) rfl

theorem allocFirst_isGoto (p : Config.Params) : (allocFirst p).isGoto = true := Next.isGoto_ite rfl rfl

theorem allocateSteps_returns {n : BitVec 3} {s : State} {r : Except AllocCause Pkt × State}
    (h : allocateSteps n s = .ok r) : s.Returns r.2 := by
  unfold allocateSteps at h
  split at h
  · cases h
  · rename_i s1 hw
    have ha := (State.Within.wrMmu hw (allocFirst_isGoto _)).trans
      (attemptAlloc_within s1.params.allocSpin s1.params.allocAttempts 1 s1)
    dsimp only at h
    split at h <;> obtain rfl := Except.ok.inj h
    · exact (ha.trans (readResult_within _)).ret
    · exact ha.ret

/-! ## TRANSMIT (spec/42_transmit.md R200) -/

theorem txByte_within (len i : Nat) (s : State) : s.Within (txByte len i s).2 := by
  unfold txByte
  split
  · exact .refl
  · exact State.Within.refl.still (fun h => h.bump 1) rfl

theorem sendWords_within (len n : Nat) : ∀ (k : Nat) (s t : State), sendWords len n k s = .ok t → s.Within t := by
  induction n with
  | zero => intro k s t h; obtain rfl := Except.ok.inj h; exact .refl
  | succ n ih =>
    intro k s t h
    unfold sendWords at h
    dsimp only at h
    split at h
    · cases h
    · rename_i hw
      exact ((txByte_within _ _ _).trans (txByte_within _ _ _)).trans
        ((State.Within.wrData hw (Next.isGoto_ite rfl rfl)).trans (ih _ _ _ h))

theorem sendTrailer_within {len length : Nat} {s t : State} (h : sendTrailer len length s = .ok t) : s.Within t := by
  unfold sendTrailer at h
  split at h
  · exact .wrData h
  · exact (txByte_within _ _ _).trans (.wrData h)

theorem packFrame_within {len length : Nat} {p : Pkt} {s t : State} (h : packFrame len length p s = .ok t) :
    s.Within t := by
  unfold packFrame at h
  dsimp only at h
  split at h
  · cases h
  · rename_i h0
    split at h
    · cases h
    · rename_i h1
      split at h
      · cases h
      · rename_i h2
        exact (State.Within.wr (.wr .refl)).trans ((State.Within.wrData h0).trans ((State.Within.wrData h1).trans
          ((sendWords_within _ _ _ _ _ h2).trans (sendTrailer_within h))))

theorem enableTxInts_within (s : State) : s.Within (enableTxInts s) := .wr (.rd .refl)

theorem claimBuffer_within {code : Nat} {s : State} {r : Except AllocCause Pkt × State}
    (h : claimBuffer code s = .ok r) : s.Within r.2 :=
  (State.Within.saveCtx (.wrBankHold .refl)).trans (.of_call (allocateSteps_returns h))

/-! ## RECEIVE (spec/43_receive.md R220) -/

theorem copyWords_within (sink n : Nat) : ∀ (k : Nat) (s t : State), copyWords sink n k s = .ok t → s.Within t := by
  induction n with
  | zero => intro k s t h; obtain rfl := Except.ok.inj h; exact .refl
  | succ n ih =>
    intro k s t h
    unfold copyWords at h
    split at h
    · cases h
    · rename_i hr
      exact (State.Within.rdData hr).hostWrite.hostWrite.advance (Next.isGoto_ite rfl rfl) |>.trans (ih _ _ _ h)

theorem copyPayload_within {sink n : Nat} {s t : State} (h : copyPayload sink n s = .ok t) : s.Within t := by
  unfold copyPayload at h
  split at h
  · cases h
  · rename_i hw
    have hws := copyWords_within _ _ _ _ _ hw
    split at h
    · split at h
      · cases h
      · rename_i hr
        obtain rfl := Except.ok.inj h
        exact (hws.trans (.rdData hr)).hostWrite.advance
    · obtain rfl := Except.ok.inj h
      exact hws

/-! ## RESET and PROBE (spec/46_lifecycle.md R300, R308) -/

theorem resetConfig_within (s : State) : s.Within (resetConfig s) := by
  unfold resetConfig
  dsimp only
  split
  · exact .setBits (.wr (.wrBank (.wr (.wrBank .refl))))
  · exact .wr (.wrBank (.wr (.wrBank .refl)))

theorem resetControl_within (s : State) : s.Within (resetControl s) :=
  .setBits (.wrBank (.wr (.wr (.wrBank .refl))))

theorem resetHead_within (s : State) : s.Within (resetHead s) :=
  .wrMmuReset (.wrBankHold ((resetConfig_within s).trans (resetControl_within _)))

theorem selectSig_within (s : State) : s.Within (selectSig s) := by
  unfold selectSig
  split
  · exact .wrBank .refl
  · exact .refl

theorem probeRun_returns (s : State) : s.Returns (probeRun s).2 := by
  have h : (selectSig s).Within (gap (((selectSig s).note (.read (.sig 0) (selectSig s).params.regs.sigWidth.bytes
      ((selectSig s).chip.sigValue (selectSig s).params))).advance (.to 2))) :=
    State.Within.refl.access (n := .to 2) (fun hs => gap_wf ((hs.note _).advance _)) (by simp) rfl
  exact ((selectSig_within s).trans h).ret

/-! ## Parts behind which no operation waits: the canonical forms alone -/

theorem State.Wf.accessed {s : State} (h : s.Wf) (a : Access) : (accessed a s).Wf := gap_wf ((h.note a).advance .ret)

theorem readBlockLoop_wf (off : Byte) (buf n : Nat) : ∀ (k : Nat) (s t : State), s.Wf →
    readBlockLoop off buf n k s = .ok t → t.Wf := by
  induction n with
  | zero => intro k s t hs h; obtain rfl := Except.ok.inj h; exact hs
  | succ n ih =>
    intro k s t hs h
    unfold readBlockLoop at h
    split at h
    · obtain ⟨-, rfl⟩ := refuse_ok h
      exact hs
    · rename_i hr
      exact ih _ _ _ ((((gap_wf (((winReadWord_wf hs hr).note _).advance _)).hostWrite _ _ _).hostWrite _ _ _).advance _) h

theorem writeBlockLoop_wf (off : Byte) (buf n : Nat) : ∀ (k : Nat) (s t : State), s.Wf →
    writeBlockLoop off buf n k s = .ok t → t.Wf := by
  induction n with
  | zero => intro k s t hs h; obtain rfl := Except.ok.inj h; exact hs
  | succ n ih =>
    intro k s t hs h
    unfold writeBlockLoop at h
    dsimp only at h
    split at h
    · obtain ⟨-, rfl⟩ := refuse_ok h
      exact hs
    · rename_i hw
      exact ih _ _ _ (gap_wf (((winWriteWord_wf hs hw).note _).advance _)) h

theorem runCycle_wf {s : State} (h : s.Wf) (next : Next) (base : Word) (i : Nat) (c : Cycle) :
    (runCycle next base i c s).Wf := by
  unfold runCycle
  dsimp only
  exact rdKeep_wf (delay_wf (wr_wf (delay_wf (wr_wf h _ _ _ _) _ _) _ _ _ _) _ _) _ _ _ _

theorem runCycles_wf (base : Word) (cs : List Cycle) : ∀ (i : Nat) {s : State}, s.Wf → (runCycles base i cs s).Wf := by
  induction cs with
  | nil => exact fun _ _ h => h
  | cons c cs ih => exact fun i _ h => ih (i + 1) (runCycle_wf h _ base i c)

theorem runSequence_wf {s : State} (h : s.Wf) : (runSequence s).Wf :=
  wrBank_wf (wr_wf (runCycles_wf _ _ 0 (rd_wf (wrBank_wf (rdKeep_wf h _ _ _ _) _ _) _ _ _)) _ _ _ _) _ _

theorem runFrame_wf {s : State} (h : s.Wf) (c : List Drive) : (runFrame c s).Wf :=
  runSequence_wf ((h.setEng _).advance _)

theorem miiReadAt_wf {s : State} (h : s.Wf) (phy reg : BitVec 5) : (miiReadAt phy reg s).2.Wf :=
  ((runFrame_wf h _).setEng _).advance .ret

theorem miiWriteAt_wf {s : State} (h : s.Wf) (phy reg : BitVec 5) (v : Word) : (miiWriteAt phy reg v s).Wf :=
  ((runFrame_wf h _).setEng _).advance .ret

theorem miiReadReg_wf {s : State} (h : s.Wf) (back : Next) (reg : BitVec 5) : (miiReadReg back reg s).2.Wf :=
  miiReadAt_wf (h.call _ _) _ _

theorem miiWriteReg_wf {s : State} (h : s.Wf) (back : Next) (reg : BitVec 5) (v : Word) :
    (miiWriteReg back reg v s).Wf :=
  miiWriteAt_wf (h.call _ _) _ _ _

theorem pollPhyReset_wf (k : Nat) : ∀ (i : Nat) {s : State}, s.Wf → (pollPhyReset k i s).2.Wf := by
  induction k with
  | zero => exact fun _ _ h => h
  | succ k ih =>
    intro i s h
    have hr := miiReadReg_wf h (.to 2 2 (.poll i)) s.params.phyMap.ctrl
    unfold pollPhyReset
    dsimp only
    split
    · exact ih _ (delay_wf hr _ _)
    · exact hr

theorem pollPhyAneg_wf (k : Nat) : ∀ (i : Nat) {s : State}, s.Wf → (pollPhyAneg k i s).2.Wf := by
  induction k with
  | zero => exact fun _ _ h => h
  | succ k ih =>
    intro i s h
    have hr := miiReadReg_wf h (.to 9 2 (.poll i)) s.params.phyMap.stat
    unfold pollPhyAneg
    dsimp only
    split
    · exact hr
    · refine ih _ (delay_wf ?_ _ _)
      split
      · exact miiWriteReg_wf hr _ _ _
      · exact hr

theorem phyAdvertise_wf {s : State} (h : s.Wf) : (phyAdvertise s).Wf :=
  miiWriteReg_wf ((miiWriteReg_wf ((miiReadReg_wf (miiWriteReg_wf h _ _ _) _ _).setEng _) _ _ _).setEng _) _ _ _

theorem phyConfigureRun_wf {s : State} (h : s.Wf) : (phyConfigureRun s).2.Wf := by
  have hr := pollPhyReset_wf Config.phyResetPolls 1 (miiWriteReg_wf h (.to 2 1 (.poll 1)) s.params.phyMap.ctrl
    (phyReset s.params))
  unfold phyConfigureRun
  dsimp only
  split
  · exact (pollPhyAneg_wf _ _ (phyAdvertise_wf hr)).advance .ret
  · exact hr.advance .ret

theorem markConfigured_wf {s : State} (h : s.Wf) : (markConfigured s).Wf := by
  unfold markConfigured
  split
  · exact h.setLife _
  · exact h

theorem clearBits_wf {s : State} (h : s.Wf) (n m : Next) (r : Reg) (bits : Word) : (clearBits n m r bits s).Wf :=
  wr_wf (rd_wf h _ _ _) _ _ _ _

theorem resetTail_wf {s : State} (h : s.Wf) : (resetTail s).Wf := (wr_wf h _ _ _ _).setLife _

theorem enableRun_wf {s : State} (h : s.Wf) : (enableRun s).Wf :=
  (wr_wf (wrBank_wf (wr_wf (wr_wf (wrBank_wf h _ _) _ _ _ _) _ _ _ _) _ _) _ _ _ _).setLife _

theorem shutdownRun_wf {s : State} (h : s.Wf) : (shutdownRun s).Wf := by
  have hs : (clearBits (.to 2 5) (.to 3) .rcr (rxen s.params) (clearBits (.to 2 3) (.to 2 4) .tcr (txen s.params)
      (wrBank (.to 2 2) s.params.regs.cb
        (wr (.to 2) .intMask 1 0#16 (wrBank (.to 1 2) s.params.regs.pb s))))).Wf :=
    clearBits_wf (clearBits_wf (wrBank_wf (wr_wf (wrBank_wf h _ _) _ _ _ _) _ _) _ _ _ _) _ _ _ _
  unfold shutdownRun
  dsimp only
  split
  · exact (clearBits_wf (wrBank_wf hs _ _) _ _ _ _).setLife _
  · exact (hs.advance .ret).setLife _

theorem writeMac_wf {s : State} (h : s.Wf) (m : Mac) : (writeMac m s).Wf :=
  List.foldlRecOn (motive := State.Wf) _ _ h fun _ hb _ _ => wr_wf hb _ _ _ _

end Sys2Proof.Machine
end

section
/-! PROOFS. What an operation can come to (spec/10_state.md R60, R63): its end, or one of its waits with the sequencer at the
poll. One lemma per operation says which waits these are. The obligations about the sequencer position and about the
invariant of a step are read off it. -/

namespace Sys2Proof.Machine

/-! ## Ends and waits -/

/-- No operation is in progress: the sequencer is at no step and no handle is held (R60, R63, R75). -/
def State.Over (t : State) : Prop := t.eng.pos = .idle ∧ t.eng.point = [] ∧ t.eng.pkt = none

/-- Where the engine may wait, and the sequencer's position there. -/
abbrev Waits := List (SeqPos × List SeqFrame)

/-- The position at the poll of a WAIT_MMU_IDLE that comes back to the step `back` of the rule that `l` is in (R183). -/
def polledFrom (back : Next) (l : List SeqFrame) : List SeqFrame := atStep .waitMmuIdle 1 :: advancePoint back l

/-- From `s` the canonical forms are kept to `t`, where the operation has ended or stands at one of the waits `ws`. -/
structure State.ComesTo (s : State) (ws : Waits) (t : State) : Prop where
  wf : s.Wf → t.Wf
  stands : t.Over ∨ (t.eng.pos, t.eng.point) ∈ ws

theorem finishWith_over (r : OpResult) (s : State) : (s.finishWith r).Over := ⟨rfl, rfl, rfl⟩

theorem finish_over (c : Condition) (v : Int) (s : State) : (s.finish c v).Over := finishWith_over _ _

section
variable {s u t : State} {ws : Waits}

theorem State.ComesTo.finish (h : s.Wf → u.Wf) (c : Condition) (v : Int) : s.ComesTo ws (u.finish c v) :=
  ⟨fun hs => (h hs).finish c v, .inl (finish_over c v u)⟩

theorem State.ComesTo.park (h : s.Wf → u.Wf) {p : SeqPos} (hp : (p, u.eng.point) ∈ ws) : s.ComesTo ws (u.park p) :=
  ⟨fun hs => (h hs).park p, .inr hp⟩

theorem State.ComesTo.mono {vs : Waits} (h : s.ComesTo vs t) (hv : vs ⊆ ws) : s.ComesTo ws t :=
  ⟨h.wf, h.stands.imp id fun h => hv h⟩

/-- What has gone before keeps the canonical forms. -/
theorem State.ComesTo.after (h : u.ComesTo ws t) (hu : s.Wf → u.Wf) : s.ComesTo ws t := ⟨fun hs => h.wf (hu hs), h.stands⟩

theorem State.Within.polledFrom (h : s.Within u) (back : Next) :
    polledFrom back u.eng.point = polledFrom back s.eng.point := by
  simp [Machine.polledFrom, h.goesTo]

/-! ## The busy wait (spec/41_allocator.md R183) -/

/-- A round of the busy wait stays at the poll, or comes back to the calling rule and goes on there. -/
theorem waitPoll_next {p : SeqPos} {k : State → Out} (h : waitPoll p k s = .next t) :
    s.ComesTo [(p, advancePoint (.to 1) s.eng.point)] t ∨ ∃ u, s.Returns u ∧ k u = .next t := by
  rcases waitPoll_cases p k s with ⟨-, e⟩ | ⟨-, e⟩ <;> rw [e] at h
  · obtain rfl := Host.Outcome.next.inj h
    exact .inl (.park (fun hs => delay_wf (rd_wf hs _ _ _) _ _) (by simp [advancePoint_goto_point (n := .to 1 2) rfl]))
  · exact .inr ⟨_, State.Within.refl.rd.ret, h⟩

/-- A wait that the rule of `s` calls stands at its poll, or the rule goes on behind it. -/
theorem waitIdle_comesTo {back : Next} {p : SeqPos} {k : State → Out} (hu : s.Within u) (hb : back.isGoto = true)
    (hk : ∀ v, s.Within v → k v = .next t → s.ComesTo ws t) (h : waitIdle back p k u = .next t) :
    s.ComesTo ((p, polledFrom back s.eng.point) :: ws) t := by
  rcases waitPoll_next h with hp | ⟨v, hv, hn⟩
  · rw [← hu.polledFrom]
    exact (hp.after fun hs => (hu.wf hs).call _ _).mono (List.cons_subset_cons _ (List.nil_subset _))
  · exact (hk v (hu.trans (.of_call hv hb)) hn).mono (List.subset_cons_self _ _)

theorem finishOk_comesTo (h : finishOk s = .next t) : s.ComesTo [] t := by
  obtain rfl := Host.Outcome.next.inj h
  exact .finish id _ _

/-! ## The register bank (spec/40_register_bank.md) -/

theorem execSelectBank_comesTo {n : Byte} (h : execSelectBank n s = .next t) : s.ComesTo [] t := by
  unfold execSelectBank at h
  split at h
  · obtain rfl := Host.Outcome.next.inj h
    exact .finish (fun hs => wrBank_wf ((hs.begin _).setHold _) _ _) _ _
  · cases h

/-- An operation of one read. -/
theorem oneRead_comesTo {α : Type} {r : Except Refusal (α × State)} {a : α × State → Access} {v : α × State → Int}
    (hr : ∀ x, s.Wf → r = .ok x → x.2.Wf)
    (h : andThen r (fun x => .next ((accessed (a x) x.2).finish .ok (v x))) = .next t) : s.ComesTo [] t := by
  obtain ⟨x, hx, hn⟩ := andThen_next h
  obtain rfl := Host.Outcome.next.inj hn
  exact .finish (fun hs => (hr x hs hx).accessed _) _ _

/-- An operation of one write. -/
theorem oneWrite_comesTo {r : Except Refusal State} {a : Access} (hr : ∀ u, s.Wf → r = .ok u → u.Wf)
    (h : andThen r (fun u => .next ((accessed a u).finish .ok 0)) = .next t) : s.ComesTo [] t := by
  obtain ⟨u, hu, hn⟩ := andThen_next h
  obtain rfl := Host.Outcome.next.inj hn
  exact .finish (fun hs => (hr u hs hu).accessed _) _ _

theorem execReadByte_comesTo {off : Byte} (h : execReadByte off s = .next t) : s.ComesTo [] t :=
  (oneRead_comesTo (s := s.begin (.readByte off)) (fun _ => winReadByte_wf) h).after (·.begin _)

theorem execReadWord_comesTo {off : Byte} (h : execReadWord off s = .next t) : s.ComesTo [] t :=
  (oneRead_comesTo (s := s.begin (.readWord off)) (fun _ => winReadWord_wf) h).after (·.begin _)

theorem execReadLong_comesTo {off : Byte} (h : execReadLong off s = .next t) : s.ComesTo [] t :=
  (oneRead_comesTo (s := s.begin (.readLong off)) (fun _ => winReadLong_wf) h).after (·.begin _)

theorem execWriteByte_comesTo {off v : Byte} (h : execWriteByte off v s = .next t) : s.ComesTo [] t :=
  (oneWrite_comesTo (s := s.begin (.writeByte off v)) (fun _ => winWriteByte_wf) h).after (·.begin _)

theorem execWriteWord_comesTo {off : Byte} {v : Word} (h : execWriteWord off v s = .next t) : s.ComesTo [] t :=
  (oneWrite_comesTo (s := s.begin (.writeWord off v)) (fun _ => winWriteWord_wf) h).after (·.begin _)

theorem execWriteLong_comesTo {off : Byte} {v : Long} (h : execWriteLong off v s = .next t) : s.ComesTo [] t :=
  (oneWrite_comesTo (s := s.begin (.writeLong off v)) (fun _ => winWriteLong_wf) h).after (·.begin _)

theorem execReadBlock_comesTo {off : Byte} {count : Word} (h : execReadBlock off count s = .next t) :
    s.ComesTo [] t := by
  obtain ⟨u, hu, hn⟩ := andThen_next h
  obtain rfl := Host.Outcome.next.inj hn
  exact .finish (fun hs => readBlockLoop_wf _ _ _ _ _ _ (hs.begin _) hu) _ _

theorem execWriteBlock_comesTo {off : Byte} {count : Word} (h : execWriteBlock off count s = .next t) :
    s.ComesTo [] t := by
  obtain ⟨u, hu, hn⟩ := andThen_next h
  obtain rfl := Host.Outcome.next.inj hn
  exact .finish (fun hs => writeBlockLoop_wf _ _ _ _ _ _ (hs.begin _) hu) _ _

/-! ## The allocator (spec/41_allocator.md) -/

theorem execAllocate_comesTo {n : Byte} (h : execAllocate n s = .next t) : s.ComesTo [] t := by
  unfold execAllocate at h
  split at h
  · obtain ⟨r, hr, hn⟩ := andThen_next (inPacketBank_next h).2
    have hw : s.Wf → r.2.Wf := fun hs => (allocateSteps_returns hr).wf (hs.begin _)
    split at hn <;> obtain rfl := Host.Outcome.next.inj hn <;> exact .finish hw _ _
  · cases h

theorem execRelease_comesTo (h : execRelease s = .next t) :
    s.ComesTo [(.releaseWait, waitPoint .release .releaseWait)] t := by
  obtain ⟨u, hu, hn⟩ := andThen_next (inPacketBank_next h).2
  exact (waitIdle_comesTo (.wrMmu hu) rfl (fun _ hv hf => (finishOk_comesTo hf).after hv.wf) hn).after (·.begin _)

theorem execFree_comesTo {p : Byte} (h : execFree p s = .next t) :
    s.ComesTo [(.freeWait, waitPoint (.free p) .freeWait)] t := by
  obtain ⟨u, hu, hn⟩ := andThen_next (inPacketBank_next h).2
  exact (waitIdle_comesTo ((State.Within.wr .refl).trans (.wrMmu hu)) rfl
    (fun _ hv hf => (finishOk_comesTo hf).after hv.wf) hn).after (·.begin _)

theorem execWaitMmuIdle_comesTo (h : execWaitMmuIdle s = .next t) :
    s.ComesTo [(.waitIdle, waitPoint .waitMmuIdle .waitIdle)] t := by
  rcases waitPoll_next (inPacketBank_next h).2 with hp | ⟨u, hu, hn⟩
  · exact hp.after (·.begin _)
  · exact ((finishOk_comesTo hn).after fun hs => hu.wf (hs.begin _)).mono (List.nil_subset _)

theorem issueCommand_comesTo {k : MmuCode} (h : issueCommand k s = .next t) : s.ComesTo [] t := by
  obtain ⟨u, hu, hn⟩ := andThen_next (inPacketBank_next h).2
  obtain rfl := Host.Outcome.next.inj hn
  exact .finish (fun hs => wrMmu_wf (hs.begin _) hu) _ _

/-! ## TRANSMIT (spec/42_transmit.md) -/

/-- The waits of TRANSMIT from step 15 on, of padded length `n`: the poll for TX_EMPTY, and the waits of steps 16 and 18. -/
def txWaits (n : Nat) (l : List SeqFrame) : Waits :=
  [(.txPoll n, advancePoint (.to 15) l), (.txDoneWait n, polledFrom (.to 19) l), (.txTimeoutWait, polledFrom (.to 16 2) l)]

theorem State.Within.txWaits (h : s.Within u) (n : Nat) : txWaits n u.eng.point = txWaits n s.eng.point := by
  simp [Machine.txWaits, h.polledFrom, h.goesTo]

theorem txDone_comesTo {n : Nat} (h : txDone n s = .next t) : s.ComesTo [] t := by
  obtain rfl := Host.Outcome.next.inj h
  exact .finish (fun hs => restoreCtx_wf hs _ _) _ _

theorem txTimedOut_comesTo (h : txTimedOut s = .next t) : s.ComesTo [] t := by
  obtain rfl := Host.Outcome.next.inj h
  exact .finish (fun hs => restoreOnFailure_wf hs _ _) _ _

theorem txPollRound_comesTo {n : Nat} (h : txPollRound n s = .next t) : s.ComesTo (txWaits n s.eng.point) t := by
  have hv : s.Within (rd (.to 15 2) .intStatus 1 s).2 := .rd .refl
  unfold txPollRound at h
  dsimp only at h
  split at h
  · exact (waitIdle_comesTo (.wr hv) rfl (fun _ hw hf => (txDone_comesTo hf).after hw.wf) h).mono (by simp [txWaits])
  · split at h
    · exact (waitIdle_comesTo hv rfl (fun _ hw hf => (txTimedOut_comesTo hf).after hw.wf) h).mono (by simp [txWaits])
    · obtain rfl := Host.Outcome.next.inj h
      exact .park (fun hs => (hv.wf hs).advance _) (by simp [txWaits, advancePoint_goto_point (n := .to 15 2) rfl])

theorem sendPacked_comesTo {n : Nat} (h : sendPacked n s = .next t) : s.ComesTo (txWaits n s.eng.point) t := by
  obtain ⟨u, hu, hn⟩ := andThen_next h
  have hw : s.Within (u.setEng { u.eng with t0 := u.env.now }) :=
    ((enableTxInts_within s).trans (.wrMmu hu)).still (·.setEng _) rfl
  rw [← hw.txWaits]
  exact (txPollRound_comesTo hn).after hw.wf

theorem execTransmit_comesTo {len : Word} (h : execTransmit len s = .next t) :
    s.ComesTo (txWaits (max len.toNat 60) [atStep (.transmit len) 1]) t := by
  unfold execTransmit at h
  dsimp only at h
  split at h
  · obtain rfl := Host.Outcome.next.inj h
    exact .finish (·.begin _) _ _
  · obtain ⟨r, hr, hn⟩ := andThen_next h
    have hc := claimBuffer_within hr
    split at hn
    · obtain rfl := Host.Outcome.next.inj hn
      exact .finish (fun hs => restoreOnFailure_wf (hc.wf (hs.begin _)) _ _) _ _
    · obtain ⟨u, hu, hp⟩ := andThen_next hn
      have hw := hc.trans (packFrame_within hu)
      have := (sendPacked_comesTo hp).after hw.wf
      rw [hw.txWaits] at this
      exact this.after (·.begin _)

/-! ## RECEIVE (spec/43_receive.md) -/

/-- The waits of RECEIVE, with what it has found out by step 14. -/
def rxWaits (o : RxOutcome) (l : List SeqFrame) : Waits :=
  [(.rxWait o, polledFrom (.to 15) l), (.rxReleaseWait o, polledFrom (.to 17) l)]

theorem rxFinish_comesTo {o : RxOutcome} (h : rxFinish o s = .next t) : s.ComesTo [] t := by
  have hr : s.Wf → (restoreCtx (.to 17 2) (.to 18) s).Wf := fun hs => restoreCtx_wf hs _ _
  cases o <;> obtain rfl := Host.Outcome.next.inj h
  · exact .finish (fun hs => (hr hs).note _) _ _
  · exact .finish hr _ _

theorem rxRelease_comesTo {o : RxOutcome} (h : rxRelease o s = .next t) :
    s.ComesTo [(.rxReleaseWait o, polledFrom (.to 17) s.eng.point)] t := by
  obtain ⟨u, hu, hn⟩ := andThen_next h
  exact waitIdle_comesTo (.wrMmu hu) rfl (fun _ hv hf => (rxFinish_comesTo hf).after hv.wf) hn

/-- The wait of step 14 and what is behind it. -/
theorem rxWait_comesTo {o : RxOutcome} (hu : s.Within u)
    (h : waitIdle (.to 15) (.rxWait o) (rxRelease o) u = .next t) : s.ComesTo (rxWaits o s.eng.point) t := by
  refine waitIdle_comesTo hu rfl (fun v hv hf => ?_) h
  rw [← hv.polledFrom]
  exact (rxRelease_comesTo hf).after hv.wf

theorem lengthFault_comesTo (h : lengthFault s = .next t) : s.ComesTo [] t := by
  unfold lengthFault at h
  split at h
  · cases h
  · obtain rfl := Host.Outcome.next.inj h
    exact .finish id _ _

theorem rxBody_comesTo {status lenWord : Word} (hu : s.Within u) (h : rxBody status lenWord u = .next t) :
    ∃ o, s.ComesTo (rxWaits o s.eng.point) t := by
  unfold rxBody at h
  split at h
  · exact ⟨_, rxWait_comesTo hu h⟩
  · split at h
    · exact ⟨.discarded status, ((lengthFault_comesTo h).after hu.wf).mono (List.nil_subset _)⟩
    · obtain ⟨v, hv, hn⟩ := andThen_next h
      exact ⟨_, rxWait_comesTo (hu.trans (copyPayload_within hv)) hn⟩

theorem rxHeader_comesTo (hu : s.Within u) (h : rxHeader u = .next t) : ∃ o, s.ComesTo (rxWaits o s.eng.point) t := by
  obtain ⟨a, ha, h⟩ := andThen_next h
  obtain ⟨b, hb, h⟩ := andThen_next h
  exact rxBody_comesTo ((hu.wr.trans (.rdData ha)).trans (.rdData hb)) h

theorem execReceive_comesTo (h : execReceive s = .next t) : ∃ o, s.ComesTo (rxWaits o [atStep .receive 1]) t := by
  have hf : (s.begin .receive).Within (rd (.to 4) .fifo 2 (saveCtx (.to 2 2) (.to 3)
      (wrBank (.to 2) s.params.regs.pb (s.begin .receive)))).2 := .rd (.saveCtx (.wrBank .refl))
  unfold execReceive at h
  dsimp only at h
  split at h
  · obtain rfl := Host.Outcome.next.inj h
    exact ⟨.delivered 0, .finish (fun hs => hf.wf (hs.begin _)) _ _⟩
  · obtain ⟨o, ho⟩ := rxHeader_comesTo hf h
    exact ⟨o, ho.after (·.begin _)⟩

/-! ## MII and PHY_CONFIGURE (spec/44_mii.md, spec/45_phy_configure.md) -/

theorem execMiiRead_comesTo {reg : Byte} (h : execMiiRead reg s = .next t) : s.ComesTo [] t := by
  unfold execMiiRead at h
  split at h
  · obtain rfl := Host.Outcome.next.inj h
    exact .finish (fun hs => miiReadAt_wf (hs.begin _) _ _) _ _
  · cases h

theorem execMiiWrite_comesTo {reg : Byte} {v : Word} (h : execMiiWrite reg v s = .next t) : s.ComesTo [] t := by
  unfold execMiiWrite at h
  split at h
  · obtain rfl := Host.Outcome.next.inj h
    exact .finish (fun hs => miiWriteAt_wf (hs.begin _) _ _ _) _ _
  · cases h

theorem execMiiReadFrame_comesTo {phy reg : BitVec 5} (h : execMiiReadFrame phy reg s = .next t) : s.ComesTo [] t := by
  obtain rfl := Host.Outcome.next.inj h
  exact .finish (fun hs => miiReadAt_wf (hs.begin _) _ _) _ _

theorem execMiiWriteFrame_comesTo {phy reg : BitVec 5} {v : Word} (h : execMiiWriteFrame phy reg v s = .next t) :
    s.ComesTo [] t := by
  obtain rfl := Host.Outcome.next.inj h
  exact .finish (fun hs => miiWriteAt_wf (hs.begin _) _ _ _) _ _

theorem execPhyConfigure_comesTo (h : execPhyConfigure s = .next t) : s.ComesTo [] t := by
  obtain rfl := Host.Outcome.next.inj h
  exact .finish (fun hs => markConfigured_wf (phyConfigureRun_wf (hs.begin _))) _ _

/-! ## The lifecycle (spec/46_lifecycle.md) -/

theorem resetDone_comesTo (h : resetDone s = .next t) : s.ComesTo [] t := by
  obtain rfl := Host.Outcome.next.inj h
  exact .finish (fun hs => resetTail_wf hs) _ _

theorem execReset_comesTo (h : execReset s = .next t) : s.ComesTo [(.resetWait, waitPoint .reset .resetWait)] t :=
  (waitIdle_comesTo (resetHead_within (s.begin .reset)) rfl (fun _ hv hf => (resetDone_comesTo hf).after hv.wf) h).after
    (·.begin _)

theorem execEnable_comesTo (h : execEnable s = .next t) : s.ComesTo [] t := by
  obtain rfl := Host.Outcome.next.inj h
  exact .finish (fun hs => enableRun_wf (hs.begin _)) _ _

theorem execShutdown_comesTo (h : execShutdown s = .next t) : s.ComesTo [] t := by
  obtain rfl := Host.Outcome.next.inj h
  exact .finish (fun hs => shutdownRun_wf (hs.begin _)) _ _

theorem execProbe_comesTo (h : execProbe s = .next t) : s.ComesTo [] t := by
  have hw : s.Wf → (probeRun (s.begin .probe)).2.Wf := fun hs => (probeRun_returns _).wf (hs.begin _)
  unfold execProbe at h
  dsimp only at h
  split at h <;> obtain rfl := Host.Outcome.next.inj h <;> exact .finish hw _ _

theorem openRest_comesTo (h : openRest s = .next t) : s.ComesTo [] t := by
  have hc : s.Wf → (markConfigured (phyConfigureRun (s.call .phyConfigure (.to 4))).2).Wf :=
    fun hs => markConfigured_wf (phyConfigureRun_wf (hs.call _ _))
  unfold openRest at h
  dsimp only at h
  split at h <;> obtain rfl := Host.Outcome.next.inj h
  · exact .finish hc _ _
  · exact ⟨fun hs => (enableRun_wf ((writeMac_wf (wrBank_wf (hc hs) _ _) _).call _ _)).finishWith _,
      .inl (finishWith_over _ _)⟩

theorem openAfterReset_comesTo (h : openAfterReset s = .next t) : s.ComesTo [] t :=
  (openRest_comesTo h).after resetTail_wf

theorem execOpen_comesTo (h : execOpen s = .next t) : s.ComesTo [(.openWait, waitPoint .openOp .openWait)] t := by
  have hp : (s.begin .openOp).Within (probeRun ((s.begin .openOp).call .probe (.to 2))).2 := .of_call (probeRun_returns _)
  have hw : s.Wf → _ := fun hs => hp.wf (hs.begin _)
  unfold execOpen at h
  dsimp only at h
  split at h
  · have hr := waitIdle_comesTo (resetHead_within _) rfl (fun _ hv hf => (openAfterReset_comesTo hf).after hv.wf) h
    simp only [State.call_eng, polledFrom, advancePoint_to, hp.goesTo] at hr
    exact hr.after fun hs => (hw hs).call _ _
  · obtain rfl := Host.Outcome.next.inj h
    exact .finish hw _ _

theorem execClose_comesTo (h : execClose s = .next t) : s.ComesTo [] t := by
  obtain rfl := Host.Outcome.next.inj h
  exact .finish (fun hs => shutdownRun_wf ((hs.begin _).call _ _)) _ _

end

end Sys2Proof.Machine
end

section
/-! PROOFS. Where every operation and every round of a wait leaves the machine: O9, O10 and O11 (spec/10_state.md R60, R63,
R75). -/

namespace Sys2Proof.Machine

/-! ## Every operation -/

/-- The waits `ws` are waits of operation `i`, each with the sequencer where the operation waits there. -/
def waitsOf (i : Instr) (ws : Waits) : Prop := ∀ p l, (p, l) ∈ ws → p ≠ .idle ∧ standsAt i p ∧ l = waitPoint i p

theorem waitsOf_nil (i : Instr) : waitsOf i [] := fun _ _ h => absurd h List.not_mem_nil

theorem waitsOf_singleton {i : Instr} (p : SeqPos) (hp : p ≠ .idle) (hs : standsAt i p) :
    waitsOf i [(p, waitPoint i p)] := by
  intro q l h
  obtain ⟨rfl, rfl⟩ : q = p ∧ l = waitPoint i p := by simpa using h
  exact ⟨hp, hs, rfl⟩

theorem waitsOf_txWaits (len : Word) :
    waitsOf (.transmit len) (txWaits (max len.toNat 60) [atStep (.transmit len) 1]) := by
  intro p l h
  simp only [txWaits, List.mem_cons, Prod.mk.injEq, List.not_mem_nil, or_false] at h
  rcases h with ⟨rfl, rfl⟩ | ⟨rfl, rfl⟩ | ⟨rfl, rfl⟩
  · exact ⟨nofun, ⟨len, rfl, rfl⟩, rfl⟩
  · exact ⟨nofun, ⟨len, rfl, rfl⟩, rfl⟩
  · exact ⟨nofun, ⟨len, rfl⟩, rfl⟩

theorem waitsOf_rxWaits (o : RxOutcome) : waitsOf .receive (rxWaits o [atStep .receive 1]) := by
  intro p l h
  simp only [rxWaits, List.mem_cons, Prod.mk.injEq, List.not_mem_nil, or_false] at h
  rcases h with ⟨rfl, rfl⟩ | ⟨rfl, rfl⟩ <;> exact ⟨nofun, rfl, rfl⟩

/-- Every operation keeps the canonical forms and comes to its end or to one of its own waits. -/
theorem exec_comesTo {i : Instr} {s t : State} (h : exec i s = .next t) : ∃ ws, waitsOf i ws ∧ s.ComesTo ws t := by
  have atEnd : s.ComesTo [] t → ∃ ws, waitsOf i ws ∧ s.ComesTo ws t := fun h => ⟨[], waitsOf_nil i, h⟩
  cases i with
  | selectBank n => exact atEnd (execSelectBank_comesTo h)
  | readByte off => exact atEnd (execReadByte_comesTo h)
  | readWord off => exact atEnd (execReadWord_comesTo h)
  | readLong off => exact atEnd (execReadLong_comesTo h)
  | writeByte off v => exact atEnd (execWriteByte_comesTo h)
  | writeWord off v => exact atEnd (execWriteWord_comesTo h)
  | writeLong off v => exact atEnd (execWriteLong_comesTo h)
  | readBlock off count => exact atEnd (execReadBlock_comesTo h)
  | writeBlock off count => exact atEnd (execWriteBlock_comesTo h)
  | allocate n => exact atEnd (execAllocate_comesTo h)
  | release => exact ⟨_, waitsOf_singleton .releaseWait nofun rfl, execRelease_comesTo h⟩
  | free p => exact ⟨_, waitsOf_singleton .freeWait nofun ⟨p, rfl⟩, execFree_comesTo h⟩
  | waitMmuIdle => exact ⟨_, waitsOf_singleton .waitIdle nofun rfl, execWaitMmuIdle_comesTo h⟩
  | transmit len => exact ⟨_, waitsOf_txWaits len, execTransmit_comesTo h⟩
  | receive => exact (execReceive_comesTo h).elim fun o ho => ⟨_, waitsOf_rxWaits o, ho⟩
  | miiRead reg => exact atEnd (execMiiRead_comesTo h)
  | miiWrite reg v => exact atEnd (execMiiWrite_comesTo h)
  | phyConfigure => exact atEnd (execPhyConfigure_comesTo h)
  | reset => exact ⟨_, waitsOf_singleton .resetWait nofun rfl, execReset_comesTo h⟩
  | enable => exact atEnd (execEnable_comesTo h)
  | shutdown => exact atEnd (execShutdown_comesTo h)
  | probe => exact atEnd (execProbe_comesTo h)
  | openOp => exact ⟨_, waitsOf_singleton .openWait nofun rfl, execOpen_comesTo h⟩
  | closeOp => exact atEnd (execClose_comesTo h)
  | mmuAlloc n => exact atEnd (issueCommand_comesTo h)
  | mmuReset => exact atEnd (issueCommand_comesTo h)
  | mmuRelease => exact atEnd (issueCommand_comesTo h)
  | mmuFree => exact atEnd (issueCommand_comesTo h)
  | mmuEnqueue => exact atEnd (issueCommand_comesTo h)
  | miiReadFrame phy reg => exact atEnd (execMiiReadFrame_comesTo h)
  | miiWriteFrame phy reg v => exact atEnd (execMiiWriteFrame_comesTo h)

theorem exec_wf {i : Instr} {s t : State} (h : exec i s = .next t) (hs : s.Wf) : t.Wf := by
  obtain ⟨ws, -, hc⟩ := exec_comesTo h
  exact hc.wf hs

/-- Behind an operation it is over, or stands at one of its own waits (R60). -/
theorem exec_stands {i : Instr} {s t : State} (h : exec i s = .next t) :
    t.Over ∨ (t.eng.pos ≠ .idle ∧ standsAt i t.eng.pos ∧ t.eng.point = waitPoint i t.eng.pos) := by
  obtain ⟨ws, hw, hc⟩ := exec_comesTo h
  exact hc.stands.imp id fun hm => hw _ _ hm

/-! ## Every round of a wait -/

/-- Where a round of the loop at `p` may leave the engine, the sequencer at `l` before it: at the loop, or at the next wait of
its rule. -/
def roundWaits (p : SeqPos) (l : List SeqFrame) : Waits :=
  match p with
  | .idle => []
  | .txPoll n => txWaits n l
  | .rxWait o => [(.rxWait o, advancePoint (.to 1) l), (.rxReleaseWait o, polledFrom (.to 17) (advancePoint .ret l))]
  | .irqHang => [(.irqHang, l)]
  | p => [(p, advancePoint (.to 1) l)]

/-- A round of a wait behind which the operation ends. -/
theorem lastWait_comesTo {p : SeqPos} {k : State → Out} {s t : State} (hk : ∀ u, k u = .next t → u.ComesTo [] t)
    (h : waitPoll p k s = .next t) : s.ComesTo [(p, advancePoint (.to 1) s.eng.point)] t := by
  rcases waitPoll_next h with hp | ⟨u, hu, hn⟩
  · exact hp
  · exact ((hk u hn).after hu.wf).mono (List.nil_subset _)

theorem hangRound_eng (s : State) : (hangRound s).eng = s.eng := by
  simp [hangRound]

theorem hangRound_wf {s : State} (h : s.Wf) : (hangRound s).Wf := ((readReg_wf h _).note _).note _

theorem resume_comesTo {s t : State} (hp : s.eng.pos ≠ .idle) (h : resume s = .next t) :
    s.ComesTo (roundWaits s.eng.pos s.eng.point) t := by
  unfold resume at h
  generalize hq : s.eng.pos = p at hp h
  cases p with
  | idle => exact absurd rfl hp
  | waitIdle => exact lastWait_comesTo (fun _ => finishOk_comesTo) h
  | releaseWait => exact lastWait_comesTo (fun _ => finishOk_comesTo) h
  | freeWait => exact lastWait_comesTo (fun _ => finishOk_comesTo) h
  | txPoll n => exact txPollRound_comesTo h
  | txTimeoutWait => exact lastWait_comesTo (fun _ => txTimedOut_comesTo) h
  | txDoneWait n => exact lastWait_comesTo (fun _ => txDone_comesTo) h
  | rxWait o =>
    rcases waitPoll_next h with hw | ⟨u, hu, hn⟩
    · exact hw.mono (by simp [roundWaits])
    · have hr := (rxRelease_comesTo hn).after hu.wf
      rw [hu.point] at hr
      exact hr.mono (by simp [roundWaits])
  | rxReleaseWait o => exact lastWait_comesTo (fun _ => rxFinish_comesTo) h
  | resetWait => exact lastWait_comesTo (fun _ => resetDone_comesTo) h
  | openWait => exact lastWait_comesTo (fun _ => openAfterReset_comesTo) h
  | irqHang =>
    obtain rfl := Host.Outcome.next.inj h
    exact ⟨hangRound_wf, .inr (by simp [roundWaits, hangRound_eng, hq])⟩

/-- A round of a loop leaves the engine at no other loop than one of `roundWaits`, so never idle there. -/
theorem ne_idle_of_mem_roundWaits {p q : SeqPos} {l m : List SeqFrame} (h : (q, m) ∈ roundWaits p l) : q ≠ .idle := by
  rintro rfl
  cases p <;> simp [roundWaits, txWaits] at h

/-- Where an operation waits, a round of the wait leaves it there or at its next wait, the sequencer at the poll. -/
theorem roundWaits_of_standsAt {i : Instr} {p q : SeqPos} {m : List SeqFrame} (hs : standsAt i p)
    (h : (q, m) ∈ roundWaits p (waitPoint i p)) : standsAt i q ∧ goesOnTo p q ∧ m = waitPoint i q := by
  cases p with
  | idle => exact absurd h List.not_mem_nil
  | txPoll n =>
    obtain ⟨len, rfl, rfl⟩ := hs
    simp only [roundWaits, txWaits, List.mem_cons, Prod.mk.injEq, List.not_mem_nil, or_false] at h
    rcases h with ⟨rfl, rfl⟩ | ⟨rfl, rfl⟩ | ⟨rfl, rfl⟩
    · exact ⟨⟨len, rfl, rfl⟩, .inl rfl, rfl⟩
    · exact ⟨⟨len, rfl, rfl⟩, .inr (.inr (.inl ⟨_, rfl, .inr rfl⟩)), rfl⟩
    · exact ⟨⟨len, rfl⟩, .inr (.inr (.inl ⟨_, rfl, .inl rfl⟩)), rfl⟩
  | rxWait o =>
    obtain rfl := hs
    simp only [roundWaits, List.mem_cons, Prod.mk.injEq, List.not_mem_nil, or_false] at h
    rcases h with ⟨rfl, rfl⟩ | ⟨rfl, rfl⟩
    · exact ⟨rfl, .inl rfl, rfl⟩
    · exact ⟨rfl, .inr (.inr (.inr ⟨o, rfl, rfl⟩)), rfl⟩
  | irqHang => exact hs.elim
  | _ =>
    obtain ⟨rfl, rfl⟩ : _ ∧ _ := by simpa [roundWaits] using h
    exact ⟨hs, .inl rfl, rfl⟩

/-! ## The obligations -/

/-- A step that goes on from a wait and does not end in a hang has come to what `resume` has come to. -/
theorem step_next_of_not_idle {s t : State} (hp : s.eng.pos ≠ .idle) (h : step s = .next t)
    (hh : t.eng.pos ≠ .irqHang) : resume s = .next t := by
  rw [step_of_not_idle hp] at h
  obtain ⟨u, hu, ⟨-, rfl⟩ | ⟨g, -, rfl⟩⟩ := settle_next h
  · exact hu
  · exact absurd rfl hh

theorem exec_lands {i : Instr} {s t : State} (h : exec i s = .next t) :
    standsAt i t.eng.pos ∧ t.eng.point = waitPoint i t.eng.pos ∧ (t.eng.pos = .idle → t.eng.pkt = none) := by
  rcases exec_stands h with ⟨pos, point, pkt⟩ | ⟨ne, stands, point⟩
  · rw [pos]
    exact ⟨trivial, point, fun _ => pkt⟩
  · exact ⟨stands, point, fun h => absurd h ne⟩

theorem step_lands {i : Instr} {s t : State} (hp : s.eng.pos ≠ .idle) (hs : standsAt i s.eng.pos)
    (hl : s.eng.point = waitPoint i s.eng.pos) (h : step s = .next t) (hh : t.eng.pos ≠ .irqHang) :
    standsAt i t.eng.pos ∧ goesOnTo s.eng.pos t.eng.pos ∧ t.eng.point = waitPoint i t.eng.pos ∧
      (t.eng.pos = .idle → t.eng.pkt = none) := by
  rcases (resume_comesTo hp (step_next_of_not_idle hp h hh)).stands with ⟨pos, point, pkt⟩ | hm
  · rw [pos]
    exact ⟨trivial, .inr (.inl rfl), point, fun _ => pkt⟩
  · have hi := ne_idle_of_mem_roundWaits hm
    rw [hl] at hm
    obtain ⟨stands, goes, point⟩ := roundWaits_of_standsAt hs hm
    exact ⟨stands, goes, point, fun h => absurd h hi⟩

/-- Settles O9: `exec_comesTo` says where an operation may stand, `resume_comesTo` where a round of its wait may. -/
theorem sequencerStandsAtItsStep : Obligations.SequencerStandsAtItsStep := by
  refine ⟨fun i s t => exec_lands, fun i s t => step_lands, fun s t h => ?_, fun p s t h => ?_, fun s t h => ?_,
    fun s t h => ?_, fun s t h => ?_, fun len s t h => ?_⟩
  all_goals
    have hs := (exec_lands h).1
    generalize t.eng.pos = q at hs
    cases q <;> simp_all [standsAt]

/-- What a step answers has the invariant, if what its meaning has come to has the canonical forms and, unless it hangs, is
over or not idle. -/
theorem settle_inv {o : Out} {u : State} (h : settle o = .next u)
    (hw : ∀ t, o = .next t → t.Wf ∧ (t.hang = none → t.Over ∨ t.eng.pos ≠ .idle)) : u.Inv := by
  obtain ⟨wf, settled⟩ := settle_wf (fun t ht => (hw t ht).1) h
  obtain ⟨t, rfl, ⟨hn, rfl⟩ | ⟨g, -, rfl⟩⟩ := settle_next h
  · rcases (hw u rfl).2 hn with ⟨-, point, pkt⟩ | hp
    · exact ⟨wf, settled, fun _ => point, fun _ => pkt⟩
    · exact ⟨wf, settled, fun h => absurd h hp, fun h => absurd h hp⟩
  · exact ⟨wf, settled, nofun, nofun⟩

theorem step_inv_of_not_idle {s t : State} (hs : s.Inv) (hp : s.eng.pos ≠ .idle) (h : step s = .next t) : t.Inv := by
  rw [step_of_not_idle hp] at h
  refine settle_inv h fun u hu => ?_
  have hc := resume_comesTo hp hu
  exact ⟨hc.wf hs.wf, fun _ => hc.stands.imp id ne_idle_of_mem_roundWaits⟩

/-- An operation that an idle engine takes: where the agents' first turn hangs it does not start. -/
theorem startOperation_inv {s t : State} (hs : s.Inv) (i : Instr) (buf : Nat) (rest : List Input)
    (h : unlessHung (startOperation i buf rest s) (exec i (startOperation i buf rest s)) = .next t) : t.Inv := by
  have ht : (takeRequest buf rest s).Wf := hs.wf.of_eq rfl rfl rfl rfl rfl rfl rfl rfl
  have hu : (startOperation i buf rest s).Wf := gap_wf (ht.begin i)
  refine settle_inv h fun v hv => ?_
  split at hv
  · rename_i hh
    obtain rfl := Host.Outcome.next.inj hv
    exact ⟨hu, fun hn => by simp [hn] at hh⟩
  · exact ⟨exec_wf hv hu, fun _ => (exec_stands hv).imp id (·.1)⟩

/-- An idle engine's step, whatever it is handed. -/
theorem step_inv_of_idle {s t : State} (hs : s.Inv) (hp : s.eng.pos = .idle) (h : step s = .next t) : t.Inv := by
  unfold step at h
  rw [hp] at h
  dsimp only at h
  split at h
  · refine settle_inv h fun u hu => ?_
    obtain rfl := Host.Outcome.next.inj hu
    exact ⟨gap_wf hs.wf, fun _ => .inl (by
      rw [State.Over, idleStep, gap_eng]; exact ⟨hp, hs.idlePoint hp, hs.idleHandle hp⟩)⟩
  · split at h
    · exact startOperation_inv hs _ _ _ h
    · cases h
  · obtain rfl := Host.Outcome.next.inj h
    exact ⟨hs.wf.of_eq rfl rfl rfl rfl rfl rfl rfl rfl, hs.settled, hs.idlePoint, hs.idleHandle⟩
  · obtain rfl := Host.Outcome.next.inj h
    exact ⟨⟨{ hs.wf.parts with hostMem := Memory.wf_writeBytes _ _ _ hs.wf.parts.hostMem }, hs.wf.hang⟩, hs.settled,
      hs.idlePoint, hs.idleHandle⟩

/-- Settles O10: an idle engine's step by what it is handed, every other one by the round of its wait. -/
theorem stepKeepsInvariant : Obligations.StepKeepsInvariant := by
  intro s t hs h
  by_cases hp : s.eng.pos = .idle
  · exact step_inv_of_idle hs hp h
  · exact step_inv_of_not_idle hs hp h

/-- Power-on has the canonical forms: both memories and the table are empty. -/
theorem reset_wf : State.reset.Wf where
  parts := ⟨Memory.wf_nil, Memory.wf_nil, tableWf_nil, by decide, by decide, by decide⟩
  hang _ h := by simp [State.reset] at h

/-- Settles O11, by the power-on values of log 6 and log 7. -/
theorem resetHasInvariant : Obligations.ResetHasInvariant :=
  ⟨⟨reset_wf, rfl, fun _ => rfl, fun _ => rfl⟩, rfl, rfl, rfl, rfl⟩

end Sys2Proof.Machine
end

section
/-! PROOFS. REGMAP (spec/10_state.md R24, spec/30_encoding.md R126, spec/40_register_bank.md R170): each byte of a register has
one home, and under a layout that keeps its registers apart it is found there and nowhere else. -/

namespace Sys2Proof.Machine

/-! ## The home of each place -/

/-- The bank and the offset of a byte of the window, none for a byte that no register has; no bank stands for every bank. -/
def homeOf (m : Config.RegMap) : Place → Option (Option (BitVec 2) × Nat)
  | .data => some (some m.pb, m.data)
  | .byte .bsr high => some (none, m.bsr + high.toNat)
  | .byte (.sig i) false => if i < m.sigWidth.bytes then some (m.sigBank, m.sig + i) else none
  | .byte .tcr high => some (some m.cb, m.tcr + high.toNat)
  | .byte .rcr high => some (some m.cb, m.rcr + high.toNat)
  | .byte .config high => some (some m.gb, m.config + high.toNat)
  | .byte .ctl high => some (some m.gb, m.ctl + high.toNat)
  | .byte (.mac i) false => if i < 6 then some (some m.macBank, m.mac + i) else none
  | .byte .mmuCmd high => some (some m.pb, m.mmuCmd + high.toNat)
  | .byte .pnr false => some (some m.pb, m.pnr)
  | .byte .arr false => some (some m.pb, m.arr)
  | .byte .fifo high => some (some m.pb, m.fifo + high.toNat)
  | .byte .ptr high => some (some m.pb, m.ptr + high.toNat)
  | .byte .intStatus false => some (some m.pb, m.intStatus)
  | .byte .intAck false => some (some m.pb, m.intAck)
  | .byte .intMask false => some (some m.pb, m.intMask)
  | .byte .mgmt high => some (some m.mb, m.mgmt + high.toNat)
  | .byte _ _ => none

/-- Every slot is its place's home. -/
theorem homeOf_slot {m : Config.RegMap} : ∀ x ∈ slotsOf m, homeOf m x.place = some (x.bank, x.off) := by
  simp +contextual [slotsOf, wordSlots, homeOf, or_imp, forall_and]

/-- The slots of REGMAP are the places at their homes. -/
theorem mem_slotsOf {m : Config.RegMap} {x : Slot} : x ∈ slotsOf m ↔ homeOf m x.place = some (x.bank, x.off) := by
  refine ⟨homeOf_slot x, fun h => ?_⟩
  obtain ⟨bank, off, place⟩ := x
  simp only [slotsOf, wordSlots, List.mem_append, List.mem_map, List.mem_range, List.mem_cons, List.not_mem_nil,
    or_false, Slot.mk.injEq]
  cases place with
  | data => simp_all [homeOf]
  | byte r high => cases r <;> cases high <;> simp_all [homeOf]

/-- A place has its home at `o` of bank `b`. -/
def livesAt (m : Config.RegMap) (b : BitVec 2) (o : Nat) (q : Place) : Prop :=
  ∃ bank off, homeOf m q = some (bank, off) ∧ bank.getD b = b ∧ off = o

theorem livesAt_of_home {m : Config.RegMap} {b c : BitVec 2} {o off : Nat} {q : Place}
    (h : homeOf m q = some (some c, off)) : livesAt m b o q ↔ b = c ∧ o = off := by
  simp [livesAt, h, eq_comm, and_comm]

theorem livesAt_bsr {m : Config.RegMap} {b : BitVec 2} {o : Nat} (high : Bool) :
    livesAt m b o (.byte .bsr high) ↔ o = m.bsr + high.toNat := by
  simp [livesAt, homeOf, eq_comm]

theorem livesAt_sig {m : Config.RegMap} {b : BitVec 2} {o : Nat} (i : Nat) :
    livesAt m b o (.byte (.sig i) false) ↔
      i < m.sigWidth.bytes ∧ o = m.sig + i ∧ (m.sigBank = none ∨ m.sigBank = some b) := by
  cases h : m.sigBank <;> simp [livesAt, homeOf, h, eq_comm, and_comm, and_left_comm, and_assoc]

theorem livesAt_mac {m : Config.RegMap} {b : BitVec 2} {o : Nat} (i : Nat) :
    livesAt m b o (.byte (.mac i) false) ↔ i < 6 ∧ b = m.macBank ∧ o = m.mac + i := by
  simp [livesAt, homeOf, eq_comm, and_comm, and_left_comm, and_assoc]

/-- A place lives where a slot of it shows (R21). -/
theorem livesAt_iff_slot {m : Config.RegMap} {b : BitVec 2} {o : Nat} {q : Place} :
    livesAt m b o q ↔ ∃ x ∈ slotsOf m, x.shows b o ∧ x.place = q := by
  simp only [livesAt, mem_slotsOf, Slot.shows, Bool.and_eq_true, beq_iff_eq]
  constructor
  · rintro ⟨bank, off, h, hb, ho⟩
    exact ⟨⟨bank, off, q⟩, h, ⟨hb, ho⟩, rfl⟩
  · rintro ⟨x, h, ⟨hb, ho⟩, rfl⟩
    exact ⟨x.bank, x.off, h, hb, ho⟩

/-! ## What stands over what -/

/-- The two places that a layout may put over another one: SIG over the upper byte of BSR, INT_ACK over INT_STATUS. -/
inductive Covers : Place → Place → Prop where
  | sig : Covers (.byte (.sig 0) false) (.byte .bsr true)
  | intAck : Covers (.byte .intAck false) (.byte .intStatus false)

/-- Two slots that show at the same byte clash. -/
theorem Slot.clash_of_shows {x y : Slot} {b : BitVec 2} {o : Nat} (hx : x.shows b o) (hy : y.shows b o) : x.clash y := by
  simp only [Slot.shows, Bool.and_eq_true, beq_iff_eq] at hx hy
  obtain ⟨hxb, hxo⟩ := hx
  obtain ⟨hyb, hyo⟩ := hy
  refine ⟨hxo.trans hyo.symm, ?_⟩
  cases hc : x.bank with
  | none => exact .inl rfl
  | some c =>
    cases hd : y.bank with
    | none => exact .inr (.inl rfl)
    | some d =>
      rw [hc, Option.getD_some] at hxb
      rw [hd, Option.getD_some] at hyb
      exact .inr (.inr (by rw [hxb, hyb]))

/-- What REGMAP places at a byte covers whatever else lives there. -/
theorem covers_of_placeAt {m : Config.RegMap} (hm : regsOk m) {b : BitVec 2} {o : Nat} {p q : Place}
    (hp : placeAt m b o = some p) (hq : livesAt m b o q) : p = q ∨ Covers p q := by
  obtain ⟨y, hy, hys, rfl⟩ := livesAt_iff_slot.1 hq
  simp only [placeAt, Option.map_eq_some_iff] at hp
  obtain ⟨x, hx, rfl⟩ := hp
  obtain ⟨hxs, before, behind, hl, hn⟩ := List.find?_eq_some_iff_append.1 hx
  rw [regsOk, hl, List.pairwise_append] at hm
  rw [hl, List.mem_append, List.mem_cons] at hy
  obtain ⟨-, apart, -⟩ := hm
  rcases hy with hy | rfl | hy
  · exact absurd hys (by simpa using hn y hy)
  · exact .inl rfl
  · right
    rcases List.rel_of_pairwise_cons apart hy (Slot.clash_of_shows hxs hys) with ⟨hp, hq⟩ | ⟨hp, hq⟩ <;> rw [hp, hq]
    · exact .sig
    · exact .intAck

theorem placeAt_livesAt {m : Config.RegMap} {b : BitVec 2} {o : Nat} {p : Place} (hp : placeAt m b o = some p) :
    livesAt m b o p := by
  simp only [placeAt, Option.map_eq_some_iff] at hp
  obtain ⟨x, hx, rfl⟩ := hp
  exact livesAt_iff_slot.2 ⟨x, List.mem_of_find?_eq_some hx, by simpa using List.find?_some hx, rfl⟩

/-- `Resolve` in one line: a place is found where it lives and nothing covers it. -/
theorem placeAt_eq_some_iff {m : Config.RegMap} (hm : regsOk m) {b : BitVec 2} {o : Nat} {q : Place} :
    placeAt m b o = some q ↔ livesAt m b o q ∧ ∀ p, Covers p q → ¬ livesAt m b o p := by
  constructor
  · intro h
    refine ⟨placeAt_livesAt h, fun p hc hp => ?_⟩
    rcases covers_of_placeAt hm h hp with rfl | hc'
    · cases hc
    · cases hc <;> cases hc'
  · rintro ⟨hq, hn⟩
    obtain ⟨y, hy, hys, rfl⟩ := livesAt_iff_slot.1 hq
    cases hp : placeAt m b o with
    | none =>
      simp only [placeAt, Option.map_eq_none_iff, List.find?_eq_none] at hp
      exact absurd hys (hp y hy)
    | some p =>
      rcases covers_of_placeAt hm hp hq with rfl | hc
      · rfl
      · exact absurd (placeAt_livesAt hp) (hn p hc)

/-- A place that nothing can cover is found where it lives. -/
theorem placeAt_of_uncovered {m : Config.RegMap} (hm : regsOk m) {b : BitVec 2} {o : Nat} {q : Place}
    (hq : ∀ p, ¬ Covers p q) : placeAt m b o = some q ↔ livesAt m b o q := by
  rw [placeAt_eq_some_iff hm]
  exact and_iff_left fun p hp => absurd hp (hq p)

/-- A place that one other can cover is found where it lives and the other does not. -/
theorem placeAt_of_covered {m : Config.RegMap} (hm : regsOk m) {b : BitVec 2} {o : Nat} {p q : Place}
    (hc : ∀ r, Covers r q ↔ r = p) : placeAt m b o = some q ↔ livesAt m b o q ∧ ¬ livesAt m b o p := by
  rw [placeAt_eq_some_iff hm]
  simp [hc]

/-- The upper byte of BSR stands in every bank, but where SIG stands over it (R126). -/
theorem placeAt_bsr_high {m : Config.RegMap} (hm : regsOk m) {b : BitVec 2} {o : Nat} :
    placeAt m b o = some (.byte .bsr true) ↔
      o = m.bsr + 1 ∧ ¬ (m.sig = m.bsr + 1 ∧ (m.sigBank = none ∨ m.sigBank = some b)) := by
  have hw : 0 < m.sigWidth.bytes := by cases m.sigWidth <;> decide
  rw [placeAt_of_covered hm (p := .byte (.sig 0) false) (fun _ => ⟨by rintro ⟨⟩; rfl, fun h => h ▸ .sig⟩), livesAt_bsr, livesAt_sig]
  refine and_congr_right fun ho => ?_
  simp [ho, hw, eq_comm]

/-- INT_STATUS answers at its own offset, but where INT_ACK has the same (R35, log 48). -/
theorem placeAt_intStatus {m : Config.RegMap} (hm : regsOk m) {b : BitVec 2} {o : Nat} :
    placeAt m b o = some (.byte .intStatus false) ↔ b = m.pb ∧ o = m.intStatus ∧ m.intStatus ≠ m.intAck := by
  rw [placeAt_of_covered hm (p := .byte .intAck false) (fun _ => ⟨by rintro ⟨⟩; rfl, fun h => h ▸ .intAck⟩), livesAt_of_home rfl, livesAt_of_home rfl,
    and_assoc]
  exact and_congr_right fun hb => and_congr_right fun ho => by simp [hb, ho]

/-! ## The obligation -/

/-- The layout of R126 keeps its registers apart. -/
theorem regsOk_defaultRegs : regsOk Config.defaultRegs := by decide +kernel

/-- The words of R131 are five commands. -/
theorem codesOk_defaultCodes : codesOk Config.defaultCodes :=
  ⟨by decide, List.forall_iff_forall_mem.1 (by decide), by decide⟩

/-- Settles O3: under a layout that keeps its registers apart a byte is found where it lives (`placeAt_of_uncovered`), but for the
two that another may cover; the defaults are looked up. -/
theorem regmapPlacesTheRegisters : Obligations.RegmapPlacesTheRegisters := by
  refine ⟨fun m b o hm => ?_, regsOk_defaultRegs, by decide, codesOk_defaultCodes, by decide, ?_⟩
  · have home {c : BitVec 2} {off : Nat} {q : Place} (h : homeOf m q = some (some c, off))
        (hq : ∀ p, ¬ Covers p q := by nofun) : placeAt m b o = some q ↔ b = c ∧ o = off :=
      (placeAt_of_uncovered hm hq).trans (livesAt_of_home h)
    exact ⟨(placeAt_of_uncovered hm (by nofun)).trans (livesAt_bsr false), placeAt_bsr_high hm,
      fun i => (placeAt_of_uncovered hm (by nofun)).trans (livesAt_sig i),
      home rfl, home rfl, home rfl, home rfl, home rfl, home rfl, home rfl, home rfl,
      fun i => (placeAt_of_uncovered hm (by nofun)).trans (livesAt_mac i),
      home rfl, home rfl, home rfl, home rfl, home rfl, home rfl,
      home rfl, home rfl, home rfl, placeAt_intStatus hm, home rfl, home rfl, home rfl, home rfl⟩
  · decide +kernel

end Sys2Proof.Machine
end

section
/-! PROOFS. READ_BYTE and READ_WORD of any register (spec/20_memory.md R85, spec/40_register_bank.md R161, R162): they answer
what the register shows and leave everything but the mark that ALLOC has been seen (log 20). -/

namespace Sys2Proof.Machine

/-! ## What reads leave -/

/-- From `s` to `u` nothing has changed but the mark that ALLOC has been seen, which no read takes away, and the draw
counter. -/
def State.OnlyRead (s u : State) : Prop :=
  ∃ (b : Bool) (n : Nat), (s.chip.arrSeen = true → b = true) ∧ u = (s.setChip { s.chip with arrSeen := b }).bump n

theorem readReg_onlyRead (r : Reg) (s : State) : s.OnlyRead (readReg r s).2 := by
  obtain ⟨n, h⟩ := readReg_state r s
  refine ⟨_, n, fun hs => ?_, h⟩
  cases r <;> simp [readReg, readIntStatus, hs]

theorem State.OnlyRead.trans {s u t : State} (h : s.OnlyRead u) (g : u.OnlyRead t) : s.OnlyRead t := by
  obtain ⟨b, n, hb, rfl⟩ := h
  obtain ⟨c, m, hc, rfl⟩ := g
  exact ⟨c, n + m, fun hs => hc (hb hs), by simp [State.bump, State.setChip, Nat.add_assoc]⟩

/-- What a register shows behind the read of another one it has shown before (R85). -/
theorem State.OnlyRead.shows {s u : State} (h : s.OnlyRead u) {r : Reg} {w : Word} (hw : u.Shows r w) : s.Shows r w := by
  obtain ⟨b, n, hb, rfl⟩ := h
  cases r with
  | arr => exact fun hs => hw (hb hs)
  | _ => exact hw

/-- A read does not see where the sequencer is. -/
theorem readReg_begin (r : Reg) (i : Instr) (s : State) :
    readReg r (s.begin i) = ((readReg r s).1, (readReg r s).2.begin i) := by
  cases r with
  | arr => cases hs : s.chip.arrSeen <;> simp only [readReg, State.begin_chip, hs] <;> rfl
  | _ => rfl

/-! ## The operations -/

/-- Operation `i` ends with value `v`, and with the agents at rest it changes nothing but the mark that ALLOC has been
seen (R85). -/
def State.Answers (s : State) (i : Instr) (v : Nat) : Prop :=
  ∃ t, exec i s = .next t ∧ t.Ended .ok v ∧
    (s.Quiet → t.chip = { s.chip with arrSeen := t.chip.arrSeen } ∧ s.OnlyChip t ∧ s.SamePackets t)

/-- An operation whose one access has read registers answers what the access has read. -/
theorem answers_of_onlyRead {s u : State} {i : Instr} {a : Access} {v : Nat} (h : s.OnlyRead u)
    (he : exec i s = .next ((accessed a (u.begin i)).finish .ok v)) : s.Answers i v := by
  refine ⟨_, he, ⟨rfl, rfl⟩, fun hq => ?_⟩
  obtain ⟨b, n, -, rfl⟩ := h
  unfold accessed
  rw [gap_quiet (by exact hq)]
  exact ⟨rfl, ⟨rfl, rfl, fun _ => rfl, rfl, rfl, rfl, rfl, rfl⟩, fun _ _ => rfl, fun _ => rfl⟩

variable {s : State} {off : Byte} {r q : Reg} {high hq : Bool}

/-- READ_BYTE of a byte of a register answers that byte of a full read of it (R161; log 11 for an upper half). -/
theorem readByte_answers (hp : placeAt s.params.regs s.chip.bank off.toNat = some (.byte r high)) :
    s.Answers (.readByte off) (half high (readReg r s).1).toNat :=
  answers_of_onlyRead (readReg_onlyRead r s) (by
    show execReadByte off s = _
    simp only [execReadByte, winReadByte, readPlace, State.begin_params, State.begin_chip, hp, readReg_begin]
    rfl)

/-- READ_WORD where both bytes are of one register answers a full read of it (R162). -/
theorem readWord_answers (he : off.toNat % 2 = 0)
    (hp : placeAt s.params.regs s.chip.bank off.toNat = some (.byte r high))
    (hp' : placeAt s.params.regs s.chip.bank (off.toNat + 1) = some (.byte r hq)) :
    s.Answers (.readWord off) (readReg r s).1.toNat :=
  answers_of_onlyRead (readReg_onlyRead r s) (by
    show execReadWord off s = _
    simp only [execReadWord, winReadWord, readWordAt, State.begin_params, State.begin_chip, hp, hp', he, if_true,
      readReg_begin]
    rfl)

/-- READ_WORD where the bytes are of two registers answers a byte of each, the lower offset's low (R162, V4). -/
theorem readWord_answers_two (he : off.toNat % 2 = 0) (hne : q ≠ r)
    (hp : placeAt s.params.regs s.chip.bank off.toNat = some (.byte r high))
    (hp' : placeAt s.params.regs s.chip.bank (off.toNat + 1) = some (.byte q hq)) :
    s.Answers (.readWord off)
      (wordOf (half high (readReg r s).1) (half hq (readReg q (readReg r s).2).1)).toNat :=
  answers_of_onlyRead ((readReg_onlyRead r s).trans (readReg_onlyRead q _)) (by
    show execReadWord off s = _
    simp only [execReadWord, winReadWord, readWordAt, State.begin_params, State.begin_chip, hp, hp', he, hne, if_true,
      if_false, readReg_begin]
    rfl)

/-! ## What the answers show -/

/-- READ_BYTE shows a byte of the register (R161). -/
theorem readByte_shows (hb : bitsOk s.params.bits) (hm : has s.chip.mgmt (mdi s.params) = false)
    (hp : placeAt s.params.regs s.chip.bank off.toNat = some (.byte r high)) :
    ∃ w : Word, s.Answers (.readByte off) (half high w).toNat ∧ s.Shows r w :=
  ⟨_, readByte_answers hp, readReg_shows r hb hm⟩

/-- READ_WORD shows the one register, or a byte of each of two (R162). -/
theorem readWord_shows (hb : bitsOk s.params.bits) (hm : has s.chip.mgmt (mdi s.params) = false)
    (he : off.toNat % 2 = 0) (hp : s.RegistersAt off.toNat) :
    ∃ w : Word, s.Answers (.readWord off) w.toNat ∧ s.WordShown off.toNat w := by
  obtain ⟨⟨r, hr, hp⟩, q, hq, hp'⟩ := hp
  by_cases hne : q = r
  · subst hne
    refine ⟨_, readWord_answers he hp hp', fun r' h => ?_, fun r' q' _ _ hrq h h' => ?_⟩
    · obtain ⟨rfl, -⟩ : q = r' ∧ hr = false := by simpa [hp] using h.1
      exact readReg_shows q hb hm
    · obtain ⟨rfl, -⟩ : q = r' ∧ _ := by simpa [hp] using h
      obtain ⟨rfl, -⟩ : q = q' ∧ _ := by simpa [hp'] using h'
      exact absurd rfl hrq
  · refine ⟨_, readWord_answers_two he hne hp hp', fun r' h => ?_, fun r' q' _ _ _ h h' => ?_⟩
    · obtain ⟨rfl, -⟩ : r = r' ∧ hr = false := by simpa [hp] using h.1
      obtain ⟨rfl, -⟩ : q = r ∧ hq = true := by simpa [hp'] using h.2
      exact absurd rfl hne
    · obtain ⟨rfl, rfl⟩ : r = r' ∧ hr = _ := by simpa [hp] using h
      obtain ⟨rfl, rfl⟩ : q = q' ∧ hq = _ := by simpa [hp'] using h'
      have ho := readReg_onlyRead r s
      exact ⟨_, _, readReg_shows r hb hm, ho.shows (readReg_shows q (by simpa using hb)
        (by rw [readReg_chip]; simpa using hm)), rfl⟩

/-- The read of BUSY (R192), wherever BITMAP puts it. -/
theorem readReg_mmuCmd_shows (s : State) : s.Shows .mmuCmd (readReg .mmuCmd s).1 := by
  show has (readReg .mmuCmd s).1 (busyBit s.params) = true ↔ _
  rw [readReg_mmuCmd_busy]
  unfold Chip.busy
  rcases s.chip.pending with _ | _ | _ | _ | _ <;> simp

/-- The fields of FIFO do not depend on MGMT, which is taken to be clear here (R32). -/
theorem readReg_fifo_shows (hb : bitsOk s.params.bits) : s.Shows .fifo (readReg .fifo s).1 :=
  readReg_shows .fifo (s := s.setChip { s.chip with mgmt := 0#16 }) hb (has_zero _)

/-- A flag put into a word in which its bit is clear changes no other bit. -/
theorem or_flag_and_not {n : Nat} (w : BitVec n) (i : Fin n) (b : Bool) (h : has w (bit i) = false) :
    (w ||| flag (bit i) b) &&& ~~~bit i = w := by
  rw [has_bit] at h
  apply BitVec.eq_of_getLsbD_eq
  intro k hk
  simp only [BitVec.getLsbD_and, BitVec.getLsbD_or, BitVec.getLsbD_not, getLsbD_flag, getLsbD_bit, hk]
  by_cases e : k = i.val
  · simp only [e, h]; simp
  · simp [e]

/-- A field in the lower byte of a word is that byte's. -/
theorem getField_wordOf_lowByte {k m : Nat} (w : Word) (b : Byte) (h : k + m ≤ 8) :
    getField k m (wordOf (lowByte w) b) = getField k m w := by
  apply BitVec.eq_of_getLsbD_eq
  intro i hi
  have hk : k + i < 8 := by omega
  simp only [getLsbD_getField, wordOf, lowByte, BitVec.getLsbD_append, BitVec.getLsbD_extractLsb', hk]
  simp

theorem lowByte_lowWord (l : Long) : lowByte (lowWord l) = sigByte l 0 := by
  apply BitVec.eq_of_getLsbD_eq
  intro i hi
  simp [lowByte, lowWord, sigByte, hi]

/-- BSR with SIG over its upper byte: SIG there, and BANK where it lies in the lower byte (R22, R126). -/
theorem readWord_bsr_sig (he : off.toNat % 2 = 0)
    (hp : placeAt s.params.regs s.chip.bank off.toNat = some (.byte .bsr false))
    (hp' : placeAt s.params.regs s.chip.bank (off.toNat + 1) = some (.byte (.sig 0) false)) :
    ∃ v : Word, s.Answers (.readWord off) v.toNat ∧ highByte v = lowByte (lowWord s.chip.sig) ∧
      (s.params.bits.bank.val + 2 ≤ 8 → v.extractLsb' s.params.bits.bank.val 2 = s.chip.bank) := by
  refine ⟨_, readWord_answers_two he (by simp) hp hp', ?_, fun hk => ?_⟩
  · rw [highByte_wordOf, lowByte_lowWord]
    exact lowByte_setWidth _
  · exact (getField_wordOf_lowByte _ _ hk).trans (bankOf_bsrWord s.params s.chip _)

/-- MGMT: the stored bits, and MDI as the pin is (R37, R260, R261). -/
theorem readWord_mgmt (he : off.toNat % 2 = 0) (hp : s.WordAt off.toNat .mgmt)
    (hm : has s.chip.mgmt (mdi s.params) = false) :
    ∃ v : Word, s.Answers (.readWord off) v.toNat ∧ v &&& ~~~mdi s.params = s.chip.mgmt ∧
      (has s.chip.mgmt (mdoe s.params) = true → has v (mdi s.params) = has s.chip.mgmt (mdo s.params)) ∧
      ∀ b, has s.chip.mgmt (mdoe s.params) = false → s.phy.drive = some b → has v (mdi s.params) = b := by
  have hv : has (readReg .mgmt s).1 (mdi s.params) =
      pinLevel s.params s.chip.mgmt s.phy.drive (Config.freeBit s.env.draw) := has_or_flag _ _ _ hm
  refine ⟨_, readWord_answers he hp.1 hp.2, or_flag_and_not _ _ _ hm, fun h => ?_, fun b h hd => ?_⟩
  · rw [hv]; simp [pinLevel, h]
  · rw [hv]; simp [pinLevel, h, hd]

/-! ## The obligation -/

/-- An answer that shows something, as the statements put it. -/
theorem State.Answers.shown {i : Instr} {p : Word → Prop} {f : Word → Nat} (h : ∃ w, s.Answers i (f w) ∧ p w) :
    ∃ (t : State) (w : Word), exec i s = .next t ∧ t.Ended .ok (f w) ∧ p w ∧
      (s.Quiet → t.chip = { s.chip with arrSeen := t.chip.arrSeen } ∧ s.OnlyChip t ∧ s.SamePackets t) := by
  obtain ⟨w, ⟨t, he, hd, hq⟩, hw⟩ := h
  exact ⟨t, w, he, hd, hw, hq⟩

theorem State.Answers.shown_word {i : Instr} {p : Word → Prop} (h : ∃ w, s.Answers i w.toNat ∧ p w) :
    ∃ (t : State) (w : Word), exec i s = .next t ∧ t.Ended .ok w.toNat ∧ p w := by
  obtain ⟨w, ⟨t, he, hd, -⟩, hw⟩ := h
  exact ⟨t, w, he, hd, hw⟩

/-- Settles O23: the operations answer a full read of the register, or a byte of each of two, and `readReg_shows` says what
such a read shows; BSR, MMU_CMD and MGMT need no premise on BITMAP. -/
theorem readWordShowsTheFlags : Obligations.ReadWordShowsTheFlags :=
  ⟨fun _ _ _ _ hb hm hp => State.Answers.shown (readByte_shows hb hm hp),
    fun _ _ hb hm he hp => State.Answers.shown (readWord_shows hb hm he hp),
    fun _ _ he hp => State.Answers.shown_word ⟨_, readWord_answers he hp.1 hp.2, readReg_bsr_bank _⟩,
    fun _ _ he hp hp' => State.Answers.shown_word (readWord_bsr_sig he hp hp'),
    fun s _ he hp => State.Answers.shown_word ⟨_, readWord_answers he hp.1 hp.2, readReg_mmuCmd_shows s⟩,
    fun _ _ hb he hp => State.Answers.shown_word ⟨_, readWord_answers he hp.1 hp.2, readReg_fifo_shows hb⟩,
    fun _ _ he hp hm => State.Answers.shown_word (readWord_mgmt he hp hm)⟩

end Sys2Proof.Machine
end

section
/-! PROOFS. Single accesses through the window: the ones that meet no register (spec/20_memory.md R82,
spec/40_register_bank.md R170), and those of DATA (spec/20_memory.md R83, R86 to R92), which a buffer answers or none does. -/

namespace Sys2Proof.Machine

variable {s t : State} {i : Instr} {off : Byte} {o w : Nat} {b : BitVec 2} {p : Pkt} {e : Entry} {reading : Bool}

/-! ## Words without a register (R162, R165, R170) -/

theorem readWordAt_of_noWordAt (h : noWordAt s.params.regs b o) : readWordAt b o s = .error .noRegister := by
  unfold readWordAt
  rcases h with h | ⟨hd, h⟩
  · simp only [h]
  · rcases hp : placeAt s.params.regs b o with _ | _ | ⟨r, high⟩
    · rfl
    · exact absurd hp hd
    · rcases h with h | h <;> simp only [h]

theorem writeWordAt_of_noWordAt (v : Word) (h : noWordAt s.params.regs b o) :
    writeWordAt b o v s = .error .noRegister := by
  unfold writeWordAt
  rcases h with h | ⟨hd, h⟩
  · simp only [h]
  · rcases hp : placeAt s.params.regs b o with _ | _ | ⟨r, high⟩
    · rfl
    · exact absurd hp hd
    · rcases h with h | h <;> simp only [h]

/-- Where DATA does not stand, a word is one that nothing answers or two bytes of registers. -/
theorem noWordAt_or_registers (m : Config.RegMap) (hd : placeAt m b o ≠ some .data) :
    noWordAt m b o ∨ ∃ r q hr hq, placeAt m b o = some (.byte r hr) ∧ placeAt m b (o + 1) = some (.byte q hq) := by
  rcases hp : placeAt m b o with _ | _ | ⟨r, hr⟩
  · exact .inl (.inl hp)
  · exact absurd hp hd
  · rcases hp' : placeAt m b (o + 1) with _ | _ | ⟨q, hq⟩
    · exact .inl (.inr ⟨hd, .inl hp'⟩)
    · exact .inl (.inr ⟨hd, .inr hp'⟩)
    · exact .inr ⟨r, q, hr, hq, rfl, rfl⟩

/-- A read of registers is not refused. -/
theorem readWordAt_of_registers {r q : Reg} {hr hq : Bool} (hp : placeAt s.params.regs b o = some (.byte r hr))
    (hp' : placeAt s.params.regs b (o + 1) = some (.byte q hq)) : ∃ x, readWordAt b o s = .ok x := by
  simp only [readWordAt, hp, hp']
  split <;> exact ⟨_, rfl⟩

theorem writeReg_of_ne_mmuCmd {r : Reg} (v : Word) (s : State) (h : r ≠ .mmuCmd) : writeReg r v s = .ok (setReg r v s) := by
  cases r with
  | mmuCmd => exact absurd rfl h
  | _ => rfl

/-- A write of registers is not refused where none of them is MMU_CMD. -/
theorem writeWordAt_of_registers {r q : Reg} {hr hq : Bool} (v : Word) (hp : placeAt s.params.regs b o = some (.byte r hr))
    (hp' : placeAt s.params.regs b (o + 1) = some (.byte q hq)) (hnr : r ≠ .mmuCmd) (hnq : q ≠ .mmuCmd) :
    ∃ u, writeWordAt b o v s = .ok u := by
  simp only [writeWordAt, hp, hp', writePlace, writeReg_of_ne_mmuCmd _ _ hnr, writeReg_of_ne_mmuCmd _ _ hnq]
  split <;> exact ⟨_, rfl⟩

/-- READ_LONG of which a word has no register (U1). -/
theorem winReadLong_of_noWordAt (ha : o % 4 = 0) (hd : ¬ s.DataAt o)
    (h : noWordAt s.params.regs s.chip.bank o ∨ noWordAt s.params.regs s.chip.bank (o + 2)) :
    winReadLong o s = .error .noRegister := by
  simp only [winReadLong, if_pos ha, if_neg hd]
  rcases noWordAt_or_registers s.params.regs hd with hn | ⟨r, q, hr, hq, hp, hp'⟩
  · rw [readWordAt_of_noWordAt hn]
  · obtain ⟨⟨v, u⟩, hu⟩ := readWordAt_of_registers hp hp'
    have hps : u.params = s.params := congrArg Steady.params (readWordAt_steady hu)
    rcases h with h | h
    · rw [readWordAt_of_noWordAt h]
    · simp only [hu, readWordAt_of_noWordAt (s := u) (by rw [hps]; exact h)]

/-- WRITE_LONG of which a word has no register (U1); where it is the upper one the lower word is no command, which could be
refused for its own sake. -/
theorem winWriteLong_of_noWordAt (v : Long) (ha : o % 4 = 0) (hd : ¬ s.DataAt o)
    (h : noWordAt s.params.regs s.chip.bank o ∨ noWordAt s.params.regs s.chip.bank (o + 2) ∧
      ∀ high, placeAt s.params.regs s.chip.bank o ≠ some (.byte .mmuCmd high) ∧
        placeAt s.params.regs s.chip.bank (o + 1) ≠ some (.byte .mmuCmd high)) :
    winWriteLong o v s = .error .noRegister := by
  simp only [winWriteLong, if_pos ha, if_neg hd]
  rcases h with h | ⟨h, hm⟩
  · rw [writeWordAt_of_noWordAt _ h]
  · rcases noWordAt_or_registers s.params.regs hd with hn | ⟨r, q, hr, hq, hp, hp'⟩
    · rw [writeWordAt_of_noWordAt _ hn]
    · obtain ⟨u, hu⟩ := writeWordAt_of_registers (lowWord v) hp hp' (fun hr => (hm _).1 (hr ▸ hp))
        (fun hq => (hm _).2 (hq ▸ hp'))
      have hps : u.params = s.params := congrArg Steady.params (writeWordAt_steady hu)
      simp only [hu, writeWordAt_of_noWordAt (s := u) _ (by rw [hps]; exact h)]

/-! ## The operations there -/

theorem readWord_of_odd (h : off.toNat % 2 ≠ 0) : exec (.readWord off) s = .refused .misaligned := by
  simp [exec, execReadWord, winReadWord, h]

theorem writeWord_of_odd (v : Word) (h : off.toNat % 2 ≠ 0) : exec (.writeWord off v) s = .refused .misaligned := by
  simp [exec, execWriteWord, winWriteWord, h]

theorem readLong_of_misaligned (h : off.toNat % 4 ≠ 0) : exec (.readLong off) s = .refused .misaligned := by
  simp [exec, execReadLong, winReadLong, h]

theorem writeLong_of_misaligned (v : Long) (h : off.toNat % 4 ≠ 0) : exec (.writeLong off v) s = .refused .misaligned := by
  simp [exec, execWriteLong, winWriteLong, h]

theorem readByte_of_none (h : placeAt s.params.regs s.chip.bank off.toNat = none) :
    exec (.readByte off) s = .refused .noRegister := by
  simp [exec, execReadByte, winReadByte, h]

theorem writeByte_of_none (v : Byte) (h : placeAt s.params.regs s.chip.bank off.toNat = none) :
    exec (.writeByte off v) s = .refused .noRegister := by
  simp [exec, execWriteByte, winWriteByte, h]

theorem readWord_of_noWordAt (he : off.toNat % 2 = 0) (h : noWordAt s.params.regs s.chip.bank off.toNat) :
    exec (.readWord off) s = .refused .noRegister := by
  have hr := readWordAt_of_noWordAt (s := s.begin (.readWord off)) h
  simp [exec, execReadWord, winReadWord, he, hr]

theorem writeWord_of_noWordAt (v : Word) (he : off.toNat % 2 = 0) (h : noWordAt s.params.regs s.chip.bank off.toNat) :
    exec (.writeWord off v) s = .refused .noRegister := by
  have hw := writeWordAt_of_noWordAt (s := s.begin (.writeWord off v)) v h
  simp [exec, execWriteWord, winWriteWord, he, hw]

theorem readLong_of_noWordAt (ha : off.toNat % 4 = 0) (hd : ¬ s.DataAt off.toNat)
    (h : noWordAt s.params.regs s.chip.bank off.toNat ∨ noWordAt s.params.regs s.chip.bank (off.toNat + 2)) :
    exec (.readLong off) s = .refused .noRegister := by
  have hr := winReadLong_of_noWordAt (s := s.begin (.readLong off)) ha hd h
  simp [exec, execReadLong, hr]

theorem writeLong_of_noWordAt (v : Long) (ha : off.toNat % 4 = 0) (hd : ¬ s.DataAt off.toNat)
    (h : noWordAt s.params.regs s.chip.bank off.toNat ∨ noWordAt s.params.regs s.chip.bank (off.toNat + 2) ∧
      ∀ high, placeAt s.params.regs s.chip.bank off.toNat ≠ some (.byte .mmuCmd high) ∧
        placeAt s.params.regs s.chip.bank (off.toNat + 1) ≠ some (.byte .mmuCmd high)) :
    exec (.writeLong off v) s = .refused .noRegister := by
  have hw := winWriteLong_of_noWordAt (s := s.begin (.writeLong off v)) v ha hd h
  simp [exec, execWriteLong, hw]

theorem not_dataAt_of_noWordAt (h : noWordAt s.params.regs s.chip.bank o) : ¬ s.DataAt o := by
  rcases h with h | ⟨h, -⟩
  · simp [State.DataAt, h]
  · exact h

/-- By default RCR stands at offset 4 of bank 0 and nothing behind it (R126). -/
theorem defaultRegs_bank0_at4 : placeAt Config.defaultRegs 0#2 4 = some (.byte .rcr false) ∧
    placeAt Config.defaultRegs 0#2 5 = some (.byte .rcr true) ∧ placeAt Config.defaultRegs 0#2 6 = none := by decide

/-- Settles O30: a word that no register answers is refused wherever it stands in an access. -/
theorem badOffsetsAreRefused : Obligations.BadOffsetsAreRefused := by
  refine ⟨fun s off v h => ?_, fun s off v h => ⟨readLong_of_misaligned h, writeLong_of_misaligned v h⟩,
    fun s off v h => ⟨readByte_of_none h, writeByte_of_none v h⟩,
    fun s off v he h => ⟨readWord_of_noWordAt he h, writeWord_of_noWordAt v he h⟩,
    fun s off v ha h => ⟨readLong_of_noWordAt ha (not_dataAt_of_noWordAt h) (.inl h),
      writeLong_of_noWordAt v ha (not_dataAt_of_noWordAt h) (.inl h)⟩,
    fun s off ha hd h => readLong_of_noWordAt ha hd (.inr h),
    fun s off v ha hd hm h => writeLong_of_noWordAt v ha hd (.inr ⟨h, hm⟩), fun s hr hb v => ?_⟩
  · have ho : off.toNat % 2 ≠ 0 := by omega
    exact ⟨readWord_of_odd ho, writeWord_of_odd v ho⟩
  · obtain ⟨h4, h5, h6⟩ := defaultRegs_bank0_at4
    have hd : ¬ s.DataAt (0x04 : Byte).toNat := by simp [State.DataAt, hr, hb, h4]
    have hn : noWordAt s.params.regs s.chip.bank 6 := .inl (by rw [hr, hb]; exact h6)
    exact ⟨readLong_of_noWordAt rfl hd (.inr hn), writeLong_of_noWordAt v rfl hd (.inr ⟨hn, by simp [hr, hb, h4, h5]⟩),
      readWord_of_noWordAt rfl hn⟩

/-! ## Which buffer answers an access of DATA (R83, R86 to R92) -/

theorem bank_of_dataAt (h : s.DataAt o) : s.chip.bank = s.params.regs.pb :=
  ((livesAt_of_home rfl).1 (placeAt_livesAt h)).1

theorem State.DataReady.congr (h : s.DataReady p e w reading) (hc : t.chip = s.chip) (hp : t.params = s.params) :
    t.DataReady p e w reading :=
  ⟨by rw [hc, hp]; exact h.bank, by rw [hc, hp]; exact h.target, by rw [hc]; exact h.entry,
    by rw [hc, hp]; exact h.mode, by rw [hc]; exact h.range, by rw [hc]; exact h.aligned⟩

/-- The packet number DATA reaches is the one that `DataReady` names. -/
theorem target_eq_some_iff : s.chip.target s.params = some p ↔
    if has s.chip.ptr (ptrRcv s.params) then s.chip.rxFifo.head? = some p else s.chip.pktSel s.params = p := by
  unfold Chip.target
  split <;> simp

/-- An access that reaches a buffer is ready. -/
theorem dataReady_of_dataEntry (hd : s.DataAt o) (h : s.chip.dataEntry s.params w reading = some e) :
    ∃ p, s.DataReady p e w reading := by
  unfold Chip.dataEntry at h
  split at h
  · cases h
  · rename_i q ht
    split at h
    · cases h
    · rename_i f hf
      split at h
      · rename_i hc
        obtain rfl := Option.some.inj h
        exact ⟨q, bank_of_dataAt hd, target_eq_some_iff.1 ht, hf, hc.1, hc.2.1, hc.2.2⟩
      · cases h

theorem dataEntry_eq_none (hd : s.DataAt o) (h : ¬ ∃ p e, s.DataReady p e w reading) :
    s.chip.dataEntry s.params w reading = none := by
  cases he : s.chip.dataEntry s.params w reading with
  | none => rfl
  | some e =>
    obtain ⟨p, hr⟩ := dataReady_of_dataEntry hd he
    exact absurd ⟨p, e, hr⟩ h

/-- A read of DATA that no buffer answers (U3). -/
theorem dataRead_refused (hd : s.DataAt o) (hs : s.chip.dpStale = false) (h : ¬ ∃ p e, s.DataReady p e w true) :
    dataRead w s = .error .dataAccess := by
  simp [dataRead, dataEntry_eq_none hd h, hs]

/-- A write of DATA that no buffer answers (U3). -/
theorem dataWrite_refused (v : Long) (hd : s.DataAt o) (hs : s.chip.dpStale = false)
    (h : ¬ ∃ p e, s.DataReady p e w false) : dataWrite w v s = .error .dataAccess := by
  simp [dataWrite, dataEntry_eq_none hd h, hs]

/-- No access ends behind the buffer that DATA reaches. -/
theorem not_dataReady_of_beyond (ht : s.chip.target s.params = some p) (hf : findEntry s.chip.table p = some e)
    (hb : e.pages * 256 < s.chip.dp + w) : ¬ ∃ q f, s.DataReady q f w reading := by
  rintro ⟨q, f, h⟩
  obtain rfl : p = q := Option.some.inj (ht.symm.trans (target_eq_some_iff.2 h.target))
  obtain rfl : f = e := Option.some.inj (h.entry.symm.trans hf)
  exact absurd h.range (by omega)

/-! ## The operations at DATA: one access of it each (R161 to R166) -/

/-- Operation `i` is one read of DATA, `w` bytes wide, and answers `f` of what is read. -/
def State.ReadsData (s : State) (i : Instr) (w : Nat) (f : Long → Nat) : Prop :=
  ∃ a : Long → Access, exec i s =
    andThen (dataRead w (s.begin i)) fun r => .next ((accessed (a r.1) r.2).finish .ok (f r.1))

/-- Operation `i` is one write of DATA, the first `w` bytes of `v`. -/
def State.WritesData (s : State) (i : Instr) (w : Nat) (v : Long) : Prop :=
  ∃ a : Access, exec i s = andThen (dataWrite w v (s.begin i)) fun t => .next ((accessed a t).finish .ok 0)

theorem readByte_readsData (hd : s.DataAt off.toNat) :
    s.ReadsData (.readByte off) 1 fun v => (lowByte (lowWord v)).toNat := by
  refine ⟨fun v => .read (readLabel (labelAt off s)) 1 ((lowByte (lowWord v)).setWidth 32), ?_⟩
  show execReadByte off s = _
  simp only [execReadByte, winReadByte, State.begin_params, State.begin_chip, hd, readPlace]
  split <;> simp_all

/-- A word access at DATA is one of DATA (R162, R165). -/
theorem winReadWord_data (he : o % 2 = 0) (hd : s.DataAt o) :
    winReadWord o s = (dataRead 2 s).map fun x => (lowWord x.1, x.2) := by
  simp only [winReadWord, if_pos he, readWordAt, hd]
  cases dataRead 2 s <;> rfl

theorem winWriteWord_data (v : Word) (he : o % 2 = 0) (hd : s.DataAt o) :
    winWriteWord o v s = dataWrite 2 (v.setWidth 32) s := by
  simp only [winWriteWord, if_pos he, writeWordAt, hd]

theorem readWord_readsData (he : off.toNat % 2 = 0) (hd : s.DataAt off.toNat) :
    s.ReadsData (.readWord off) 2 fun v => (lowWord v).toNat := by
  refine ⟨fun v => .read (readLabel (labelAt off s)) 2 ((lowWord v).setWidth 32), ?_⟩
  show execReadWord off s = _
  rw [execReadWord, winReadWord_data (s := s.begin _) he hd]
  cases dataRead 2 (s.begin (.readWord off)) <;> rfl

theorem readLong_readsData (ha : off.toNat % 4 = 0) (hd : s.DataAt off.toNat) :
    s.ReadsData (.readLong off) 4 fun v => v.toNat := by
  refine ⟨fun v => .read (readLabel (labelAt off s)) 4 v, ?_⟩
  show execReadLong off s = _
  simp only [execReadLong, winReadLong, if_pos ha, State.begin_params, State.begin_chip, hd, if_true]

theorem writeByte_writesData (v : Byte) (hd : s.DataAt off.toNat) :
    s.WritesData (.writeByte off v) 1 (v.setWidth 32) := by
  refine ⟨.write (labelAt off s) 1 (v.setWidth 32), ?_⟩
  show execWriteByte off v s = _
  simp only [execWriteByte, winWriteByte, State.begin_params, State.begin_chip, hd, writePlace]

theorem writeWord_writesData (v : Word) (he : off.toNat % 2 = 0) (hd : s.DataAt off.toNat) :
    s.WritesData (.writeWord off v) 2 (v.setWidth 32) := by
  refine ⟨.write (labelAt off s) 2 (v.setWidth 32), ?_⟩
  show execWriteWord off v s = _
  rw [execWriteWord, winWriteWord_data (s := s.begin _) v he hd]

theorem writeLong_writesData (v : Long) (ha : off.toNat % 4 = 0) (hd : s.DataAt off.toNat) :
    s.WritesData (.writeLong off v) 4 v := by
  refine ⟨.write (labelAt off s) 4 v, ?_⟩
  show execWriteLong off v s = _
  simp only [execWriteLong, winWriteLong, if_pos ha, State.begin_params, State.begin_chip, hd, if_true]

theorem State.ReadsData.refused {f : Long → Nat} (h : s.ReadsData i w f) (hd : s.DataAt o) (hs : s.chip.dpStale = false)
    (hn : ¬ ∃ p e, s.DataReady p e w true) : exec i s = .refused .dataAccess := by
  obtain ⟨a, h⟩ := h
  rw [h, dataRead_refused (s := s.begin i) hd hs fun ⟨p, e, hr⟩ => hn ⟨p, e, hr.congr rfl rfl⟩]
  rfl

theorem State.WritesData.refused {v : Long} (h : s.WritesData i w v) (hd : s.DataAt o) (hs : s.chip.dpStale = false)
    (hn : ¬ ∃ p e, s.DataReady p e w false) : exec i s = .refused .dataAccess := by
  obtain ⟨a, h⟩ := h
  rw [h, dataWrite_refused (s := s.begin i) v hd hs fun ⟨p, e, hr⟩ => hn ⟨p, e, hr.congr rfl rfl⟩]
  rfl

/-- Settles O33: an access that reaches a buffer is ready, so one that is not ready reaches none. -/
theorem badDataAccessesAreRefused : Obligations.BadDataAccessesAreRefused :=
  ⟨fun _ _ v hd hs => ⟨(readByte_readsData hd).refused hd hs, (writeByte_writesData v hd).refused hd hs⟩,
    fun _ _ v hd hs he => ⟨(readWord_readsData he hd).refused hd hs, (writeWord_writesData v he hd).refused hd hs⟩,
    fun _ _ v hd hs ha => ⟨(readLong_readsData ha hd).refused hd hs, (writeLong_writesData v ha hd).refused hd hs⟩,
    fun s _ _ p _ hf hr hp hb => not_dataReady_of_beyond (target_eq_some_iff.2 (by simpa [hr] using hp)) hf hb⟩

/-! ## What an access of DATA leaves -/

/-- Operation `i` ends with value `v`, and with the agents at rest it leaves the chip unit as `c` and nothing else
changed. -/
def State.Leaves (s : State) (i : Instr) (v : Nat) (c : Chip) : Prop :=
  ∃ t, exec i s = .next t ∧ t.Ended .ok v ∧ (s.Quiet → t.chip = c ∧ s.OnlyChip t)

/-- An operation of one access that has changed the chip unit alone. -/
theorem leaves_of_setChip {a : Access} {v : Nat} {c : Chip}
    (h : exec i s = .next ((accessed a ((s.begin i).setChip c)).finish .ok v)) : s.Leaves i v c := by
  refine ⟨_, h, ⟨rfl, rfl⟩, fun hq => ?_⟩
  unfold accessed
  rw [gap_quiet (by exact hq)]
  exact ⟨rfl, rfl, rfl, fun _ => rfl, rfl, rfl, rfl, rfl, rfl⟩

/-- What a ready access of `w` bytes reads. -/
def State.dataLong (s : State) (e : Entry) (w : Nat) : Long :=
  longOf (wordOf (s.chip.dataByte e w 0) (s.chip.dataByte e w 1)) (wordOf (s.chip.dataByte e w 2) (s.chip.dataByte e w 3))

theorem State.ReadsData.leaves {f : Long → Nat} (h : s.ReadsData i w f) (hr : s.DataReady p e w true) :
    s.Leaves i (f (s.dataLong e w)) { s.chip with dp := s.advanced w } := by
  obtain ⟨a, h⟩ := h
  rw [(hr.congr rfl rfl : (s.begin i).DataReady p e w true).dataRead, advance_eq] at h
  exact leaves_of_setChip h

theorem dataLong_byte (s : State) (e : Entry) : lowByte (lowWord (s.dataLong e 1)) = s.chip.bufByte e s.chip.dp := by
  rw [State.dataLong, lowWord_longOf, lowByte_wordOf]
  rfl

theorem dataLong_word (s : State) (e : Entry) :
    lowWord (s.dataLong e 2) = s.chip.bufByte e (s.chip.dp + 1) ++ s.chip.bufByte e s.chip.dp := by
  rw [State.dataLong, lowWord_longOf]
  rfl

theorem dataLong_long (s : State) (e : Entry) :
    s.dataLong e 4 = s.chip.bufByte e (s.chip.dp + 3) ++ s.chip.bufByte e (s.chip.dp + 2) ++
      s.chip.bufByte e (s.chip.dp + 1) ++ s.chip.bufByte e s.chip.dp := by
  unfold State.dataLong longOf wordOf
  rw [BitVec.append_assoc']
  rfl

theorem samePackets_of_chip (ht : t.chip.table = s.chip.table) (hm : t.chip.pktMem = s.chip.pktMem) : s.SamePackets t := by
  refine ⟨fun p o => ?_, fun a => by rw [hm]⟩
  simp only [State.packetByte, Chip.bufByte, ht, hm]

/-- An operation that leaves packet memory alone, as the statements put it. -/
theorem State.Leaves.samePackets {v d : Nat} (h : s.Leaves i v { s.chip with dp := d }) :
    ∃ t, exec i s = .next t ∧ t.Ended .ok v ∧
      (s.Quiet → t.chip = { s.chip with dp := d } ∧ s.OnlyChip t ∧ s.SamePackets t) := by
  obtain ⟨t, he, hv, h⟩ := h
  refine ⟨t, he, hv, fun hq => ?_⟩
  obtain ⟨hc, ho⟩ := h hq
  exact ⟨hc, ho, samePackets_of_chip (by rw [hc]) (by rw [hc])⟩

/-- Settles O31: a ready read answers the bytes at `dp`, lowest first. -/
theorem dataReadReturnsBufferBytes : Obligations.DataReadReturnsBufferBytes :=
  ⟨fun s _ _ e hd hr => dataLong_byte s e ▸ ((readByte_readsData hd).leaves hr).samePackets,
    fun s _ _ e he hd hr => dataLong_word s e ▸ ((readWord_readsData he hd).leaves hr).samePackets,
    fun s _ _ e ha hd hr => dataLong_long s e ▸ ((readLong_readsData ha hd).leaves hr).samePackets⟩

/-! ## What a write of DATA stores -/

/-- The chip unit with bytes stored at `dp` of a buffer, and `dp` somewhere else. -/
def Chip.stored (p : Pkt) (bs : List Byte) (d : Nat) (c : Chip) : Chip :=
  { c with pktMem := c.pktMem.writeBytes (pktAddr p c.dp) bs, dp := d }

theorem pktAddr_add (p : Pkt) (d k : Nat) : pktAddr p (d + k) = pktAddr p d + k := by
  unfold pktAddr
  omega

theorem packetByte_of_read {v : Byte} (hf : findEntry t.chip.table p = some e)
    (hm : t.chip.pktMem.read (pktAddr p o) = some v) : t.packetByte p o = some v := by
  unfold State.packetByte
  rw [hf, Option.map_some, Chip.bufByte, (findEntry_some hf).2, hm]
  rfl

/-- The bytes stored stand in the buffer from `dp` on (R80). -/
theorem packetByte_of_stored {bs : List Byte} {d k : Nat} (hf : findEntry s.chip.table p = some e)
    (hc : t.chip = s.chip.stored p bs d) (hk : k < bs.length) : t.packetByte p (s.chip.dp + k) = some bs[k] := by
  refine packetByte_of_read (e := e) (by rw [hc]; exact hf) ?_
  rw [hc, pktAddr_add]
  simp [Chip.stored, Memory.read_writeBytes, hk]

/-- Every other address of packet memory reads as before. -/
theorem read_of_stored {bs : List Byte} {d a : Nat} (hc : t.chip = s.chip.stored p bs d)
    (ha : a < pktAddr p s.chip.dp ∨ pktAddr p s.chip.dp + bs.length ≤ a) :
    t.chip.pktMem.read a = s.chip.pktMem.read a := by
  rw [hc]
  exact Memory.read_writeBytes_of_out _ _ _ _ ha

theorem State.DataReady.dataWrite_stored (v : Long) (h : s.DataReady p e w false) :
    Machine.dataWrite w v s = .ok (s.setChip (s.chip.stored p (dataBytes w v) (s.advanced w))) := by
  rw [h.dataWrite, (findEntry_some h.entry).2]
  unfold Chip.advance State.advanced
  dsimp only
  split <;> rfl

theorem State.WritesData.leaves {v : Long} (h : s.WritesData i w v) (hr : s.DataReady p e w false) :
    s.Leaves i 0 (s.chip.stored p (dataBytes w v) (s.advanced w)) := by
  obtain ⟨a, h⟩ := h
  rw [(hr.congr rfl rfl : (s.begin i).DataReady p e w false).dataWrite_stored] at h
  exact leaves_of_setChip h

/-- An operation that stores bytes at `dp`, as the statements put it. -/
theorem State.Leaves.stores {bs : List Byte} {d : Nat} (hf : findEntry s.chip.table p = some e)
    (h : s.Leaves i 0 (s.chip.stored p bs d)) :
    ∃ t, exec i s = .next t ∧ t.Ended .ok 0 ∧
      (s.Quiet → (∀ k (hk : k < bs.length), t.packetByte p (s.chip.dp + k) = some bs[k]) ∧
        (∀ a, a < pktAddr p s.chip.dp ∨ pktAddr p s.chip.dp + bs.length ≤ a →
          t.chip.pktMem.read a = s.chip.pktMem.read a) ∧
        t.chip = { s.chip with pktMem := t.chip.pktMem, dp := d } ∧ s.OnlyChip t) := by
  obtain ⟨t, he, hv, h⟩ := h
  refine ⟨t, he, hv, fun hq => ?_⟩
  obtain ⟨hc, ho⟩ := h hq
  exact ⟨fun k hk => packetByte_of_stored hf hc hk, fun a ha => read_of_stored hc ha, by rw [hc]; rfl, ho⟩

theorem dataBytes_byte (v : Byte) : dataBytes 1 (v.setWidth 32) = [v] := by
  have h : lowByte (lowWord (v.setWidth 32)) = v := by
    apply BitVec.eq_of_getLsbD_eq
    intro k hk
    have : k < 16 ∧ k < 32 := by omega
    simp [lowByte, lowWord, hk, this]
  simp [dataBytes, wordBytes, h]

theorem dataBytes_word (v : Word) : dataBytes 2 (v.setWidth 32) = [lowByte v, highByte v] := by
  simp [dataBytes, wordBytes]

/-- Settles O32: a ready write stores its bytes at `dp`, lowest first. -/
theorem dataWriteStoresBufferBytes : Obligations.DataWriteStoresBufferBytes := by
  refine ⟨fun s off p e v hd hr => ?_, fun s off p e v he hd hr => ?_, fun s off p e v ha hd hr => ?_⟩
  · obtain ⟨t, hx, hv, h⟩ := (dataBytes_byte v ▸ (writeByte_writesData v hd).leaves hr).stores hr.entry
    refine ⟨t, hx, hv, fun hq => ?_⟩
    obtain ⟨hb, hm, hc⟩ := h hq
    exact ⟨hb 0 (by simp), fun a ha => hm a (by simp only [List.length_singleton]; omega), hc⟩
  · obtain ⟨t, hx, hv, h⟩ := (dataBytes_word v ▸ (writeWord_writesData v he hd).leaves hr).stores hr.entry
    refine ⟨t, hx, hv, fun hq => ?_⟩
    obtain ⟨hb, hm, hc⟩ := h hq
    exact ⟨hb 0 (by simp), hb 1 (by simp), hm, hc⟩
  · obtain ⟨t, hx, hv, h⟩ := ((writeLong_writesData v ha hd).leaves hr).stores hr.entry
    refine ⟨t, hx, hv, fun hq => ?_⟩
    obtain ⟨hb, hm, hc⟩ := h hq
    have hl : (dataBytes 4 v).length = 4 := rfl
    exact ⟨hb 0 (by omega), hb 1 (by omega), hb 2 (by omega), hb 3 (by omega), hm, hc⟩

end Sys2Proof.Machine
end

section
/-! PROOFS. What a window access sees and what it leaves alone (spec/20_memory.md R82 to R92): it depends on the parameters,
the chip unit, the PHY, the interrupt context and the draw counter, and of the rest it changes the engine's handle alone. -/

namespace Sys2Proof.Machine

variable {s t u : State} {o : Nat} {v : Word}

/-- `r` with what a window access sees of `s`. -/
def State.beside (r s : State) : State :=
  { r with params := s.params, chip := s.chip, phy := s.phy, irq := s.irq, env := { r.env with draw := s.env.draw } }

/-! ## Reads -/

theorem readReg_beside (r : State) (q : Reg) (s : State) :
    readReg q (r.beside s) = ((readReg q s).1, r.beside (readReg q s).2) := by
  cases q with
  | arr =>
    show (if s.chip.arrSeen = true then _ else _) = _
    cases hs : s.chip.arrSeen <;> simp only [readReg, hs] <;> rfl
  | _ => rfl

theorem dataRead_beside (r : State) (w : Nat) (s : State) :
    dataRead w (r.beside s) = (dataRead w s).map fun x => (x.1, r.beside x.2) := by
  unfold dataRead
  rw [show (r.beside s).chip = s.chip from rfl, show (r.beside s).params = s.params from rfl]
  cases s.chip.dataEntry s.params w true with
  | some e => rfl
  | none => dsimp only; split <;> rfl

theorem readWordAt_beside (r : State) (b : BitVec 2) (o : Nat) (s : State) :
    readWordAt b o (r.beside s) = (readWordAt b o s).map fun x => (x.1, r.beside x.2) := by
  unfold readWordAt
  rw [show (r.beside s).params = s.params from rfl, dataRead_beside]
  rcases placeAt s.params.regs b o with _ | _ | ⟨q, hq⟩
  · rfl
  · cases dataRead 2 s <;> rfl
  · rcases placeAt s.params.regs b (o + 1) with _ | _ | ⟨q', hq'⟩
    · rfl
    · rfl
    · simp only [readReg_beside]
      split <;> rfl

theorem winReadWord_beside (r : State) (o : Nat) (s : State) :
    winReadWord o (r.beside s) = (winReadWord o s).map fun x => (x.1, r.beside x.2) := by
  unfold winReadWord
  split
  · exact readWordAt_beside r _ o s
  · rfl

/-! ## Writes -/

theorem phyEdge_beside (r : State) (d : Drive) (s : State) : phyEdge d (r.beside s) = r.beside (phyEdge d s) := by
  unfold phyEdge
  rw [apply_ite r.beside]
  rfl

theorem setReg_beside (r : State) (q : Reg) (v : Word) (s : State) : setReg q v (r.beside s) = r.beside (setReg q v s) := by
  cases q with
  | rcr => simp only [setReg]; rw [apply_ite r.beside]; rfl
  | config => simp only [setReg]; rw [apply_ite r.beside]; rfl
  | mgmt => simp only [setReg, mgmtWrite]; rw [apply_ite r.beside, ← phyEdge_beside]; rfl
  | _ => rfl

theorem dataWrite_beside (r : State) (w : Nat) (v : Long) (s : State) :
    dataWrite w v (r.beside s) = (dataWrite w v s).map r.beside := by
  unfold dataWrite
  rw [show (r.beside s).chip = s.chip from rfl, show (r.beside s).params = s.params from rfl]
  cases s.chip.dataEntry s.params w false with
  | some e => rfl
  | none => dsimp only; split <;> rfl

/-- A command changes the handle besides (R186). -/
theorem mmuWrite_beside (r : State) (v : Word) (s : State) :
    ∃ h, mmuWrite v (r.beside s) = (mmuWrite v s).map (r.setPkt h).beside := by
  unfold mmuWrite
  rw [show (r.beside s).params = s.params from rfl, show (r.beside s).chip = s.chip from rfl]
  rcases decodeMmuCode s.params.codes v with _ | k
  · exact ⟨none, rfl⟩
  · refine ⟨handleAfter k r.eng.pkt, ?_⟩
    dsimp only
    cases mmuGuard k s.params s.chip <;> rfl

theorem writeReg_beside (r : State) (q : Reg) (v : Word) (s : State) :
    ∃ h, writeReg q v (r.beside s) = (writeReg q v s).map (r.setPkt h).beside := by
  by_cases hq : q = .mmuCmd
  · subst hq
    exact mmuWrite_beside r v s
  · refine ⟨r.eng.pkt, ?_⟩
    rw [writeReg_of_ne_mmuCmd _ _ hq, writeReg_of_ne_mmuCmd _ _ hq, setReg_beside]
    rfl

theorem writePlace_beside (r : State) (p : Place) (v : Byte) (s : State) :
    ∃ h, writePlace p v (r.beside s) = (writePlace p v s).map (r.setPkt h).beside := by
  cases p with
  | data => exact ⟨r.eng.pkt, dataWrite_beside r 1 _ s⟩
  | byte q high => exact writeReg_beside r q _ s

theorem writeWordAt_beside (r : State) (b : BitVec 2) (o : Nat) (v : Word) (s : State) :
    ∃ h, writeWordAt b o v (r.beside s) = (writeWordAt b o v s).map (r.setPkt h).beside := by
  unfold writeWordAt
  rw [show (r.beside s).params = s.params from rfl]
  rcases placeAt s.params.regs b o with _ | _ | ⟨q, hq⟩
  · exact ⟨none, rfl⟩
  · exact ⟨r.eng.pkt, dataWrite_beside r 2 _ s⟩
  · rcases placeAt s.params.regs b (o + 1) with _ | _ | ⟨q', hq'⟩
    · exact ⟨none, rfl⟩
    · exact ⟨none, rfl⟩
    · dsimp only
      split
      · exact writeReg_beside r q v s
      · obtain ⟨h, hl⟩ := writePlace_beside r (.byte q hq) (lowByte v) s
        rw [hl]
        cases writePlace (.byte q hq) (lowByte v) s with
        | error e => exact ⟨none, rfl⟩
        | ok t => exact writePlace_beside (r.setPkt h) (.byte q' hq') (highByte v) t

theorem winWriteWord_beside (r : State) (o : Nat) (v : Word) (s : State) :
    ∃ h, winWriteWord o v (r.beside s) = (winWriteWord o v s).map (r.setPkt h).beside := by
  unfold winWriteWord
  split
  · exact writeWordAt_beside r _ o v s
  · exact ⟨none, rfl⟩

/-! ## What an access leaves alone -/

/-- From `s` to `t` nothing has changed of what no window access sees, but for the sequencer's position and the handle. -/
structure State.Aside (s t : State) : Prop where
  eng : t.eng = { s.eng with point := t.eng.point, pkt := t.eng.pkt }
  hostMem : t.hostMem = s.hostMem
  inbox : t.inbox = s.inbox
  tape : t.env.tape = s.env.tape
  sent : t.env.sent = s.env.sent
  hang : t.hang = s.hang

theorem State.Aside.refl (s : State) : s.Aside s := ⟨rfl, rfl, rfl, rfl, rfl, rfl⟩

theorem State.Aside.trans (h : s.Aside t) (g : t.Aside u) : s.Aside u where
  eng := by rw [g.eng, h.eng]
  hostMem := g.hostMem.trans h.hostMem
  inbox := g.inbox.trans h.inbox
  tape := g.tape.trans h.tape
  sent := g.sent.trans h.sent
  hang := g.hang.trans h.hang

theorem winReadWord_aside (h : winReadWord o s = .ok (v, t)) : s.Aside t := by
  have hs : winReadWord o s = (winReadWord o s).map fun x => (x.1, s.beside x.2) := winReadWord_beside s o s
  rw [h] at hs
  have ht : t = s.beside t := congrArg Prod.snd (Except.ok.inj hs)
  rw [ht]
  exact ⟨rfl, rfl, rfl, rfl, rfl, rfl⟩

theorem winWriteWord_aside (h : winWriteWord o v s = .ok t) : s.Aside t := by
  obtain ⟨p, hs⟩ : ∃ p, winWriteWord o v s = (winWriteWord o v s).map (s.setPkt p).beside := winWriteWord_beside s o v s
  rw [h] at hs
  rw [Except.ok.inj hs]
  exact ⟨rfl, rfl, rfl, rfl, rfl, rfl⟩

/-! ## Twins -/

/-- With the agents at rest no window access tells `s` and `t` apart: they differ in the engine's own state, in host memory
and in the rest of the bookkeeping alone. -/
structure State.Twin (s t : State) : Prop where
  params : t.params = s.params
  chip : t.chip = s.chip
  phy : t.phy = s.phy
  irq : t.irq = s.irq
  draw : t.env.draw = s.env.draw
  hang : t.hang = s.hang
  quiet : s.Quiet
  quiet' : t.Quiet

theorem State.Twin.refl (h : s.Quiet) : s.Twin s := ⟨rfl, rfl, rfl, rfl, rfl, rfl, h, h⟩

theorem State.Twin.trans (h : s.Twin t) (g : t.Twin u) : s.Twin u :=
  ⟨g.params.trans h.params, g.chip.trans h.chip, g.phy.trans h.phy, g.irq.trans h.irq, g.draw.trans h.draw,
    g.hang.trans h.hang, h.quiet, g.quiet'⟩

theorem State.Twin.symm (h : s.Twin t) : t.Twin s :=
  ⟨h.params.symm, h.chip.symm, h.phy.symm, h.irq.symm, h.draw.symm, h.hang.symm, h.quiet', h.quiet⟩

theorem State.Twin.begin (h : s.Twin t) (i : Instr) : s.Twin (t.begin i) :=
  ⟨h.params, h.chip, h.phy, h.irq, h.draw, h.hang, h.quiet, h.quiet'⟩

/-- A twin is what an access sees of the other, beside its own. -/
theorem State.Twin.eq_beside (h : s.Twin t) : t = t.beside s := by
  unfold State.beside
  rw [← h.params, ← h.chip, ← h.phy, ← h.irq, ← h.draw]

theorem State.Twin.readWord (h : s.Twin t) (hr : winReadWord o s = .ok (v, u)) :
    ∃ w, winReadWord o t = .ok (v, w) ∧ u.Twin w := by
  refine ⟨t.beside u, ?_, rfl, rfl, rfl, rfl, rfl, ?_, (winReadWord_aside hr).tape.trans h.quiet, h.quiet'⟩
  · rw [h.eq_beside, winReadWord_beside, hr]
    rfl
  · exact h.hang.trans (winReadWord_aside hr).hang.symm

theorem State.Twin.readWord_error {e : Refusal} (h : s.Twin t) (hr : winReadWord o s = .error e) :
    winReadWord o t = .error e := by
  rw [h.eq_beside, winReadWord_beside, hr]
  rfl

theorem State.Twin.writeWord (h : s.Twin t) (hw : winWriteWord o v s = .ok u) :
    ∃ w, winWriteWord o v t = .ok w ∧ u.Twin w := by
  obtain ⟨p, hb⟩ := winWriteWord_beside t o v s
  refine ⟨(t.setPkt p).beside u, ?_, rfl, rfl, rfl, rfl, rfl, ?_, (winWriteWord_aside hw).tape.trans h.quiet, h.quiet'⟩
  · rw [h.eq_beside, hb, hw]
    rfl
  · exact h.hang.trans (winWriteWord_aside hw).hang.symm

theorem State.Twin.writeWord_error {e : Refusal} (h : s.Twin t) (hw : winWriteWord o v s = .error e) :
    winWriteWord o v t = .error e := by
  obtain ⟨p, hb⟩ := winWriteWord_beside t o v s
  rw [h.eq_beside, hb, hw]
  rfl

end Sys2Proof.Machine
end

section
/-! PROOFS. READ_BLOCK and WRITE_BLOCK (spec/20_memory.md R93, spec/40_register_bank.md R167, R168) with the agents at rest: a
block is its first word and the block of the rest, and a run of words of one kind is followed through an invariant. -/

namespace Sys2Proof.Machine

variable {s t u x y : State} {i : Instr} {off : Byte} {buf buf' n k : Nat} {v : Word} {e : Refusal}

/-! ## One word of a block -/

/-- `s` with the sequencer elsewhere and another trace. -/
def State.moved (l : List SeqFrame) (m : List Access) (s : State) : State :=
  { s with eng := { s.eng with point := l }, env := { s.env with trace := m } }

/-- Word `k` of the host buffer at `buf`, the byte at the lower address in its low half (R80). -/
def State.hostWord (s : State) (buf k : Nat) : Word := wordOf (s.hostRead buf (2 * k)) (s.hostRead buf (2 * k + 1))

/-- Host memory with a word put at place `k` of the buffer at `buf`. -/
def Memory.putWord (m : Memory) (buf k : Nat) (v : Word) : Memory :=
  (m.write (buf + 2 * k) (lowByte v)).write (buf + (2 * k + 1)) (highByte v)

theorem State.Twin.moved (h : s.Twin t) (l : List SeqFrame) (m : List Access) : s.Twin (t.moved l m) :=
  ⟨h.params, h.chip, h.phy, h.irq, h.draw, h.hang, h.quiet, h.quiet'⟩

theorem State.Twin.setHost (h : s.Twin t) (m : Memory) : s.Twin (t.setHost m) :=
  ⟨h.params, h.chip, h.phy, h.irq, h.draw, h.hang, h.quiet, h.quiet'⟩

theorem State.Twin.withBuffer (h : s.Twin t) (m : Memory) (b : Nat) :
    s.Twin { t with hostMem := m, eng := { t.eng with bufRef := b } } :=
  ⟨h.params, h.chip, h.phy, h.irq, h.draw, h.hang, h.quiet, h.quiet'⟩

theorem State.Twin.finish (h : s.Twin t) (c : Condition) (v : Int) : s.Twin (t.finish c v) :=
  ⟨h.params, h.chip, h.phy, h.irq, h.draw, h.hang, h.quiet, h.quiet'⟩

theorem State.Aside.moved (h : s.Aside t) (l : List SeqFrame) (m : List Access) : s.Aside (t.moved l m) where
  eng := by
    show { t.eng with point := l } = _
    rw [h.eng]
    rfl
  hostMem := h.hostMem
  inbox := h.inbox
  tape := h.tape
  sent := h.sent
  hang := h.hang

theorem hostWord_congr {j : Nat} (hm : t.hostMem = s.hostMem) (hb : buf' + 2 * j = buf + 2 * k) :
    t.hostWord buf' j = s.hostWord buf k := by
  simp only [State.hostWord, State.hostRead, hm, hb, ← Nat.add_assoc]

theorem putWord_congr {j : Nat} (m : Memory) (v : Word) (hb : buf' + 2 * j = buf + 2 * k) :
    m.putWord buf' j v = m.putWord buf k v := by
  simp only [Memory.putWord, hb, ← Nat.add_assoc]

theorem readBlockLoop_ok (hq : s.Quiet) (hr : winReadWord off.toNat s = .ok (v, t)) : ∃ l m,
    readBlockLoop off buf (n + 1) k s =
      readBlockLoop off buf n (k + 1) ((t.moved l m).setHost (s.hostMem.putWord buf k v)) := by
  have ha := winReadWord_aside hr
  have hg : ∀ a p, gap ((t.note a).advance p) = (t.note a).advance p := fun _ _ => gap_quiet (ha.tape.trans hq)
  refine ⟨advancePoint (nextWord n k) (advancePoint (.to 1 2 (.word k)) t.eng.point),
    .read (readLabel (labelAt off s)) 2 (v.setWidth 32) :: t.env.trace, ?_⟩
  rw [readBlockLoop, hr, ← ha.hostMem]
  dsimp only
  rw [hg]
  rfl

theorem readBlockLoop_error (hr : winReadWord off.toNat s = .error e) :
    readBlockLoop off buf (n + 1) k s = s.refuse e s := by
  rw [readBlockLoop, hr]

theorem writeBlockLoop_ok (hq : s.Quiet) (hw : winWriteWord off.toNat (s.hostWord buf k) s = .ok t) : ∃ l m,
    writeBlockLoop off buf (n + 1) k s = writeBlockLoop off buf n (k + 1) (t.moved l m) := by
  have hg : ∀ a p, gap ((t.note a).advance p) = (t.note a).advance p :=
    fun _ _ => gap_quiet ((winWriteWord_aside hw).tape.trans hq)
  refine ⟨advancePoint (nextWord n k) t.eng.point,
    .write (labelAt off s) 2 ((s.hostWord buf k).setWidth 32) :: t.env.trace, ?_⟩
  unfold State.hostWord at hw ⊢
  rw [writeBlockLoop, hw]
  dsimp only
  rw [hg]
  rfl

theorem writeBlockLoop_error (hw : winWriteWord off.toNat (s.hostWord buf k) s = .error e) :
    writeBlockLoop off buf (n + 1) k s = s.refuse e s := by
  unfold State.hostWord at hw
  rw [writeBlockLoop, hw]

/-- A WRITE_BLOCK leaves alone what no window access sees. -/
theorem writeBlockLoop_aside (n : Nat) : ∀ (k : Nat) (s t : State), s.Quiet →
    writeBlockLoop off buf n k s = .ok t → s.Aside t := by
  induction n with
  | zero => intro k s t _ h; obtain rfl := Except.ok.inj h; exact .refl s
  | succ n ih =>
    intro k s t hq h
    cases hw : winWriteWord off.toNat (s.hostWord buf k) s with
    | error e =>
      rw [writeBlockLoop_error hw] at h
      obtain ⟨-, rfl⟩ := refuse_ok h
      exact .refl t
    | ok u =>
      obtain ⟨l, m, hl⟩ := writeBlockLoop_ok (n := n) hq hw
      have hu := (winWriteWord_aside hw).moved l m
      exact hu.trans (ih _ _ _ (hu.tape.trans hq) (hl.symm.trans h))

/-! ## Blocks of twins -/

/-- Two ways out of a loop agree: the same refusal, or two states that `P` relates. -/
def Agree (P : State → State → Prop) : Except Refusal State → Except Refusal State → Prop
  | .ok s, .ok t => P s t
  | .error e, .error f => e = f
  | _, _ => False

theorem Agree.imp {P Q : State → State → Prop} {a b : Except Refusal State} (h : Agree P a b) (hpq : ∀ s t, P s t → Q s t) :
    Agree Q a b := by
  cases a <;> cases b
  · exact h
  · exact h
  · exact h
  · exact hpq _ _ h

theorem Agree.of_ok {P : State → State → Prop} {a : Except Refusal State} (h : Agree P a (.ok t)) :
    ∃ s, a = .ok s ∧ P s t := by
  cases a with
  | ok s => exact ⟨s, rfl, h⟩
  | error e => exact h.elim

theorem Agree.of_error {P : State → State → Prop} {a : Except Refusal State} (h : Agree P a (.error e)) : a = .error e := by
  cases a with
  | ok s => exact h.elim
  | error f => exact congrArg Except.error h

theorem refuse_agree {P : State → State → Prop} (hh : t.hang = s.hang) (h : P s t) :
    Agree P (s.refuse e s) (t.refuse e t) := by
  unfold State.refuse
  rw [hh]
  cases s.hang with
  | none => rfl
  | some g => exact h

/-- READ_BLOCK does not tell twins apart. -/
theorem readBlockLoop_agree (n : Nat) : ∀ (k j : Nat) (s t : State), s.Twin t →
    Agree (fun a b => a.Twin b ∧
      (buf' + 2 * j = buf + 2 * k → t.hostMem = s.hostMem → b.hostMem = a.hostMem))
      (readBlockLoop off buf n k s) (readBlockLoop off buf' n j t) := by
  induction n with
  | zero => exact fun k j s t h => ⟨h, fun _ hm => hm⟩
  | succ n ih =>
    intro k j s t h
    cases hr : winReadWord off.toNat s with
    | error e =>
      rw [readBlockLoop_error hr, readBlockLoop_error (h.readWord_error hr)]
      exact refuse_agree h.hang ⟨h, fun _ hm => hm⟩
    | ok r =>
      obtain ⟨v, u⟩ := r
      obtain ⟨w, hw, hu⟩ := h.readWord hr
      obtain ⟨l, m, es⟩ := readBlockLoop_ok (buf := buf) (n := n) (k := k) h.quiet hr
      obtain ⟨l', m', et⟩ := readBlockLoop_ok (buf := buf') (n := n) (k := j) h.quiet' hw
      rw [es, et]
      have hn := (((hu.moved l' m').setHost (t.hostMem.putWord buf' j v)).symm.moved l m).setHost
        (s.hostMem.putWord buf k v)
      refine (ih (k + 1) (j + 1) _ _ hn.symm).imp fun a b ⟨hab, hm⟩ => ⟨hab, fun hb hst => hm (by omega) ?_⟩
      show t.hostMem.putWord buf' j v = s.hostMem.putWord buf k v
      rw [hst, putWord_congr _ _ hb]

/-- Nor does WRITE_BLOCK, where they have the same host memory. -/
theorem writeBlockLoop_agree (n : Nat) : ∀ (k j : Nat) (s t : State), s.Twin t → t.hostMem = s.hostMem →
    buf' + 2 * j = buf + 2 * k → Agree State.Twin (writeBlockLoop off buf n k s) (writeBlockLoop off buf' n j t) := by
  induction n with
  | zero => exact fun k j s t h _ _ => h
  | succ n ih =>
    intro k j s t h hm hb
    have hv := hostWord_congr hm hb
    cases hw : winWriteWord off.toNat (s.hostWord buf k) s with
    | error e =>
      rw [writeBlockLoop_error hw, writeBlockLoop_error (by rw [hv]; exact h.writeWord_error hw)]
      exact refuse_agree h.hang h
    | ok u =>
      obtain ⟨w, hw', hu⟩ := h.writeWord hw
      rw [← hv] at hw'
      obtain ⟨l, m, es⟩ := writeBlockLoop_ok (n := n) h.quiet hw
      obtain ⟨l', m', et⟩ := writeBlockLoop_ok (n := n) h.quiet' hw'
      rw [es, et]
      refine ih (k + 1) (j + 1) _ _ ((hu.moved l' m').symm.moved l m).symm ?_ (by omega)
      exact (winWriteWord_aside hw').hostMem.trans (hm.trans (winWriteWord_aside hw).hostMem.symm)

/-! ## READ_WORD and WRITE_WORD -/

/-- The start of an operation is seen by no window access. -/
theorem winReadWord_begin (o : Nat) (i : Instr) (s : State) :
    winReadWord o (s.begin i) = (winReadWord o s).map fun r => (r.1, (s.begin i).beside r.2) :=
  winReadWord_beside (s.begin i) o s

theorem winWriteWord_begin (o : Nat) (v : Word) (i : Instr) (s : State) :
    ∃ h, winWriteWord o v (s.begin i) = (winWriteWord o v s).map ((s.begin i).setPkt h).beside :=
  winWriteWord_beside (s.begin i) o v s

theorem winReadWord_begin_error {o : Nat} : winReadWord o (s.begin i) = .error e ↔ winReadWord o s = .error e := by
  rw [winReadWord_begin]
  cases winReadWord o s <;> simp [Except.map]

theorem winWriteWord_begin_error {o : Nat} : winWriteWord o v (s.begin i) = .error e ↔ winWriteWord o v s = .error e := by
  obtain ⟨h, hb⟩ := winWriteWord_begin o v i s
  rw [hb]
  cases winWriteWord o v s <;> simp [Except.map]

/-- An operation that nothing but its access refuses. -/
theorem andThen_refused {α : Type} {r : Except Refusal α} {f : α → State} (h : andThen r (fun a => .next (f a)) = .refused e) :
    r = .error e := by
  cases r with
  | ok a => cases h
  | error e => cases h; rfl

theorem readWord_refused (h : exec (.readWord off) s = .refused e) : winReadWord off.toNat s = .error e :=
  winReadWord_begin_error.1 (andThen_refused h)

theorem writeWord_refused (h : exec (.writeWord off v) s = .refused e) : winWriteWord off.toNat v s = .error e :=
  winWriteWord_begin_error.1 (andThen_refused h)

/-- The end of an operation of one access is seen by no window access. -/
theorem twin_of_ended (hq : t.Quiet) (a : Access) (c : Condition) (v : Int) : t.Twin ((accessed a t).finish c v) := by
  unfold accessed
  rw [gap_quiet (by exact hq)]
  exact ⟨rfl, rfl, rfl, rfl, rfl, rfl, hq, hq⟩

theorem hostMem_of_ended (hq : t.Quiet) (a : Access) (c : Condition) (v : Int) :
    ((accessed a t).finish c v).hostMem = t.hostMem := by
  unfold accessed
  rw [gap_quiet (by exact hq)]
  rfl

/-- What READ_WORD answers is what the window access reads. -/
theorem readWord_next (hq : s.Quiet) (h : exec (.readWord off) s = .next u) :
    ∃ v x, winReadWord off.toNat s = .ok (v, x) ∧ x.Twin u ∧ u.Ended .ok v.toNat ∧ u.hostMem = s.hostMem := by
  obtain ⟨⟨v, y⟩, hy, hn⟩ := andThen_next h
  obtain rfl := Host.Outcome.next.inj hn
  obtain ⟨x, hx, hyx⟩ := ((State.Twin.refl hq).begin _).symm.readWord hy
  exact ⟨v, x, hx, hyx.symm.trans (twin_of_ended hyx.quiet _ _ _), ⟨rfl, rfl⟩,
    (hostMem_of_ended hyx.quiet _ _ _).trans (winReadWord_aside hy).hostMem⟩

theorem writeWord_next (hq : s.Quiet) (h : exec (.writeWord off v) s = .next u) :
    ∃ x, winWriteWord off.toNat v s = .ok x ∧ x.Twin u ∧ u.hostMem = s.hostMem := by
  obtain ⟨y, hy, hn⟩ := andThen_next h
  obtain rfl := Host.Outcome.next.inj hn
  obtain ⟨x, hx, hyx⟩ := ((State.Twin.refl hq).begin _).symm.writeWord hy
  exact ⟨x, hx, hyx.symm.trans (twin_of_ended hyx.quiet _ _ _),
    (hostMem_of_ended hyx.quiet _ _ _).trans (winWriteWord_aside hy).hostMem⟩

/-! ## A block is its first word and the block of the rest -/

variable {count w : Word}

theorem readBlock_next (h : readBlockLoop off s.eng.bufRef count.toNat 0 (s.begin (.readBlock off count)) = .ok t) :
    exec (.readBlock off count) s = .next (t.finish .ok 0) := by
  show andThen _ _ = _
  rw [h]
  rfl

theorem readBlock_error (h : readBlockLoop off s.eng.bufRef count.toNat 0 (s.begin (.readBlock off count)) = .error e) :
    exec (.readBlock off count) s = .refused e := by
  show andThen _ _ = _
  rw [h]
  rfl

theorem writeBlock_next (h : writeBlockLoop off s.eng.bufRef count.toNat 0 (s.begin (.writeBlock off count)) = .ok t) :
    exec (.writeBlock off count) s = .next (t.finish .ok 0) := by
  show andThen _ _ = _
  rw [h]
  rfl

theorem writeBlock_error (h : writeBlockLoop off s.eng.bufRef count.toNat 0 (s.begin (.writeBlock off count)) = .error e) :
    exec (.writeBlock off count) s = .refused e := by
  show andThen _ _ = _
  rw [h]
  rfl

theorem exists_toNat_eq_succ (h : 0 < count.toNat) : ∃ n, count.toNat = n + 1 ∧ (count - 1).toNat = n :=
  ⟨count.toNat - 1, by omega, by bv_omega⟩

/-- READ_BLOCK's loop behind READ_WORD: that of the rest, from any twin `t` of the state READ_WORD has left. -/
theorem readBlockLoop_first (hq : s.Quiet) (i j : Instr) (hr : winReadWord off.toNat s = .ok (v, x)) (ht : x.Twin t) (n : Nat) :
    Agree (fun a b => a.Twin b ∧ (t.eng.bufRef = s.eng.bufRef + 2 →
        t.hostMem = s.hostMem.putWord s.eng.bufRef 0 v → b.hostMem = a.hostMem))
      (readBlockLoop off s.eng.bufRef (n + 1) 0 (s.begin i)) (readBlockLoop off t.eng.bufRef n 0 (t.begin j)) := by
  have hs := (State.Twin.refl hq).begin i
  obtain ⟨y, hy, hxy⟩ := hs.readWord hr
  obtain ⟨l, m, es⟩ := readBlockLoop_ok (buf := s.eng.bufRef) (n := n) (k := 0) hs.quiet' hy
  rw [es]
  refine (readBlockLoop_agree n 1 0 _ _ (((hxy.moved l m).setHost _).symm.trans (ht.begin j))).imp
    fun a b ⟨hab, hm⟩ => ⟨hab, fun hb hst => hm (by omega) hst⟩

/-- WRITE_BLOCK's loop behind WRITE_WORD. -/
theorem writeBlockLoop_first (hq : s.Quiet) (i j : Instr) (hw : winWriteWord off.toNat (s.hostWord s.eng.bufRef 0) s = .ok x)
    (ht : x.Twin t) (hb : t.eng.bufRef = s.eng.bufRef + 2) (hm : t.hostMem = s.hostMem) (n : Nat) :
    Agree State.Twin (writeBlockLoop off s.eng.bufRef (n + 1) 0 (s.begin i)) (writeBlockLoop off t.eng.bufRef n 0 (t.begin j)) := by
  have hs := (State.Twin.refl hq).begin i
  obtain ⟨y, hy, hxy⟩ := hs.writeWord hw
  obtain ⟨l, m, es⟩ := writeBlockLoop_ok (s := s.begin i) (buf := s.eng.bufRef) (n := n) (k := 0) hs.quiet' hy
  rw [es]
  exact writeBlockLoop_agree n 1 0 _ _ ((hxy.moved l m).symm.trans (ht.begin j))
    (hm.trans (winWriteWord_aside hy).hostMem.symm) (by omega)

theorem readBlock_refused_of_first (hh : s.hang = none) (hc : 0 < count.toNat) (h : exec (.readWord off) s = .refused e) :
    exec (.readBlock off count) s = .refused e := by
  obtain ⟨n, hn, -⟩ := exists_toNat_eq_succ hc
  have hl := readBlockLoop_error (buf := s.eng.bufRef) (n := n) (k := 0)
    ((winReadWord_begin_error (i := .readBlock off count)).2 (readWord_refused h))
  rw [← hn] at hl
  exact readBlock_error (hl.trans (refuse_of_none _ _ hh))

theorem writeBlock_refused_of_first (hh : s.hang = none) (hc : 0 < count.toNat)
    (h : exec (.writeWord off (s.hostWord s.eng.bufRef 0)) s = .refused e) :
    exec (.writeBlock off count) s = .refused e := by
  obtain ⟨n, hn, -⟩ := exists_toNat_eq_succ hc
  have hl := writeBlockLoop_error (s := s.begin (.writeBlock off count)) (buf := s.eng.bufRef) (n := n) (k := 0)
    ((winWriteWord_begin_error (i := .writeBlock off count)).2 (writeWord_refused h))
  rw [← hn] at hl
  exact writeBlock_error (hl.trans (refuse_of_none _ _ hh))

theorem readBlock_refused_of_rest (hq : s.Quiet) (hc : 0 < count.toNat) (h : exec (.readWord off) s = .next u)
    (hr : exec (.readBlock off (count - 1)) u = .refused e) : exec (.readBlock off count) s = .refused e := by
  obtain ⟨n, hn, hn'⟩ := exists_toNat_eq_succ hc
  obtain ⟨v, x, hx, hxu, -⟩ := readWord_next hq h
  have ha := readBlockLoop_first hq (.readBlock off count) (.readBlock off (count - 1)) hx hxu n
  rw [← hn, ← hn', andThen_refused hr] at ha
  exact readBlock_error ha.of_error

theorem writeBlock_refused_of_rest (hq : s.Quiet) (hc : 0 < count.toNat)
    (h : exec (.writeWord off (s.hostWord s.eng.bufRef 0)) s = .next u)
    (hr : exec (.writeBlock off (count - 1)) { u with eng := { u.eng with bufRef := s.eng.bufRef + 2 } } = .refused e) :
    exec (.writeBlock off count) s = .refused e := by
  obtain ⟨n, hn, hn'⟩ := exists_toNat_eq_succ hc
  obtain ⟨x, hx, hxu, hm⟩ := writeWord_next hq h
  have ha := writeBlockLoop_first (t := { u with eng := { u.eng with bufRef := s.eng.bufRef + 2 } }) hq
    (.writeBlock off count) (.writeBlock off (count - 1)) hx
    (hxu.withBuffer _ _) rfl hm n
  rw [← hn, ← hn', andThen_refused hr] at ha
  exact writeBlock_error ha.of_error

theorem readBlock_of_rest {t' : State} (hq : s.Quiet) (hc : 0 < count.toNat) (h : exec (.readWord off) s = .next u)
    (hw : u.Ended .ok w.toNat)
    (hr : exec (.readBlock off (count - 1)) { u with
      hostMem := (s.hostMem.write s.eng.bufRef (lowByte w)).write (s.eng.bufRef + 1) (highByte w)
      eng := { u.eng with bufRef := s.eng.bufRef + 2 } } = .next t') :
    ∃ t, exec (.readBlock off count) s = .next t ∧ t.Ended .ok 0 ∧ t.chip = t'.chip ∧ t.phy = t'.phy ∧ t.irq = t'.irq ∧
      t.hostMem = t'.hostMem ∧ t.inbox = s.inbox := by
  obtain ⟨n, hn, hn'⟩ := exists_toNat_eq_succ hc
  obtain ⟨v, x, hx, hxu, hv, -⟩ := readWord_next hq h
  obtain rfl : v = w := by
    have := hv.2.symm.trans hw.2
    exact BitVec.eq_of_toNat_eq (by simpa using this)
  obtain ⟨b, hb, hbt⟩ := andThen_next hr
  obtain rfl := Host.Outcome.next.inj hbt
  have ha := readBlockLoop_first hq (.readBlock off count) (.readBlock off (count - 1)) hx
    (t := { u with
      hostMem := (s.hostMem.write s.eng.bufRef (lowByte v)).write (s.eng.bufRef + 1) (highByte v)
      eng := { u.eng with bufRef := s.eng.bufRef + 2 } })
    (hxu.withBuffer _ _) n
  rw [← hn, ← hn', hb] at ha
  obtain ⟨a, hs, hab, hm⟩ := ha.of_ok
  have he := readBlock_next hs
  exact ⟨_, he, ⟨rfl, rfl⟩, hab.chip.symm, hab.phy.symm, hab.irq.symm, (hm rfl rfl).symm,
    congrArg Steady.inbox (execReadBlock_steady he)⟩

theorem writeBlock_of_rest {t' : State} (hq : s.Quiet) (hc : 0 < count.toNat)
    (h : exec (.writeWord off (s.hostWord s.eng.bufRef 0)) s = .next u)
    (hr : exec (.writeBlock off (count - 1)) { u with eng := { u.eng with bufRef := s.eng.bufRef + 2 } } = .next t') :
    ∃ t, exec (.writeBlock off count) s = .next t ∧ t.Ended .ok 0 ∧ t.chip = t'.chip ∧ t.phy = t'.phy ∧
      t.irq = t'.irq ∧ t.hostMem = s.hostMem ∧ t.inbox = s.inbox := by
  obtain ⟨n, hn, hn'⟩ := exists_toNat_eq_succ hc
  obtain ⟨x, hx, hxu, hm⟩ := writeWord_next hq h
  obtain ⟨b, hb, hbt⟩ := andThen_next hr
  obtain rfl := Host.Outcome.next.inj hbt
  have ha := writeBlockLoop_first (t := { u with eng := { u.eng with bufRef := s.eng.bufRef + 2 } }) hq
    (.writeBlock off count) (.writeBlock off (count - 1)) hx
    (hxu.withBuffer _ _) rfl hm n
  rw [← hn, ← hn', hb] at ha
  obtain ⟨a, hs, hab⟩ := ha.of_ok
  have he := writeBlock_next hs
  have hf := writeBlockLoop_aside _ _ (s.begin (.writeBlock off count)) _ hq hs
  exact ⟨_, he, ⟨rfl, rfl⟩, hab.chip.symm, hab.phy.symm, hab.irq.symm, hf.hostMem, hf.inbox⟩

end Sys2Proof.Machine
end

section
/-! PROOFS. What a block leaves (spec/20_memory.md R93, spec/40_register_bank.md R167, R168): its words are followed one by
one through an invariant that says which state each of them meets. -/

namespace Sys2Proof.Machine

variable {s t u : State} {off : Byte} {o buf n N w : Nat} {v count : Word} {e : Entry} {p : Pkt} {r : Refusal}
  {reading : Bool}

/-! ## Runs of words -/

/-- Host memory `m` holds at the places from `k` to `n` of the buffer at `buf` words that `W` allows there, and elsewhere
what `before` holds. -/
structure Memory.Holds (m : Memory) (W : Nat → Word → Prop) (buf k n : Nat) (before : Memory) : Prop where
  words : ∀ j, k ≤ j → j < n → ∃ v, W j v ∧ m.read (buf + 2 * j) = some (lowByte v) ∧
    m.read (buf + (2 * j + 1)) = some (highByte v)
  rest : ∀ a, a < buf + 2 * k ∨ buf + 2 * n ≤ a → m.read a = before.read a

theorem Memory.Holds.nil (m : Memory) (W : Nat → Word → Prop) (buf k : Nat) : m.Holds W buf k k m :=
  ⟨fun _ _ _ => by omega, fun _ _ => rfl⟩

/-- The words behind the one that is put first. -/
theorem Memory.Holds.cons {W : Nat → Word → Prop} {k : Nat} {before m : Memory} (hv : W k v) (hk : k < n)
    (h : m.Holds W buf (k + 1) n (before.putWord buf k v)) : m.Holds W buf k n before := by
  refine ⟨fun j hj hn => ?_, fun a ha => ?_⟩
  · by_cases he : j = k
    · subst he
      refine ⟨v, hv, ?_, ?_⟩
      · rw [h.rest _ (by omega), Memory.putWord, Memory.read_write_of_ne _ _ (by omega), Memory.read_write_self]
      · rw [h.rest _ (by omega), Memory.putWord, Memory.read_write_self]
    · exact h.words j (by omega) hn
  · rw [h.rest a (by omega), Memory.putWord, Memory.read_write_of_ne _ _ (by omega), Memory.read_write_of_ne _ _ (by omega)]

/-- A host buffer whose words are those of a sequence of bytes holds these bytes. -/
theorem hostRead_of_holds {f : Nat → Byte} {before : Memory}
    (h : t.hostMem.Holds (fun j v => v = wordOf (f (2 * j)) (f (2 * j + 1))) buf 0 n before) :
    ∀ i, i < 2 * n → t.hostRead buf i = f i := by
  intro i hi
  obtain ⟨v, rfl, hl, hh⟩ := h.words (i / 2) (Nat.zero_le _) (by omega)
  unfold State.hostRead
  rcases Nat.mod_two_eq_zero_or_one i with hm | hm
  · rw [show 2 * (i / 2) = i by omega] at hl
    rw [hl, lowByte_wordOf, Option.getD_some]
  · rw [show 2 * (i / 2) + 1 = i by omega] at hh
    rw [hh, highByte_wordOf, Option.getD_some]

/-- Word `k` of the first `N`, read at `off` in a state of `I k`, is one that `W k` allows and leaves a state of
`I (k + 1)`. -/
def ReadsThrough (off : Byte) (I : Nat → State → Prop) (W : Nat → Word → Prop) (N : Nat) : Prop :=
  ∀ k x, k < N → I k x → ∃ v y, winReadWord off.toNat x = .ok (v, y) ∧ W k v ∧ I (k + 1) y

/-- Word `k` of the first `N` of the host buffer at `buf`, written at `off` with a chip unit of `I k`, leaves one of
`I (k + 1)` and changes nothing else. -/
def State.WritesThrough (s : State) (off : Byte) (buf : Nat) (I : Nat → Chip → Prop) (N : Nat) : Prop :=
  ∀ k c, k < N → I k c →
    ∃ d, winWriteWord off.toNat (s.hostWord buf k) (s.setChip c) = .ok (s.setChip d) ∧ I (k + 1) d

section

variable {I : Nat → State → Prop} {W : Nat → Word → Prop}

/-- READ_BLOCK's loop over words that are read through an invariant. -/
theorem readBlockLoop_run (hread : ReadsThrough off I W N) (n : Nat) :
    ∀ (k : Nat) (x s : State), k + n = N → x.Twin s → I k x →
      ∃ y t, readBlockLoop off buf n k s = .ok t ∧ y.Twin t ∧ I N y ∧ t.hostMem.Holds W buf k N s.hostMem := by
  induction n with
  | zero =>
    intro k x s hk h hi
    obtain rfl : k = N := hk
    exact ⟨x, s, rfl, h, hi, .nil _ W buf k⟩
  | succ n ih =>
    intro k x s hk h hi
    obtain ⟨v, y, hr, hv, hy⟩ := hread k x (by omega) hi
    obtain ⟨z, hz, hyz⟩ := h.readWord hr
    obtain ⟨l, m, hl⟩ := readBlockLoop_ok (buf := buf) (n := n) (k := k) h.quiet' hz
    obtain ⟨y', t, ht, hyt, hN, hm⟩ := ih (k + 1) y _ (by omega) ((hyz.moved l m).setHost _) hy
    exact ⟨y', t, hl.trans ht, hyt, hN, hm.cons hv (by omega)⟩

/-- READ_BLOCK's loop that meets a word which is refused. -/
theorem readBlockLoop_stops (hread : ReadsThrough off I W N)
    (hstop : ∀ x, I N x → winReadWord off.toNat x = .error r) (n : Nat) :
    ∀ (k : Nat) (x s : State), k ≤ N → N < k + n → x.Twin s → s.hang = none → I k x →
      readBlockLoop off buf n k s = .error r := by
  induction n with
  | zero => intro k x s hk hn; omega
  | succ n ih =>
    intro k x s hk hn h hh hi
    rcases Nat.lt_or_eq_of_le hk with hlt | rfl
    · obtain ⟨v, y, hr, -, hy⟩ := hread k x hlt hi
      obtain ⟨z, hz, hyz⟩ := h.readWord hr
      obtain ⟨l, m, hl⟩ := readBlockLoop_ok (buf := buf) (n := n) (k := k) h.quiet' hz
      exact hl.trans (ih (k + 1) y _ hlt (by omega) ((hyz.moved l m).setHost _) ((winReadWord_aside hz).hang.trans hh) hy)
    · rw [readBlockLoop_error (h.readWord_error (hstop x hi)), refuse_of_none _ _ hh]

theorem readBlock_run (hread : ReadsThrough off I W count.toNat) (hq : s.Quiet) (h0 : I 0 s) :
    ∃ y t, exec (.readBlock off count) s = .next t ∧ t.Ended .ok 0 ∧ y.Twin t ∧ I count.toNat y ∧
      t.hostMem.Holds W s.eng.bufRef 0 count.toNat s.hostMem := by
  obtain ⟨y, t, h, ht, hi, hm⟩ :=
    readBlockLoop_run hread count.toNat 0 s (s.begin _) (Nat.zero_add _) ((State.Twin.refl hq).begin _) h0
  exact ⟨y, _, readBlock_next h, ⟨rfl, rfl⟩, ht.finish _ _, hi, hm⟩

end

section

variable {I : Nat → Chip → Prop}

/-- WRITE_BLOCK's loop over words that are written through an invariant. -/
theorem writeBlockLoop_run (hwrite : s.WritesThrough off buf I N) (n : Nat) :
    ∀ (k : Nat) (c : Chip) (t : State), k + n = N → (s.setChip c).Twin t → t.hostMem = s.hostMem → I k c →
      ∃ d u, writeBlockLoop off buf n k t = .ok u ∧ (s.setChip d).Twin u ∧ I N d := by
  induction n with
  | zero =>
    intro k c t hk h _ hi
    obtain rfl : k = N := hk
    exact ⟨c, t, rfl, h, hi⟩
  | succ n ih =>
    intro k c t hk h hm hi
    obtain ⟨d, hw, hd⟩ := hwrite k c (by omega) hi
    obtain ⟨z, hz, hdz⟩ := h.writeWord hw
    rw [← hostWord_congr hm rfl] at hz
    obtain ⟨l, m, hl⟩ := writeBlockLoop_ok (n := n) h.quiet' hz
    obtain ⟨d', u, hu, hdu, hN⟩ :=
      ih (k + 1) d _ (by omega) (hdz.moved l m) ((winWriteWord_aside hz).hostMem.trans hm) hd
    exact ⟨d', u, hl.trans hu, hdu, hN⟩

/-- WRITE_BLOCK's loop that meets a word which is refused. -/
theorem writeBlockLoop_stops (hwrite : s.WritesThrough off buf I N)
    (hstop : ∀ c, I N c → winWriteWord off.toNat (s.hostWord buf N) (s.setChip c) = .error r) (n : Nat) :
    ∀ (k : Nat) (c : Chip) (t : State), k ≤ N → N < k + n → (s.setChip c).Twin t → t.hostMem = s.hostMem →
      t.hang = none → I k c → writeBlockLoop off buf n k t = .error r := by
  induction n with
  | zero => intro k c t hk hn; omega
  | succ n ih =>
    intro k c t hk hn h hm hh hi
    have hv : t.hostWord buf k = s.hostWord buf k := hostWord_congr hm rfl
    rcases Nat.lt_or_eq_of_le hk with hlt | rfl
    · obtain ⟨d, hw, hd⟩ := hwrite k c hlt hi
      obtain ⟨z, hz, hdz⟩ := h.writeWord hw
      rw [← hv] at hz
      have ha := winWriteWord_aside hz
      obtain ⟨l, m, hl⟩ := writeBlockLoop_ok (n := n) h.quiet' hz
      exact hl.trans (ih (k + 1) d _ hlt (by omega) (hdz.moved l m) (ha.hostMem.trans hm) (ha.hang.trans hh) hd)
    · rw [writeBlockLoop_error (by rw [hv]; exact h.writeWord_error (hstop c hi)), refuse_of_none _ _ hh]

theorem writeBlock_run (hwrite : s.WritesThrough off s.eng.bufRef I count.toNat) (hq : s.Quiet) (h0 : I 0 s.chip) :
    ∃ t, exec (.writeBlock off count) s = .next t ∧ t.Ended .ok 0 ∧ I count.toNat t.chip ∧ s.OnlyChip t := by
  have h0' : (s.setChip s.chip).Twin (s.begin (.writeBlock off count)) := (State.Twin.refl hq).begin _
  obtain ⟨d, t, h, ht, hi⟩ := writeBlockLoop_run hwrite count.toNat 0 s.chip _ (Nat.zero_add _) h0' rfl h0
  have ha := writeBlockLoop_aside _ _ (s.begin (.writeBlock off count)) _ hq h
  refine ⟨_, writeBlock_next h, ⟨rfl, rfl⟩, ?_, ht.params, ht.phy, fun a => ?_, ha.inbox, ?_, ?_, ha.sent, ha.hang⟩
  · show I count.toNat t.chip
    rw [ht.chip]
    exact hi
  · rw [State.finish_hostMem, ha.hostMem]
    rfl
  · rw [State.finish_irq, ht.irq]
    rfl
  · rw [State.finish_eng, ha.eng]
    rfl

end

/-! ## DATA, word by word -/

/-- `s` with the data-path offset elsewhere. -/
def State.withDp (d : Nat) (s : State) : State := s.setChip { s.chip with dp := d }

theorem State.DataReady.withDp {d : Nat} (h : s.DataReady p e w reading) (hr : d + w ≤ e.pages * 256) (ha : d % w = 0) :
    (s.withDp d).DataReady p e w reading :=
  ⟨h.bank, h.target, h.entry, h.mode, hr, ha⟩

theorem State.DataReady.stored {q : Pkt} {bs : List Byte} {d : Nat} (h : s.DataReady p e w reading)
    (hr : d + w ≤ e.pages * 256) (ha : d % w = 0) : (s.setChip (s.chip.stored q bs d)).DataReady p e w reading :=
  ⟨h.bank, h.target, h.entry, h.mode, hr, ha⟩

theorem State.DataReady.winReadWord (he : o % 2 = 0) (hd : s.DataAt o) (h : s.DataReady p e 2 true) :
    Machine.winReadWord o s =
      .ok (wordOf (s.chip.bufByte e s.chip.dp) (s.chip.bufByte e (s.chip.dp + 1)), s.withDp (s.advanced 2)) := by
  rw [winReadWord_data he hd, h.dataRead, advance_eq]
  exact congrArg (fun v => Except.ok (v, _)) (dataLong_word s e)

theorem State.DataReady.winWriteWord (he : o % 2 = 0) (hd : s.DataAt o) (h : s.DataReady p e 2 false) :
    Machine.winWriteWord o v s = .ok (s.setChip (s.chip.stored p [lowByte v, highByte v] (s.advanced 2))) := by
  rw [winWriteWord_data v he hd, h.dataWrite_stored, dataBytes_word]

/-- A word that begins where the buffer ends, or behind it (U3). -/
theorem winReadWord_beyond (he : o % 2 = 0) (hd : s.DataAt o) (hs : s.chip.dpStale = false)
    (ht : s.chip.target s.params = some p) (hf : findEntry s.chip.table p = some e)
    (hb : e.pages * 256 < s.chip.dp + 2) : Machine.winReadWord o s = .error .dataAccess := by
  rw [winReadWord_data he hd, dataRead_refused hd hs (not_dataReady_of_beyond ht hf hb)]
  rfl

theorem winWriteWord_beyond (he : o % 2 = 0) (hd : s.DataAt o) (hs : s.chip.dpStale = false)
    (ht : s.chip.target s.params = some p) (hf : findEntry s.chip.table p = some e)
    (hb : e.pages * 256 < s.chip.dp + 2) : Machine.winWriteWord o v s = .error .dataAccess := by
  rw [winWriteWord_data v he hd, dataWrite_refused _ hd hs (not_dataReady_of_beyond ht hf hb)]

/-! ### What is stored -/

theorem Memory.writeBytes_append (bs bs' : List Byte) : ∀ (m : Memory) (a : Nat),
    m.writeBytes a (bs ++ bs') = (m.writeBytes a bs).writeBytes (a + bs.length) bs' := by
  induction bs with
  | nil => exact fun _ _ => rfl
  | cons b bs ih =>
    intro m a
    simp only [List.cons_append, Memory.writeBytes, ih, List.length_cons]
    rw [show a + 1 + bs.length = a + (bs.length + 1) by omega]

/-- Bytes stored behind others are stored with them. -/
theorem Chip.stored_stored (c : Chip) (p : Pkt) (bs bs' : List Byte) (d' : Nat) :
    (c.stored p bs (c.dp + bs.length)).stored p bs' d' = c.stored p (bs ++ bs') d' := by
  unfold Chip.stored
  rw [Memory.writeBytes_append, pktAddr_add]

/-- The first `n` bytes of the host buffer at `buf`. -/
def State.hostBytes (s : State) (buf n : Nat) : List Byte := (List.range n).map (s.hostRead buf)

theorem hostBytes_succ (s : State) (buf k : Nat) : s.hostBytes buf (2 * (k + 1)) =
    s.hostBytes buf (2 * k) ++ [lowByte (s.hostWord buf k), highByte (s.hostWord buf k)] := by
  rw [State.hostWord, lowByte_wordOf, highByte_wordOf]
  simp [State.hostBytes, Nat.mul_succ, List.range_succ]

@[simp] theorem length_hostBytes (s : State) (buf n : Nat) : (s.hostBytes buf n).length = n := by simp [State.hostBytes]

/-- The two bytes at `a` have been overwritten with `k` words of a sequence of bytes one after the other, and the rest of
memory is as before. -/
structure Memory.Overwritten (m : Memory) (f : Nat → Byte) (a k : Nat) (before : Memory) : Prop where
  rest : ∀ x, x < a ∨ a + 2 ≤ x → m.read x = before.read x
  last : 0 < k → ∀ i, i < 2 → m.read (a + i) = some (f (2 * (k - 1) + i))

theorem Memory.Overwritten.step {f : Nat → Byte} {a k : Nat} {before m : Memory} (h : m.Overwritten f a k before) :
    (m.writeBytes a [f (2 * k), f (2 * k + 1)]).Overwritten f a (k + 1) before := by
  refine ⟨fun x hx => (Memory.read_writeBytes_of_out _ _ _ _ hx).trans (h.rest x hx), fun _ i hi => ?_⟩
  obtain rfl | rfl : i = 0 ∨ i = 1 := by omega
  · simp [Memory.read_writeBytes]
  · simp [Memory.read_writeBytes]

section

variable (he : off.toNat % 2 = 0) (hd : s.DataAt off.toNat)
include he hd

/-! ### READ_BLOCK with AUTOINC -/

/-- With AUTOINC word `k` meets `dp` advanced by `2 * k` (R45). -/
theorem readWord_advancing (hr : s.DataReady p e 2 true) (ha : has s.chip.ptr (ptrAutoinc s.params) = true)
    (hN : s.chip.dp + 2 * N ≤ e.pages * 256) :
    ReadsThrough off (fun k x => x = s.withDp (s.chip.dp + 2 * k))
      (fun k v => v = wordOf (s.chip.bufByte e (s.chip.dp + 2 * k)) (s.chip.bufByte e (s.chip.dp + (2 * k + 1)))) N := by
  rintro k x hk rfl
  have hal := hr.aligned
  have hx := hr.withDp (d := s.chip.dp + 2 * k) (by omega) (by omega)
  refine ⟨_, _, hx.winReadWord he hd, rfl, ?_⟩
  have hv : (s.withDp (s.chip.dp + 2 * k)).advanced 2 = s.chip.dp + 2 * k + 2 := if_pos ha
  rw [hv]
  rfl

theorem readBlock_advancing (hq : s.Quiet) (hr : s.DataReady p e 2 true)
    (ha : has s.chip.ptr (ptrAutoinc s.params) = true) (hN : s.chip.dp + 2 * count.toNat ≤ e.pages * 256) :
    ∃ t, exec (.readBlock off count) s = .next t ∧ t.Ended .ok 0 ∧
      (∀ i, i < 2 * count.toNat → t.hostRead s.eng.bufRef i = s.chip.bufByte e (s.chip.dp + i)) ∧
      (∀ a, a < s.eng.bufRef ∨ s.eng.bufRef + 2 * count.toNat ≤ a → t.hostMem.read a = s.hostMem.read a) ∧
      t.chip = { s.chip with dp := s.chip.dp + 2 * count.toNat } ∧ s.SamePackets t ∧ t.phy = s.phy ∧ t.irq = s.irq := by
  obtain ⟨y, t, hx, hv, hyt, rfl, hm⟩ := readBlock_run (readWord_advancing he hd hr ha hN) hq rfl
  have hc : t.chip = { s.chip with dp := s.chip.dp + 2 * count.toNat } := hyt.chip
  exact ⟨t, hx, hv, hostRead_of_holds (f := fun i => s.chip.bufByte e (s.chip.dp + i)) hm, hm.rest, hc,
    samePackets_of_chip (by rw [hc]) (by rw [hc]), hyt.phy, hyt.irq⟩

/-- A READ_BLOCK that runs beyond its buffer is refused with the first word that does (U3). -/
theorem readBlock_beyond (hq : s.Quiet) (hh : s.hang = none) (hr : s.DataReady p e 2 true)
    (hs : s.chip.dpStale = false) (ha : has s.chip.ptr (ptrAutoinc s.params) = true)
    (hN : e.pages * 256 < s.chip.dp + 2 * count.toNat) : exec (.readBlock off count) s = .refused .dataAccess := by
  have hrange := hr.range
  refine readBlock_error (readBlockLoop_stops (N := (e.pages * 256 - s.chip.dp) / 2)
    (readWord_advancing he hd hr ha (by omega)) (fun x hx => ?_) count.toNat 0 s _ (by omega) (by omega)
    ((State.Twin.refl hq).begin _) hh rfl)
  subst hx
  exact winReadWord_beyond (p := p) (e := e) he hd hs (target_eq_some_iff.2 hr.target) hr.entry
    (show _ < s.chip.dp + 2 * _ + 2 by omega)

/-! ### READ_BLOCK without AUTOINC -/

/-- Without AUTOINC every word meets the same state. -/
theorem readWord_still (hr : s.DataReady p e 2 true) (ha : has s.chip.ptr (ptrAutoinc s.params) = false) (N : Nat) :
    ReadsThrough off (fun _ x => x = s)
      (fun k v => v = wordOf (s.chip.bufByte e (s.chip.dp + 2 * k % 2)) (s.chip.bufByte e (s.chip.dp + (2 * k + 1) % 2)))
      N := by
  have hdp : s.advanced 2 = s.chip.dp := if_neg (by simp [ha])
  rintro k x - rfl
  refine ⟨_, _, hr.winReadWord he hd, ?_, by rw [hdp]; rfl⟩
  dsimp only
  rw [show 2 * k % 2 = 0 by omega, show (2 * k + 1) % 2 = 1 by omega]
  rfl

theorem readBlock_still (hq : s.Quiet) (hr : s.DataReady p e 2 true)
    (ha : has s.chip.ptr (ptrAutoinc s.params) = false) :
    ∃ t, exec (.readBlock off count) s = .next t ∧ t.Ended .ok 0 ∧
      (∀ i, i < 2 * count.toNat → t.hostRead s.eng.bufRef i = s.chip.bufByte e (s.chip.dp + i % 2)) ∧
      (∀ a, a < s.eng.bufRef ∨ s.eng.bufRef + 2 * count.toNat ≤ a → t.hostMem.read a = s.hostMem.read a) ∧
      t.chip = s.chip ∧ s.SamePackets t ∧ t.phy = s.phy ∧ t.irq = s.irq := by
  obtain ⟨y, t, hx, hv, hyt, rfl, hm⟩ := readBlock_run (readWord_still he hd hr ha count.toNat) hq rfl
  exact ⟨t, hx, hv, hostRead_of_holds (f := fun i => y.chip.bufByte e (y.chip.dp + i % 2)) hm, hm.rest, hyt.chip,
    samePackets_of_chip (by rw [hyt.chip]) (by rw [hyt.chip]), hyt.phy, hyt.irq⟩

/-! ### WRITE_BLOCK with AUTOINC -/

/-- With AUTOINC word `k` meets the first `2 * k` bytes stored and `dp` behind them. -/
theorem writeWord_advancing (hr : s.DataReady p e 2 false) (ha : has s.chip.ptr (ptrAutoinc s.params) = true)
    (hN : s.chip.dp + 2 * N ≤ e.pages * 256) :
    s.WritesThrough off buf (fun k c => c = s.chip.stored p (s.hostBytes buf (2 * k)) (s.chip.dp + 2 * k)) N := by
  rintro k c hk rfl
  have hal := hr.aligned
  have hx := hr.stored (q := p) (bs := s.hostBytes buf (2 * k)) (d := s.chip.dp + 2 * k) (by omega) (by omega)
  refine ⟨_, hx.winWriteWord he hd, ?_⟩
  have hv : (s.setChip (s.chip.stored p (s.hostBytes buf (2 * k)) (s.chip.dp + 2 * k))).advanced 2 =
      s.chip.dp + 2 * k + 2 := if_pos ha
  have hl := s.chip.stored_stored p (s.hostBytes buf (2 * k))
    [lowByte (s.hostWord buf k), highByte (s.hostWord buf k)] (s.chip.dp + 2 * k + 2)
  rw [length_hostBytes, ← hostBytes_succ] at hl
  rw [hv]
  exact hl

theorem writeBlock_advancing (hq : s.Quiet) (hr : s.DataReady p e 2 false)
    (ha : has s.chip.ptr (ptrAutoinc s.params) = true) (hN : s.chip.dp + 2 * count.toNat ≤ e.pages * 256) :
    ∃ t, exec (.writeBlock off count) s = .next t ∧ t.Ended .ok 0 ∧
      (∀ i, i < 2 * count.toNat → t.packetByte p (s.chip.dp + i) = some (s.hostRead s.eng.bufRef i)) ∧
      (∀ a, a < pktAddr p s.chip.dp ∨ pktAddr p s.chip.dp + 2 * count.toNat ≤ a →
        t.chip.pktMem.read a = s.chip.pktMem.read a) ∧
      t.chip = { s.chip with pktMem := t.chip.pktMem, dp := s.chip.dp + 2 * count.toNat } ∧ s.OnlyChip t := by
  obtain ⟨t, hx, hv, hc, ho⟩ := writeBlock_run (writeWord_advancing he hd hr ha hN) hq rfl
  refine ⟨t, hx, hv, fun i hi => ?_, fun a ha => read_of_stored hc (by simpa using ha), by rw [hc]; rfl, ho⟩
  rw [packetByte_of_stored hr.entry hc (by simpa using hi)]
  simp [State.hostBytes]

theorem writeBlock_beyond (hq : s.Quiet) (hh : s.hang = none) (hr : s.DataReady p e 2 false)
    (hs : s.chip.dpStale = false) (ha : has s.chip.ptr (ptrAutoinc s.params) = true)
    (hN : e.pages * 256 < s.chip.dp + 2 * count.toNat) : exec (.writeBlock off count) s = .refused .dataAccess := by
  have hrange := hr.range
  refine writeBlock_error (writeBlockLoop_stops (N := (e.pages * 256 - s.chip.dp) / 2)
    (writeWord_advancing he hd hr ha (by omega)) (fun c hc => ?_) count.toNat 0 s.chip _ (by omega) (by omega)
    ((State.Twin.refl hq).begin _) rfl hh rfl)
  subst hc
  exact winWriteWord_beyond (p := p) (e := e) he hd hs (target_eq_some_iff.2 hr.target) hr.entry
    (show _ < s.chip.dp + 2 * _ + 2 by omega)

/-! ### WRITE_BLOCK without AUTOINC -/

/-- Without AUTOINC every word meets the same `dp`. -/
theorem writeWord_still (hr : s.DataReady p e 2 false) (ha : has s.chip.ptr (ptrAutoinc s.params) = false) (N : Nat) :
    s.WritesThrough off buf (fun k c => ∃ m, c = { s.chip with pktMem := m } ∧
      m.Overwritten (s.hostRead buf) (pktAddr p s.chip.dp) k s.chip.pktMem) N := by
  rintro k _ - ⟨m, rfl, hm⟩
  have hx : (s.setChip { s.chip with pktMem := m }).DataReady p e 2 false :=
    ⟨hr.bank, hr.target, hr.entry, hr.mode, hr.range, hr.aligned⟩
  have hdp : (s.setChip { s.chip with pktMem := m }).advanced 2 = s.chip.dp := if_neg (by simp [ha])
  refine ⟨_, hx.winWriteWord he hd, _, ?_, hm.step⟩
  rw [hdp, State.hostWord, lowByte_wordOf, highByte_wordOf]
  rfl

theorem writeBlock_still (hq : s.Quiet) (hr : s.DataReady p e 2 false)
    (ha : has s.chip.ptr (ptrAutoinc s.params) = false) (hc : 0 < count.toNat) :
    ∃ t, exec (.writeBlock off count) s = .next t ∧ t.Ended .ok 0 ∧
      (∀ i, i < 2 → t.packetByte p (s.chip.dp + i) = some (s.hostRead s.eng.bufRef (2 * (count.toNat - 1) + i))) ∧
      (∀ a, a < pktAddr p s.chip.dp ∨ pktAddr p s.chip.dp + 2 ≤ a → t.chip.pktMem.read a = s.chip.pktMem.read a) ∧
      t.chip = { s.chip with pktMem := t.chip.pktMem } ∧ s.OnlyChip t := by
  obtain ⟨t, hx, hv, ⟨m, ht, hm⟩, ho⟩ := writeBlock_run (writeWord_still he hd hr ha count.toNat) hq
    ⟨s.chip.pktMem, rfl, fun _ _ => rfl, fun h => absurd h (by omega)⟩
  refine ⟨t, hx, hv, fun i hi => packetByte_of_read (e := e) (by rw [ht]; exact hr.entry) ?_, ?_, by rw [ht], ho⟩
  · rw [ht, pktAddr_add]
    exact hm.last hc i hi
  · rw [ht]
    exact hm.rest

end

/-! ## READ_BLOCK of registers -/

/-- A word read of registers leaves all but what reads leave (R85). -/
theorem winReadWord_onlyRead {x y : State} (hp : x.RegistersAt o) (h : winReadWord o x = .ok (v, y)) : x.OnlyRead y := by
  obtain ⟨⟨r, hr, hp⟩, q, hq, hp'⟩ := hp
  unfold winReadWord at h
  split at h
  · simp only [readWordAt, hp, hp'] at h
    split at h
    · obtain rfl := congrArg Prod.snd (Except.ok.inj h)
      exact readReg_onlyRead r x
    · obtain rfl := congrArg Prod.snd (Except.ok.inj h)
      exact (readReg_onlyRead r x).trans (readReg_onlyRead q _)
  · cases h

/-- What a word shows behind reads it has shown before them. -/
theorem State.OnlyRead.wordShown {x : State} (h : s.OnlyRead x) (hw : x.WordShown o v) : s.WordShown o v := by
  have hs := fun r w => h.shows (r := r) (w := w)
  obtain ⟨b, n, -, rfl⟩ := h
  refine ⟨fun r hr => hs r v (hw.1 r hr), fun r q hr hq hne hp hp' => ?_⟩
  obtain ⟨a, c, ha, hc, hv⟩ := hw.2 r q hr hq hne hp hp'
  exact ⟨a, c, hs r a ha, hs q c hc, hv⟩

/-- Behind any reads a word of registers is read as before them. -/
theorem readWord_registers (hb : bitsOk s.params.bits) (hm : has s.chip.mgmt (mdi s.params) = false) (hq : s.Quiet)
    (he : off.toNat % 2 = 0) (hp : s.RegistersAt off.toNat) (N : Nat) :
    ReadsThrough off (fun _ x => s.OnlyRead x) (fun _ v => s.WordShown off.toNat v) N := by
  intro k x _ hx
  have hxo := hx
  obtain ⟨b, n, -, rfl⟩ := hx
  obtain ⟨w, ⟨t, ht, hv, -⟩, hw⟩ := readWord_shows (s := (s.setChip { s.chip with arrSeen := b }).bump n) hb hm he hp
  obtain ⟨v, y, hr, -, hv', -⟩ := readWord_next (by exact hq) ht
  obtain rfl : v = w := BitVec.eq_of_toNat_eq (by simpa using hv'.2.symm.trans hv.2)
  exact ⟨v, y, hr, hxo.wordShown hw, hxo.trans (winReadWord_onlyRead hp hr)⟩

theorem readBlock_registers (hb : bitsOk s.params.bits) (hm : has s.chip.mgmt (mdi s.params) = false) (hq : s.Quiet)
    (he : off.toNat % 2 = 0) (hp : s.RegistersAt off.toNat) :
    ∃ t, exec (.readBlock off count) s = .next t ∧ t.Ended .ok 0 ∧
      (∀ k, k < count.toNat → ∃ w, s.WordShown off.toNat w ∧ t.hostRead s.eng.bufRef (2 * k) = lowByte w ∧
        t.hostRead s.eng.bufRef (2 * k + 1) = highByte w) ∧
      (∀ a, a < s.eng.bufRef ∨ s.eng.bufRef + 2 * count.toNat ≤ a → t.hostMem.read a = s.hostMem.read a) ∧
      t.chip = { s.chip with arrSeen := t.chip.arrSeen } ∧ s.SamePackets t ∧ t.phy = s.phy ∧ t.irq = s.irq := by
  obtain ⟨y, t, hx, hv, hyt, ⟨b, n, -, rfl⟩, hh⟩ :=
    readBlock_run (readWord_registers hb hm hq he hp count.toNat) hq ⟨s.chip.arrSeen, 0, id, rfl⟩
  have hc : t.chip = { s.chip with arrSeen := b } := hyt.chip
  refine ⟨t, hx, hv, fun k hk => ?_, hh.rest, by rw [hc], samePackets_of_chip (by rw [hc]) (by rw [hc]), hyt.phy, hyt.irq⟩
  obtain ⟨w, hw, hl, hhi⟩ := hh.words k (Nat.zero_le k) hk
  exact ⟨w, hw, by simp [State.hostRead, hl], by simp [State.hostRead, hhi]⟩

/-! ## The obligation -/

/-- Settles O34: the copies by the words' invariants, what a block is by following its first word. -/
theorem blockTransfersCopyWords : Obligations.BlockTransfersCopyWords :=
  ⟨fun _ _ => rfl, fun _ _ => rfl,
    fun _ _ _ _ _ hq he hd hr ha hN => readBlock_advancing he hd hq hr ha hN,
    fun _ _ _ _ _ hq he hd hr ha => readBlock_still he hd hq hr ha,
    fun _ _ _ _ _ hq he hd hr ha hc => writeBlock_still he hd hq hr ha hc,
    fun _ _ _ hb hm hq he hp => readBlock_registers hb hm hq he hp,
    fun _ _ _ _ _ _ hq hc hw hv hr => readBlock_of_rest hq hc hw hv hr,
    fun _ _ _ _ _ hq hc hw hr => writeBlock_of_rest hq hc hw hr,
    fun _ _ _ _ hh hc => ⟨readBlock_refused_of_first hh hc, writeBlock_refused_of_first hh hc⟩,
    fun _ _ _ _ _ _ hq hc hw hr => readBlock_refused_of_rest hq hc hw hr,
    fun _ _ _ _ _ hq hh he hd hr hs ha hN => readBlock_beyond he hd hq hh hr hs ha hN,
    fun _ _ _ _ _ hq hh he hd hr hs ha hN => writeBlock_beyond he hd hq hh hr hs ha hN,
    fun _ _ _ _ _ _ hq hc hw hr => writeBlock_refused_of_rest hq hc hw hr,
    fun _ _ _ _ _ hq he hd hr ha hN => writeBlock_advancing he hd hq hr ha hN⟩

end Sys2Proof.Machine
end

section
/-! PROOFS. The reference decoder of management frames (spec/30_encoding.md R152): each of its checks as a statement about
single cycles, and the frames it gets back. -/

namespace Sys2Proof.Machine

variable {c l m : List Drive} {a n : Nat} {w : BitVec n} {b : Bool} {phy reg : BitVec 5} {value : Word}

/-! ## Its checks, cycle by cycle -/

/-- A run of cycles is this one when each of its cycles is. -/
theorem take_drop_eq_iff_cycleAt (h : a + l.length ≤ c.length) :
    (c.drop a).take l.length = l ↔ ∀ k, k < l.length → cycleAt c (a + k) = cycleAt l k := by
  constructor
  · intro hl k hk
    rw [cycleAt, cycleAt, ← hl]
    simp [List.getElem?_drop, hk]
  · intro hl
    refine List.ext_getElem (by simp; omega) fun k hk hk' => ?_
    have hc := hl k hk'
    simp only [cycleAt, List.getD_eq_getElem _ _ hk', List.getD_eq_getElem c _ (by omega : a + k < c.length)] at hc
    simpa using hc

theorem frameHead_length : frameHead.length = 34 := rfl

/-- 32 ones, then the start code (R146, R147). -/
theorem take_eq_frameHead_iff (h : 34 ≤ c.length) :
    c.take 34 = frameHead ↔
      (∀ k, k < 32 → cycleAt c k = ⟨true, true⟩) ∧ cycleAt c 32 = ⟨true, false⟩ ∧ cycleAt c 33 = ⟨true, true⟩ := by
  have hh := take_drop_eq_iff_cycleAt (c := c) (a := 0) (l := frameHead) (by simpa [frameHead_length] using h)
  have hones : ∀ k, k < 32 → cycleAt frameHead k = ⟨true, true⟩ := by decide
  rw [List.drop_zero, frameHead_length] at hh
  rw [hh]
  constructor
  · intro hc
    refine ⟨fun k hk => ?_, ?_, ?_⟩
    · simpa [hones k hk] using hc k (by omega)
    · exact hc 32 (by omega)
    · exact hc 33 (by omega)
  · rintro ⟨hk, h32, h33⟩ k hlt
    rw [Nat.zero_add]
    rcases (by omega : k < 32 ∨ k = 32 ∨ k = 33) with hl | rfl | rfl
    · rw [hk k hl, hones k hl]
    · exact h32
    · exact h33

theorem take_eq_opcodeCycles_iff (isRead : Bool) (h : 36 ≤ c.length) :
    (c.drop 34).take 2 = opcodeCycles isRead ↔
      cycleAt c 34 = ⟨true, isRead⟩ ∧ cycleAt c 35 = ⟨true, !isRead⟩ := by
  have hl : (opcodeCycles isRead).length = 2 := rfl
  rw [← hl, take_drop_eq_iff_cycleAt (by rw [hl]; omega), hl]
  constructor
  · exact fun hc => ⟨hc 0 (by omega), hc 1 (by omega)⟩
  · rintro ⟨h0, h1⟩ k hk
    rcases (by omega : k = 0 ∨ k = 1) with rfl | rfl
    · exact h0
    · exact h1

theorem oeAll_iff : oeAll c a n b = true ↔ ∀ k, k < n → (cycleAt c (a + k)).oe = b := by
  simp [oeAll]

theorem oeAll_add (n n' : Nat) : oeAll c a (n + n') b = (oeAll c a n b && oeAll c (a + n) n' b) := by
  rw [Bool.eq_iff_iff, Bool.and_eq_true, oeAll_iff, oeAll_iff, oeAll_iff]
  constructor
  · exact fun h => ⟨fun k hk => h k (by omega), fun k hk => by rw [Nat.add_assoc]; exact h _ (by omega)⟩
  · rintro ⟨h, h'⟩ k hk
    by_cases hn : k < n
    · exact h k hn
    · have := h' (k - n) (by omega)
      rwa [show a + n + (k - n) = a + k by omega] at this

/-- A field is driven with this value when each of its cycles is driven with its bit, most significant first (R148). -/
theorem drivenField_iff :
    (oeAll c a n true = true ∧ fieldAt c a n = w) ↔ ∀ k, k < n → cycleAt c (a + k) = ⟨true, w.getLsbD (n - 1 - k)⟩ := by
  rw [oeAll_iff]
  constructor
  · rintro ⟨hoe, rfl⟩ k hk
    rw [fieldAt, getLsbD_fromMsb _ _ _ (by omega), show n - 1 - (n - 1 - k) = k by omega, ← hoe k hk]
  · intro h
    refine ⟨fun k hk => by rw [h k hk], ?_⟩
    rw [← fromMsb_getLsbD w]
    exact fromMsb_congr fun k hk => by rw [h k hk]

/-! ## What it accepts -/

/-- The decoder's two answers, check by check (R152). -/
theorem decodeFrame_eq_some_iff {i : Instr} : decodeFrame c = some i ↔
    c.take 34 = frameHead ∧ oeAll c 36 10 true = true ∧
    ((c.length = 64 ∧ (c.drop 34).take 2 = opcodeCycles true ∧ oeAll c 46 18 false = true ∧
        i = .miiReadFrame (fieldAt c 36 5) (fieldAt c 41 5)) ∨
      (c.length = 65 ∧ (c.drop 34).take 2 = opcodeCycles false ∧ oeAll c 46 2 false = true ∧
        oeAll c 48 16 true = true ∧ oeAll c 64 1 false = true ∧
        i = .miiWriteFrame (fieldAt c 36 5) (fieldAt c 41 5) (fieldAt c 48 16))) := by
  simp only [decodeFrame, Bool.and_eq_true, beq_iff_eq]
  split_ifs with hhead hread hwrite
  · obtain ⟨⟨hl, ho⟩, hz⟩ := hread
    constructor
    · exact fun h => ⟨hhead.1, hhead.2, .inl ⟨hl, ho, hz, (Option.some.inj h).symm⟩⟩
    · rintro ⟨-, -, ⟨-, -, -, rfl⟩ | ⟨hl', -⟩⟩
      · rfl
      · omega
  · obtain ⟨⟨⟨⟨hl, ho⟩, hz⟩, hv⟩, he⟩ := hwrite
    constructor
    · exact fun h => ⟨hhead.1, hhead.2, .inr ⟨hl, ho, hz, hv, he, (Option.some.inj h).symm⟩⟩
    · rintro ⟨-, -, ⟨hl', -⟩ | ⟨-, -, -, -, -, rfl⟩⟩
      · omega
      · rfl
  · refine ⟨nofun, ?_⟩
    rintro ⟨-, -, ⟨hl, ho, hz, -⟩ | ⟨hl, ho, hz, hv, he, -⟩⟩
    · exact absurd ⟨⟨hl, ho⟩, hz⟩ hread
    · exact absurd ⟨⟨⟨⟨hl, ho⟩, hz⟩, hv⟩, he⟩ hwrite
  · refine ⟨nofun, ?_⟩
    rintro ⟨hh, ho, -⟩
    exact absurd ⟨hh, ho⟩ hhead

/-- A read frame is accepted as the read of these operands. -/
theorem decodeFrame_eq_read_iff : decodeFrame c = some (.miiReadFrame phy reg) ↔
    c.length = 64 ∧ c.take 34 = frameHead ∧ (c.drop 34).take 2 = opcodeCycles true ∧
      (oeAll c 36 5 true = true ∧ fieldAt c 36 5 = phy) ∧ (oeAll c 41 5 true = true ∧ fieldAt c 41 5 = reg) ∧
      oeAll c 46 18 false = true := by
  rw [decodeFrame_eq_some_iff, show 10 = 5 + 5 from rfl, oeAll_add, Bool.and_eq_true]
  simp only [Instr.miiReadFrame.injEq, reduceCtorEq, and_false, or_false]
  constructor
  · rintro ⟨hh, ⟨hp, hr⟩, hl, ho, hz, rfl, rfl⟩
    exact ⟨hl, hh, ho, ⟨hp, rfl⟩, ⟨hr, rfl⟩, hz⟩
  · rintro ⟨hl, hh, ho, ⟨hp, rfl⟩, ⟨hr, rfl⟩, hz⟩
    exact ⟨hh, ⟨hp, hr⟩, hl, ho, hz, rfl, rfl⟩

/-- A write frame is accepted as the write of these operands. -/
theorem decodeFrame_eq_write_iff : decodeFrame c = some (.miiWriteFrame phy reg value) ↔
    c.length = 65 ∧ c.take 34 = frameHead ∧ (c.drop 34).take 2 = opcodeCycles false ∧
      (oeAll c 36 5 true = true ∧ fieldAt c 36 5 = phy) ∧ (oeAll c 41 5 true = true ∧ fieldAt c 41 5 = reg) ∧
      (oeAll c 48 16 true = true ∧ fieldAt c 48 16 = value) ∧ oeAll c 46 2 false = true ∧
      oeAll c 64 1 false = true := by
  rw [decodeFrame_eq_some_iff, show 10 = 5 + 5 from rfl, oeAll_add, Bool.and_eq_true]
  simp only [Instr.miiWriteFrame.injEq, reduceCtorEq, and_false, false_or]
  constructor
  · rintro ⟨hh, ⟨hp, hr⟩, hl, ho, hz, hv, he, rfl, rfl, rfl⟩
    exact ⟨hl, hh, ho, ⟨hp, rfl⟩, ⟨hr, rfl⟩, ⟨hv, rfl⟩, hz, he⟩
  · rintro ⟨hl, hh, ho, ⟨hp, rfl⟩, ⟨hr, rfl⟩, ⟨hv, rfl⟩, hz, he⟩
    exact ⟨hh, ⟨hp, hr⟩, hl, ho, hz, hv, he, rfl, rfl, rfl⟩

/-! ## Built frames come back -/

/-- A field is what is sent from the cycle on where it is driven. -/
theorem fieldAt_of_fieldCycles (hc : c = l ++ fieldCycles w ++ m) (ha : l.length = a) : fieldAt c a n = w := by
  subst hc ha
  conv_rhs => rw [← fromMsb_getLsbD w]
  refine fromMsb_congr fun k hk => ?_
  simp [cycleAt, fieldCycles, msbFirst, driven, List.getElem?_append, hk]

theorem decodeFrame_buildRead (phy reg : BitVec 5) :
    decodeFrame (buildRead phy reg) = some (.miiReadFrame phy reg) := by
  have hphy : fieldAt (buildRead phy reg) 36 5 = phy :=
    fieldAt_of_fieldCycles (List.append_assoc (_ ++ _) _ _) rfl
  have hreg : fieldAt (buildRead phy reg) 41 5 = reg := fieldAt_of_fieldCycles rfl rfl
  exact decodeFrame_eq_read_iff.2 ⟨rfl, rfl, rfl, ⟨rfl, hphy⟩, ⟨rfl, hreg⟩, rfl⟩

theorem decodeFrame_buildWrite (phy reg : BitVec 5) (value : Word) :
    decodeFrame (buildWrite phy reg value) = some (.miiWriteFrame phy reg value) := by
  have hphy : fieldAt (buildWrite phy reg value) 36 5 = phy :=
    fieldAt_of_fieldCycles (l := frameHead ++ opcodeCycles false) (by simp only [buildWrite, List.append_assoc]; rfl) rfl
  have hreg : fieldAt (buildWrite phy reg value) 41 5 = reg :=
    fieldAt_of_fieldCycles (l := frameHead ++ opcodeCycles false ++ fieldCycles phy)
      (by simp only [buildWrite, List.append_assoc]; rfl) rfl
  have hvalue : fieldAt (buildWrite phy reg value) 48 16 = value := fieldAt_of_fieldCycles rfl rfl
  exact decodeFrame_eq_write_iff.2 ⟨rfl, rfl, rfl, ⟨rfl, hphy⟩, ⟨rfl, hreg⟩, ⟨rfl, hvalue⟩, rfl, rfl⟩

/-! ## The obligation -/

/-- Settles O4: each check of `decodeFrame` is one about the cycles it looks at. -/
theorem frameDecoderChecksEveryCycle : Obligations.FrameDecoderChecksEveryCycle := by
  refine ⟨fun c phy reg => ?_, fun c phy reg value => ?_, decodeFrame_buildRead, decodeFrame_buildWrite⟩
  · rw [decodeFrame_eq_read_iff, drivenField_iff, drivenField_iff, oeAll_iff]
    refine and_congr_right fun hl => ?_
    rw [take_eq_frameHead_iff (by omega), take_eq_opcodeCycles_iff true (by omega)]
    have hz : (∀ k, k < 18 → (cycleAt c (46 + k)).oe = false) ↔ ∀ k, 46 ≤ k → k < 64 → (cycleAt c k).oe = false :=
      ⟨fun h k hk hk' => by have := h (k - 46) (by omega); rwa [show 46 + (k - 46) = k by omega] at this,
        fun h k hk => h _ (by omega) (by omega)⟩
    rw [hz, and_assoc, and_assoc, and_assoc]
    rfl
  · rw [decodeFrame_eq_write_iff, drivenField_iff, drivenField_iff, drivenField_iff, oeAll_iff, oeAll_iff]
    refine and_congr_right fun hl => ?_
    rw [take_eq_frameHead_iff (by omega), take_eq_opcodeCycles_iff false (by omega)]
    have hz : (∀ k, k < 2 → (cycleAt c (46 + k)).oe = false) ↔ (cycleAt c 46).oe = false ∧ (cycleAt c 47).oe = false :=
      ⟨fun h => ⟨h 0 (by omega), h 1 (by omega)⟩, fun h k hk => by
        rcases (by omega : k = 0 ∨ k = 1) with rfl | rfl
        · exact h.1
        · exact h.2⟩
    have he : (∀ k, k < 1 → (cycleAt c (64 + k)).oe = false) ↔ (cycleAt c 64).oe = false := by simp
    rw [hz, he, and_assoc, and_assoc, and_assoc, and_assoc]
    rfl

end Sys2Proof.Machine
end

section
/-! PROOFS. The three request formats (spec/30_encoding.md R121 to R123, R130, R131, R146, R147): command words, descriptors and
what is refused of them, and the step of an idle engine that is handed a request (R60, R120). -/

namespace Sys2Proof.Machine

variable {codes : Config.MmuCodes} {k : MmuCode} {w : Word} {op : Byte} {rest : List Byte} {i : Instr}

/-! ## Command words (R130, R131) -/

/-- A field cleared in a word and put into it again. -/
theorem without_or_putField {n f m : Nat} (w : BitVec n) :
    without w (fieldMask n f m) ||| putField n f (getField f m w) = w := by
  apply BitVec.eq_of_getLsbD_eq
  intro j hj
  simp only [BitVec.getLsbD_or, getLsbD_without, getLsbD_fieldMask, getLsbD_putField, getLsbD_getField, hj]
  by_cases hf : f ≤ j
  · rw [show f + (j - f) = j by omega]
    cases w.getLsbD j <;> simp [hf]
  · simp [hf]

/-- A field put into a word in which it is clear leaves the rest of the word. -/
theorem without_or_putField_of_clear {n f m : Nat} {w : BitVec n} (g : BitVec m) (h : w &&& fieldMask n f m = 0#n) :
    without (w ||| putField n f g) (fieldMask n f m) = w := by
  apply BitVec.eq_of_getLsbD_eq
  intro j hj
  have hclear : (w.getLsbD j && (fieldMask n f m).getLsbD j) = false := by rw [← BitVec.getLsbD_and, h, BitVec.getLsbD_zero]
  rw [getLsbD_fieldMask] at hclear
  rw [getLsbD_without, BitVec.getLsbD_or, getLsbD_putField, getLsbD_fieldMask]
  by_cases hm : j - f < m
  · by_cases hf : f ≤ j
    · simp_all
    · simp [hf]
  · simp [hm, BitVec.getLsbD_of_ge g (j - f) (by omega)]

/-- The field of such a word is what was put there. -/
theorem getField_or_putField_of_clear {n f m : Nat} {w : BitVec n} (g : BitVec m) (hf : f + m ≤ n)
    (h : w &&& fieldMask n f m = 0#n) : getField f m (w ||| putField n f g) = g := by
  apply BitVec.eq_of_getLsbD_eq
  intro j hj
  have hn : f + j < n := by omega
  have hclear : (w.getLsbD (f + j) && (fieldMask n f m).getLsbD (f + j)) = false := by
    rw [← BitVec.getLsbD_and, h, BitVec.getLsbD_zero]
  rw [getLsbD_fieldMask] at hclear
  rw [getLsbD_getField, BitVec.getLsbD_or, getLsbD_putField]
  simp_all

/-- A word that is read as a command is that command's word (R131). -/
theorem encodeMmuCode_of_decodeMmuCode (h : decodeMmuCode codes w = some k) : encodeMmuCode codes k = w := by
  unfold decodeMmuCode at h
  split_ifs at h with ha hr hl hf he <;> obtain rfl := Option.some.inj h
  · rw [encodeMmuCode, ← ha, without_or_putField]
  · exact hr.symm
  · exact hl.symm
  · exact hf.symm
  · exact he.symm

/-- Where MMU_CODES gives five commands five words, each word is read as its command. -/
theorem decodeMmuCode_encodeMmuCode (h : codesOk codes) (k : MmuCode) :
    decodeMmuCode codes (encodeMmuCode codes k) = some k := by
  obtain ⟨hclear, halloc, hdiff⟩ := h
  simp only [List.forall_mem_cons, List.not_mem_nil, false_implies, implies_true, and_true] at halloc
  obtain ⟨hreset, hrelease, hfree, henqueue⟩ := halloc
  simp only [List.nodup_cons, List.mem_cons, List.not_mem_nil, or_false, not_or] at hdiff
  obtain ⟨⟨hrl, hrf, hre⟩, ⟨hlf, hle⟩, hfe, -⟩ := hdiff
  have hn := codes.n.isLt
  cases k with
  | alloc n =>
    rw [decodeMmuCode, encodeMmuCode, without_or_putField_of_clear n hclear, if_pos rfl,
      getField_or_putField_of_clear n (by omega) hclear]
  | reset => simp [decodeMmuCode, encodeMmuCode, hreset]
  | release => simp [decodeMmuCode, encodeMmuCode, hrelease, Ne.symm hrl]
  | free => simp [decodeMmuCode, encodeMmuCode, hfree, Ne.symm hrf, Ne.symm hlf]
  | enqueue => simp [decodeMmuCode, encodeMmuCode, henqueue, Ne.symm hre, Ne.symm hle, Ne.symm hfe]

/-- A word that is no command's is read as none (U6, log 40). -/
theorem decodeMmuCode_eq_none (h : ∀ k, w ≠ encodeMmuCode codes k) : decodeMmuCode codes w = none := by
  cases hk : decodeMmuCode codes w with
  | none => rfl
  | some k => exact absurd (encodeMmuCode_of_decodeMmuCode hk).symm (h k)

theorem decode_mmuWord (h : codesOk codes) (k : MmuCode) :
    decode codes (.mmuWord (encodeMmuCode codes k)) = .ok k.toInstr := by
  simp only [decode, decodeMmuCode_encodeMmuCode h]

/-! ## Descriptors (R121, R122) -/

@[simp] theorem takeWord_wordBytes (op : Byte) (f : Word → List Byte → Except DecodeError (Instr × List Byte)) (v : Word)
    (rest : List Byte) : takeWord op f (wordBytes v ++ rest) = f v rest := by
  simp [takeWord, wordBytes]

@[simp] theorem takeLong_longBytes (op : Byte) (f : Long → List Byte → Except DecodeError (Instr × List Byte)) (v : Long)
    (rest : List Byte) : takeLong op f (longBytes v ++ rest) = f v rest := by
  simp [takeLong, longBytes, wordBytes]

theorem checked_of_wellFormed (op : Byte) (rest : List Byte) (h : i.WellFormed) : checked op i rest = .ok (i, rest) :=
  if_pos h

theorem decode_descriptor (h : decodeOp op rest = .ok (i, [])) : decode codes (.descriptor (op :: rest)) = .ok i := by
  simp only [decode, decodeDescriptor, decodeBytes, h]

theorem decode_descriptor_error {e : DecodeError} (h : decodeOp op rest = .error e) :
    decode codes (.descriptor (op :: rest)) = .error e := by
  simp only [decode, decodeDescriptor, decodeBytes, h]

/-- A word operand that ends the descriptor. -/
theorem takeWord_checked (op : Byte) (f : Word → Instr) (v : Word) (h : (f v).WellFormed) :
    takeWord op (fun v => checked op (f v)) (wordBytes v) = .ok (f v, []) := by
  rw [← List.append_nil (wordBytes v), takeWord_wordBytes, checked_of_wellFormed op [] h]

/-- A long operand that ends the descriptor. -/
theorem takeLong_checked (op : Byte) (f : Long → Instr) (v : Long) (h : (f v).WellFormed) :
    takeLong op (fun v => checked op (f v)) (longBytes v) = .ok (f v, []) := by
  rw [← List.append_nil (longBytes v), takeLong_longBytes, checked_of_wellFormed op [] h]

/-! ## Every row (O1) -/

/-- Settles O1, row by row: word and long operands by their bytes, the bounded operands by R123, commands by
`decodeMmuCode_encodeMmuCode`, frames by the decoder of R152. -/
theorem decodeEncodeRoundTrip : Obligations.DecodeEncodeRoundTrip := by
  intro codes hcodes i hwf
  cases i with
  | selectBank n => exact decode_descriptor (checked_of_wellFormed _ [] hwf)
  | allocate n => exact decode_descriptor (checked_of_wellFormed _ [] hwf)
  | miiRead reg => exact decode_descriptor (checked_of_wellFormed _ [] hwf)
  | miiWrite reg v => exact decode_descriptor (takeWord_checked 0x31#8 (.miiWrite reg) v hwf)
  | writeWord off v => exact decode_descriptor (takeWord_checked 0x05#8 (.writeWord off) v rfl)
  | readBlock off count => exact decode_descriptor (takeWord_checked 0x07#8 (.readBlock off) count rfl)
  | writeBlock off count => exact decode_descriptor (takeWord_checked 0x08#8 (.writeBlock off) count rfl)
  | transmit len => exact decode_descriptor (takeWord_checked 0x20#8 .transmit len rfl)
  | writeLong off v => exact decode_descriptor (takeLong_checked 0x06#8 (.writeLong off) v rfl)
  | mmuAlloc n => exact decode_mmuWord hcodes (.alloc n)
  | mmuReset => exact decode_mmuWord hcodes .reset
  | mmuRelease => exact decode_mmuWord hcodes .release
  | mmuFree => exact decode_mmuWord hcodes .free
  | mmuEnqueue => exact decode_mmuWord hcodes .enqueue
  | miiReadFrame phy reg => simp only [encode, decode, decodeFrame_buildRead]
  | miiWriteFrame phy reg v => simp only [encode, decode, decodeFrame_buildWrite]
  | _ => exact decode_descriptor rfl

/-! ## Words of the opcode table -/

/-- Settles O6, word by word. -/
theorem tableWordsDecode : Obligations.TableWordsDecode := by
  unfold Obligations.TableWordsDecode
  decide +kernel

/-! ## An idle engine that is handed a request (R60, R120, R123) -/

variable {s : State} {r : Request} {buf : Nat} {inputs : List Input}

theorem step_of_decode_error {e : DecodeError} (hidle : s.eng.pos = .idle) (hin : s.inbox = .op r buf :: inputs)
    (hd : decode s.params.codes r = .error e) : step s = .refused (.badRequest e) := by
  simp only [step, hidle, hin, hd]

theorem step_of_decode_ok (hidle : s.eng.pos = .idle) (hin : s.inbox = .op r buf :: inputs)
    (hd : decode s.params.codes r = .ok i) :
    step s = unlessHung (startOperation i buf inputs s) (exec i (startOperation i buf inputs s)) := by
  simp only [step, hidle, hin, hd]

theorem unlessHung_of_none {u : State} (o : Out) (h : u.hang = none) : unlessHung u o = settle o := by
  simp [unlessHung, h]

theorem unlessHung_of_some {u : State} {g : Hang} (o : Out) (h : u.hang = some g) :
    unlessHung u o = .next (thaw g u) := by
  simp [unlessHung, h, settle_of_some h]

/-- Settles O7: the step is `startOperation` and then `exec`, unless a handler hangs in the gap of the first. -/
theorem stepRunsDecodedOperation : Obligations.StepRunsDecodedOperation := by
  intro s r buf inputs i hidle hin hd
  have hstep := step_of_decode_ok hidle hin hd
  refine ⟨_, startOperation i buf inputs s, rfl, rfl, fun hq => gap_quiet hq, fun hn => ?_, fun t hn hx ht => ?_,
    fun e hn hx => ?_, fun e hn hx => ?_, fun g hg => ?_⟩
  · rw [hstep, unlessHung_of_none _ hn]
  · rw [hstep, unlessHung_of_none _ hn, hx, settle_of_none ht]
  · rw [hstep, unlessHung_of_none _ hn, hx]
    rfl
  · rw [hstep, unlessHung_of_none _ hn, hx]
    rfl
  · rw [hstep, unlessHung_of_some _ hg]

/-- An operand outside R123. -/
theorem checked_of_not_wellFormed (op : Byte) (rest : List Byte) (h : ¬ i.WellFormed) :
    checked op i rest = .error (.operandRange op) := if_neg h

/-- An identifier that is none of R121. -/
theorem decodeOp_of_unknown (h : op ∉ [0x00#8, 0x01#8, 0x02#8, 0x03#8, 0x04#8, 0x05#8, 0x06#8, 0x07#8, 0x08#8, 0x10#8,
      0x11#8, 0x12#8, 0x13#8, 0x20#8, 0x21#8, 0x30#8, 0x31#8, 0x32#8, 0x40#8, 0x41#8, 0x42#8, 0x43#8, 0x44#8, 0x45#8]) :
    decodeOp op rest = .error (.unknownOp op) := by
  unfold decodeOp
  split
  case h_25 => rfl
  all_goals exact absurd (by decide) h

/-- Settles O5: such a request does not decode, and `exec` checks its operand first. -/
theorem outOfRangeOperationsAreRefused : Obligations.OutOfRangeOperationsAreRefused := by
  refine ⟨fun s n buf rest hidle hn hin => ?_, fun s n buf rest hidle hn hin => ?_, fun s reg buf rest hidle hr hin => ?_,
    fun s reg lo hi buf rest hidle hr hin => ?_, fun s op bytes buf rest hidle hop hin => ?_,
    fun s n hn => if_neg (by omega), fun s n hn => if_neg (by omega), fun s reg hr => if_neg (by omega),
    fun s reg v hr => if_neg (by omega)⟩
  all_goals refine step_of_decode_error hidle hin (decode_descriptor_error ?_)
  · exact checked_of_not_wellFormed (i := .selectBank n) _ [] (by simpa [Instr.wellFormed] using hn)
  · exact checked_of_not_wellFormed (i := .allocate n) _ [] (by simpa [Instr.wellFormed] using hn)
  · exact checked_of_not_wellFormed (i := .miiRead reg) _ [] (by simpa [Instr.wellFormed] using hr)
  · exact checked_of_not_wellFormed (i := .miiWrite reg (wordOf lo hi)) _ [] (by simpa [Instr.wellFormed] using hr)
  · exact decodeOp_of_unknown hop

end Sys2Proof.Machine
end

section
/-! PROOFS. A command written to MMU_CMD through the window (spec/40_register_bank.md R164, R165, spec/41_allocator.md R190 to
R195): it is taken and refused as the command's own row. -/

namespace Sys2Proof.Machine

variable {s t : State} {off b : Byte} {high : Bool} {k : MmuCode} {w : Word} {e : Refusal}

/-! ## The command's own row -/

theorem exec_toInstr (k : MmuCode) (s : State) : exec k.toInstr s = issueCommand k s := by
  cases k <;> rfl

theorem exec_toInstr_of_guard (hb : s.chip.bank = s.params.regs.pb) (hg : mmuGuard k s.params s.chip = none) :
    exec k.toInstr s = .next ((mmuIssue .ret k (s.begin k.toInstr)).finish .ok 0) := by
  rw [exec_toInstr, issueCommand, inPacketBank_of_bank _ hb, wrMmu_of_guard (s := s.begin _) hg, andThen_ok]

theorem exec_toInstr_refused (hb : s.chip.bank = s.params.regs.pb) (hh : s.hang = none)
    (hg : mmuGuard k s.params s.chip = some e) : exec k.toInstr s = .refused e := by
  rw [exec_toInstr, issueCommand, inPacketBank_of_bank _ hb, (wrMmu_error (s := s.begin _)).2 ⟨hh, hg⟩, andThen_error]

/-! ## A word written to MMU_CMD -/

theorem mmuWrite_of_guard (hc : codesOk s.params.codes) (hw : w = encodeMmuCode s.params.codes k)
    (hg : mmuGuard k s.params s.chip = none) : mmuWrite w s = .ok (mmuTake k s) := by
  simp only [mmuWrite, hw, decodeMmuCode_encodeMmuCode hc, hg]

theorem mmuWrite_refused (hc : codesOk s.params.codes) (hw : w = encodeMmuCode s.params.codes k)
    (hg : mmuGuard k s.params s.chip = some e) : mmuWrite w s = .error e := by
  simp only [mmuWrite, hw, decodeMmuCode_encodeMmuCode hc, hg]

theorem mmuWrite_unknown (h : ∀ k, w ≠ encodeMmuCode s.params.codes k) : mmuWrite w s = .error .unknownMmuCommand := by
  simp only [mmuWrite, decodeMmuCode_eq_none h]

/-! ## The window at MMU_CMD -/

theorem bank_of_mmuCmdAt {o : Nat} (h : placeAt s.params.regs s.chip.bank o = some (.byte .mmuCmd high)) :
    s.chip.bank = s.params.regs.pb :=
  ((livesAt_of_home rfl).1 (placeAt_livesAt h)).1

/-- The word a byte written to one half of MMU_CMD stands for (log 11). -/
theorem mergeHalf_zero (high : Bool) (b : Byte) : mergeHalf 0#16 high b = if high then b ++ 0#8 else 0#8 ++ b := by
  cases high <;> rfl

theorem writeByte_mmuCmd (b : Byte) (h : placeAt s.params.regs s.chip.bank off.toNat = some (.byte .mmuCmd high)) :
    exec (.writeByte off b) s =
      andThen (mmuWrite (if high then b ++ 0#8 else 0#8 ++ b) (s.begin (.writeByte off b))) fun t =>
        .next ((accessed (.write .mmuCmd 1 (b.setWidth 32)) t).finish .ok 0) := by
  simp only [exec, execWriteByte, winWriteByte, State.begin_params, State.begin_chip, h, writePlace, writeReg, storedWord,
    mergeHalf_zero, labelAt, traceReg]

theorem writeWord_mmuCmd (w : Word) (he : off.toNat % 2 = 0) (h : s.WordAt off.toNat .mmuCmd) :
    exec (.writeWord off w) s = andThen (mmuWrite w (s.begin (.writeWord off w))) fun t =>
      .next ((accessed (.write .mmuCmd 2 (w.setWidth 32)) t).finish .ok 0) := by
  simp only [exec, execWriteWord, winWriteWord, he, if_true, writeWordAt, State.begin_params, State.begin_chip, h.1, h.2,
    writeReg, labelAt, traceReg]

/-- Behind the write the sequencer is at no step, whichever operation made it. -/
theorem accessed_mmuTake (i : Instr) (k : MmuCode) (s : State) :
    accessed (.write .mmuCmd 2 ((encodeMmuCode s.params.codes k).setWidth 32)) (mmuTake k (s.begin i)) =
      mmuIssue .ret k (s.begin k.toInstr) := rfl

/-- A command touches neither the allocation table nor packet memory when it is written. -/
theorem mmuEffect_packets (k : MmuCode) (p : Config.Params) (c : Chip) :
    (mmuEffect k p c).table = c.table ∧ (mmuEffect k p c).pktMem = c.pktMem := by
  cases k <;> exact ⟨rfl, rfl⟩

/-- A command taken by a byte write, with the agents at rest: the chip unit as its row leaves it, and nothing else. -/
theorem writeByte_mmuCmd_leaves {u : State} {a : Access} {i : Instr} (hq : s.Quiet)
    (ht : t = (accessed a (mmuTake k (s.begin i))).finish .ok 0)
    (hu : u = (mmuIssue .ret k (s.begin k.toInstr)).finish .ok 0) :
    t.chip = u.chip ∧ s.OnlyChip t ∧ s.SamePackets t := by
  rw [accessed, gap_quiet (by exact hq)] at ht
  rw [mmuIssue, gap_quiet (by exact hq)] at hu
  obtain ⟨htable, hmem⟩ := mmuEffect_packets k s.params s.chip
  subst ht hu
  exact ⟨rfl, ⟨rfl, rfl, fun _ => rfl, rfl, rfl, rfl, rfl, rfl⟩, samePackets_of_chip htable hmem⟩

/-- Settles O29: a write to MMU_CMD is `mmuWrite`, which takes and refuses a command as `wrMmu` does. -/
theorem writeWordIssuesTheCommand : Obligations.WriteWordIssuesTheCommand := by
  refine ⟨fun s off b high k hc hh hp hk => ?_, fun s off b high hp hk => ?_, fun s off k hc hh he hp => ?_,
    fun s off w he hp hk => ?_⟩
  · have hb := bank_of_mmuCmdAt hp
    rw [writeByte_mmuCmd b hp]
    cases hg : mmuGuard k s.params s.chip with
    | none =>
      rw [exec_toInstr_of_guard hb hg, mmuWrite_of_guard (s := s.begin _) hc hk hg]
      refine ⟨fun e h => (by cases h), fun u hu => ?_⟩
      exact ⟨_, rfl, ⟨rfl, rfl⟩, fun hq => writeByte_mmuCmd_leaves hq rfl (Host.Outcome.next.inj hu).symm⟩
    | some e =>
      rw [exec_toInstr_refused hb hh hg, mmuWrite_refused (s := s.begin _) hc hk hg]
      exact ⟨fun _ h => h, fun u h => by cases h⟩
  · rw [writeByte_mmuCmd b hp, mmuWrite_unknown (s := s.begin _) hk, andThen_error]
  · have hb := bank_of_mmuCmdAt hp.1
    rw [writeWord_mmuCmd _ he hp]
    cases hg : mmuGuard k s.params s.chip with
    | none =>
      rw [exec_toInstr_of_guard hb hg,
        mmuWrite_of_guard (s := s.begin _) (w := encodeMmuCode s.params.codes k) hc rfl hg]
      exact congrArg (fun t => Host.Outcome.next (t.finish .ok 0)) (accessed_mmuTake _ k s)
    | some e =>
      rw [exec_toInstr_refused hb hh hg,
        mmuWrite_refused (s := s.begin _) (w := encodeMmuCode s.params.codes k) hc rfl hg, andThen_error]
  · rw [writeWord_mmuCmd w he hp, mmuWrite_unknown (s := s.begin _) hk, andThen_error]

end Sys2Proof.Machine
end

section
/-! PROOFS. The mapping of capabilities to advertisement (spec/30_encoding.md R155), bit by bit. -/

namespace Sys2Proof.Machine

/-- An advertised bit is the CSMA bit, or that of a capability the PHY has. -/
theorem getLsbD_advertise (p : Config.Params) (caps : Word) (k : Nat) :
    (advertise p caps).getLsbD k =
      (decide (k = p.phyMap.adCsma.val) || (caps.getLsbD p.phyMap.capT4.val && decide (k = p.phyMap.adT4.val)) ||
        (caps.getLsbD p.phyMap.cap100Fd.val && decide (k = p.phyMap.ad100Fd.val)) ||
        (caps.getLsbD p.phyMap.cap100Hd.val && decide (k = p.phyMap.ad100Hd.val)) ||
        (caps.getLsbD p.phyMap.cap10Fd.val && decide (k = p.phyMap.ad10Fd.val)) ||
        (caps.getLsbD p.phyMap.cap10Hd.val && decide (k = p.phyMap.ad10Hd.val))) := by
  simp only [advertise, BitVec.getLsbD_or, getLsbD_flag, adCsma, adT4, ad100Fd, ad100Hd, ad10Fd, ad10Hd, getLsbD_bit, capT4,
    cap100Fd, cap100Hd, cap10Fd, cap10Hd, has_bit]

/-- Settles O52, by `getLsbD_advertise`: no two advertised bits are one. -/
theorem advertisementMapping : Obligations.AdvertisementMapping := by
  rintro p caps ⟨-, -, -, hdiff⟩
  simp only [List.nodup_cons, List.mem_cons, List.not_mem_nil, or_false, not_or, ← ne_eq, ← Fin.val_ne_iff] at hdiff
  obtain ⟨⟨ht1, ht2, ht3, ht4, ht5⟩, ⟨hfd1, hfd2, hfd3, hfd4⟩, ⟨hhd1, hhd2, hhd3⟩, ⟨htfd1, htfd2⟩, hthd, -⟩ := hdiff
  refine ⟨?_, ?_, ?_, ?_, ?_, ?_, ?_, ?_⟩
  · rw [adCsma, has_bit, getLsbD_advertise]; simp
  · rw [adT4, capT4, has_bit, has_bit, getLsbD_advertise]; simp [*]
  · rw [ad100Fd, cap100Fd, has_bit, has_bit, getLsbD_advertise]; simp [*, Ne.symm ht1]
  · rw [ad100Hd, cap100Hd, has_bit, has_bit, getLsbD_advertise]; simp [*, Ne.symm ht2, Ne.symm hfd1]
  · rw [ad10Fd, cap10Fd, has_bit, has_bit, getLsbD_advertise]; simp [*, Ne.symm ht3, Ne.symm hfd2, Ne.symm hhd1]
  · rw [ad10Hd, cap10Hd, has_bit, has_bit, getLsbD_advertise]
    simp [*, Ne.symm ht4, Ne.symm hfd3, Ne.symm hhd2, Ne.symm htfd1]
  · apply BitVec.eq_of_getLsbD_eq
    intro k hk
    rw [BitVec.getLsbD_and, getLsbD_advertise, BitVec.getLsbD_not]
    simp only [BitVec.getLsbD_or, adCsma, adT4, ad100Fd, ad100Hd, ad10Fd, ad10Hd, getLsbD_bit]
    grind
  · apply BitVec.eq_of_getLsbD_eq
    intro k hk
    simp only [getLsbD_advertise, BitVec.getLsbD_and, BitVec.getLsbD_or, capT4, cap100Fd, cap100Hd, cap10Fd, cap10Hd,
      getLsbD_bit]
    simp

end Sys2Proof.Machine
end

section
/-! PROOFS. Parts of an operation while nothing happens in its gaps, whether the tape is empty or quiet: where each leads, and
how many gaps it takes (spec/20_memory.md R101, log 2). -/

namespace Sys2Proof.Machine

variable {s t u : State} {c d : Chip} {e f : Engine} {j k n : Nat}

/-! ## Nothing happens -/

/-- Nothing happens in the next `n` gaps. -/
def State.RestsFor (n : Nat) (s : State) : Prop := ∀ g ∈ s.env.tape.take n, g = ⟨0, []⟩

theorem restsFor_of_quiet (h : s.Quiet) (n : Nat) : s.RestsFor n := by
  intro g hg
  simp [show s.env.tape = [] from h] at hg

theorem restsFor_of_quietGaps {rest : List Gap} (h : s.env.tape = quietGaps n ++ rest) : s.RestsFor n := by
  intro g hg
  rw [h, quietGaps, List.take_left' (by simp)] at hg
  exact List.eq_of_mem_replicate hg

theorem State.RestsFor.mono (h : s.RestsFor n) (hk : k ≤ n) : s.RestsFor k :=
  fun g hg => h g ((List.take_sublist_take_left hk).subset hg)

theorem State.RestsFor.drop (h : s.RestsFor (k + n)) (ht : t.env.tape = s.env.tape.drop k) : t.RestsFor n := by
  intro g hg
  rw [ht] at hg
  refine h g ?_
  rw [List.take_add]
  exact List.mem_append_right _ hg

theorem gap_of_restsFor (h : s.RestsFor 1) : gap s = s.withTape (s.env.tape.drop 1) := by
  rcases ht : s.env.tape with _ | ⟨g, rest⟩
  · rw [gap_quiet ht]
    exact (withTape_self ht).symm
  · obtain rfl := h g (by simp [ht])
    rw [gap_cons_nil ht]
    rfl

/-! ## Where a part leads -/

/-- A part of an operation leads from `s` to `t`: the chip unit is `c`, the engine `e` but for the sequencer's position, `k` gaps
have passed in which nothing but the chip unit's agents has happened, and of the rest only the bookkeeping is another. -/
structure State.Leads (s : State) (c : Chip) (e : Engine) (k : Nat) (t : State) : Prop where
  chip : t.chip = c
  eng : t.eng = { e with point := t.eng.point }
  tape : t.env.tape = s.env.tape.drop k
  params : t.params = s.params
  phy : t.phy = s.phy
  hostMem : t.hostMem = s.hostMem
  inbox : t.inbox = s.inbox
  irq : t.irq = { s.irq with hold := t.irq.hold }
  now : t.env.now = s.env.now
  sent : t.env.sent = s.env.sent
  hang : t.hang = s.hang

theorem State.Leads.trans (h : s.Leads c e j t) (g : t.Leads d f k u) (hn : j + k = n) : s.Leads d f n u where
  chip := g.chip
  eng := g.eng
  tape := by rw [g.tape, h.tape, List.drop_drop, hn]
  params := g.params.trans h.params
  phy := g.phy.trans h.phy
  hostMem := g.hostMem.trans h.hostMem
  inbox := g.inbox.trans h.inbox
  irq := by rw [g.irq, h.irq]
  now := g.now.trans h.now
  sent := g.sent.trans h.sent
  hang := g.hang.trans h.hang

theorem State.Leads.rests (h : s.Leads c e k t) (hr : s.RestsFor n) (hj : k + j ≤ n) : t.RestsFor j :=
  (hr.mono hj).drop h.tape

/-- The chip unit and the engine of a part, said another way; the engine's position does not count. -/
theorem State.Leads.congr (h : s.Leads c e k t) (hc : c = d) (he : { e with point := [] } = { f with point := [] }) :
    s.Leads d f k t where
  chip := h.chip.trans hc
  eng := by
    rw [h.eng]
    exact congrArg (fun x : Engine => { x with point := t.eng.point }) he
  tape := h.tape
  params := h.params
  phy := h.phy
  hostMem := h.hostMem
  inbox := h.inbox
  irq := h.irq
  now := h.now
  sent := h.sent
  hang := h.hang

/-- A part behind another one that leaves the engine alone. -/
theorem State.Leads.keeps (h : s.Leads c e j t) (g : t.Leads d t.eng k u) (hn : j + k = n) : s.Leads d e n u :=
  (h.trans g hn).congr rfl (by rw [h.eng])

theorem leads_setChip (c : Chip) (s : State) : s.Leads c s.eng 0 (s.setChip c) :=
  ⟨rfl, rfl, rfl, rfl, rfl, rfl, rfl, rfl, rfl, rfl, rfl⟩

theorem leads_setEng (e : Engine) (s : State) : s.Leads s.chip e 0 (s.setEng e) :=
  ⟨rfl, rfl, rfl, rfl, rfl, rfl, rfl, rfl, rfl, rfl, rfl⟩

theorem leads_setHold (b : Bool) (s : State) : s.Leads s.chip s.eng 0 (s.setHold b) :=
  ⟨rfl, rfl, rfl, rfl, rfl, rfl, rfl, rfl, rfl, rfl, rfl⟩

theorem leads_bump (n : Nat) (s : State) : s.Leads s.chip s.eng 0 (s.bump n) :=
  ⟨rfl, rfl, rfl, rfl, rfl, rfl, rfl, rfl, rfl, rfl, rfl⟩

/-- The sequencer's position is no part of where a step leads. -/
theorem leads_advance (nx : Next) (s : State) : s.Leads s.chip s.eng 0 (s.advance nx) :=
  ⟨rfl, rfl, rfl, rfl, rfl, rfl, rfl, rfl, rfl, rfl, rfl⟩

theorem leads_call (i : Instr) (back : Next) (s : State) : s.Leads s.chip s.eng 0 (s.call i back) :=
  ⟨rfl, rfl, rfl, rfl, rfl, rfl, rfl, rfl, rfl, rfl, rfl⟩

theorem leads_begin (i : Instr) (s : State) : s.Leads s.chip s.eng 0 (s.begin i) :=
  ⟨rfl, rfl, rfl, rfl, rfl, rfl, rfl, rfl, rfl, rfl, rfl⟩

theorem leads_mmuTake (q : MmuCode) (s : State) :
    s.Leads (mmuEffect q s.params s.chip) { s.eng with pkt := handleAfter q s.eng.pkt } 0 (mmuTake q s) :=
  ⟨rfl, rfl, rfl, rfl, rfl, rfl, rfl, rfl, rfl, rfl, rfl⟩

/-- The trace entry and the position behind an access. -/
theorem State.Leads.noted (h : s.Leads c e k t) (a : Access) (nx : Next) : s.Leads c e k ((t.note a).advance nx) where
  chip := h.chip
  eng := congrArg (fun x : Engine => { x with point := advancePoint nx t.eng.point }) h.eng
  tape := h.tape
  params := h.params
  phy := h.phy
  hostMem := h.hostMem
  inbox := h.inbox
  irq := h.irq
  now := h.now
  sent := h.sent
  hang := h.hang

/-- A gap in which nothing happens. -/
theorem leads_gap (h : s.RestsFor 1) : s.Leads s.chip s.eng 1 (gap s) := by
  rw [gap_of_restsFor h]
  exact ⟨rfl, rfl, rfl, rfl, rfl, rfl, rfl, rfl, rfl, rfl, rfl⟩

/-- An access leads where its effect does, and takes one gap. -/
theorem State.Leads.access (h : s.Leads c e 0 t) (a : Access) (nx : Next) (hr : s.RestsFor 1) :
    s.Leads c e 1 (gap ((t.note a).advance nx)) := by
  have hn := h.noted a nx
  exact (hn.keeps (leads_gap (hn.rests hr (by omega))) rfl).congr hn.chip rfl

/-! ## Accesses -/

theorem readReg_leads (r : Reg) (s : State) : s.Leads (readReg r s).2.chip s.eng 0 (readReg r s).2 where
  chip := rfl
  eng := by simp
  tape := by simp
  params := by simp
  phy := by simp
  hostMem := by simp
  inbox := by simp
  irq := by simp
  now := by simp
  sent := by simp
  hang := by simp

theorem rd_leads (nx : Next) (r : Reg) (w : Nat) (h : s.RestsFor 1) :
    s.Leads (readReg r s).2.chip s.eng 1 (rd nx r w s).2 :=
  (readReg_leads r s).access _ nx h

theorem rdKeep_leads (nx : Next) (r : Reg) (w : Nat) (keep : Word → Engine → Engine) (h : s.RestsFor 1) :
    s.Leads (readReg r s).2.chip (keep (readReg r s).1 s.eng) 1 (rdKeep nx r w keep s) := by
  rw [rdKeep_eq]
  exact State.Leads.access ((readReg_leads r s).trans (leads_setEng _ _) rfl) _ nx h

/-- A write to a register of the chip unit that nothing else answers. -/
theorem wr_leads {v : Word} (nx : Next) (r : Reg) (w : Nat) (hw : setReg r v s = s.setChip c) (h : s.RestsFor 1) :
    s.Leads c s.eng 1 (wr nx r w v s) := by
  rw [wr_eq, hw]
  exact (leads_setChip c s).access _ nx h

theorem wrMmu_leads (nx : Next) {q : MmuCode} (hg : mmuGuard q s.params s.chip = none) (h : s.RestsFor 1) :
    ∃ t, wrMmu nx q s = .ok t ∧
      s.Leads (mmuEffect q s.params s.chip) { s.eng with pkt := handleAfter q s.eng.pkt } 1 t :=
  ⟨_, wrMmu_of_guard hg, (leads_mmuTake q s).access _ nx h⟩

theorem wrData_leads {p : Pkt} {x : Entry} (nx : Next) (v : Word) (hd : s.DataReady p x 2 false) (h : s.RestsFor 1) :
    ∃ t, wrData nx v s = .ok t ∧ s.Leads (s.chip.stored p (wordBytes v) (s.advanced 2)) s.eng 1 t := by
  have hw := hd.dataWrite_stored (v.setWidth 32)
  rw [dataBytes_word] at hw
  unfold wrData
  rw [hw]
  exact ⟨_, rfl, (leads_setChip _ s).access _ nx h⟩

theorem saveCtx_leads (nx ny : Next) (h : s.RestsFor 2) :
    s.Leads s.chip { s.eng with savedPnr := s.chip.pnr, savedPtr := s.chip.ptr } 2 (saveCtx nx ny s) := by
  have hpnr := rdKeep_leads nx .pnr 1 (fun v e => { e with savedPnr := lowByte v }) (h.mono (by omega))
  have hptr := rdKeep_leads ny .ptr 2 (fun v e => { e with savedPtr := v }) (hpnr.rests h (by omega))
  refine (hpnr.trans hptr rfl).congr hpnr.chip ?_
  rw [hpnr.eng, readReg_ptr, hpnr.chip, readReg_pnr]
  rfl

end Sys2Proof.Machine
end

section
/-! PROOFS. The envelope that TRANSMIT writes into its buffer (spec/30_encoding.md R134 to R137, spec/42_transmit.md R203 to R205)
and what its decoder gives back (R211). -/

namespace Sys2Proof.Machine

variable {q : Config.Params} {bs : List Byte} {k : Nat}

/-! ## The envelope of a payload -/

/-- The status word and the byte count in front of a payload of `n` bytes (R134, R135). -/
def envelopeHead (n : Nat) : List Byte := wordBytes 0#16 ++ wordBytes (BitVec.ofNat 16 (n + Config.envOverhead))

/-- What stands behind a payload of `n` bytes (R137): the control word 0, or behind an odd byte CTL_ODD. -/
def envelopeTail (q : Config.Params) (n : Nat) : List Byte := if n % 2 = 0 then wordBytes 0#16 else [ctlOdd q]

/-- The envelope of a payload (R134). -/
def envelope (q : Config.Params) (bs : List Byte) : List Byte :=
  envelopeHead bs.length ++ (bs ++ envelopeTail q bs.length)

theorem length_envelope (q : Config.Params) (bs : List Byte) :
    (envelope q bs).length = evenPart bs.length + 6 := by
  simp only [envelope, envelopeHead, envelopeTail, evenPart, wordBytes, List.length_append, List.length_cons, List.length_nil]
  split <;> simp only [List.length_cons, List.length_nil] <;> omega

theorem getElem?_envelope (q : Config.Params) (bs : List Byte) (k : Nat) :
    (envelope q bs)[4 + k]? = (bs ++ envelopeTail q bs.length)[k]? := by
  rw [envelope, List.getElem?_append_right (Nat.le_add_right 4 k)]
  exact congrArg _ (Nat.add_sub_cancel_left 4 k)

theorem getElem?_envelope_payload (q : Config.Params) (hk : k < bs.length) :
    (envelope q bs)[4 + k]? = bs[k]? := by
  rw [getElem?_envelope, List.getElem?_append_left hk]

theorem getElem?_envelope_tail (q : Config.Params) (bs : List Byte) (k : Nat) :
    (envelope q bs)[4 + bs.length + k]? = (envelopeTail q bs.length)[k]? := by
  rw [Nat.add_assoc, getElem?_envelope, List.getElem?_append_right (Nat.le_add_right ..), Nat.add_sub_cancel_left]

/-! ## Its decoder -/

/-- A buffer holds the envelope of a payload. -/
def HoldsEnvelope (q : Config.Params) (bs : List Byte) (byte : Nat → Byte) : Prop :=
  ∀ o, o < evenPart bs.length + 6 → (envelope q bs)[o]? = some (byte o)

variable {byte : Nat → Byte}

theorem HoldsEnvelope.payload (h : HoldsEnvelope q bs byte) (hk : k < bs.length) :
    bs[k]? = some (byte (4 + k)) := by
  rw [← getElem?_envelope_payload q hk]
  exact h _ (by unfold evenPart; omega)

/-- The two bytes of the control word of an even payload. -/
theorem HoldsEnvelope.even (h : HoldsEnvelope q bs byte) (he : bs.length % 2 = 0) :
    byte (4 + bs.length) = 0#8 ∧ byte (5 + bs.length) = 0#8 := by
  have hb (k : Nat) (hk : k < 2) : [0#8, 0#8][k]? = some (byte (4 + bs.length + k)) := by
    rw [← h _ (by unfold evenPart; omega), getElem?_envelope_tail, envelopeTail, if_pos he]
    rfl
  refine ⟨(Option.some.inj (hb 0 (by omega))).symm, ?_⟩
  rw [show 5 + bs.length = 4 + bs.length + 1 by omega]
  exact (Option.some.inj (hb 1 (by omega))).symm

/-- The byte behind an odd payload. -/
theorem HoldsEnvelope.odd (h : HoldsEnvelope q bs byte) (ho : bs.length % 2 = 1) :
    byte (4 + bs.length) = ctlOdd q := by
  have hb := h (4 + bs.length + 0) (by unfold evenPart; omega)
  rw [getElem?_envelope_tail, envelopeTail, if_neg (by omega)] at hb
  exact (Option.some.inj hb).symm

theorem HoldsEnvelope.count (h : HoldsEnvelope q bs byte) :
    byte 2 = lowByte (BitVec.ofNat 16 (bs.length + 6)) ∧ byte 3 = highByte (BitVec.ofNat 16 (bs.length + 6)) :=
  ⟨(Option.some.inj (h 2 (by omega))).symm, (Option.some.inj (h 3 (by omega))).symm⟩

/-- The words of the payload, byte by byte. -/
theorem HoldsEnvelope.words (h : HoldsEnvelope q bs byte) :
    (List.range (evenPart bs.length)).map (fun i => byte (4 + i)) = bs.take (evenPart bs.length) := by
  have hle : evenPart bs.length ≤ bs.length := by unfold evenPart; omega
  refine List.ext_getElem (by simp [hle]) fun k hk hk' => ?_
  have hp : k < bs.length := by simp at hk; omega
  have hb := h.payload hp
  rw [List.getElem?_eq_getElem hp] at hb
  simpa using (Option.some.inj hb).symm

theorem has_ctlOdd_self (q : Config.Params) : has (ctlOdd q) (ctlOdd q) = true := by
  simp [ctlOdd, has_bit]

/-- The decoder gives back the payload of an envelope (R211). -/
theorem HoldsEnvelope.decode (h : HoldsEnvelope q bs byte) (hlen : bs.length + 6 < 65536) :
    decodeEnvelope q byte = some bs := by
  obtain ⟨hlo, hhi⟩ := h.count
  have hcount : (wordOf (byte 2) (byte 3)).toNat - Config.envOverhead = bs.length := by
    rw [hlo, hhi, wordOf_lowByte_highByte, BitVec.toNat_ofNat, Nat.mod_eq_of_lt hlen]
    exact Nat.add_sub_cancel ..
  simp only [decodeEnvelope, hcount, h.words]
  rcases Nat.mod_two_eq_zero_or_one bs.length with he | ho
  · obtain ⟨h0, h1⟩ := h.even he
    have hall : evenPart bs.length = bs.length := by unfold evenPart; omega
    rw [if_neg (by omega), hall, h0, h1, if_pos (by decide), List.take_length]
  · have hlast : bs.length = evenPart bs.length + 1 := by unfold evenPart; omega
    have hctl : byte (5 + evenPart bs.length) = ctlOdd q := by
      rw [← h.odd ho]
      congr 1
      omega
    rw [if_pos ho, hctl, highByte_wordOf, has_ctlOdd_self, if_pos rfl, lowByte_wordOf]
    have hb := h.payload (k := evenPart bs.length) (by omega)
    rw [List.getElem?_eq_getElem (by omega)] at hb
    rw [← Option.some.inj hb, List.take_append_getElem, ← hlast, List.take_length]

end Sys2Proof.Machine
end

section
/-! PROOFS. Steps 7 to 12 of TRANSMIT (spec/42_transmit.md R200, R203 to R205) while nothing happens in their gaps: they write the
envelope of the padded payload from the start of the buffer on. -/

namespace Sys2Proof.Machine

variable {s t : State} {c : Chip} {q : Config.Params} {p : Pkt} {x : Entry} {bs : List Byte} {len length n k : Nat}

/-! ## Writing a buffer from its start on -/

/-- The chip unit with these bytes in a buffer from its start on, and `dp` behind them. -/
def Chip.packed (p : Pkt) (bs : List Byte) (c : Chip) : Chip :=
  { c with pktMem := c.pktMem.writeBytes (pktAddr p 0) bs, dp := bs.length }

/-- Writes of DATA reach the buffer of packet `p` and advance `dp` (R86 to R92, R132). -/
structure Chip.Packs (q : Config.Params) (p : Pkt) (x : Entry) (c : Chip) : Prop where
  bank : c.bank = q.regs.pb
  pktSel : c.pktSel q = p
  entry : findEntry c.table p = some x
  rcv : has c.ptr (ptrRcv q) = false
  read : has c.ptr (ptrRead q) = false
  autoinc : has c.ptr (ptrAutoinc q) = true

theorem packed_append (p : Pkt) (bs bs' : List Byte) (c : Chip) :
    (c.packed p bs).stored p bs' (bs.length + bs'.length) = c.packed p (bs ++ bs') := by
  simp only [Chip.stored, Chip.packed, Memory.writeBytes_append, ← pktAddr_add, Nat.zero_add, List.length_append]

theorem Chip.Packs.dataReady (h : c.Packs q p x) (hc : s.chip = c.packed p bs) (hq : s.params = q)
    (he : bs.length % 2 = 0) (hl : bs.length + 2 ≤ x.pages * 256) : s.DataReady p x 2 false where
  bank := by rw [hc, hq]; exact h.bank
  target := by
    rw [hc, hq, if_neg (by rw [show (c.packed p bs).ptr = c.ptr from rfl, h.rcv]; decide)]
    exact h.pktSel
  entry := by rw [hc]; exact h.entry
  mode := by rw [hc, hq]; exact h.read
  range := by rw [hc]; exact hl
  aligned := by rw [hc]; exact he

/-- The next word of a buffer. -/
theorem wrData_packed (nx : Next) (v : Word) (h : c.Packs q p x) (hc : s.chip = c.packed p bs) (hq : s.params = q)
    (he : bs.length % 2 = 0) (hl : bs.length + 2 ≤ x.pages * 256) (hr : s.RestsFor 1) :
    ∃ t, wrData nx v s = .ok t ∧ s.Leads (c.packed p (bs ++ wordBytes v)) s.eng 1 t := by
  obtain ⟨t, ht, hs⟩ := wrData_leads nx v (h.dataReady hc hq he hl) hr
  refine ⟨t, ht, hs.congr ?_ rfl⟩
  have ha : s.advanced 2 = bs.length + 2 := by
    unfold State.advanced
    rw [hc, hq, show (c.packed p bs).ptr = c.ptr from rfl, h.autoinc]
    rfl
  rw [hc, ha]
  exact packed_append p bs (wordBytes v) c

/-! ## The payload (R136, R204) -/

/-- From byte `k` on these bytes are the caller's, as far as the caller's frame of `len` bytes goes (R136). -/
def State.Pads (s : State) (len k : Nat) (bs : List Byte) : Prop :=
  ∀ i, i < bs.length → k + i < len → bs[i]? = some (s.hostRead s.eng.bufRef (k + i))

theorem State.Pads.append {bs' : List Byte} (h : s.Pads len k bs) (h' : s.Pads len (k + bs.length) bs') :
    s.Pads len k (bs ++ bs') := by
  intro i hi hlen
  by_cases hb : i < bs.length
  · rw [List.getElem?_append_left hb]
    exact h i hb hlen
  · rw [List.length_append] at hi
    have hk : k + bs.length + (i - bs.length) = k + i := by omega
    rw [List.getElem?_append_right (by omega), h' _ (by omega) (by omega), hk]

/-- The bytes are the same where the caller's buffer is. -/
theorem State.Pads.congr (h : t.Pads len k bs) (hm : t.hostMem = s.hostMem) (hb : t.eng.bufRef = s.eng.bufRef) :
    s.Pads len k bs := by
  intro i hi hlen
  rw [h i hi hlen, State.hostRead, State.hostRead, hm, hb]

/-- `Byte(i)` of R200: the caller's, or a draw. -/
theorem txByte_pads (len i : Nat) (s : State) :
    s.Pads len i [(txByte len i s).1] ∧ s.Leads s.chip s.eng 0 (txByte len i s).2 := by
  unfold txByte
  split
  · refine ⟨fun j hj _ => ?_, leads_bump 0 s⟩
    obtain rfl : j = 0 := by simpa using hj
    rfl
  · refine ⟨fun j hj hlen => ?_, leads_bump 1 s⟩
    omega

theorem State.Leads.pads {e : Engine} {j : Nat} (h : s.Leads c e j t) (he : e.bufRef = s.eng.bufRef)
    (hp : t.Pads len k bs) : s.Pads len k bs :=
  hp.congr h.hostMem ((congrArg Engine.bufRef h.eng).trans he)

/-- A word of the payload, lower byte first (R204), and the state in which it is written. -/
def txWord (len i : Nat) (s : State) : Word × State :=
  (wordOf (txByte len i s).1 (txByte len (i + 1) (txByte len i s).2).1, (txByte len (i + 1) (txByte len i s).2).2)

theorem sendWords_succ (len n k : Nat) (s : State) :
    sendWords len (n + 1) k s =
      match wrData (if n = 0 then .to 12 else .to 11 1 (.word (k + 1))) (txWord len (2 * k) s).1 (txWord len (2 * k) s).2 with
      | .error e => .error e
      | .ok t => sendWords len n (k + 1) t := rfl

theorem txWord_pads (len i : Nat) (s : State) :
    s.Pads len i (wordBytes (txWord len i s).1) ∧ s.Leads s.chip s.eng 0 (txWord len i s).2 := by
  obtain ⟨hlo, hlos⟩ := txByte_pads len i s
  obtain ⟨hhi, hhis⟩ := txByte_pads len (i + 1) (txByte len i s).2
  refine ⟨?_, (hlos.keeps hhis rfl).congr hlos.chip rfl⟩
  have hw : wordBytes (txWord len i s).1 = [(txByte len i s).1] ++ [(txByte len (i + 1) (txByte len i s).2).1] := by
    simp [wordBytes, txWord]
  rw [hw]
  exact hlo.append (hlos.pads rfl hhi)

/-- Step 11: the words of the payload, each behind the one before (R204). -/
theorem sendWords_packed (h : c.Packs q p x) : ∀ (n k : Nat) (s : State) (bs : List Byte), s.chip = c.packed p bs →
    s.params = q → bs.length % 2 = 0 → bs.length + 2 * n ≤ x.pages * 256 → s.RestsFor n →
    ∃ t ws, sendWords len n k s = .ok t ∧ s.Leads (c.packed p (bs ++ ws)) s.eng n t ∧ ws.length = 2 * n ∧
      s.Pads len (2 * k) ws := by
  intro n
  induction n with
  | zero =>
    intro k s bs hc _ _ _ _
    exact ⟨s, [], rfl, (leads_bump 0 s).congr (by rw [hc, List.append_nil]) rfl, rfl, nofun⟩
  | succ n ih =>
    intro k s bs hc hq he hl hr
    obtain ⟨hword, hs⟩ := txWord_pads len (2 * k) s
    obtain ⟨t, ht, hst⟩ := wrData_packed (if n = 0 then .to 12 else .to 11 1 (.word (k + 1))) (txWord len (2 * k) s).1 h
      (hs.chip.trans hc) (hs.params.trans hq) he (by omega) (hs.rests hr (by omega))
    have hst := hs.keeps hst rfl
    have hwl : (bs ++ wordBytes (txWord len (2 * k) s).1).length = bs.length + 2 := by rw [List.length_append]; rfl
    obtain ⟨u, ws, hu, htu, hl', hws⟩ := ih (k + 1) t _ hst.chip (hst.params.trans hq) (by omega) (by omega)
      (hst.rests hr (by omega))
    refine ⟨u, wordBytes (txWord len (2 * k) s).1 ++ ws, ?_, ?_, ?_, hword.append (hst.pads rfl hws)⟩
    · rw [sendWords_succ, ht]
      exact hu
    · rw [← List.append_assoc]
      exact hst.keeps htu (by omega)
    · rw [List.length_append, hl', Nat.mul_succ, Nat.add_comm]
      rfl

/-! ## The envelope (R134) -/

theorem envelopeHead_length (n : Nat) : (envelopeHead n).length = 4 := rfl

/-- Step 12 (R137, R205). -/
theorem sendTrailer_packed {ws : List Byte} (h : c.Packs q p x) (hc : s.chip = c.packed p (bs ++ ws)) (hq : s.params = q)
    (he : bs.length % 2 = 0) (hws : ws.length = 2 * (length / 2)) (hl : (bs ++ ws).length + 2 ≤ x.pages * 256)
    (hr : s.RestsFor 1) :
    ∃ t last, sendTrailer len length s = .ok t ∧
      s.Leads (c.packed p (bs ++ (ws ++ last ++ envelopeTail q length))) s.eng 1 t ∧
      (ws ++ last).length = length ∧ s.Pads len ws.length last := by
  have heven : (bs ++ ws).length % 2 = 0 := by rw [List.length_append]; omega
  unfold sendTrailer envelopeTail
  split
  case isTrue h0 =>
    obtain ⟨t, ht, hst⟩ := wrData_packed (.to 13) 0#16 h hc hq heven hl hr
    refine ⟨t, [], ht, ?_, by rw [List.append_nil]; omega, nofun⟩
    rwa [List.append_nil, ← List.append_assoc]
  case isFalse h1 =>
    obtain ⟨hb, hs⟩ := txByte_pads len (length - 1) s
    obtain ⟨t, ht, hst⟩ := wrData_packed (.to 13) (wordOf (txByte len (length - 1) s).1 (ctlOdd s.params)) h
      (hs.chip.trans hc) (hs.params.trans hq) heven hl (hs.rests hr (by omega))
    refine ⟨t, [(txByte len (length - 1) s).1], ht, ?_, by simp; omega, ?_⟩
    · simpa [wordBytes, hq] using hs.keeps hst rfl
    · rwa [show ws.length = length - 1 by omega]

/-- The words of PNR and PTR that select the buffer for writing from its start on (R132, steps 7 and 8). -/
def Chip.selected (q : Config.Params) (p : Pkt) (c : Chip) : Chip :=
  { c with pnr := pktByte q p, ptr := ptrTxWrite q, dp := 0, dpStale := false }

theorem packs_selected (hbits : bitsOk q.bits) (hb : c.bank = q.regs.pb) (hx : findEntry c.table p = some x) :
    (c.selected q p).Packs q p x := by
  obtain ⟨-, -, -, hptr, -⟩ := hbits
  simp only [List.nodup_cons, List.mem_cons, List.not_mem_nil, or_false, not_or, ← ne_eq, ← Fin.val_ne_iff] at hptr
  obtain ⟨⟨hra, hrr⟩, har, -⟩ := hptr
  refine ⟨hb, pktSel_pktByte q p, hx, ?_, ?_, ?_⟩
  · rw [ptrRcv, has_bit, Chip.selected, ptrTxWrite, ptrAutoinc, getLsbD_bit, decide_eq_false hra]
  · rw [ptrRead, has_bit, Chip.selected, ptrTxWrite, ptrAutoinc, getLsbD_bit, decide_eq_false har.symm]
  · simp [Chip.selected, ptrTxWrite, ptrAutoinc, has_bit]

theorem offsetOf_ptrTxWrite (hbits : bitsOk q.bits) : offsetOf q (ptrTxWrite q) = 0 := by
  obtain ⟨-, -, -, -, hoff, -⟩ := hbits
  have ha := hoff q.bits.autoinc (by simp)
  have hz : getField q.bits.offset.val 11 (ptrTxWrite q) = 0#11 := by
    apply BitVec.eq_of_getLsbD_eq
    intro i hi
    rw [getLsbD_getField, ptrTxWrite, ptrAutoinc, getLsbD_bit]
    simp
    omega
  rw [offsetOf, hz]
  rfl

/-- Steps 7 to 12: the buffer holds the envelope of the caller's bytes, padded to `length` (R134 to R137, R203 to R205). -/
theorem packFrame_packed (hbits : bitsOk s.params.bits) (hb : s.chip.bank = s.params.regs.pb)
    (hx : findEntry s.chip.table p = some x) (hl : evenPart length + 6 ≤ x.pages * 256)
    (hr : s.RestsFor (length / 2 + 5)) :
    ∃ t bs, packFrame len length p s = .ok t ∧ bs.length = length ∧ s.Pads len 0 bs ∧
      s.Leads ((s.chip.selected s.params p).packed p (envelope s.params bs)) s.eng (length / 2 + 5) t := by
  have hpnr := wr_leads (c := { s.chip with pnr := pktByte s.params p }) (.to 8) .pnr 1
    (v := (pktByte s.params p).setWidth 16) (by rw [setReg_pnr, lowByte_setWidth]) (hr.mono (by omega))
  have hptr := wr_leads (c := s.chip.selected s.params p) (.to 9) .ptr 2 (v := ptrTxWrite s.params)
    (by rw [setReg_ptr, hpnr.chip, hpnr.params, offsetOf_ptrTxWrite hbits]; rfl) (hpnr.rests hr (by omega))
  have hsel := hpnr.keeps hptr rfl
  have hc := packs_selected hbits hb hx
  obtain ⟨s1, h1, hs1⟩ := wrData_packed (bs := []) (.to 10) 0#16 hc hsel.chip hsel.params rfl (by simp; omega)
    (hsel.rests hr (by omega))
  have hs1 := hsel.keeps hs1 rfl
  obtain ⟨s2, h2, hs2⟩ := wrData_packed (.to 11 1 (.word 0)) (BitVec.ofNat 16 (length + Config.envOverhead)) hc hs1.chip
    hs1.params rfl (by simp [wordBytes]; omega) (hs1.rests hr (by omega))
  have hs2 := hs1.keeps hs2 rfl
  have hle : (envelopeHead length).length + 2 * (length / 2) + 2 ≤ x.pages * 256 := by
    rw [envelopeHead_length]; unfold evenPart at hl; omega
  obtain ⟨s3, ws, h3, hs3, hws, hp3⟩ := sendWords_packed (len := len) hc (length / 2) 0 s2 (envelopeHead length) hs2.chip
    hs2.params (by rw [envelopeHead_length]) (by omega) (hs2.rests hr (by omega))
  have hs3' := hs2.keeps hs3 rfl
  obtain ⟨s4, last, h4, hs4, hlen, hp4⟩ := sendTrailer_packed (len := len) hc hs3'.chip hs3'.params
    (by rw [envelopeHead_length]) hws (by rw [List.length_append, hws]; omega) (hs3'.rests hr (by omega))
  refine ⟨s4, ws ++ last, ?_, hlen, ?_, ?_⟩
  · simp only [packFrame, h1, h2, h3, h4]
  · exact (hs2.pads rfl hp3).append (hs3'.pads rfl (by rwa [Nat.mul_zero, Nat.zero_add]))
  · refine (hs3'.keeps hs4 (by omega)).congr ?_ rfl
    rw [envelope, hlen]

end Sys2Proof.Machine
end

section
/-! PROOFS. Steps 4 to 6 and 13 to 15 of TRANSMIT (spec/42_transmit.md R200, R202, R206, R207) where the MMU agent answers the
allocate command in the gap behind it (spec/41_allocator.md R181, R196). -/

namespace Sys2Proof.Machine

variable {s : State} {p : Pkt} {length code : Nat} {n : BitVec 3}

/-! ## An allocate command that is answered (R181, R196) -/

/-- The chip unit whose MMU agent has handed out a buffer and said so in ARR and INT_STATUS (R196 a). -/
def Chip.answered (q : Config.Params) (x : Entry) (arr : Byte) (c : Chip) : Chip :=
  { c with
    table := insertEntry c.table x
    pktMem := c.pktMem.forget (pktAddr x.pkt 0) bufferSpan
    arr := arr
    intStatus := c.intStatus ||| intAlloc q
    pending := none }

/-- The agent's success (R196 a). -/
theorem agentStep_allocOk (hpend : s.chip.pending = some (.alloc n)) (hr : s.chip.inSoftReset s.params = false)
    (hroom : roomFor p (n.toNat + 1) s = true) :
    agentStep (.allocOk p) s = (s.setChip (s.chip.answered s.params ⟨p, n.toNat + 1, s.env.draw⟩
      (arrValue s.params false p (Config.freeByte s.env.draw)))).bump 1 := by
  simp only [agentStep, hr, allocSuccess, hpend, hroom, if_true]
  rfl

/-- The chip unit behind an allocate command that is answered, `arrSeen` apart. -/
def Chip.granted (q : Config.Params) (n : BitVec 3) (x : Entry) (arr : Byte) (c : Chip) : Chip :=
  (mmuEffect (.alloc n) q c).answered q x arr

/-- The command, and the agent's success in the gap behind it. -/
theorem wrMmu_alloc_granted {rest : List Gap} (nx : Next) (hb : s.chip.busy = false)
    (hr : has s.chip.rcr (softRst s.params) = false) (hp : s.chip.allocated p = false)
    (hroom : usedPages s.chip.table + (n.toNat + 1) ≤ s.params.totalPages)
    (ht : s.env.tape = agentGap (.allocOk p) ++ rest) :
    ∃ t seed b, wrMmu nx (.alloc n) s = .ok t ∧
      s.Leads (s.chip.granted s.params n ⟨p, n.toNat + 1, seed⟩ (arrValue s.params false p b)) s.eng 1 t := by
  have hg : mmuGuard (.alloc n) s.params s.chip = none := by simp [mmuGuard, hb]
  refine ⟨_, s.env.draw, Config.freeByte s.env.draw, wrMmu_of_guard hg, ?_⟩
  rw [mmuIssue, gap_agentGap (by exact ht), agentStep_allocOk (n := n) rfl (by exact hr)]
  · refine ⟨rfl, rfl, ?_, rfl, rfl, rfl, rfl, rfl, rfl, rfl, rfl⟩
    rw [ht]
    rfl
  · simp only [roomFor, Bool.and_eq_true, Bool.not_eq_true', decide_eq_true_eq]
    exact ⟨hp, hroom⟩

/-- A read of INT_STATUS that shows ALLOC ends the polling at once (R181 steps 2 to 5). -/
theorem attemptAlloc_of_alloc (spin k a : Nat) (ha : has s.chip.intStatus (intAlloc s.params) = true) (hr : s.RestsFor 1) :
    ∃ t, attemptAlloc (spin + 1) (k + 1) a s = (true, t) ∧ s.Leads { s.chip with arrSeen := true } s.eng 1 t := by
  have hread := rd_leads (.to 5 1 (.spin a 1)) .intStatus 1 hr
  have hspin : spinAlloc a (spin + 1) 1 s = (true, (rd (.to 5 1 (.spin a 1)) .intStatus 1 s).2) := by
    simp only [spinAlloc, rd_fst, readReg_intStatus, ha, if_true]
  refine ⟨_, by simp only [attemptAlloc, hspin, if_true], hread.congr ?_ rfl⟩
  simp [readReg, readIntStatus, ha]

/-- The answer is read from ARR (R181 steps 7 to 9). -/
theorem readResult_of_seen (hs : s.chip.arrSeen = true) (hf : has s.chip.arr (failedBit s.params) = false)
    (hr : s.RestsFor 1) :
    ∃ t, readResult s = (.ok (apktOf s.params s.chip.arr), t) ∧
      s.Leads s.chip { s.eng with pkt := some (apktOf s.params s.chip.arr) } 1 t := by
  have harr : readReg .arr s = (s.chip.arr.setWidth 16, s) := by simp [readReg, hs]
  simp only [readResult, harr, lowByte_setWidth, hf]
  refine ⟨_, rfl, ?_⟩
  exact State.Leads.access ((leads_bump 0 s).trans (leads_setEng _ _) rfl) _ _ hr

theorem has_intAlloc_granted (q : Config.Params) (n : BitVec 3) (x : Entry) (arr : Byte) (c : Chip) :
    has (c.granted q n x arr).intStatus (intAlloc q) = true := by
  simp [Chip.granted, Chip.answered, intAlloc, has_bit]

/-- ALLOCATE whose command is answered at once: one poll, and the number that the agent has drawn (R181). -/
theorem allocateSteps_granted {rest : List Gap} (hbits : bitsOk s.params.bits) (hb : s.chip.busy = false)
    (hr : has s.chip.rcr (softRst s.params) = false) (hp : s.chip.allocated p = false)
    (hroom : usedPages s.chip.table + (n.toNat + 1) ≤ s.params.totalPages)
    (hatt : 1 ≤ s.params.allocAttempts) (hspin : 1 ≤ s.params.allocSpin)
    (ht : s.env.tape = agentGap (.allocOk p) ++ rest) (hrest : ∀ g ∈ rest.take 2, g = ⟨0, []⟩) :
    ∃ t seed b, allocateSteps n s = .ok (.ok p, t) ∧
      s.Leads { s.chip.granted s.params n ⟨p, n.toNat + 1, seed⟩ (arrValue s.params false p b) with arrSeen := true }
        { s.eng with pkt := some p } 3 t := by
  obtain ⟨s1, seed, b, h1, hs1⟩ := wrMmu_alloc_granted (allocFirst s.params) hb hr hp hroom ht
  have hr1 : s1.RestsFor 2 := by
    rw [State.RestsFor, hs1.tape, ht]
    exact hrest
  have ha1 : has s1.chip.intStatus (intAlloc s1.params) = true := by
    rw [hs1.chip, hs1.params]
    exact has_intAlloc_granted ..
  obtain ⟨k, hk⟩ := Nat.exists_eq_add_of_le' (hs1.params ▸ hatt)
  obtain ⟨j, hj⟩ := Nat.exists_eq_add_of_le' (hs1.params ▸ hspin)
  obtain ⟨s2, h2, hs2⟩ := attemptAlloc_of_alloc j k 1 ha1 (hr1.mono (by omega))
  have hs12 := (hs1.keeps hs2 rfl).congr (d := { s.chip.granted s.params n _ _ with arrSeen := true }) (by rw [hs1.chip]) rfl
  obtain ⟨s3, h3, hs3⟩ := readResult_of_seen (by rw [hs12.chip])
    (by rw [hs12.chip, hs12.params]; exact has_arrValue ..) (hs2.rests hr1 (by omega))
  have hapkt : apktOf s2.params s2.chip.arr = p := by
    rw [hs12.chip, hs12.params]
    exact apktOf_arrValue _ _ _ _ hbits.2.2.2.2.2.1
  rw [hapkt] at h3 hs3
  refine ⟨s3.advance .ret, seed, b, ?_, ?_⟩
  · simp only [allocateSteps, h1, hk, hj, h2, h3, if_true]
  · refine ((hs12.trans hs3 rfl).keeps (leads_advance .ret s3) rfl).congr ?_ ?_
    · rw [hs3.chip, hs12.chip]
    · rw [hs12.eng]

/-! ## Steps 4 to 6 (R202) -/

/-- The chip unit with PB selected and a buffer handed out, the answer read. -/
def Chip.claimed (q : Config.Params) (n : BitVec 3) (x : Entry) (arr : Byte) (c : Chip) : Chip :=
  { { c with bank := q.regs.pb }.granted q n x arr with arrSeen := true }

/-- PB is selected and the selection saved, in a critical sequence (R202, R332). -/
theorem saveCtx_wrBankHold_leads (hr : s.RestsFor 3) :
    s.Leads { s.chip with bank := s.params.regs.pb }
      { s.eng with savedPnr := s.chip.pnr, savedPtr := s.chip.ptr } 3
      (saveCtx (.to 5 2) (.to 6) (wrBankHold (.to 5) s.params.regs.pb s)) := by
  have hhold := leads_setHold true s
  have hbank := wr_leads (s := s.setHold true) (c := { s.chip with bank := s.params.regs.pb }) (.to 5) .bsr 2
    (v := bankWord s.params s.params.regs.pb) (by rw [setReg_bsr]; simp) (hhold.rests hr (by omega))
  have hsel := hhold.keeps hbank rfl
  refine (hsel.trans (saveCtx_leads (.to 5 2) (.to 6) (hsel.rests hr (by omega))) rfl).congr hsel.chip ?_
  rw [hsel.chip, hsel.eng]

theorem claimBuffer_claimed {rest : List Gap} (hcode : code ≤ 7) (hbits : bitsOk s.params.bits) (hb : s.chip.busy = false)
    (hr : has s.chip.rcr (softRst s.params) = false) (hp : s.chip.allocated p = false)
    (hroom : usedPages s.chip.table + (code + 1) ≤ s.params.totalPages)
    (hatt : 1 ≤ s.params.allocAttempts) (hspin : 1 ≤ s.params.allocSpin)
    (ht : s.env.tape = quietGaps 3 ++ (agentGap (.allocOk p) ++ rest)) (hrest : ∀ g ∈ rest.take 2, g = ⟨0, []⟩) :
    ∃ t seed b, claimBuffer code s = .ok (.ok p, t) ∧
      s.Leads (s.chip.claimed s.params (BitVec.ofNat 3 code) ⟨p, code + 1, seed⟩ (arrValue s.params false p b))
        { s.eng with savedPnr := s.chip.pnr, savedPtr := s.chip.ptr, pkt := some p } 6 t := by
  have hn : (BitVec.ofNat 3 code).toNat = code := by rw [BitVec.toNat_ofNat]; omega
  have hu := saveCtx_wrBankHold_leads (restsFor_of_quietGaps ht)
  have hu := (hu.keeps (leads_call (.allocate (BitVec.ofNat 8 code)) (.to 6 2) _) rfl).congr hu.chip rfl
  unfold claimBuffer
  generalize State.call _ _ (saveCtx _ _ _) = u at hu ⊢
  obtain ⟨t, seed, b, ht, hs⟩ := allocateSteps_granted (s := u) (n := BitVec.ofNat 3 code) (p := p) (rest := rest)
    (by rwa [hu.params]) (by rwa [hu.chip]) (by rwa [hu.chip, hu.params]) (by rwa [hu.chip])
    (by rwa [hu.chip, hu.params, hn]) (by rwa [hu.params]) (by rwa [hu.params]) (by rw [hu.tape, ht]; rfl) hrest
  rw [hu.chip, hu.params, hn] at hs
  refine ⟨t, seed, b, ht, (hu.trans hs rfl).congr rfl ?_⟩
  rw [hu.eng]

/-! ## Steps 13 to 15 (R206, R207) -/

theorem lowByte_or (v w : Word) : lowByte (v ||| w) = lowByte v ||| lowByte w := by
  apply BitVec.eq_of_getLsbD_eq
  intro i hi
  simp [lowByte, hi]

/-- Step 13 enables TX and TX_EMPTY (R206). -/
theorem enableTxInts_leads (hr : s.RestsFor 2) :
    s.Leads { s.chip with intMask := s.chip.intMask ||| (intTx s.params ||| intTxEmpty s.params) } s.eng 2
      (enableTxInts s) := by
  have hread := rd_leads (.to 13 2) .intMask 1 (hr.mono (by omega))
  refine hread.keeps (wr_leads (.to 14) .intMask 1 ?_ (hread.rests hr (by omega))) rfl
  rw [setReg_intMask, hread.chip, lowByte_or, lowByte_setWidth, rd_fst, readReg_intMask]
  rfl

/-- A poll that finds neither TX_EMPTY nor the time up leaves the engine at the poll (R207). -/
theorem txPollRound_parks (he : has s.chip.intStatus (intTxEmpty s.params) = false)
    (ht : s.env.now - s.eng.t0 < s.params.txTimeout) (hr : s.RestsFor 1) :
    ∃ t, txPollRound length s = .next t ∧
      s.Leads { s.chip with arrSeen := s.chip.arrSeen || has s.chip.intStatus (intAlloc s.params) }
        { s.eng with pos := .txPoll length } 1 t := by
  have hread := rd_leads (.to 15 2) .intStatus 1 hr
  have ht0 : (rd (.to 15 2) .intStatus 1 s).2.eng.t0 = s.eng.t0 := by rw [hread.eng]
  refine ⟨((rd (.to 15 2) .intStatus 1 s).2.advance (.to 15)).park (.txPoll length), ?_, ?_⟩
  · simp only [txPollRound, rd_fst, readReg_intStatus, he, hread.now, ht0, Nat.not_le.2 ht]
    rfl
  · have hadv := hread.keeps (leads_advance (.to 15) _) rfl
    refine (hadv.trans (leads_setEng _ _) rfl).congr ?_ ?_
    · exact hadv.chip.trans hread.chip
    · rw [hadv.eng]

/-- The packet is at the tail of the transmit FIFO and the engine at the poll of step 15; the handle is dead (R186, R210). -/
theorem sendPacked_parks (hg : mmuGuard .enqueue s.params s.chip = none) (hp : s.chip.pktSel s.params = p)
    (he : has s.chip.intStatus (intTxEmpty s.params) = false) (ht : 1 ≤ s.params.txTimeout) (hr : s.RestsFor 4) :
    ∃ t, sendPacked length s = .next t ∧
      s.Leads { s.chip with
          intMask := s.chip.intMask ||| (intTx s.params ||| intTxEmpty s.params)
          txFifo := s.chip.txFifo ++ [p]
          arrSeen := s.chip.arrSeen || has s.chip.intStatus (intAlloc s.params) }
        { s.eng with pos := .txPoll length, pkt := none, t0 := s.env.now } 4 t := by
  have h1 := enableTxInts_leads (hr.mono (by omega))
  obtain ⟨s2, h2, hs2⟩ := wrMmu_leads (s := enableTxInts s) (q := .enqueue) (.to 15)
    (by rw [h1.chip, h1.params]; exact hg) (h1.rests hr (by omega))
  have hs2 := h1.trans hs2 rfl
  have hs3 := hs2.trans (leads_setEng { s2.eng with t0 := s2.env.now } s2) rfl
  obtain ⟨t, h4, hs4⟩ := txPollRound_parks (s := s2.setEng { s2.eng with t0 := s2.env.now }) (length := length)
    (by rw [hs3.chip, hs3.params, hs2.chip, h1.chip, h1.params]; exact he)
    (by rw [hs3.params]; simp; omega) (hs3.rests hr (by omega))
  refine ⟨t, by simp only [sendPacked, h2, andThen_ok, h4], (hs3.trans hs4 rfl).congr ?_ ?_⟩
  · rw [hs3.chip, hs3.params, hs2.chip, h1.chip, h1.params, ← hp]
    rfl
  · rw [State.setEng_eng, hs2.eng, hs2.now, h1.eng]
    rfl

end Sys2Proof.Machine
end

section
/-! PROOFS. TRANSMIT at its poll (spec/42_transmit.md R200): the chip unit there, and what stands in the buffers. -/

namespace Sys2Proof.Machine

variable {s : State} {c : Chip} {q : Config.Params} {p r : Pkt} {x : Entry} {bs : List Byte} {len : Word} {o : Nat}

/-! ## The operation as far as its poll -/

/-- Seven is the largest page code of a frame of at most 2041 bytes, and its buffer holds the envelope (R138, R201). -/
theorem pageCode_le (h : len.toNat ≤ 2041) : pageCode (paddedLength len.toNat) ≤ 7 := by
  simp only [pageCode, paddedLength, evenPart, Config.minFrame, Config.envOverhead, Config.pageBytes]
  omega

theorem evenPart_fits (length : Nat) : evenPart length + 6 ≤ (pageCode length + 1) * 256 := by
  simp only [pageCode, evenPart, Config.envOverhead, Config.pageBytes]
  omega

theorem autoFree_of_idle (h : c.busy = false) : c.autoFree = [] := by
  simp only [Chip.busy, Bool.or_eq_false_iff, Bool.not_eq_false', List.isEmpty_iff] at h
  exact h.2

/-- An idle MMU takes the packet of an allocated buffer that is nowhere queued (R195, R380). -/
theorem mmuGuard_enqueue (hpend : c.pending = none) (ha : c.autoFree = []) (hs : c.pktSel q = p)
    (hal : c.allocated p = true) (hq : c.queued p = false) : mmuGuard .enqueue q c = none := by
  simp [mmuGuard, Chip.busy, Chip.allocPending, hpend, ha, hs, hal, hq]

/-- The chip unit at step 13: a buffer handed out, selected, and filled with the envelope of `bs`. -/
def Chip.filled (q : Config.Params) (n : BitVec 3) (x : Entry) (arr : Byte) (bs : List Byte) (c : Chip) : Chip :=
  ((c.claimed q n x arr).selected q x.pkt).packed x.pkt (envelope q bs)

variable {n : BitVec 3} {arr : Byte}

theorem findEntry_filled (q : Config.Params) (n : BitVec 3) (x : Entry) (arr : Byte) (bs : List Byte) (c : Chip) (r : Pkt) :
    findEntry (c.filled q n x arr bs).table r = if r = x.pkt then some x else findEntry c.table r :=
  findEntry_insertEntry c.table x r

theorem pktSel_filled (q : Config.Params) (n : BitVec 3) (x : Entry) (arr : Byte) (bs : List Byte) (c : Chip) :
    (c.filled q n x arr bs).pktSel q = x.pkt := pktSel_pktByte q x.pkt

theorem mmuGuard_filled (hb : c.busy = false) (hq : c.queued x.pkt = false) :
    mmuGuard .enqueue q (c.filled q n x arr bs) = none := by
  have hal : (c.filled q n x arr bs).allocated x.pkt = true := by
    rw [Chip.allocated, findEntry_filled, if_pos rfl]
    rfl
  exact mmuGuard_enqueue rfl (autoFree_of_idle hb :) (pktSel_filled ..) hal hq

/-- ALLOC is another bit of INT_STATUS than TX_EMPTY. -/
theorem has_intTxEmpty_filled (hbits : bitsOk q.bits) (h : has c.intStatus (intTxEmpty q) = false) :
    has (c.filled q n x arr bs).intStatus (intTxEmpty q) = false := by
  obtain ⟨-, -, hint, -⟩ := hbits
  simp only [List.nodup_cons, List.mem_cons, not_or, ← ne_eq, ← Fin.val_ne_iff] at hint
  obtain ⟨⟨hne, -⟩, -⟩ := hint
  rw [intTxEmpty, has_bit] at h ⊢
  rw [show (c.filled q n x arr bs).intStatus = without c.intStatus (intAlloc q) ||| intAlloc q from rfl, BitVec.getLsbD_or,
    getLsbD_without, h, intAlloc, getLsbD_bit, decide_eq_false hne.symm]
  rfl

/-- Steps 1 to 12 where the MMU agent answers at once: the padded frame `bs` stands in buffer `p`. -/
theorem transmit_fills {rest : List Gap} (hbits : bitsOk s.params.bits) (hlen : len.toNat ≤ 2041)
    (hb : s.chip.busy = false) (hr : has s.chip.rcr (softRst s.params) = false) (hp : s.chip.allocated p = false)
    (hroom : usedPages s.chip.table + (pageCode (paddedLength len.toNat) + 1) ≤ s.params.totalPages)
    (hatt : 1 ≤ s.params.allocAttempts) (hspin : 1 ≤ s.params.allocSpin)
    (htape : s.env.tape = quietGaps 3 ++ (agentGap (.allocOk p) ++ rest))
    (hrest : ∀ g ∈ rest.take (paddedLength len.toNat / 2 + 7), g = ⟨0, []⟩) :
    ∃ t n x arr bs, exec (.transmit len) s = sendPacked (paddedLength len.toNat) t ∧ x.pkt = p ∧
      bs.length = paddedLength len.toNat ∧ s.Pads len.toNat 0 bs ∧
      s.Leads (s.chip.filled s.params n x arr bs)
        { s.eng with savedPnr := s.chip.pnr, savedPtr := s.chip.ptr, pkt := some p }
        (paddedLength len.toNat / 2 + 11) t := by
  have hcode := pageCode_le hlen
  have hfirst : ∀ g ∈ rest.take 2, g = ⟨0, []⟩ :=
    fun g hg => hrest g ((List.take_sublist_take_left (by omega)).subset hg)
  obtain ⟨s1, seed, b, h1, hs1⟩ := claimBuffer_claimed (s := s.begin (.transmit len)) hcode hbits hb hr hp hroom hatt hspin
    htape hfirst
  have hs1 := (leads_begin (.transmit len) s).trans hs1 rfl
  have hr1 : s1.RestsFor (paddedLength len.toNat / 2 + 5) := by
    have htape1 : s1.env.tape = rest.drop 2 := by rw [hs1.tape, htape]; rfl
    intro g hg
    rw [htape1] at hg
    refine hrest g ?_
    rw [show paddedLength len.toNat / 2 + 7 = 2 + (paddedLength len.toNat / 2 + 5) by omega, List.take_add]
    exact List.mem_append_right _ hg
  have hx := findEntry_insertEntry s.chip.table ⟨p, pageCode (paddedLength len.toNat) + 1, seed⟩ p
  rw [if_pos rfl] at hx
  obtain ⟨t, bs, h2, hbs, hpads, ht⟩ := packFrame_packed (x := ⟨p, pageCode (paddedLength len.toNat) + 1, seed⟩)
    (len := len.toNat) (by rwa [hs1.params]) (by rw [hs1.chip, hs1.params]; rfl) (by rw [hs1.chip]; exact hx)
    (evenPart_fits (paddedLength len.toNat)) hr1
  refine ⟨t, BitVec.ofNat 3 (pageCode (paddedLength len.toNat)), ⟨p, pageCode (paddedLength len.toNat) + 1, seed⟩,
    arrValue s.params false p b, bs, ?_, rfl, hbs, hs1.pads rfl hpads, (hs1.keeps ht (by omega)).congr ?_ rfl⟩
  · have hfits : ¬ Config.maxPageCode < pageCode (paddedLength len.toNat) := Nat.not_lt.2 hcode
    simp only [exec, execTransmit, hfits, if_false, h1, h2, andThen_ok]
  · rw [hs1.chip, hs1.params]
    rfl

/-- The operation as far as its poll, with nothing happening behind the allocation. -/
theorem transmit_polls (hbits : bitsOk s.params.bits) (hlen : len.toNat ≤ 2041) (hb : s.chip.busy = false)
    (hr : has s.chip.rcr (softRst s.params) = false) (hp : s.chip.allocated p = false) (hqueued : s.chip.queued p = false)
    (hroom : usedPages s.chip.table + (pageCode (paddedLength len.toNat) + 1) ≤ s.params.totalPages)
    (hatt : 1 ≤ s.params.allocAttempts) (hspin : 1 ≤ s.params.allocSpin) (htime : 1 ≤ s.params.txTimeout)
    (he : has s.chip.intStatus (intTxEmpty s.params) = false) (htape : s.env.tape = quietGaps 3 ++ agentGap (.allocOk p)) :
    ∃ t n x arr bs k, exec (.transmit len) s = .next t ∧ x.pkt = p ∧ bs.length = paddedLength len.toNat ∧
      s.Pads len.toNat 0 bs ∧
      s.Leads { s.chip.filled s.params n x arr bs with
          intMask := s.chip.intMask ||| (intTx s.params ||| intTxEmpty s.params), txFifo := s.chip.txFifo ++ [p] }
        { s.eng with
          pos := .txPoll (paddedLength len.toNat), pkt := none, t0 := s.env.now, savedPnr := s.chip.pnr
          savedPtr := s.chip.ptr } k t := by
  obtain ⟨u, n, x, arr, bs, h1, rfl, hbs, hpads, hu⟩ := transmit_fills hbits hlen hb hr hp hroom hatt hspin
    (rest := []) (by rw [List.append_nil]; exact htape) (by simp)
  have hquiet : u.Quiet := by
    rw [State.Quiet, hu.tape, htape, List.drop_eq_nil_of_le]
    simp [quietGaps, agentGap]
  obtain ⟨t, h2, ht⟩ := sendPacked_parks (s := u) (p := x.pkt) (length := paddedLength len.toNat)
    (by rw [hu.chip, hu.params]; exact mmuGuard_filled hb hqueued) (by rw [hu.chip, hu.params]; exact pktSel_filled ..)
    (by rw [hu.chip, hu.params]; exact has_intTxEmpty_filled hbits he) (by rwa [hu.params]) (restsFor_of_quiet hquiet 4)
  refine ⟨t, n, x, arr, bs, _, by rw [h1, h2], rfl, hbs, hpads, (hu.trans ht rfl).congr ?_ ?_⟩
  · rw [hu.chip, hu.params]
    rfl
  · rw [hu.eng, hu.now]

/-! ## What the buffers hold there -/

/-- A byte of a buffer that has been written from its start on. -/
theorem bufByte_packed (c : Chip) (bs : List Byte) (x : Entry) (ho : o < bs.length) :
    bs[o]? = some ((c.packed x.pkt bs).bufByte x o) := by
  have ha : pktAddr x.pkt o = pktAddr x.pkt 0 + o := by rw [← pktAddr_add, Nat.zero_add]
  simp [Chip.bufByte, Chip.packed, Memory.read_writeBytes, ha, ho]

theorem holdsEnvelope_filled (q : Config.Params) (n : BitVec 3) (x : Entry) (arr : Byte) (bs : List Byte) (c : Chip) :
    HoldsEnvelope q bs ((c.filled q n x arr bs).bufByte x) :=
  fun _ ho => bufByte_packed _ _ x (by rw [length_envelope]; exact ho)

/-- A buffer of another packet reads as before. -/
theorem bufByte_filled_of_ne {y : Entry} (hy : y.pkt ≠ x.pkt) (ho : o < bufferSpan)
    (hbs : evenPart bs.length + 6 ≤ bufferSpan) :
    (c.filled q n x arr bs).bufByte y o = c.bufByte y o := by
  have hne : y.pkt.toNat ≠ x.pkt.toNat := fun h => hy (BitVec.eq_of_toNat_eq h)
  have hout : pktAddr y.pkt o < pktAddr x.pkt 0 ∨ pktAddr x.pkt 0 + bufferSpan ≤ pktAddr y.pkt o := by
    unfold pktAddr bufferSpan at *
    omega
  have hread : (c.filled q n x arr bs).pktMem.read (pktAddr y.pkt o) = c.pktMem.read (pktAddr y.pkt o) := by
    refine (Memory.read_writeBytes_of_out _ _ _ _ ?_).trans ((Memory.read_forget ..).trans (if_neg (by omega)))
    rw [length_envelope]
    omega
  rw [Chip.bufByte, Chip.bufByte, hread]

/-- The same through the allocation table: the new entry hides no other packet's. -/
theorem map_bufByte_filled (hne : r ≠ x.pkt) (ho : o < bufferSpan) (hbs : evenPart bs.length + 6 ≤ bufferSpan) :
    (findEntry (c.filled q n x arr bs).table r).map (fun e => (c.filled q n x arr bs).bufByte e o) =
      (findEntry c.table r).map (fun e => c.bufByte e o) := by
  rw [findEntry_filled, if_neg hne]
  refine Option.map_congr fun y hy => bufByte_filled_of_ne ?_ ho hbs
  rwa [(findEntry_some hy).2]

/-- Settles O44: the packet's buffer holds the envelope of the padded frame (`transmit_fills`), which `HoldsEnvelope` reads byte
by byte. -/
theorem transmitWritesTheEnvelope : Obligations.TransmitWritesTheEnvelope := by
  intro s len p hbits hlen hb hr hp hqueued hroom hatt hspin htime he htape
  obtain ⟨t, n, x, arr, bs, k, hx, rfl, hbs, hpads, ht⟩ :=
    transmit_polls hbits hlen hb hr hp hqueued hroom hatt hspin htime he htape
  have hfits : evenPart bs.length + 6 ≤ bufferSpan := by
    have := evenPart_fits bs.length
    have := pageCode_le hlen
    rw [← hbs] at this
    unfold bufferSpan
    omega
  have hentry : findEntry t.chip.table x.pkt = some x := by
    rw [ht.chip]
    exact (findEntry_filled s.params n x arr bs s.chip x.pkt).trans (if_pos rfl)
  have hbyte : HoldsEnvelope s.params bs (t.chip.bufByte x) := by
    rw [ht.chip]
    exact holdsEnvelope_filled s.params n x arr bs s.chip
  have hpkt (o : Nat) : t.packetByte x.pkt o = some (t.chip.bufByte x o) := by rw [State.packetByte, hentry]; rfl
  have hhead (o : Nat) (ho : o < 4) : (envelopeHead bs.length)[o]? = some (t.chip.bufByte x o) := by
    rw [← hbyte o (by omega), envelope, List.getElem?_append_left ho]
  have hcaller (i : Nat) (hi : i < len.toNat) : bs[i]? = some (s.hostRead s.eng.bufRef i) := by
    have h := hpads i (by rw [hbs]; exact Nat.lt_of_lt_of_le hi (Nat.le_max_left ..))
    rw [Nat.zero_add] at h
    exact h hi
  have htake : bs.take len.toNat = (List.range len.toNat).map (s.hostRead s.eng.bufRef) := by
    refine List.ext_getElem? fun i => ?_
    rcases Nat.lt_or_ge i len.toNat with hi | hi
    · simp [hi, hcaller i hi]
    · simp [hi]
  obtain ⟨hlo, hhi⟩ := hbyte.count
  refine ⟨t, hx, congrArg Engine.pos ht.eng, congrArg Engine.pkt ht.eng, by rw [ht.chip], by rw [ht.chip]; rfl,
    ?_, ?_, ?_, ?_, fun i hi => ?_, fun h0 => ?_, fun h1 => ?_, ⟨x, bs, hentry, ?_, hbs, htake⟩, fun r o hne ho => ?_,
    by rw [ht.chip]; rfl, ht.phy, fun a => by rw [ht.hostMem]⟩
  · rw [hpkt, ← hhead 0 (by omega)]
    rfl
  · rw [hpkt, ← hhead 1 (by omega)]
    rfl
  · rw [hpkt, hlo, hbs]
  · rw [hpkt, hhi, hbs]
  · rw [hpkt, ← hcaller i hi]
    exact (hbyte.payload (by rw [hbs]; exact Nat.lt_of_lt_of_le hi (Nat.le_max_left ..))).symm
  · rw [← hbs] at h0 ⊢
    obtain ⟨hc0, hc1⟩ := hbyte.even h0
    exact ⟨(hpkt _).trans (congrArg some hc0), (hpkt _).trans (congrArg some hc1)⟩
  · rw [← hbs] at h1 ⊢
    rw [hpkt, hbyte.odd h1]
  · refine hbyte.decode ?_
    unfold evenPart bufferSpan at hfits
    omega
  · rw [State.packetByte, State.packetByte, ht.chip]
    exact map_bufByte_filled hne ho hfits

end Sys2Proof.Machine
end

section
/-! PROOFS. SELECT_BANK (spec/40_register_bank.md R160): whatever happens in its gap the bank stays selected, because the
interrupt context restores the bank it has saved (spec/60_exceptions.md R331, R333). -/

namespace Sys2Proof.Machine

/-! ## The saved bank -/

@[simp] theorem handlerGap_irq (x : Handling) : (handlerGap x).1.irq = x.1.irq := by
  unfold handlerGap
  split
  · rfl
  · exact (agentSteps_kept _ _).irq

@[simp] theorem handlerGap_bank (x : Handling) : (handlerGap x).1.chip.bank = x.1.chip.bank := by
  unfold handlerGap
  split
  · rfl
  · exact (agentSteps_kept _ _).bank

@[simp] theorem handlerRead_hBank (n : IrqPos) (r : Reg) (w : Nat) (x : Handling) :
    (handlerRead n r w x).2.1.irq.hBank = x.1.irq.hBank := by
  simp [handlerRead]

@[simp] theorem handlerWrite_hBank (n : IrqPos) (r : Reg) (w : Nat) (v : Word) (x : Handling) :
    (handlerWrite n r w v x).1.irq.hBank = x.1.irq.hBank := by
  simp [handlerWrite]

@[simp] theorem handlerWritePtr_hBank (n : IrqPos) (v : Word) (x : Handling) :
    (handlerWritePtr n v x).1.irq.hBank = x.1.irq.hBank := by
  simp [handlerWritePtr]

@[simp] theorem handlerDelay_hBank (n : IrqPos) (t : Nat) (x : Handling) :
    (handlerDelay n t x).1.irq.hBank = x.1.irq.hBank := by
  simp [handlerDelay]

@[simp] theorem handlerGoto_hBank (n : IrqPos) (x : Handling) : (handlerGoto n x).1.irq.hBank = x.1.irq.hBank := rfl

@[simp] theorem handlerReenable_hBank (n : IrqPos) (x : Handling) :
    (handlerReenable n x).1.irq.hBank = x.1.irq.hBank := by
  simp [handlerReenable]

/-- The entry saves the bank it finds (R331). -/
theorem irqEnter_hBank (touch : Bool) (x : Handling) : (irqEnter touch x).1.irq.hBank = x.1.chip.bank := by
  unfold irqEnter
  dsimp only
  split <;> simp [handlerKeep]

theorem handlerWait_hBank (exit : IrqPos) : ∀ (fuel k : Nat) (x y : Handling),
    handlerWait exit fuel k x = .ok y → y.1.irq.hBank = x.1.irq.hBank
  | 0, _, _, _, h => by simp [handlerWait] at h
  | fuel + 1, k, x, y, h => by
    simp only [handlerWait] at h
    split at h
    · simpa using handlerWait_hBank exit fuel (k + 1) _ y h
    · obtain rfl := Except.ok.inj h
      simp

theorem handlerFree_hBank {exit : IrqPos} {p : Pkt} {x y : Handling} (h : handlerFree exit p x = .ok y) :
    y.1.irq.hBank = x.1.irq.hBank := by
  unfold handlerFree at h
  dsimp only at h
  split at h
  · simpa using handlerWait_hBank exit _ 1 _ y h
  · obtain rfl := Except.ok.inj h
    simp

theorem handlerRepair_hBank {exit : IrqPos} {r : HandlerRun} {x y : Handling} (h : handlerRepair exit r x = .ok y) :
    y.1.irq.hBank = x.1.irq.hBank := by
  have hre (n : IrqPos) : (if r.reenable then handlerReenable n x else x).1.irq.hBank = x.1.irq.hBank := by
    split
    · exact handlerReenable_hBank n x
    · rfl
  unfold handlerRepair at h
  split at h
  · obtain rfl := Except.ok.inj h
    exact hre exit
  · exact (handlerFree_hBank h).trans (hre _)

theorem txErrBody_hBank {exit : IrqPos} {r : HandlerRun} {x y : Handling} (h : txErrBody exit r x = .ok y) :
    y.1.irq.hBank = x.1.irq.hBank := by
  unfold txErrBody at h
  dsimp only at h
  split at h
  · split at h
    · simpa [handlerAck] using handlerRepair_hBank h
    · obtain rfl := Except.ok.inj h
      simp
  · split at h <;> obtain rfl := Except.ok.inj h
    · simp [handlerAck]
    · simp

/-- The exit selects the saved bank (R333). -/
theorem irqExit_bank (touch : Bool) (x : Handling) : (irqExit touch x).1.chip.bank = x.1.irq.hBank := by
  unfold irqExit
  dsimp only
  split <;> simp [handlerWrite, setReg_bsr, handlerWritePtr]

/-! ## The bank behind a gap -/

/-- A handler run that ends leaves the bank selected that it found (R331, R333). -/
theorem runHandler_bank {r : HandlerRun} {s t : State} (h : runHandler r s = some (.ok t)) :
    t.chip.bank = s.chip.bank := by
  unfold runHandler at h
  split at h
  · split at h
    · cases h
    · rename_i x hb
      obtain rfl := Except.ok.inj (Option.some.inj h)
      calc (irqExit r.touches x).1.chip.bank = x.1.irq.hBank := irqExit_bank _ _
        _ = _ := txErrBody_hBank hb
        _ = s.chip.bank := irqEnter_hBank _ _
  · cases h

theorem eventStep_bank (e : Event) (s : State) : (eventStep e s).chip.bank = s.chip.bank := by
  cases e with
  | agent e => exact (agentStep_kept e s).bank
  | irq r =>
    unfold eventStep
    dsimp only
    split
    · rfl
    · rename_i h; exact runHandler_bank h
    · unfold State.noteHang
      split <;> rfl

theorem eventSteps_bank (es : List Event) : ∀ s : State, (eventSteps es s).chip.bank = s.chip.bank := by
  induction es with
  | nil => exact fun _ => rfl
  | cons e es ih => exact fun s => (ih _).trans (eventStep_bank e s)

/-- Whatever happens in a gap, the selected bank is what it was (R101, R333). -/
@[simp] theorem gap_bank (s : State) : (gap s).chip.bank = s.chip.bank := by
  unfold gap
  split
  · rfl
  · exact eventSteps_bank _ _

/-! ## The obligation -/

theorem wrBank_bank (n : Next) (b : BitVec 2) (s : State) : (wrBank n b s).chip.bank = b := by
  simp [wrBank, wr_eq, setReg_bsr]

/-- Settles O20: the write selects the bank, and `gap_bank` says that its gap leaves it selected. -/
theorem selectBankSelects : Obligations.SelectBankSelects := by
  intro n s hn
  refine ⟨_, if_pos hn, ⟨rfl, rfl⟩, wrBank_bank .ret _ _, fun hq => ?_⟩
  rw [wrBank, wr_quiet (s := (s.begin _).setHold _) _ _ _ _ hq, setReg_bsr, bankOf_bankWord]
  exact ⟨rfl, ⟨rfl, rfl, fun _ => rfl, rfl, rfl, rfl, rfl, rfl⟩, samePackets_of_chip rfl rfl⟩

end Sys2Proof.Machine
end

section
/-! PROOFS. Reads whose every byte is known (spec/20_memory.md R84, R85, spec/40_register_bank.md R161, R162): READ_BYTE and
READ_WORD answer the bytes that stand there. -/

namespace Sys2Proof.Machine

variable {s x : State} {off : Byte} {o : Nat} {r : Reg} {high hq : Bool} {v lo hi : Byte}

/-! ## Bytes of registers -/

/-- A register of one byte has no upper half. -/
theorem low_of_livesAt {m : Config.RegMap} {b : BitVec 2} (h : livesAt m b o (.byte r high))
    (hn : homeOf m (.byte r true) = none) : high = false := by
  cases high with
  | false => rfl
  | true =>
    obtain ⟨bank, off, hh, -⟩ := h
    rw [hn] at hh
    cases hh

/-- The upper half of a register has its home behind the lower one's (R80). -/
theorem homeOf_low {m : Config.RegMap} {bank : Option (BitVec 2)} (h : homeOf m (.byte r high) = some (bank, o)) :
    ∃ k, homeOf m (.byte r false) = some (bank, k) ∧ o = k + high.toNat := by
  cases high with
  | false => exact ⟨o, h, rfl⟩
  | true => cases r <;> simp_all [homeOf]

/-- Two bytes of one register in a row are its lower and its upper half. -/
theorem halves_of_placeAt {m : Config.RegMap} {b : BitVec 2} (h : placeAt m b o = some (.byte r high))
    (h' : placeAt m b (o + 1) = some (.byte r hq)) : high = false ∧ hq = true := by
  obtain ⟨_, _, hh, -, ho⟩ := placeAt_livesAt h
  obtain ⟨_, _, hh', -, ho'⟩ := placeAt_livesAt h'
  obtain ⟨k, hk, rfl⟩ := homeOf_low hh
  obtain ⟨k', hk', rfl⟩ := homeOf_low hh'
  obtain ⟨-, rfl⟩ : _ = _ ∧ k = k' := by simpa using hk.symm.trans hk'
  have hs : hq.toNat = 1 + high.toNat := by omega
  revert hs
  cases high <;> cases hq <;> decide

theorem exists_of_byteAt (h : s.byteAt o = some v) :
    ∃ r high, placeAt s.params.regs s.chip.bank o = some (.byte r high) ∧ s.byteOf high r = some v := by
  unfold State.byteAt at h
  split at h
  · rename_i r high hp
    exact ⟨r, high, hp, h⟩
  · cases h
  · cases h

/-- A flag outside one half of a word does not change that half. -/
theorem half_or_flag {m : Word} (w : Word) (c : Bool) (hm : half high m = 0#8) :
    half high (w ||| flag m c) = half high w := by
  cases c with
  | false => simp [flag]
  | true =>
    cases high <;> simp only [half, lowByte, highByte, flag, BitVec.extractLsb'_or] at hm ⊢ <;> simp_all

/-- A full read of a register shows the bytes of it that are known (R161, R31 for ARR). -/
theorem half_readReg (hp : placeAt s.params.regs s.chip.bank o = some (.byte r high)) (h : s.byteOf high r = some v) :
    half high (readReg r s).1 = v := by
  have low := low_of_livesAt (placeAt_livesAt hp)
  cases r with
  | bsr | mmuCmd | fifo | data => cases h
  | sig | pnr | intStatus | intAck | intMask =>
    obtain rfl := low rfl
    exact (lowByte_setWidth _).trans (Option.some.inj h)
  | mac i =>
    obtain rfl := low rfl
    obtain ⟨hi, hv⟩ := Vector.getElem?_eq_some_iff.1 h
    refine (lowByte_setWidth _).trans ?_
    simp [macByte, Vector.getD, hi, hv]
  | arr =>
    obtain rfl := low rfl
    obtain ⟨hs, hv⟩ := Option.ite_none_right_eq_some.1 h
    exact (readReg_arr s hs).trans (Option.some.inj hv)
  | mgmt =>
    obtain ⟨hm, hv⟩ := Option.ite_none_right_eq_some.1 h
    exact (half_or_flag _ _ hm).trans (Option.some.inj hv)
  | tcr | rcr | config | ctl | ptr => exact Option.some.inj h

/-- Reads make no known byte unknown, and change none (R85). -/
theorem State.OnlyRead.byteAt (h : s.OnlyRead x) (hv : s.byteAt o = some v) : x.byteAt o = some v := by
  obtain ⟨c, n, hc, rfl⟩ := h
  obtain ⟨r, high, hp, hr⟩ := exists_of_byteAt hv
  unfold State.byteAt
  rw [show ((s.setChip { s.chip with arrSeen := c }).bump n).params = s.params from rfl,
    show ((s.setChip { s.chip with arrSeen := c }).bump n).chip.bank = s.chip.bank from rfl, hp]
  cases r with
  | arr =>
    obtain ⟨hs, hv⟩ := Option.ite_none_right_eq_some.1 hr
    exact (if_pos (hc hs)).trans hv
  | _ => exact hr

/-- Settles O21: READ_BYTE answers a byte of a full read of the register, which is the byte there. -/
theorem readByteReturnsTheRegister : Obligations.ReadByteReturnsTheRegister := by
  intro s off v hv
  obtain ⟨r, high, hp, hr⟩ := exists_of_byteAt hv
  exact half_readReg hp hr ▸ readByte_answers hp

/-! ## Words -/

theorem readWord_bytes (he : off.toNat % 2 = 0) (hlo : s.byteAt off.toNat = some lo)
    (hhi : s.byteAt (off.toNat + 1) = some hi) : s.Answers (.readWord off) (wordOf lo hi).toNat := by
  obtain ⟨r, high, hp, hr⟩ := exists_of_byteAt hlo
  obtain ⟨q, hq, hp', hr'⟩ := exists_of_byteAt hhi
  by_cases hne : q = r
  · subst hne
    obtain ⟨rfl, rfl⟩ := halves_of_placeAt hp hp'
    have hw : (readReg q s).1 = wordOf lo hi := by
      rw [← half_readReg hp hr, ← half_readReg hp' hr']
      exact (wordOf_lowByte_highByte _).symm
    exact hw ▸ readWord_answers he hp hp'
  · have hx := readReg_onlyRead r s
    obtain ⟨q', hq', hpx, hrx⟩ := exists_of_byteAt (hx.byteAt hhi)
    obtain ⟨rfl, rfl⟩ : q = q' ∧ hq = hq' := by
      rw [readReg_params, readReg_chip] at hpx
      simpa [hp'] using hpx
    exact half_readReg hp hr ▸ half_readReg hpx hrx ▸ readWord_answers_two he hne hp hp'

/-- Settles O22: READ_WORD answers a full read of one register, or a byte of each of two. -/
theorem readWordReturnsTheRegister : Obligations.ReadWordReturnsTheRegister :=
  fun _ _ _ _ he hlo hhi => readWord_bytes he hlo hhi

end Sys2Proof.Machine
end

section
/-! PROOFS. READ_LONG of registers (spec/20_memory.md R84, spec/40_register_bank.md R163): one access that reads two words, the
low one first. -/

namespace Sys2Proof.Machine

variable {s x y : State} {off : Byte} {o n : Nat} {lo hi v : Word} {a b c d : Byte}

/-! ## Its words -/

/-- A word of registers can be read, as `v`, by the window access behind READ_WORD. -/
def State.ReadsWord (s : State) (o : Nat) (v : Word) : Prop := ∃ x, winReadWord o s = .ok (v, x) ∧ s.OnlyRead x

/-- What READ_WORD answers is what the window access reads, on every schedule. -/
theorem readsWord_of_answers (hp : s.RegistersAt off.toNat) (h : s.Answers (.readWord off) v.toNat) :
    s.ReadsWord off.toNat v := by
  obtain ⟨t, he, hv, -⟩ := h
  obtain ⟨⟨w, y⟩, hy, hn⟩ := andThen_next he
  obtain rfl := Host.Outcome.next.inj hn
  obtain rfl : w = v := BitVec.eq_of_toNat_eq (by simpa using hv.2)
  rw [winReadWord_begin] at hy
  cases hx : winReadWord off.toNat s with
  | error e => rw [hx] at hy; cases hy
  | ok r =>
    rw [hx] at hy
    obtain rfl : r.1 = w := congrArg Prod.fst (Except.ok.inj hy)
    exact ⟨r.2, hx, winReadWord_onlyRead hp hx⟩

theorem registersAt_of_byteAt (ha : s.byteAt o = some a) (hb : s.byteAt (o + 1) = some b) : s.RegistersAt o := by
  obtain ⟨r, high, hp, -⟩ := exists_of_byteAt ha
  obtain ⟨q, hq, hp', -⟩ := exists_of_byteAt hb
  exact ⟨⟨r, high, hp⟩, q, hq, hp'⟩

theorem readsWord_bytes (he : off.toNat % 2 = 0) (ha : s.byteAt off.toNat = some a)
    (hb : s.byteAt (off.toNat + 1) = some b) : s.ReadsWord off.toNat (b ++ a) :=
  readsWord_of_answers (registersAt_of_byteAt ha hb) (readWord_bytes he ha hb)

theorem readsWord_shown (hb : bitsOk s.params.bits) (hm : has s.chip.mgmt (mdi s.params) = false)
    (he : off.toNat % 2 = 0) (hp : s.RegistersAt off.toNat) : ∃ v, s.ReadsWord off.toNat v ∧ s.WordShown off.toNat v := by
  obtain ⟨v, ha, hv⟩ := readWord_shows hb hm he hp
  exact ⟨v, readsWord_of_answers hp ha, hv⟩

/-- The offset of the upper word of a long. -/
theorem toNat_add_two (ha : off.toNat % 4 = 0) : (off + 2).toNat = off.toNat + 2 := by bv_omega

theorem not_dataAt_of_registersAt (hp : s.RegistersAt o) : ¬ s.DataAt o := by
  obtain ⟨⟨r, high, hp⟩, -⟩ := hp
  simp [State.DataAt, hp]

/-! ## The operation -/

theorem winReadLong_of_words (ha : o % 4 = 0) (hd : ¬ s.DataAt o) (hlo : winReadWord o s = .ok (lo, x))
    (hbank : x.chip.bank = s.chip.bank) (hhi : winReadWord (o + 2) x = .ok (hi, y)) :
    winReadLong o s = .ok (hi ++ lo, y) := by
  rw [winReadWord, if_pos (by omega)] at hlo hhi
  rw [hbank] at hhi
  rw [winReadLong, if_pos ha, if_neg hd, hlo]
  dsimp only
  rw [hhi]
  rfl

theorem readLong_next (ha : off.toNat % 4 = 0) (hd : ¬ s.DataAt off.toNat) (hlo : winReadWord off.toNat s = .ok (lo, x))
    (hbank : x.chip.bank = s.chip.bank) (hhi : winReadWord (off.toNat + 2) x = .ok (hi, y)) :
    exec (.readLong off) s = .next ((accessed (.read (readLabel (labelAt off s)) 4 (hi ++ lo))
      ((s.begin (.readLong off)).beside y)).finish .ok (hi ++ lo).toNat) := by
  have hlo' := winReadWord_beside (s.begin (.readLong off)) off.toNat s
  have hhi' := winReadWord_beside (s.begin (.readLong off)) (off.toNat + 2) x
  rw [hlo] at hlo'
  rw [hhi] at hhi'
  show andThen (winReadLong off.toNat ((s.begin (.readLong off)).beside s)) _ = _
  rw [winReadLong_of_words (s := (s.begin (.readLong off)).beside s) ha hd hlo' hbank hhi']
  rfl

/-- READ_LONG whose words are read one behind the other answers them, and with the agents at rest the trace grows by its one
access (R84). -/
theorem readLong_answers {p : Chip} (ha : off.toNat % 4 = 0) (hp : s.RegistersAt off.toNat)
    (hlo : winReadWord off.toNat s = .ok (lo, x)) (hx : s.OnlyRead x)
    (hhi : winReadWord (off.toNat + 2) x = .ok (hi, (s.setChip p).bump n)) :
    ∃ t, exec (.readLong off) s = .next t ∧ t.Ended .ok (hi ++ lo).toNat ∧
      (s.Quiet → t.env.trace = .read (readLabel (labelAt off s)) 4 (hi ++ lo) :: s.env.trace ∧ t.chip = p ∧
        s.OnlyChip t) := by
  have hbank : x.chip.bank = s.chip.bank := by obtain ⟨_, _, -, rfl⟩ := hx; rfl
  refine ⟨_, readLong_next ha (not_dataAt_of_registersAt hp) hlo hbank hhi, ⟨rfl, rfl⟩, fun hq => ?_⟩
  unfold accessed
  rw [gap_quiet (by exact hq)]
  exact ⟨rfl, rfl, rfl, rfl, fun _ => rfl, rfl, rfl, rfl, rfl, rfl⟩

/-- READ_LONG of registers changes nothing but the mark that ALLOC has been seen (R85). -/
theorem readLong_registers (ha : off.toNat % 4 = 0) (hp : s.RegistersAt off.toNat)
    (hlo : winReadWord off.toNat s = .ok (lo, x)) (hx : s.OnlyRead x)
    (hhi : x.ReadsWord (off + 2).toNat hi) :
    ∃ t, exec (.readLong off) s = .next t ∧ t.Ended .ok (hi ++ lo).toNat ∧
      (s.Quiet → t.env.trace = .read (readLabel (labelAt off s)) 4 (hi ++ lo) :: s.env.trace ∧
        t.chip = { s.chip with arrSeen := t.chip.arrSeen } ∧ s.OnlyChip t ∧ s.SamePackets t) := by
  obtain ⟨y, hhi, hy⟩ := hhi
  rw [toNat_add_two ha] at hhi
  obtain ⟨f, n, -, rfl⟩ := hx.trans hy
  obtain ⟨t, he, hv, ht⟩ := readLong_answers ha hp hlo hx hhi
  refine ⟨t, he, hv, fun hq => ?_⟩
  obtain ⟨htr, hc, ho⟩ := ht hq
  exact ⟨htr, by rw [hc], ho, samePackets_of_chip (by rw [hc]) (by rw [hc])⟩

/-- An upper word of two known bytes, behind the reads of the lower one. -/
theorem readsWord_upper_bytes (ha : off.toNat % 4 = 0) (hx : s.OnlyRead x) (hc : s.byteAt (off.toNat + 2) = some c)
    (hd : s.byteAt (off.toNat + 3) = some d) : x.ReadsWord (off + 2).toNat (d ++ c) := by
  have ho := toNat_add_two ha
  refine readsWord_bytes (by omega) ?_ ?_ <;> rw [ho]
  · exact hx.byteAt hc
  · exact hx.byteAt hd

/-- An upper word of registers, behind the reads of the lower one. -/
theorem readsWord_upper_shown (hb : bitsOk s.params.bits) (hm : has s.chip.mgmt (mdi s.params) = false)
    (ha : off.toNat % 4 = 0) (hx : s.OnlyRead x) (hp : s.RegistersAt (off.toNat + 2)) :
    ∃ v, x.ReadsWord (off + 2).toNat v ∧ s.WordShown (off.toNat + 2) v := by
  have ho := toNat_add_two ha
  have hxo := hx
  obtain ⟨f, n, -, rfl⟩ := hx
  obtain ⟨v, hv, hs⟩ := readsWord_shown (s := (s.setChip { s.chip with arrSeen := f }).bump n) (off := off + 2) hb hm
    (by omega) (by rw [ho]; exact hp)
  exact ⟨v, hv, hxo.wordShown (ho ▸ hs)⟩

/-- The bytes of a long, lowest first (R80). -/
theorem append_words (a b c d : Byte) : ((d ++ c : Word) ++ (b ++ a : Word) : Long) = d ++ c ++ b ++ a := by
  rw [BitVec.append_assoc']
  rfl

theorem State.DataReady.of_onlyRead {p : Pkt} {e : Entry} {w : Nat} {reading : Bool} (h : s.DataReady p e w reading)
    (hx : s.OnlyRead x) : x.DataReady p e w reading := by
  obtain ⟨f, n, -, rfl⟩ := hx
  exact ⟨h.bank, h.target, h.entry, h.mode, h.range, h.aligned⟩

/-- Where DATA stands in the upper word READ_LONG moves a word of the buffer there (R84, R90). -/
theorem readLong_dataAbove {p : Pkt} {e : Entry} (ha : off.toNat % 4 = 0) (hp : s.RegistersAt off.toNat)
    (hd : s.DataAt (off.toNat + 2)) (hr : s.DataReady p e 2 true)
    (hlo : winReadWord off.toNat s = .ok (lo, x)) (hx : s.OnlyRead x) :
    ∃ t, exec (.readLong off) s = .next t ∧
      t.Ended .ok (s.chip.bufByte e (s.chip.dp + 1) ++ s.chip.bufByte e s.chip.dp ++ lo).toNat ∧
      (s.Quiet → t.env.trace = .read (readLabel (labelAt off s)) 4
          (s.chip.bufByte e (s.chip.dp + 1) ++ s.chip.bufByte e s.chip.dp ++ lo) :: s.env.trace ∧
        t.chip = { s.chip with arrSeen := t.chip.arrSeen, dp := s.advanced 2 } ∧ s.OnlyChip t ∧ s.SamePackets t) := by
  have hrx : x.DataReady p e 2 true := hr.of_onlyRead hx
  have hdx : x.DataAt (off.toNat + 2) := by
    obtain ⟨f, n, -, rfl⟩ := hx
    exact hd
  have hhi := winReadWord_data (by omega) hdx
  rw [hrx.dataRead, advance_eq] at hhi
  have hxo := hx
  obtain ⟨f, n, -, rfl⟩ := hx
  obtain ⟨t, he, hv, ht⟩ := readLong_answers (p := { s.chip with arrSeen := f, dp := s.advanced 2 }) ha hp hlo hxo hhi
  rw [← dataLong_word]
  refine ⟨t, he, hv, fun hq => ?_⟩
  obtain ⟨htr, hc, ho⟩ := ht hq
  exact ⟨htr, by rw [hc], ho, samePackets_of_chip (by rw [hc]) (by rw [hc])⟩

/-! ## The obligation -/

/-- Settles O24: the lower word is read as READ_WORD reads it, and what is known of the upper one stays known behind it. -/
theorem readLongReturnsTwoWords : Obligations.ReadLongReturnsTwoWords := by
  refine ⟨fun s off a b c d ha h0 h1 h2 h3 => ?_, fun s off hb hm ha hp hp' => ?_,
    fun s off p e hb hm ha hp hd hr => ?_, fun s off c d ha hf h2 h3 => ?_⟩
  · have hp := registersAt_of_byteAt h0 h1
    obtain ⟨x, hlo, hx⟩ := readsWord_bytes (by omega) h0 h1
    obtain ⟨t, he, hv, ht⟩ := readLong_registers ha hp hlo hx (readsWord_upper_bytes ha hx h2 h3)
    rw [append_words] at hv ht
    exact ⟨t, he, hv, fun hq => (ht hq).imp_left fun h => ⟨_, h⟩⟩
  · obtain ⟨lo, ⟨x, hlo, hx⟩, hsl⟩ := readsWord_shown hb hm (by omega) hp
    obtain ⟨hi, hhi, hsh⟩ := readsWord_upper_shown hb hm ha hx hp'
    obtain ⟨t, he, hv, ht⟩ := readLong_registers ha hp hlo hx hhi
    exact ⟨t, lo, hi, he, hv, hsl, hsh, fun hq => (ht hq).imp_left fun h => ⟨_, h⟩⟩
  · obtain ⟨lo, ⟨x, hlo, hx⟩, hsl⟩ := readsWord_shown hb hm (by omega) hp
    obtain ⟨t, he, hv, ht⟩ := readLong_dataAbove ha hp hd hr hlo hx
    exact ⟨t, lo, he, hv, hsl, fun hq => (ht hq).imp_left fun h => ⟨_, h⟩⟩
  · have hp : s.RegistersAt off.toNat := ⟨⟨_, _, hf.1⟩, _, _, hf.2⟩
    obtain ⟨x, hlo, hx⟩ := readsWord_of_answers hp (readWord_answers (by omega) hf.1 hf.2)
    obtain ⟨t, he, hv, ht⟩ := readLong_registers ha hp hlo hx (readsWord_upper_bytes ha hx h2 h3)
    have hl : readLabel (labelAt off s) = .fifo := by simp [labelAt, traceReg, hf.1, readLabel]
    rw [hl] at ht
    refine ⟨t, _, he, hv, highWord_longOf _ _, ?_, ht⟩
    have hw : lowWord ((d ++ c) ++ (readReg .fifo s).1) = (readReg .fifo s).1 := lowWord_longOf _ _
    rw [hw, readReg_fifo_rempty]
    exact List.isEmpty_iff

end Sys2Proof.Machine
end

section
/-! PROOFS. Writes that registers store (spec/20_memory.md R84, R85, spec/40_register_bank.md R164 to R166): each changes the chip
unit alone, as `WordStored`, `ByteStored` and `StoredAt` say. -/

namespace Sys2Proof.Machine

variable {s : State} {i : Instr} {off v : Byte} {o : Nat} {k : BitVec 2} {r : Reg} {high : Bool} {c d : Chip} {w : Word}
  {p : Config.Params}

/-! ## One register -/

/-- A write of MGMT without a rising clock changes the register alone (R37, R260). -/
theorem setReg_mgmt_of_level (h : has w (mclk s.params) = false ∨ has s.chip.mgmt (mclk s.params) = true) :
    setReg .mgmt w s = s.setChip { s.chip with mgmt := w &&& ~~~mdi s.params } := by
  rcases h with h | h <;> simp [setReg_mgmt, mgmtWrite, h, without]

theorem setReg_of_wordStored (h : WordStored s.params r w s.chip d) : setReg r w s = s.setChip d := by
  rcases h with ⟨rfl, rfl⟩ | ⟨rfl, rfl⟩ | ⟨rfl, hw, rfl⟩ | ⟨rfl, hw, rfl⟩ | ⟨rfl, rfl⟩ | ⟨rfl, rfl⟩ | ⟨rfl, rfl⟩ |
    ⟨rfl, hw, rfl⟩
  · exact setReg_bsr w s
  · exact setReg_tcr w s
  · exact setReg_rcr w s hw
  · exact setReg_config w s hw
  · exact setReg_ctl w s
  · rfl
  · exact setReg_ptr w s
  · exact setReg_mgmt_of_level hw

theorem ne_mmuCmd_of_wordStored (h : WordStored p r w c d) : r ≠ .mmuCmd := by
  rintro rfl
  simp [WordStored] at h

theorem writeReg_of_wordStored (h : WordStored s.params r w s.chip d) : writeReg r w s = .ok (s.setChip d) := by
  rw [writeReg_of_ne_mmuCmd _ _ (ne_mmuCmd_of_wordStored h), setReg_of_wordStored h]

/-- A byte merges with what the register holds (R164, log 11). -/
theorem storedWord_of_holdsWord {x : Word} (h : holdsWord p c r x) : storedWord r p c = x := by
  rcases h with ⟨rfl, rfl⟩ | ⟨rfl, rfl⟩ | ⟨rfl, rfl⟩ | ⟨rfl, rfl⟩ | ⟨rfl, rfl⟩ | ⟨rfl, rfl⟩ | ⟨rfl, rfl⟩ <;> rfl

theorem mergeHalf_eq (x : Word) (high : Bool) (v : Byte) :
    mergeHalf x high v = if high then v ++ lowByte x else highByte x ++ v := by
  cases high <;> rfl

/-- A byte written to a register of one byte is the byte it takes. -/
theorem lowByte_mergeHalf_low (x : Word) (v : Byte) : lowByte (mergeHalf x false v) = v := lowByte_wordOf v _

theorem setMacByte_eq_set (m : Mac) (i : Fin 6) (v : Byte) : setMacByte m i v = m.set i v := by
  simp [setMacByte, Vector.setIfInBounds, Vector.set, Array.setIfInBounds]

theorem writePlace_of_byteStored (hl : livesAt s.params.regs k o (.byte r high)) (h : ByteStored s.params r high v s.chip d) :
    writePlace (.byte r high) v s = .ok (s.setChip d) := by
  have low := low_of_livesAt hl
  rcases h with ⟨x, hx, hw⟩ | ⟨i, rfl, rfl⟩ | ⟨rfl, rfl⟩ | ⟨rfl, rfl⟩ | ⟨rfl, rfl⟩ | ⟨rfl, rfl⟩ | ⟨rfl, rfl⟩ | ⟨rfl, rfl⟩ |
    ⟨i, rfl, rfl⟩
  · rw [← mergeHalf_eq] at hw
    rw [writePlace, storedWord_of_holdsWord hx, writeReg_of_wordStored hw]
  · rfl
  · rfl
  · rfl
  · rfl
  · obtain rfl := low rfl
    simp only [writePlace, writeReg, setReg_pnr, lowByte_mergeHalf_low]
  · obtain rfl := low rfl
    simp only [writePlace, writeReg, setReg_intMask, lowByte_mergeHalf_low]
  · obtain rfl := low rfl
    simp only [writePlace, writeReg, setReg_intAck, lowByte_mergeHalf_low, without]
  · obtain rfl := low rfl
    simp only [writePlace, writeReg, setReg_mac, lowByte_mergeHalf_low, setMacByte_eq_set]

/-! ## One word -/

theorem writeWordAt_of_storedAt (h : StoredAt s.params k o w s.chip d) : writeWordAt k o w s = .ok (s.setChip d) := by
  rcases h with ⟨r, hp, hp', hw⟩ | ⟨r, q, hr, hq, e, hne, hp, hp', he, hd⟩
  · simp only [writeWordAt, hp, hp', if_true, writeReg_of_wordStored hw]
  · simp only [writeWordAt, hp, hp', Ne.symm hne, if_false, writePlace_of_byteStored (placeAt_livesAt hp) he]
    exact writePlace_of_byteStored (s := s.setChip e) (placeAt_livesAt hp') hd

/-! ## Packet memory -/

/-- Two chip units hold the same buffers. -/
def Chip.SameBuffers (c d : Chip) : Prop := d.table = c.table ∧ d.pktMem = c.pktMem

theorem sameBuffers_of_wordStored (h : WordStored p r w c d) : c.SameBuffers d := by
  rcases h with ⟨-, rfl⟩ | ⟨-, rfl⟩ | ⟨-, -, rfl⟩ | ⟨-, -, rfl⟩ | ⟨-, rfl⟩ | ⟨-, rfl⟩ | ⟨-, rfl⟩ | ⟨-, -, rfl⟩ <;>
    exact ⟨rfl, rfl⟩

theorem sameBuffers_of_byteStored (h : ByteStored p r high v c d) : c.SameBuffers d := by
  rcases h with ⟨x, -, hw⟩ | ⟨i, -, rfl⟩ | ⟨-, rfl⟩ | ⟨-, rfl⟩ | ⟨-, rfl⟩ | ⟨-, rfl⟩ | ⟨-, rfl⟩ | ⟨-, rfl⟩ | ⟨i, -, rfl⟩
  · exact sameBuffers_of_wordStored hw
  all_goals exact ⟨rfl, rfl⟩

theorem sameBuffers_of_storedAt (h : StoredAt p k o w c d) : c.SameBuffers d := by
  rcases h with ⟨r, -, -, hw⟩ | ⟨r, q, hr, hq, e, -, -, -, he, hd⟩
  · exact sameBuffers_of_wordStored hw
  · obtain ⟨ht, hm⟩ := sameBuffers_of_byteStored he
    obtain ⟨ht', hm'⟩ := sameBuffers_of_byteStored hd
    exact ⟨ht'.trans ht, hm'.trans hm⟩

/-! ## The operations -/

/-- An operation of one access `a` that stores the chip unit `c`. -/
theorem stores_of_behindAccess {a : Access} (he : exec i s = .next ((s.behindAccess a c).finish .ok 0))
    (hb : s.chip.SameBuffers c) :
    ∃ t, exec i s = .next t ∧ t.Ended .ok 0 ∧ t = (s.behindAccess a c).finish .ok 0 ∧
      (s.Quiet → t.chip = c ∧ s.OnlyChip t ∧ s.SamePackets t) := by
  refine ⟨_, he, ⟨rfl, rfl⟩, rfl, fun hq => ?_⟩
  unfold State.behindAccess
  rw [gap_quiet (by exact hq)]
  exact ⟨rfl, ⟨rfl, rfl, fun _ => rfl, rfl, rfl, rfl, rfl, rfl⟩, samePackets_of_chip hb.1 hb.2⟩

theorem labelAt_of_placeAt (hp : placeAt s.params.regs s.chip.bank off.toNat = some (.byte r high)) : labelAt off s = r := by
  simp [labelAt, traceReg, hp]

/-- Something of a register stands where a word is stored. -/
theorem exists_of_storedAt (h : StoredAt p k o w c d) : ∃ r high, placeAt p.regs k o = some (.byte r high) := by
  rcases h with ⟨r, hp, -⟩ | ⟨r, q, hr, hq, e, -, hp, -⟩
  · exact ⟨r, false, hp⟩
  · exact ⟨r, hr, hp⟩

theorem writeByte_stored (hp : placeAt s.params.regs s.chip.bank off.toNat = some (.byte r high))
    (h : ByteStored s.params r high v s.chip c) :
    exec (.writeByte off v) s = .next ((s.behindAccess (.write r 1 (v.setWidth 32)) c).finish .ok 0) := by
  have hw := writePlace_of_byteStored (s := s.begin (.writeByte off v)) (placeAt_livesAt hp) h
  show execWriteByte off v s = _
  simp only [execWriteByte, winWriteByte, State.begin_params, State.begin_chip, hp, hw, andThen_ok, labelAt_of_placeAt hp]
  rfl

theorem writeWord_stored (he : off.toNat % 2 = 0) (hp : placeAt s.params.regs s.chip.bank off.toNat = some (.byte r high))
    (h : StoredAt s.params s.chip.bank off.toNat w s.chip c) :
    exec (.writeWord off w) s = .next ((s.behindAccess (.write r 2 (w.setWidth 32)) c).finish .ok 0) := by
  have hw := writeWordAt_of_storedAt (s := s.begin (.writeWord off w)) h
  show execWriteWord off w s = _
  simp only [execWriteWord, winWriteWord, he, if_true, State.begin_chip, hw, andThen_ok, labelAt_of_placeAt hp]
  rfl

/-- Settles O25: the byte is stored, and the buffers are as before. -/
theorem writeByteChangesTheRegister : Obligations.WriteByteChangesTheRegister := by
  intro s off v r high c hp h
  obtain ⟨t, he, hv, -, ht⟩ := stores_of_behindAccess (writeByte_stored hp h) (sameBuffers_of_byteStored h)
  exact ⟨t, he, hv, ht⟩

/-! ## A rising clock -/

/-- A write that raises MCLK is one edge for a PHY on the pins, which samples them as that write leaves them (R85, R260, R262,
log 47). -/
theorem mgmtWrite_rising_phy (h : has w (mclk s.params) = true) (h0 : has s.chip.mgmt (mclk s.params) = false) :
    (mgmtWrite w s).phy =
      if s.phy.addr = none then s.phy
      else { s.phy with ones := onesAfter s.phy.ones ⟨has w (mdoe s.params), has w (mdo s.params)⟩ }.edge s.params
        s.phy.ones ⟨has w (mdoe s.params), has w (mdo s.params)⟩ s.env.draw := by
  simp only [mgmtWrite, h, h0, Bool.not_false, Bool.and_self, if_true, phyEdge]
  rw [apply_ite State.phy]
  rfl

/-- Between frames a driven one makes the preamble longer, nothing else (R263). -/
theorem edge_of_hunt (f : Phy) (n m : Nat) (hf : f.rx = .hunt) : f.edge p n ⟨true, true⟩ m = f := by
  simp [Phy.edge, hf]

theorem mgmtWrite_preamble (h : has w (mclk s.params) = true) (h0 : has s.chip.mgmt (mclk s.params) = false)
    (ha : s.phy.addr ≠ none) (hh : s.phy.rx = .hunt) (hoe : has w (mdoe s.params) = true)
    (hdo : has w (mdo s.params) = true) :
    (mgmtWrite w s).phy = { s.phy with ones := min 32 (s.phy.ones + 1) } := by
  rw [mgmtWrite_rising_phy h h0, if_neg ha, hoe, hdo, edge_of_hunt _ _ _ (by exact hh)]
  rfl

theorem mgmtWrite_begin (w : Word) (i : Instr) (s : State) :
    mgmtWrite w (s.begin i) = (s.begin i).beside (mgmtWrite w s) :=
  setReg_beside (s.begin i) .mgmt w s

/-- A word or a byte written to MGMT is a write of the whole register (log 11). -/
theorem exec_mgmtWrite
    (h : (i = .writeWord off w ∧ off.toNat % 2 = 0 ∧ s.WordAt off.toNat .mgmt) ∨
      (∃ b high, i = .writeByte off b ∧ placeAt s.params.regs s.chip.bank off.toNat = some (.byte .mgmt high) ∧
        w = if high then b ++ lowByte s.chip.mgmt else highByte s.chip.mgmt ++ b)) :
    ∃ a, exec i s = .next ((accessed a ((s.begin i).beside (mgmtWrite w s))).finish .ok 0) := by
  rw [← mgmtWrite_begin]
  rcases h with ⟨rfl, he, hp, hp'⟩ | ⟨b, high, rfl, hp, rfl⟩
  · refine ⟨.write (labelAt off s) 2 (w.setWidth 32), ?_⟩
    show execWriteWord off w s = _
    simp only [execWriteWord, winWriteWord, he, if_true, writeWordAt, State.begin_params, State.begin_chip, hp, hp']
    rfl
  · refine ⟨.write (labelAt off s) 1 (b.setWidth 32), ?_⟩
    rw [← mergeHalf_eq]
    show execWriteByte off b s = _
    simp only [execWriteByte, winWriteByte, State.begin_params, State.begin_chip, hp]
    rfl

/-- With the agents at rest an operation of one access leaves what the access leaves, and its trace entry (R100). -/
theorem leaves_of_beside {a : Access} {z y : State} (he : exec i s = .next ((accessed a (z.beside y)).finish .ok 0)) :
    ∃ t, exec i s = .next t ∧ t.Ended .ok 0 ∧ (z.Quiet → t.env.trace = a :: z.env.trace ∧ t.chip = y.chip ∧
      t.phy = y.phy ∧ t.irq = y.irq ∧ t.hostMem = z.hostMem ∧ t.inbox = z.inbox) := by
  refine ⟨_, he, ⟨rfl, rfl⟩, fun hq => ?_⟩
  rw [accessed, gap_quiet (by exact hq)]
  exact ⟨rfl, rfl, rfl, rfl, rfl, rfl⟩

/-- Settles O26: a word is stored in one event behind which the gap lies; a rising clock is an edge for the PHY besides. -/
theorem writeWordChangesTheRegister : Obligations.WriteWordChangesTheRegister := by
  refine ⟨fun s off v c he h => ?_, fun s i off v hi hv h0 => ?_⟩
  · obtain ⟨r, high, hp⟩ := exists_of_storedAt h
    obtain ⟨t, hx, hd, ht, hq⟩ := stores_of_behindAccess (writeWord_stored he hp h) (sameBuffers_of_storedAt h)
    exact ⟨t, hx, hd, ⟨r, high, hp, ht⟩, hq⟩
  · obtain ⟨a, hx⟩ := exec_mgmtWrite hi
    obtain ⟨t, hx, hd, ht⟩ := leaves_of_beside hx
    refine ⟨t, hx, hd, fun hq => ?_⟩
    obtain ⟨-, hc, hphy, hirq, hm, hin⟩ := ht hq
    rw [mgmtWrite_chip] at hc
    rw [mgmtWrite_irq] at hirq
    have hedge := hphy.trans (mgmtWrite_rising_phy hv h0)
    exact ⟨hc, hm, hirq, hin, samePackets_of_chip (by rw [hc]) (by rw [hc]),
      fun ha => hedge.trans (if_pos ha), fun ha => hedge.trans (if_neg ha),
      fun ha hh hoe hdo => hphy.trans (mgmtWrite_preamble hv h0 ha hh hoe hdo)⟩

end Sys2Proof.Machine
end

section
/-! PROOFS. WRITE_LONG (spec/20_memory.md R84, spec/40_register_bank.md R166): one access that writes two words, both placed by
the bank it finds, so that the second one does not see a bank the first has selected. -/

namespace Sys2Proof.Machine

variable {s t u x y : State} {off : Byte} {o : Nat} {j k : BitVec 2} {q : Reg} {c d : Chip} {w : Word}
  {v : Long} {e : Refusal}

/-! ## Writes under another bank -/

/-- `s` with bank `j` selected. -/
def State.setBank (j : BitVec 2) (s : State) : State := s.setChip { s.chip with bank := j }

theorem setBank_self (h : s.chip.bank = j) : s.setBank j = s := by
  subst h
  rfl

/-- Which bank is selected decides only which is selected behind the write of a register. -/
theorem setReg_setBank (j : BitVec 2) (q : Reg) (w : Word) (s : State) :
    ∃ j', setReg q w (s.setBank j) = (setReg q w s).setBank j' := by
  cases q with
  | bsr => exact ⟨bankOf s.params w, rfl⟩
  | rcr =>
    by_cases h : has w (softRst s.params) = true
    · refine ⟨(softReset s).chip.bank, ?_⟩
      rw [setReg_rcr_reset w s h, setReg_rcr_reset w (s.setBank j) h]
      rfl
    · rw [Bool.not_eq_true] at h
      exact ⟨j, by rw [setReg_rcr w s h, setReg_rcr w (s.setBank j) h]; rfl⟩
  | config =>
    by_cases h : has w (powerEn s.params) = true ∧ has s.chip.config (powerEn s.params) = false
    · obtain ⟨h, h0⟩ := h
      refine ⟨(powerUp (s.setChip { s.chip with config := w })).chip.bank, ?_⟩
      rw [setReg_config_powerUp w s h h0, setReg_config_powerUp w (s.setBank j) h h0]
      rfl
    · have h' : has w (powerEn s.params) = false ∨ has s.chip.config (powerEn s.params) = true := by
        simpa [imp_iff_not_or] using h
      exact ⟨j, by rw [setReg_config w s h', setReg_config w (s.setBank j) h']; rfl⟩
  | mgmt =>
    refine ⟨j, ?_⟩
    simp only [setReg, mgmtWrite, phyEdge]
    rw [apply_ite (State.setBank j), apply_ite (State.setBank j)]
    rfl
  | _ => exact ⟨j, rfl⟩

/-- How far `dp` moves does not depend on the bank (R45). -/
theorem setChip_advance_setBank (j : BitVec 2) (n : Nat) (p : Config.Params) (c : Chip) (s : State) :
    (s.setBank j).setChip (({ c with bank := j } : Chip).advance n p) = (s.setChip (c.advance n p)).setBank j := by
  simp only [Chip.advance]
  rw [apply_ite (fun c : Chip => s.setChip c), apply_ite (State.setBank j), apply_ite (fun c : Chip => (s.setBank j).setChip c)]
  rfl

theorem dataWrite_setBank (j : BitVec 2) (n : Nat) (v : Long) (s : State) :
    dataWrite n v (s.setBank j) = (dataWrite n v s).map (State.setBank j) := by
  have hd : (s.setBank j).chip.dataEntry (s.setBank j).params n false = s.chip.dataEntry s.params n false := rfl
  unfold dataWrite
  rw [hd, show (s.setBank j).chip.dpStale = s.chip.dpStale from rfl]
  cases s.chip.dataEntry s.params n false with
  | some e =>
    exact congrArg Except.ok (setChip_advance_setBank j n s.params
      { s.chip with pktMem := s.chip.pktMem.writeBytes (pktAddr e.pkt s.chip.dp) (dataBytes n v) } s)
  | none =>
    dsimp only
    split
    · exact congrArg (fun t => Except.ok (State.bump 64 t))
        (setChip_advance_setBank j n s.params (s.chip.scramblePackets s.env.draw) s)
    · rfl

theorem mmuWrite_setBank (j : BitVec 2) (w : Word) (s : State) :
    mmuWrite w (s.setBank j) = (mmuWrite w s).map (State.setBank j) := by
  have hg (q : MmuCode) : mmuGuard q s.params (s.setBank j).chip = mmuGuard q s.params s.chip := rfl
  have ht (q : MmuCode) : mmuTake q (s.setBank j) = (mmuTake q s).setBank j := by cases q <;> rfl
  unfold mmuWrite
  rw [show (s.setBank j).params = s.params from rfl]
  rcases decodeMmuCode s.params.codes w with _ | q
  · rfl
  · dsimp only
    rw [hg, ht]
    cases mmuGuard q s.params s.chip <;> rfl

theorem writeReg_setBank (j : BitVec 2) (q : Reg) (w : Word) (s : State) :
    ∃ j', writeReg q w (s.setBank j) = (writeReg q w s).map (State.setBank j') := by
  by_cases hq : q = .mmuCmd
  · subst hq
    exact ⟨j, mmuWrite_setBank j w s⟩
  · obtain ⟨j', h⟩ := setReg_setBank j q w s
    rw [writeReg_of_ne_mmuCmd _ _ hq, writeReg_of_ne_mmuCmd _ _ hq, h]
    exact ⟨j', rfl⟩

theorem storedWord_setBank (j : BitVec 2) (s : State) (hq : q ≠ .bsr) :
    storedWord q s.params (s.setBank j).chip = storedWord q s.params s.chip := by
  cases q with
  | bsr => exact absurd rfl hq
  | _ => rfl

/-- A byte of BSR merges with the bank, but the write then selects another one (log 11). -/
theorem writePlace_setBank (j : BitVec 2) (p : Place) (b : Byte) (s : State) :
    ∃ j', writePlace p b (s.setBank j) = (writePlace p b s).map (State.setBank j') := by
  cases p with
  | data => exact ⟨j, dataWrite_setBank j 1 _ s⟩
  | byte q high =>
    by_cases hq : q = .bsr
    · subst hq
      exact ⟨bankOf s.params (mergeHalf (bankWord s.params j) high b), rfl⟩
    · have hm : writePlace (.byte q high) b (s.setBank j) =
          writeReg q (mergeHalf (storedWord q s.params s.chip) high b) (s.setBank j) := by
        rw [← storedWord_setBank j s hq]
        rfl
      rw [hm]
      exact writeReg_setBank j q _ s

theorem writeWordAt_setBank (j k : BitVec 2) (o : Nat) (w : Word) (s : State) :
    ∃ j', writeWordAt k o w (s.setBank j) = (writeWordAt k o w s).map (State.setBank j') := by
  unfold writeWordAt
  rw [show (s.setBank j).params = s.params from rfl]
  rcases placeAt s.params.regs k o with _ | _ | ⟨q, hq⟩
  · exact ⟨j, rfl⟩
  · exact ⟨j, dataWrite_setBank j 2 _ s⟩
  · rcases placeAt s.params.regs k (o + 1) with _ | _ | ⟨q', hq'⟩
    · exact ⟨j, rfl⟩
    · exact ⟨j, rfl⟩
    · dsimp only
      split
      · exact writeReg_setBank j q w s
      · obtain ⟨j', hl⟩ := writePlace_setBank j (.byte q hq) (lowByte w) s
        rw [hl]
        cases writePlace (.byte q hq) (lowByte w) s with
        | error e => exact ⟨j, rfl⟩
        | ok t => exact writePlace_setBank j' (.byte q' hq') (highByte w) t

/-! ## Two words in one access -/

theorem winWriteWord_of_even (he : o % 2 = 0) (hk : s.chip.bank = k) : winWriteWord o w s = writeWordAt k o w s := by
  rw [winWriteWord, if_pos he, hk]

/-- Both words are placed by the bank selected when the access starts (R166). -/
theorem winWriteLong_of_words (ha : o % 4 = 0) (hd : ¬ s.DataAt o)
    (hlo : writeWordAt s.chip.bank o (lowWord v) s = .ok x) :
    winWriteLong o v s = writeWordAt s.chip.bank (o + 2) (highWord v) x := by
  rw [winWriteLong, if_pos ha, if_neg hd, hlo]

theorem winWriteLong_of_refused (ha : o % 4 = 0) (hd : ¬ s.DataAt o) (h : winWriteWord o (lowWord v) s = .error e) :
    winWriteLong o v s = .error e := by
  rw [winWriteWord_of_even (by omega) rfl] at h
  rw [winWriteLong, if_pos ha, if_neg hd, h]

theorem winWriteLong_beside (r : State) (o : Nat) (v : Long) (s : State) :
    ∃ h, winWriteLong o v (r.beside s) = (winWriteLong o v s).map (r.setPkt h).beside := by
  unfold winWriteLong
  rw [show (r.beside s).params = s.params from rfl, show (r.beside s).chip = s.chip from rfl]
  split
  · split
    · exact ⟨r.eng.pkt, dataWrite_beside r 4 v s⟩
    · obtain ⟨h, hl⟩ := writeWordAt_beside r s.chip.bank o (lowWord v) s
      rw [hl]
      cases writeWordAt s.chip.bank o (lowWord v) s with
      | error e => exact ⟨none, rfl⟩
      | ok t => exact writeWordAt_beside (r.setPkt h) s.chip.bank (o + 2) (highWord v) t
  · exact ⟨none, rfl⟩

/-! ## The operation -/

theorem exec_writeLong (off : Byte) (v : Long) (s : State) : ∃ p, exec (.writeLong off v) s =
    andThen (winWriteLong off.toNat v s) fun y => .next ((accessed (.write (labelAt off s) 4 v)
      (((s.begin (.writeLong off v)).setPkt p).beside y)).finish .ok 0) := by
  obtain ⟨p, hb⟩ := winWriteLong_beside (s.begin (.writeLong off v)) off.toNat v s
  refine ⟨p, ?_⟩
  show andThen (winWriteLong off.toNat v ((s.begin (.writeLong off v)).beside s)) _ = _
  rw [hb]
  cases winWriteLong off.toNat v s <;> rfl

theorem writeLong_refused (h : winWriteLong off.toNat v s = .error e) : exec (.writeLong off v) s = .refused e := by
  obtain ⟨p, hx⟩ := exec_writeLong off v s
  rw [hx, h, andThen_error]

/-- With the agents at rest WRITE_LONG leaves what its access leaves, and one trace entry (R84). -/
theorem writeLong_quiet (hq : s.Quiet) (h : winWriteLong off.toNat v s = .ok y) :
    ∃ t, exec (.writeLong off v) s = .next t ∧ t.Ended .ok 0 ∧ t.env.trace = .write (labelAt off s) 4 v :: s.env.trace ∧
      t.chip = y.chip ∧ t.phy = y.phy ∧ t.irq = y.irq ∧ t.hostMem = s.hostMem ∧ t.inbox = s.inbox := by
  obtain ⟨p, hx⟩ := exec_writeLong off v s
  rw [h, andThen_ok] at hx
  obtain ⟨t, he, hv, ht⟩ := leaves_of_beside hx
  exact ⟨t, he, hv, ht hq⟩

theorem writeLong_stored {r : Reg} {high : Bool} (ha : off.toNat % 4 = 0)
    (hp : placeAt s.params.regs s.chip.bank off.toNat = some (.byte r high))
    (hlo : StoredAt s.params s.chip.bank off.toNat (lowWord v) s.chip c)
    (hhi : StoredAt s.params s.chip.bank (off.toNat + 2) (highWord v) c d) :
    exec (.writeLong off v) s = .next ((s.behindAccess (.write r 4 v) d).finish .ok 0) := by
  have hd : ¬ s.DataAt off.toNat := by simp [State.DataAt, hp]
  have hw : winWriteLong off.toNat v (s.begin (.writeLong off v)) = .ok ((s.begin (.writeLong off v)).setChip d) :=
    (winWriteLong_of_words (s := s.begin _) ha hd (writeWordAt_of_storedAt (s := s.begin _) hlo)).trans
      (writeWordAt_of_storedAt (s := (s.begin _).setChip c) hhi)
  show execWriteLong off v s = _
  rw [execWriteLong, hw, andThen_ok, labelAt_of_placeAt hp]
  rfl

/-! ## The second word behind the first -/

theorem State.Twin.setBank (h : s.Twin t) (j : BitVec 2) : (s.setBank j).Twin (t.setBank j) :=
  ⟨h.params, congrArg (fun c : Chip => { c with bank := j }) h.chip, h.phy, h.irq, h.draw, h.hang, h.quiet, h.quiet'⟩

/-- A word written under the bank that was selected at first is, but for the bank behind it, the word written behind `x`. -/
theorem writeWordAt_ok_of_setBank (he : o % 2 = 0) (h : winWriteWord o w (x.setBank k) = .ok u) :
    ∃ y, writeWordAt k o w x = .ok y ∧ u = y.setBank u.chip.bank ∧ (x.chip.bank = k → y = u) := by
  rw [winWriteWord_of_even he rfl] at h
  obtain ⟨j', hj⟩ := writeWordAt_setBank k k o w x
  change writeWordAt k o w (x.setBank k) = .ok u at h
  rw [h] at hj
  cases hy : writeWordAt k o w x with
  | error e => rw [hy] at hj; cases hj
  | ok y =>
    rw [hy] at hj
    obtain rfl : u = y.setBank j' := Except.ok.inj hj
    refine ⟨y, rfl, rfl, fun hk => ?_⟩
    rw [setBank_self hk, hy] at h
    exact Except.ok.inj h

theorem writeWordAt_error_of_setBank (he : o % 2 = 0) (h : winWriteWord o w (x.setBank k) = .error e) :
    writeWordAt k o w x = .error e := by
  rw [winWriteWord_of_even he rfl] at h
  obtain ⟨j', hj⟩ := writeWordAt_setBank k k o w x
  change writeWordAt k o w (x.setBank k) = .error e at h
  rw [h] at hj
  cases hy : writeWordAt k o w x with
  | error f => rw [hy] at hj; exact hj.symm
  | ok y => rw [hy] at hj; cases hj

/-- What WRITE_WORD has done the lower word of a long does, and the upper one is written behind it. -/
theorem lowerWord_of_writeWord (hq : s.Quiet) (ha : off.toNat % 4 = 0) (hd : ¬ s.DataAt off.toNat)
    (hu : exec (.writeWord off (lowWord v)) s = .next u) :
    ∃ x, x.Twin u ∧ winWriteLong off.toNat v s = writeWordAt s.chip.bank (off.toNat + 2) (highWord v) x := by
  obtain ⟨x, hx, hxu, -⟩ := writeWord_next hq hu
  rw [winWriteWord_of_even (by omega) rfl] at hx
  exact ⟨x, hxu, winWriteLong_of_words ha hd hx⟩

/-- Where a long is written at something other than DATA a register stands. -/
theorem exists_of_winWriteLong (ha : o % 4 = 0) (hd : ¬ s.DataAt o) (h : winWriteLong o v s = .ok y) :
    ∃ r high, placeAt s.params.regs s.chip.bank o = some (.byte r high) := by
  rcases noWordAt_or_registers s.params.regs hd with hn | ⟨r, _, high, _, hp, -⟩
  · rw [winWriteLong_of_noWordAt v ha hd (.inl hn)] at h
    cases h
  · exact ⟨r, high, hp⟩

/-- Settles O27: what two words store a long stores; whatever they do, the second one does not see the bank the first leaves
(`writeWordAt_setBank`). -/
theorem writeLongWritesTwoWords : Obligations.WriteLongWritesTwoWords := by
  refine ⟨fun s off v c d ha hlo hhi => ?_, fun s u w off v hq ha hd hu hw => ?_, fun s off v e ha hd h => ?_,
    fun s u off v e hq ha hd hu hw => ?_⟩
  · obtain ⟨r, high, hp⟩ := exists_of_storedAt hlo
    obtain ⟨hlt, hlm⟩ := sameBuffers_of_storedAt hlo
    obtain ⟨hht, hhm⟩ := sameBuffers_of_storedAt hhi
    obtain ⟨t, hx, hv, ht, hq⟩ := stores_of_behindAccess (writeLong_stored ha hp hlo hhi) ⟨hht.trans hlt, hhm.trans hlm⟩
    exact ⟨t, hx, hv, ⟨r, high, hp, ht⟩, hq⟩
  · obtain ⟨x, hxu, hlong⟩ := lowerWord_of_writeWord hq ha hd hu
    have ho := toNat_add_two ha
    obtain ⟨z, hz, hzw, -⟩ := writeWord_next (s := u.setBank s.chip.bank) (by exact hxu.quiet') hw
    obtain ⟨z', hz', hzz'⟩ := (hxu.symm.setBank s.chip.bank).writeWord hz
    rw [ho] at hz'
    obtain ⟨y, hy, hyz, hsame⟩ := writeWordAt_ok_of_setBank (by omega) hz'
    have hwz := hzz'.symm.trans hzw
    obtain ⟨r, high, hp⟩ := exists_of_winWriteLong ha hd (hlong.trans hy)
    obtain ⟨t, hx, hv, htr, hc, hph, hi, hm, hin⟩ := writeLong_quiet hq (hlong.trans hy)
    rw [labelAt_of_placeAt hp] at htr
    refine ⟨t, hx, hv, ⟨r, high, hp, htr⟩, ?_, fun hb => ?_, ?_, ?_, hm, hin⟩
    · rw [hwz.chip, hyz, hc]
      rfl
    · rw [hc, hwz.chip, hsame (by rw [← hxu.chip]; exact hb)]
    · rw [hph, hwz.phy, hyz]
      rfl
    · rw [hi, hwz.irq, hyz]
      rfl
  · exact writeLong_refused (winWriteLong_of_refused ha hd (writeWord_refused h))
  · obtain ⟨x, hxu, hlong⟩ := lowerWord_of_writeWord hq ha hd hu
    have he := (hxu.symm.setBank s.chip.bank).writeWord_error (writeWord_refused (s := u.setBank s.chip.bank) hw)
    rw [toNat_add_two ha] at he
    exact writeLong_refused (hlong.trans (writeWordAt_error_of_setBank (by omega) he))

end Sys2Proof.Machine
end

section
/-! PROOFS. The MMU agent's completions (spec/41_allocator.md R191, R193, R194), and what the buffers hold when one has been
given back or handed out (spec/10_state.md R42). -/

namespace Sys2Proof.Machine

variable {s t : State} {c : Chip} {p q : Pkt} {rest : List Pkt} {o n k : Nat}

/-! ## Buffers given back and handed out -/

/-- A buffer reads as before when it keeps its entry and another one's bytes are forgotten. -/
theorem packetByte_of_forget (ht : findEntry t.chip.table q = findEntry s.chip.table q)
    (hm : t.chip.pktMem = s.chip.pktMem.forget (pktAddr p 0) bufferSpan) (hq : q ≠ p) (ho : o < bufferSpan) :
    t.packetByte q o = s.packetByte q o := by
  have hne : q.toNat ≠ p.toNat := fun h => hq (BitVec.eq_of_toNat_eq h)
  have hout : ¬ (pktAddr p 0 ≤ pktAddr q o ∧ pktAddr q o < pktAddr p 0 + bufferSpan) := by
    unfold pktAddr bufferSpan at *
    omega
  rw [State.packetByte, State.packetByte, ht]
  refine Option.map_congr fun e he => ?_
  rw [Chip.bufByte, Chip.bufByte, hm, (findEntry_some he).2, Memory.read_forget, if_neg hout]

/-- One buffer is free, every other one reads as before. -/
theorem buffers_of_givenBack (ht : t.chip.table = s.chip.table.filter (fun e => e.pkt != p))
    (hm : t.chip.pktMem = s.chip.pktMem.forget (pktAddr p 0) bufferSpan) :
    (∀ q, t.chip.allocated q = (q != p && s.chip.allocated q)) ∧
      ∀ q o, q ≠ p → o < bufferSpan → t.packetByte q o = s.packetByte q o := by
  refine ⟨fun q => ?_, fun q o hq ho => packetByte_of_forget ?_ hm hq ho⟩
  · rw [← Chip.freePkt_allocated, Chip.allocated, ht]
    rfl
  · rw [ht, findEntry_filter, if_neg hq]

/-- One buffer is new, every other one reads as before. -/
theorem buffers_of_handedOut (ht : t.chip.table = insertEntry s.chip.table ⟨p, n, k⟩)
    (hm : t.chip.pktMem = s.chip.pktMem.forget (pktAddr p 0) bufferSpan) :
    (∃ e, findEntry t.chip.table p = some e ∧ e.pages = n) ∧
      (∀ q, q ≠ p → findEntry t.chip.table q = findEntry s.chip.table q) ∧
      ∀ q o, q ≠ p → o < bufferSpan → t.packetByte q o = s.packetByte q o := by
  have hf (q : Pkt) : findEntry t.chip.table q = if q = p then some ⟨p, n, k⟩ else findEntry s.chip.table q := by
    rw [ht, findEntry_insertEntry]
  have hother (q : Pkt) (hq : q ≠ p) : findEntry t.chip.table q = findEntry s.chip.table q := by rw [hf, if_neg hq]
  exact ⟨⟨_, (hf p).trans (if_pos rfl), rfl⟩, hother, fun q o hq ho => packetByte_of_forget (hother q hq) hm hq ho⟩

/-! ## Completions -/

theorem agentStep_mmuDone (hr : has s.chip.rcr (softRst s.params) = false) :
    agentStep .mmuDone s = s.setChip (mmuCompletion s.chip) := by
  simp [agentStep, Chip.inSoftReset, hr]

theorem mmuCompletion_release (hp : c.pending = some .release) (hf : c.rxFifo = p :: rest) :
    mmuCompletion c = { c.freePkt p with rxFifo := rest, pending := none } := by
  simp only [mmuCompletion, hp, hf]

theorem mmuCompletion_free (hp : c.pending = some (.free p)) :
    mmuCompletion c = { c.freePkt p with pending := none } := by
  simp only [mmuCompletion, hp]

theorem mmuCompletion_reset (hp : c.pending = some .reset) :
    mmuCompletion c = { c with
      table := [], pktMem := [], txFifo := [], rxFifo := [], inFlight := none, autoFree := [], failed := [],
      pending := none } := by
  simp only [mmuCompletion, hp]

/-- Settles O17: a release and a free give one buffer back, a reset leaves none. -/
theorem mmuAgentCompletesCommands : Obligations.MmuAgentCompletesCommands := by
  refine ⟨fun s p rest hr hp hf => ?_, fun s p hr hp => ?_, fun s hr hp => ?_⟩
  · rw [agentStep_mmuDone hr, mmuCompletion_release hp hf]
    exact ⟨rfl, rfl, buffers_of_givenBack rfl rfl⟩
  · rw [agentStep_mmuDone hr, mmuCompletion_free hp]
    exact ⟨rfl, rfl, buffers_of_givenBack rfl rfl⟩
  · rw [agentStep_mmuDone hr, mmuCompletion_reset hp]
    exact ⟨fun _ => rfl, rfl, rfl, rfl, rfl, rfl, rfl⟩

end Sys2Proof.Machine
end

section
/-! PROOFS. Commands at the write (spec/41_allocator.md R180, R186, R190 to R195): which the chip unit refuses (R372, R373, R380),
and what a taken one leaves. -/

namespace Sys2Proof.Machine

variable {s t : State} {c : Chip} {q : Config.Params} {k : MmuCode} {e : Refusal} {n p : Byte}

/-! ## What the chip unit refuses -/

theorem mmuGuard_of_busy (h : c.busy = true) (k : MmuCode) : mmuGuard k q c = some .mmuBusy := by
  simp [mmuGuard, h]

/-- Only another allocate replaces a pending one (R373). -/
theorem mmuGuard_of_allocPending (h : c.allocPending = true) (hk : ∀ n, k ≠ .alloc n) :
    mmuGuard k q c = some .mmuBusy := by
  cases k with
  | alloc n => exact absurd rfl (hk n)
  | _ => simp [mmuGuard, h]

/-- An MMU with no command to do refuses a command only for its packet (R380). -/
theorem busy_of_no_command (hp : c.pending = none) (ha : c.autoFree = []) : c.busy = false ∧ c.allocPending = false := by
  simp [Chip.busy, Chip.allocPending, hp, ha]

theorem mmuGuard_release_of_empty (hp : c.pending = none) (ha : c.autoFree = []) (hf : c.rxFifo = []) :
    mmuGuard .release q c = some .badPacket := by
  simp [mmuGuard, busy_of_no_command hp ha, hf]

theorem mmuGuard_of_badPacket (hp : c.pending = none) (ha : c.autoFree = [])
    (hb : c.allocated (c.pktSel q) = false ∨ c.queued (c.pktSel q) = true) (hk : k = .free ∨ k = .enqueue) :
    mmuGuard k q c = some .badPacket := by
  have hno : (c.allocated (c.pktSel q) && !c.queued (c.pktSel q)) = false := by
    rcases hb with hb | hb <;> simp [hb]
  rcases hk with rfl | rfl <;> simp [mmuGuard, busy_of_no_command hp ha, hno]

/-- An idle MMU takes the free of an allocated packet that is nowhere queued (R193). -/
theorem mmuGuard_free (hp : c.pending = none) (ha : c.autoFree = []) (hal : c.allocated (c.pktSel q) = true)
    (hq : c.queued (c.pktSel q) = false) : mmuGuard .free q c = none := by
  simp [mmuGuard, busy_of_no_command hp ha, hal, hq]

/-! ## FREE selects its packet (R185) -/

/-- PNR.PKT of the byte that FREE writes. -/
theorem pktSel_of_shiftLeft (q : Config.Params) (p : Byte) (c : Chip) :
    { c with pnr := p <<< q.bits.pkt.val }.pktSel q = p.setWidth 6 := by
  apply BitVec.eq_of_getLsbD_eq
  intro i hi
  have := q.bits.pkt.isLt
  have hlt : q.bits.pkt.val + i < 8 := by omega
  rw [Chip.pktSel, getLsbD_getField, BitVec.getLsbD_shiftLeft, BitVec.getLsbD_setWidth]
  simp only [hi, hlt, Nat.not_lt.2 (Nat.le_add_right ..), Nat.add_sub_cancel_left, decide_true, decide_false,
    Bool.not_false, Bool.true_and]

theorem freeSelect_leads (p : Byte) (hr : s.RestsFor 1) :
    s.Leads { s.chip with pnr := p <<< s.params.bits.pkt.val } s.eng 1
      (wr (.to 2) .pnr 1 (pnrByte p s) (s.begin (.free p))) := by
  have hw : setReg .pnr (pnrByte p s) (s.begin (.free p)) =
      (s.begin (.free p)).setChip { s.chip with pnr := p <<< s.params.bits.pkt.val } := by
    rw [setReg_pnr, pnrByte, lowByte_setWidth]
    rfl
  exact (leads_begin (.free p) s).keeps (wr_leads (.to 2) .pnr 1 hw hr) rfl

/-! ## Refused operations -/

theorem inPacketBank_refused (k : Out) (h : s.chip.bank ≠ s.params.regs.pb) :
    inPacketBank s k = .refused .wrongBank := if_neg h

section
variable (hh : s.hang = none) (hb : s.chip.bank = s.params.regs.pb)
include hh hb

theorem allocate_refused (hn : n.toNat < 8) (hg : mmuGuard (.alloc (n.setWidth 3)) s.params s.chip = some e) :
    exec (.allocate n) s = .refused e := by
  have hw : wrMmu (allocFirst s.params) (.alloc (n.setWidth 3)) (s.begin (.allocate n)) = .error e :=
    wrMmu_error.2 ⟨hh, hg⟩
  simp only [exec, execAllocate, hn, if_true, inPacketBank_of_bank _ hb, allocateSteps, State.begin_params, hw,
    andThen_error]

theorem release_refused (hg : mmuGuard .release s.params s.chip = some e) : exec .release s = .refused e := by
  have hw : wrMmu (.to 2) .release (s.begin .release) = .error e := wrMmu_error.2 ⟨hh, hg⟩
  simp only [exec, execRelease, inPacketBank_of_bank _ hb, hw, andThen_error]

theorem free_refused (hq : s.Quiet)
    (hg : mmuGuard .free s.params { s.chip with pnr := p <<< s.params.bits.pkt.val } = some e) :
    exec (.free p) s = .refused e := by
  have hs := freeSelect_leads p (restsFor_of_quiet hq 1)
  have hw : wrMmu (.to 3) .free (wr (.to 2) .pnr 1 (pnrByte p s) (s.begin (.free p))) = .error e :=
    wrMmu_error.2 ⟨hs.hang.trans hh, by rw [hs.params, hs.chip]; exact hg⟩
  simp only [exec, execFree, inPacketBank_of_bank _ hb, hw, andThen_error]

end

/-- Settles O36: every row and every operation asks `mmuGuard` before it writes a command. -/
theorem untakenCommandsAreRefused : Obligations.UntakenCommandsAreRefused := by
  refine ⟨fun s n p k hb hn => ?_, fun s n p k hh hb hbusy hn => ?_, fun s p k hh hb ha hk => ?_,
    fun s hh hb hp ha hf => ?_, fun s hh hb hp ha hbad => ?_, fun s p hh hb hp ha hq hbad => ?_⟩
  · refine ⟨(if_pos hn).trans (inPacketBank_refused _ hb), inPacketBank_refused _ hb, inPacketBank_refused _ hb,
      inPacketBank_refused _ hb, ?_⟩
    rw [exec_toInstr]
    exact inPacketBank_refused _ hb
  · exact ⟨exec_toInstr_refused hb hh (mmuGuard_of_busy hbusy k), allocate_refused hh hb hn (mmuGuard_of_busy hbusy _),
      release_refused hh hb (mmuGuard_of_busy hbusy _), fun hq => free_refused hh hb hq (mmuGuard_of_busy (by exact hbusy) _)⟩
  · exact ⟨exec_toInstr_refused hb hh (mmuGuard_of_allocPending ha hk),
      release_refused hh hb (mmuGuard_of_allocPending ha (by simp)),
      fun hq => free_refused hh hb hq (mmuGuard_of_allocPending (by exact ha) (by simp))⟩
  · have hg := mmuGuard_release_of_empty (q := s.params) hp ha hf
    exact ⟨exec_toInstr_refused (k := .release) hb hh hg, release_refused hh hb hg⟩
  · exact ⟨exec_toInstr_refused (k := .free) hb hh (mmuGuard_of_badPacket hp ha hbad (.inl rfl)),
      exec_toInstr_refused (k := .enqueue) hb hh (mmuGuard_of_badPacket hp ha hbad (.inr rfl))⟩
  · refine free_refused hh hb hq (mmuGuard_of_badPacket hp ha ?_ (.inl rfl))
    rw [pktSel_of_shiftLeft]
    exact hbad

/-! ## Taken commands -/

/-- The part of the engine's own state that no end of an operation and no wait is seen in. -/
def Engine.beside (e : Engine) : Engine := { e with pos := .idle, point := [], pkt := none, result := none }

theorem Engine.eq_of_beside {e f : Engine} (h : f.beside = e.beside) :
    f = { e with pos := f.pos, point := f.point, pkt := f.pkt, result := f.result } := by
  cases e
  cases f
  simpa [Engine.beside] using h

/-- A part that has led on in the chip unit alone. -/
theorem State.Leads.onlyChip {d : Chip} {j : Nat} {f : Engine} (g : s.Leads d f j t) (hf : f.beside = s.eng.beside) :
    s.OnlyChip t where
  params := g.params
  phy := g.phy
  hostMem := fun x => congrArg (·.read x) g.hostMem
  inbox := g.inbox
  irq := g.irq
  eng := Engine.eq_of_beside ((congrArg Engine.beside g.eng).trans hf)
  sent := g.sent
  hang := g.hang

theorem State.OnlyChip.trans {u : State} (h : s.OnlyChip u) (g : u.OnlyChip t) : s.OnlyChip t where
  params := g.params.trans h.params
  phy := g.phy.trans h.phy
  hostMem := fun x => (g.hostMem x).trans (h.hostMem x)
  inbox := g.inbox.trans h.inbox
  irq := by rw [g.irq, h.irq]
  eng := by rw [g.eng, h.eng]
  sent := g.sent.trans h.sent
  hang := g.hang.trans h.hang

theorem State.OnlyChip.finish (h : s.OnlyChip t) (a : Condition) (v : Int) : s.OnlyChip (t.finish a v) :=
  { h with eng := Engine.eq_of_beside (f := (t.finish a v).eng) (congrArg Engine.beside h.eng :) }

/-- The premises of R190 to R195 make the guard pass, and the effect is the one they name. -/
theorem taken_of_premises {d : Chip} (hb : c.busy = false)
    (h : (∃ n, k = .alloc n ∧
        d = { c with intStatus := c.intStatus &&& ~~~intAlloc q, pending := some (.alloc n), arrSeen := false }) ∨
      (c.allocPending = false ∧
        ((k = .release ∧ c.rxFifo ≠ [] ∧ d = { c with pending := some .release }) ∨
        (k = .reset ∧ d = { c with pending := some .reset }) ∨
        (k = .free ∧ c.allocated (c.pktSel q) = true ∧ c.queued (c.pktSel q) = false ∧
          d = { c with pending := some (.free (c.pktSel q)) }) ∨
        (k = .enqueue ∧ c.allocated (c.pktSel q) = true ∧ c.queued (c.pktSel q) = false ∧
          d = { c with txFifo := c.txFifo ++ [c.pktSel q] })))) :
    mmuGuard k q c = none ∧ d = mmuEffect k q c := by
  rcases h with ⟨n, rfl, rfl⟩ | ⟨ha, ⟨rfl, hf, rfl⟩ | ⟨rfl, rfl⟩ | ⟨rfl, hal, hq, rfl⟩ | ⟨rfl, hal, hq, rfl⟩⟩ <;>
    refine ⟨?_, rfl⟩
  · simp [mmuGuard, hb]
  · simp [mmuGuard, hb, ha, hf]
  · simp [mmuGuard, hb, ha]
  · simp [mmuGuard, hb, ha, hal, hq]
  · simp [mmuGuard, hb, ha, hal, hq]

/-- Settles O37: the row is the taken command, its gap and the end of the operation. -/
theorem mmuCommandsTakeEffect : Obligations.MmuCommandsTakeEffect := by
  intro s k c hb hbusy h
  obtain ⟨hg, rfl⟩ := taken_of_premises hbusy h
  refine ⟨_, exec_toInstr_of_guard hb hg, ⟨rfl, rfl⟩, rfl, fun hq => ?_⟩
  have hs := State.Leads.access ((leads_begin k.toInstr s).trans (leads_mmuTake k _) rfl)
    (.write .mmuCmd 2 ((encodeMmuCode s.params.codes k).setWidth 32)) .ret (restsFor_of_quiet hq 1)
  obtain ⟨htable, hmem⟩ := mmuEffect_packets k s.params s.chip
  exact ⟨hs.chip, (hs.onlyChip rfl).finish _ _,
    samePackets_of_chip ((congrArg Chip.table hs.chip).trans htable) ((congrArg Chip.pktMem hs.chip).trans hmem)⟩

end Sys2Proof.Machine
end

section
/-! PROOFS. A command that the MMU agent answers in the gap behind it, or does not answer (spec/41_allocator.md R181, R182, R184,
R185, R191, R193, R196, spec/70_reset_and_hazards.md R379). -/

namespace Sys2Proof.Machine

variable {s t u : State} {c : Chip} {q : Config.Params} {k : MmuCode} {p : Pkt} {e : AgentEvent} {i : Instr}
  {n : BitVec 3} {a j dt : Nat} {l rest : List Gap} {events : List Event}

/-! ## The gap behind a command -/

/-- `s` when `dt` has passed, with another tape. -/
def State.later (dt : Nat) (l : List Gap) (s : State) : State :=
  { s with env := { s.env with tape := l, now := s.env.now + dt } }

/-- How long the gap behind a command takes is seen in nothing but the clock. -/
theorem wrMmu_later (nx : Next) (hg : mmuGuard k s.params s.chip = none) (ht : s.env.tape = ⟨dt, events⟩ :: rest) :
    wrMmu nx k s = wrMmu nx k (s.later dt (⟨0, events⟩ :: rest)) := by
  rw [wrMmu_of_guard hg, wrMmu_of_guard (s := s.later _ _) hg, mmuIssue, mmuIssue, gap_cons (by exact ht), gap_cons rfl]
  rfl

theorem allocateSteps_later (hg : mmuGuard (.alloc n) s.params s.chip = none)
    (ht : s.env.tape = ⟨dt, events⟩ :: rest) :
    allocateSteps n s = allocateSteps n (s.later dt (⟨0, events⟩ :: rest)) := by
  unfold allocateSteps
  rw [wrMmu_later _ hg ht]
  rfl

/-- Neither the start of an operation nor the time is any part of what is said of an operation's end. -/
theorem State.OnlyChip.of_begin_later (h : ((s.begin i).later dt l).OnlyChip t) : s.OnlyChip t := { h with }

/-- A command, and one agent's step in the gap behind it. -/
theorem wrMmu_agentGap (nx : Next) (hg : mmuGuard k s.params s.chip = none) (ht : s.env.tape = agentGap e ++ rest) :
    ∃ u, wrMmu nx k s = .ok (agentStep e u) ∧
      s.Leads (mmuEffect k s.params s.chip) { s.eng with pkt := handleAfter k s.eng.pkt } 1 u ∧
      u.env.trace = .write .mmuCmd 2 ((encodeMmuCode s.params.codes k).setWidth 32) :: s.env.trace := by
  refine ⟨_, (wrMmu_of_guard hg).trans (congrArg Except.ok (gap_agentGap (by exact ht))), ?_, rfl⟩
  exact ⟨rfl, rfl, by rw [ht]; rfl, rfl, rfl, rfl, rfl, rfl, rfl, rfl, rfl⟩

/-- With the agents at rest it does not matter how many gaps are counted. -/
theorem State.Leads.of_quiet {f : Engine} (h : s.Leads c f j t) (hq : s.Quiet) : s.Leads c f 0 t :=
  { h with tape := by rw [h.tape, show s.env.tape = [] from hq]; simp }

theorem State.Leads.quiet {f : Engine} (h : s.Leads c f j t) (hq : s.Quiet) : t.Quiet := (h.of_quiet hq).tape.trans hq

/-! ## The busy wait at its end -/

/-- BUSY = 0 ends the operation at the first poll (R183). -/
theorem waitPoll_finishes (pos : SeqPos) (hb : s.chip.busy = false) (hr : s.RestsFor 1) :
    ∃ t, waitPoll pos finishOk s = .next (t.finish .ok 0) ∧ s.Leads s.chip s.eng 1 t :=
  ⟨_, waitPoll_of_idle pos finishOk hb, (rd_leads (.to 1 2) .mmuCmd 2 hr).keeps (leads_advance .ret _) rfl |>.congr
    (rd_leads (.to 1 2) .mmuCmd 2 hr).chip rfl⟩

theorem waitIdle_finishes (back : Next) (pos : SeqPos) (hb : s.chip.busy = false) (hr : s.RestsFor 1) :
    ∃ t, waitIdle back pos finishOk s = .next (t.finish .ok 0) ∧ s.Leads s.chip s.eng 1 t := by
  obtain ⟨t, ht, hs⟩ := waitPoll_finishes (s := s.call .waitMmuIdle back) pos hb hr
  exact ⟨t, ht, (leads_call .waitMmuIdle back s).keeps (hs.congr rfl rfl) rfl⟩

/-! ## RELEASE and FREE (R184, R185) -/

@[simp] theorem mmuEffect_rcr (k : MmuCode) (q : Config.Params) (c : Chip) : (mmuEffect k q c).rcr = c.rcr := by
  cases k <;> rfl

/-- A command that the agent completes in the gap behind it ends its operation at the first poll. -/
theorem wrMmu_completed (nx back : Next) (pos : SeqPos) (hg : mmuGuard k s.params s.chip = none)
    (hr : has s.chip.rcr (softRst s.params) = false) (ht : s.env.tape = agentGap .mmuDone)
    (hc : mmuCompletion (mmuEffect k s.params s.chip) = c) (hb : c.busy = false) :
    ∃ u t, wrMmu nx k s = .ok u ∧ waitIdle back pos finishOk u = .next (t.finish .ok 0) ∧
      s.Leads c { s.eng with pkt := handleAfter k s.eng.pkt } 2 t := by
  obtain ⟨v, hw, hv, -⟩ := wrMmu_agentGap (e := .mmuDone) (rest := []) nx hg ht
  rw [agentStep_mmuDone (by rw [hv.chip, hv.params, mmuEffect_rcr]; exact hr), hv.chip, hc] at hw
  have hd := hv.keeps (leads_setChip c v) rfl
  have hq : (v.setChip c).Quiet := by rw [State.Quiet, hd.tape, ht]; rfl
  obtain ⟨t, hx, htl⟩ := waitIdle_finishes (s := v.setChip c) back pos hb (restsFor_of_quiet hq 1)
  exact ⟨_, t, hw, hx, hd.keeps htl rfl⟩

/-- The chip unit behind a completed release of `p`, and behind a completed free of it that PNR selects. -/
def Chip.released (p : Pkt) (ps : List Pkt) (c : Chip) : Chip := { c.freePkt p with rxFifo := ps, pending := none }

def Chip.freed (sel : Byte) (p : Pkt) (c : Chip) : Chip := { c.freePkt p with pnr := sel, pending := none }

/-- RELEASE where the agent completes it at once: the head of the receive FIFO is given back. -/
theorem release_completed {ps : List Pkt} (hb : s.chip.bank = s.params.regs.pb) (hp : s.chip.pending = none)
    (ha : s.chip.autoFree = []) (hr : has s.chip.rcr (softRst s.params) = false) (hf : s.chip.rxFifo = p :: ps)
    (ht : s.env.tape = [⟨dt, [.agent .mmuDone]⟩]) :
    ∃ t, exec .release s = .next (t.finish .ok 0) ∧ t.chip = s.chip.released p ps ∧ s.OnlyChip t := by
  have hg : mmuGuard .release s.params s.chip = none := by simp [mmuGuard, busy_of_no_command hp ha, hf]
  obtain ⟨u, t, hw, hx, hs⟩ := wrMmu_completed (s := (s.begin .release).later dt (agentGap .mmuDone)) (k := .release)
    (c := s.chip.released p ps) (.to 2) (.to 3) .releaseWait hg hr rfl
    (mmuCompletion_release (c := { s.chip with pending := some .release }) rfl hf)
    (busy_of_no_command (c := s.chip.released p ps) rfl ha).1
  refine ⟨t, ?_, hs.chip, .of_begin_later (hs.onlyChip rfl)⟩
  have hw' := (wrMmu_later (s := s.begin .release) (.to 2) hg ht).trans hw
  simp only [exec, execRelease, inPacketBank_of_bank _ hb, hw', andThen_ok, hx]

/-- FREE where the agent completes it at once: the packet it names is given back, and stays in PNR. -/
theorem free_completed {b : Byte} (hb : s.chip.bank = s.params.regs.pb) (hp : s.chip.pending = none)
    (ha : s.chip.autoFree = []) (hr : has s.chip.rcr (softRst s.params) = false)
    (hal : s.chip.allocated (b.setWidth 6) = true) (hq : s.chip.queued (b.setWidth 6) = false)
    (ht : s.env.tape = quietGaps 1 ++ agentGap .mmuDone) :
    ∃ t, exec (.free b) s = .next (t.finish .ok 0) ∧
      t.chip = s.chip.freed (b <<< s.params.bits.pkt.val) (b.setWidth 6) ∧ s.OnlyChip t := by
  have hs := freeSelect_leads b (restsFor_of_quietGaps ht)
  generalize hy : wr (.to 2) .pnr 1 (pnrByte b s) (s.begin (.free b)) = y at hs
  have hsel : y.chip.pktSel y.params = b.setWidth 6 := by rw [hs.chip, hs.params, pktSel_of_shiftLeft]
  have hg : mmuGuard .free y.params y.chip = none := by
    refine mmuGuard_free ?_ ?_ ?_ ?_
    · rw [hs.chip]; exact hp
    · rw [hs.chip]; exact ha
    · rw [hsel, hs.chip]; exact hal
    · rw [hsel, hs.chip]; exact hq
  obtain ⟨u, t, hw, hx, hu⟩ := wrMmu_completed (c := s.chip.freed (b <<< s.params.bits.pkt.val) (b.setWidth 6)) (.to 3)
    (.to 4) .freeWait hg (by rw [hs.chip, hs.params]; exact hr) (by rw [hs.tape, ht]; rfl)
    (by rw [mmuEffect, hsel, hs.chip]; exact mmuCompletion_free rfl)
    (busy_of_no_command (c := s.chip.freed _ _) rfl ha).1
  refine ⟨t, ?_, hu.chip, (hs.trans hu rfl).onlyChip (congrArg Engine.beside hs.eng :)⟩
  simp only [exec, execFree, inPacketBank_of_bank _ hb, hy, hw, andThen_ok, hx]

/-- Settles O40: both complete at once, and one buffer has been given back. -/
theorem releaseAndFreeGiveBack : Obligations.ReleaseAndFreeGiveBack := by
  refine ⟨fun s p ps dt hb hp ha hr hf ht => ?_, fun s b hb hp ha hr hal hq ht => ?_⟩
  · obtain ⟨t, hx, hc, ho⟩ := release_completed hb hp ha hr hf ht
    obtain ⟨hbuf, hbytes⟩ := buffers_of_givenBack (s := s) (t := t.finish .ok 0) (p := p)
      (congrArg Chip.table hc) (congrArg Chip.pktMem hc)
    refine ⟨_, hx, ⟨rfl, rfl⟩, congrArg Chip.rxFifo hc, hbuf, hbytes, ?_, ho.finish _ _⟩
    rw [State.finish_chip, hc, Chip.released, ← hp]
    rfl
  · obtain ⟨t, hx, hc, ho⟩ := free_completed hb hp ha hr hal hq ht
    obtain ⟨hbuf, hbytes⟩ := buffers_of_givenBack (s := s) (t := t.finish .ok 0) (p := b.setWidth 6)
      (congrArg Chip.table hc) (congrArg Chip.pktMem hc)
    refine ⟨_, hx, ⟨rfl, rfl⟩, hbuf, hbytes, ?_, ?_, ho.finish _ _⟩
    · rw [State.finish_chip, hc]
      exact pktSel_of_shiftLeft s.params b (s.chip.freed (b <<< s.params.bits.pkt.val) (b.setWidth 6))
    · rw [State.finish_chip, hc, Chip.freed, ← hp]
      rfl

end Sys2Proof.Machine
end

section
/-! PROOFS. ALLOCATE (spec/41_allocator.md R181, R182, R196, spec/70_reset_and_hazards.md R379): the agent's three answers and
none, and what each makes of the operation. -/

namespace Sys2Proof.Machine

variable {s t u : State} {c : Chip} {q : Config.Params} {p : Pkt} {n : BitVec 3} {b arr : Byte} {x : Entry} {dt : Nat}
  {rest : List Gap}

/-! ## The operation and its steps -/

/-- What ALLOCATE hands back for the outcome of its steps (R181, R320). -/
def allocateResult : Except AllocCause Pkt → Condition × Int
  | .ok p => (.ok, p.toNat)
  | .error .exhausted => (.allocationExhausted, 0)
  | .error (.failed arr) => (.allocationFailed arr, 0)

theorem allocate_of_steps {r : Except AllocCause Pkt} (hn : b.toNat < 8) (hb : s.chip.bank = s.params.regs.pb)
    (h : allocateSteps (b.setWidth 3) (s.begin (.allocate b)) = .ok (r, t)) :
    exec (.allocate b) s = .next (t.finish (allocateResult r).1 (allocateResult r).2) := by
  simp only [exec, execAllocate, hn, if_true, inPacketBank_of_bank _ hb, h, andThen_ok]
  rcases r with (_ | _) | _ <;> rfl

theorem toNat_pages (hn : b.toNat < 8) : (b.setWidth 3).toNat = b.toNat := by
  simp
  omega

theorem mmuGuard_alloc (hb : c.busy = false) : mmuGuard (.alloc n) q c = none := by simp [mmuGuard, hb]

/-! ## The agent's answers (R196) -/

/-- The chip unit behind a failure (R196 b). -/
def Chip.denied (q : Config.Params) (arr : Byte) (c : Chip) : Chip :=
  { c with arr := arr, intStatus := c.intStatus ||| intAlloc q, pending := none }

/-- The chip unit behind a success that INT_STATUS does not show (R196 d). -/
def Chip.answeredSilently (x : Entry) (arr : Byte) (c : Chip) : Chip :=
  { c with
    table := insertEntry c.table x
    pktMem := c.pktMem.forget (pktAddr x.pkt 0) bufferSpan
    arr := arr
    pending := none }

theorem allocFail_leads (hpend : s.chip.pending = some (.alloc n)) (hr : s.chip.inSoftReset s.params = false) :
    ∃ r d, s.Leads (s.chip.denied s.params (arrValue s.params true r d)) s.eng 0 (agentStep .allocFail s) := by
  refine ⟨(Config.freeByte s.env.draw).setWidth 6, Config.freeByte (s.env.draw + 1), ?_⟩
  simp only [agentStep, hr, allocFailure, hpend]
  exact (leads_setChip _ s).trans (leads_bump 2 _) rfl

theorem allocSilent_leads (hpend : s.chip.pending = some (.alloc n)) (hr : s.chip.inSoftReset s.params = false)
    (hroom : roomFor p (n.toNat + 1) s = true) :
    ∃ seed a, s.Leads (s.chip.answeredSilently ⟨p, n.toNat + 1, seed⟩ a) s.eng 0 (agentStep (.allocSilent p) s) := by
  refine ⟨s.env.draw, arrValue s.params false p (Config.freeByte s.env.draw), ?_⟩
  simp only [agentStep, hr, allocSuccess, hpend, hroom, if_true]
  exact (leads_setChip _ s).trans (leads_bump 1 _) rfl

theorem without_or_self {w : Nat} (v m : BitVec w) : without v m ||| m = v ||| m := by
  apply BitVec.eq_of_getLsbD_eq
  intro i _
  rw [BitVec.getLsbD_or, BitVec.getLsbD_or, getLsbD_without]
  cases v.getLsbD i <;> cases m.getLsbD i <;> rfl

/-! ## An answer that INT_STATUS shows -/

/-- The command, one poll, and the steps behind it (R181 steps 6 to 9). -/
theorem allocateSteps_of_alloc (h : wrMmu (allocFirst s.params) (.alloc n) s = .ok u)
    (ha : has u.chip.intStatus (intAlloc u.params) = true) (hatt : 1 ≤ u.params.allocAttempts)
    (hspin : 1 ≤ u.params.allocSpin) (hr : u.RestsFor 1) :
    ∃ v, allocateSteps n s = .ok ((readResult v).1, (readResult v).2.advance .ret) ∧
      u.Leads { u.chip with arrSeen := true } u.eng 1 v := by
  obtain ⟨k, hk⟩ := Nat.exists_eq_add_of_le' hatt
  obtain ⟨j, hj⟩ := Nat.exists_eq_add_of_le' hspin
  obtain ⟨v, hv, huv⟩ := attemptAlloc_of_alloc j k 1 ha hr
  exact ⟨v, by simp only [allocateSteps, h, hk, hj, hv, if_true], huv⟩

/-- A failure is read from ARR and nothing else is done (R182). -/
theorem readResult_of_failed (hs : s.chip.arrSeen = true) (hf : has s.chip.arr (failedBit s.params) = true)
    (hr : s.RestsFor 1) :
    ∃ t, readResult s = (.error (.failed s.chip.arr), t) ∧ s.Leads s.chip s.eng 1 t := by
  have harr : readReg .arr s = (s.chip.arr.setWidth 16, s) := by simp [readReg, hs]
  simp only [readResult, harr, lowByte_setWidth, hf, if_true]
  exact ⟨_, rfl, State.Leads.access (leads_bump 0 s) _ _ hr⟩

/-- ALLOCATE whose command fails at once. -/
theorem allocateSteps_denied (hb : s.chip.busy = false) (hr : has s.chip.rcr (softRst s.params) = false)
    (hatt : 1 ≤ s.params.allocAttempts) (hspin : 1 ≤ s.params.allocSpin) (ht : s.env.tape = agentGap .allocFail) :
    ∃ t r d, allocateSteps n s = .ok (.error (.failed (arrValue s.params true r d)), t) ∧
      s.Leads { (mmuEffect (.alloc n) s.params s.chip).denied s.params (arrValue s.params true r d) with arrSeen := true }
        s.eng 3 t := by
  obtain ⟨u, hw, hu, -⟩ := wrMmu_agentGap (k := .alloc n) (rest := []) (allocFirst s.params) (mmuGuard_alloc hb) ht
  obtain ⟨r, d, hf⟩ := allocFail_leads (s := u) (n := n) (by rw [hu.chip]; rfl) (by rw [hu.chip, hu.params]; exact hr)
  have hs := hu.keeps hf rfl
  have hq : (agentStep .allocFail u).Quiet := by rw [State.Quiet, hs.tape, ht]; rfl
  have ha : has (agentStep .allocFail u).chip.intStatus (intAlloc (agentStep .allocFail u).params) = true := by
    rw [hs.chip, hs.params, hu.chip, hu.params]
    simp [Chip.denied, intAlloc, has_bit]
  obtain ⟨v, hx, hv⟩ := allocateSteps_of_alloc hw ha (by rwa [hs.params]) (by rwa [hs.params]) (restsFor_of_quiet hq 1)
  have hsv := hs.keeps hv rfl
  obtain ⟨w, hread, hw'⟩ := readResult_of_failed (s := v) (by rw [hsv.chip])
    (by rw [hsv.chip, hsv.params, hs.chip, hu.params]; exact has_arrValue ..) (restsFor_of_quiet (hv.quiet hq) 1)
  have harr : v.chip.arr = arrValue s.params true r d := by rw [hsv.chip, hs.chip, hu.params]; rfl
  have hlast := hsv.keeps (hw'.keeps (leads_advance .ret w) rfl) rfl
  rw [hread, harr] at hx
  refine ⟨w.advance .ret, r, d, hx, hlast.congr ?_ rfl⟩
  rw [hw'.chip, hsv.chip, hs.chip, hu.chip, hu.params]

/-! ## No answer that INT_STATUS shows (R379) -/

/-- Without ALLOC every attempt makes all its reads and changes nothing (R181 steps 2 to 5). -/
theorem spinAlloc_leads (a k : Nat) : ∀ (j : Nat) (s : State), s.Quiet →
    has s.chip.intStatus (intAlloc s.params) = false → s.Leads s.chip s.eng 0 (spinAlloc a k j s).2 := by
  induction k with
  | zero => exact fun j s _ _ => leads_bump 0 s
  | succ k ih =>
    intro j s hq ha
    have hread := (rd_leads (.to 5 1 (.spin a j)) .intStatus 1 (restsFor_of_quiet hq 1)).of_quiet hq |>.congr
      (d := s.chip) (by simp [readReg, readIntStatus, ha]) rfl
    have hnext := ih (j + 1) _ (hread.quiet hq) (by rw [hread.chip, hread.params]; exact ha)
    simp only [spinAlloc, rd_fst, readReg_intStatus, ha, Bool.false_eq_true, if_false]
    exact (hread.keeps hnext rfl).congr hread.chip rfl

/-- A poll of INT_STATUS as the trace shows it. -/
def pollOf (c : Chip) : Access := .read .intStatus 1 (c.intStatus.setWidth 32)

theorem attemptAlloc_quiet (spin k : Nat) : ∀ (a : Nat) (s : State), s.Quiet →
    has s.chip.intStatus (intAlloc s.params) = false →
    (attemptAlloc spin k a s).1 = false ∧ s.Leads s.chip s.eng 0 (attemptAlloc spin k a s).2 ∧
      (attemptAlloc spin k a s).2.env.trace = List.replicate (k * spin) (pollOf s.chip) ++ s.env.trace := by
  induction k with
  | zero => exact fun a s _ _ => ⟨rfl, leads_bump 0 s, by simp [attemptAlloc]⟩
  | succ k ih =>
    intro a s hq ha
    obtain ⟨hmiss, hq', -, -, -, -, -, -, -, htrace⟩ := spinAlloc_quiet a spin 1 s hq ha
    have hspin := spinAlloc_leads a spin 1 s hq ha
    obtain ⟨hmiss', hnext, htrace'⟩ := ih (a + 1) (spinAlloc a spin 1 s).2 hq' (by rw [hspin.chip, hspin.params]; exact ha)
    have he : attemptAlloc spin (k + 1) a s = attemptAlloc spin k (a + 1) (spinAlloc a spin 1 s).2 := by
      simp only [attemptAlloc, hmiss, Bool.false_eq_true, if_false]
    rw [he]
    refine ⟨hmiss', (hspin.keeps hnext rfl).congr hspin.chip rfl, ?_⟩
    rw [htrace', htrace, hspin.chip, Nat.add_one_mul, List.replicate_add, List.append_assoc]
    rfl

theorem allocateSteps_exhausted (h : wrMmu (allocFirst s.params) (.alloc n) s = .ok u) (hq : u.Quiet)
    (ha : has u.chip.intStatus (intAlloc u.params) = false) :
    ∃ t, allocateSteps n s = .ok (.error .exhausted, t) ∧ u.Leads u.chip u.eng 0 t ∧
      t.env.trace = List.replicate (u.params.allocAttempts * u.params.allocSpin) (pollOf u.chip) ++ u.env.trace := by
  obtain ⟨hmiss, hs, htrace⟩ := attemptAlloc_quiet u.params.allocSpin u.params.allocAttempts 1 u hq ha
  refine ⟨(attemptAlloc u.params.allocSpin u.params.allocAttempts 1 u).2.advance .ret, ?_,
    (hs.keeps (leads_advance .ret _) rfl).congr hs.chip rfl, htrace⟩
  simp only [allocateSteps, h, hmiss, Bool.false_eq_true, if_false]

/-- The command, and the agent's silent success in the gap behind it. -/
theorem wrMmu_alloc_silent (nx : Next) (hb : s.chip.busy = false) (hr : has s.chip.rcr (softRst s.params) = false)
    (hp : s.chip.allocated p = false) (hroom : usedPages s.chip.table + (n.toNat + 1) ≤ s.params.totalPages)
    (ht : s.env.tape = agentGap (.allocSilent p)) :
    ∃ u seed a, wrMmu nx (.alloc n) s = .ok u ∧
      s.Leads ((mmuEffect (.alloc n) s.params s.chip).answeredSilently ⟨p, n.toNat + 1, seed⟩ a) s.eng 1 u ∧
      u.env.trace = .write .mmuCmd 2 ((encodeMmuCode s.params.codes (.alloc n)).setWidth 32) :: s.env.trace := by
  obtain ⟨u, hw, hu, htrace⟩ := wrMmu_agentGap (k := .alloc n) (rest := []) nx (mmuGuard_alloc hb) ht
  have hfree : roomFor p (n.toNat + 1) u = true := by
    simp only [roomFor, hu.chip, hu.params, Bool.and_eq_true, Bool.not_eq_true', decide_eq_true_eq]
    exact ⟨hp, hroom⟩
  obtain ⟨seed, a, hs⟩ := allocSilent_leads (by rw [hu.chip]; rfl) (by rw [hu.chip, hu.params]; exact hr) hfree
  exact ⟨_, seed, a, hw, (hu.keeps hs rfl).congr (by rw [hu.chip]) rfl, (agentStep_kept _ u).trace.trans htrace⟩

/-- The accesses of an ALLOCATE that is not answered. -/
def pollsBehind (k : Nat) (c : Chip) (w : Long) : List Access := List.replicate k (pollOf c) ++ [.write .mmuCmd 2 w]

theorem countP_pollsBehind (k : Nat) (c : Chip) (w : Long) :
    (pollsBehind k c w).countP (isReadOf .intStatus) = k ∧ (pollsBehind k c w).countP (isReadOf .arr) = 0 := by
  simp [pollsBehind, pollOf, List.countP_replicate, isReadOf]

/-- ALLOCATE behind whose command the machine is at rest and does not show ALLOC. -/
theorem allocate_exhausted {w : Long} (hn : b.toNat < 8) (hb : s.chip.bank = s.params.regs.pb)
    (h : wrMmu (allocFirst s.params) (.alloc (b.setWidth 3)) (s.begin (.allocate b)) = .ok u) (hq : u.Quiet)
    (ha : has u.chip.intStatus (intAlloc u.params) = false) (hp : u.params = s.params)
    (htrace : u.env.trace = .write .mmuCmd 2 w :: s.env.trace) :
    ∃ t new, exec (.allocate b) s = .next t ∧ t.Ended .allocationExhausted 0 ∧ t.env.trace = new ++ s.env.trace ∧
      new.countP (isReadOf .intStatus) = s.params.allocAttempts * s.params.allocSpin ∧
      new.countP (isReadOf .arr) = 0 ∧ t.chip = u.chip ∧ (s.OnlyChip u → s.OnlyChip t) := by
  obtain ⟨t, hx, hs, ht⟩ := allocateSteps_exhausted (s := s.begin (.allocate b)) h hq ha
  obtain ⟨hpolls, harr⟩ := countP_pollsBehind (u.params.allocAttempts * u.params.allocSpin) u.chip w
  refine ⟨_, _, allocate_of_steps hn hb hx, ⟨rfl, rfl⟩, ?_, hpolls.trans (by rw [hp]), harr, hs.chip, fun ho => ?_⟩
  · show t.env.trace = _
    rw [ht, htrace, pollsBehind, List.append_assoc]
    rfl
  · exact (ho.trans (hs.onlyChip rfl)).finish _ _

/-! ## The obligations -/

/-- Settles O38: the agent's success is read from ARR (`allocateSteps_granted`). -/
theorem allocateReturnsThePacket : Obligations.AllocateReturnsThePacket := by
  intro s b p dt hbits hn hb hbusy hr hp hroom hatt hspin ht
  obtain ⟨t, seed, d, hx, hs⟩ := allocateSteps_granted (s := (s.begin (.allocate b)).later dt (agentGap (.allocOk p)))
    (n := b.setWidth 3) (p := p) (rest := []) hbits hbusy hr hp (by rw [toNat_pages hn]; exact hroom) hatt hspin rfl
    (by simp)
  rw [toNat_pages hn] at hs
  have hx' := (allocateSteps_later (s := s.begin (.allocate b)) (mmuGuard_alloc hbusy) ht).trans hx
  obtain ⟨hentry, hother, hbytes⟩ := buffers_of_handedOut (s := s) (t := t.finish .ok p.toNat) (p := p)
    (congrArg Chip.table hs.chip) (congrArg Chip.pktMem hs.chip)
  have harr : t.chip.arr = arrValue s.params false p d := congrArg Chip.arr hs.chip
  refine ⟨_, allocate_of_steps hn hb hx', ⟨rfl, rfl⟩, hentry, hother, hbytes, ?_, ?_, ?_,
    (State.OnlyChip.of_begin_later (hs.onlyChip rfl)).finish _ _⟩
  · exact (congrArg (has · _) harr).trans (has_arrValue ..)
  · exact (congrArg (apktOf s.params) harr).trans (apktOf_arrValue _ _ _ _ hbits.2.2.2.2.2.1)
  · rw [State.finish_chip, hs.chip, ← without_or_self]
    rfl

/-- Settles O39: no answer and a silent success end the polling alike (`allocate_exhausted`), a failure is read from ARR. -/
theorem allocateFailures : Obligations.AllocateFailures := by
  refine ⟨fun s b hn hb hbusy hq => ?_, fun s b dt hn hb hbusy hr hatt hspin ht => ?_,
    fun s b p dt hn hb hbusy hr hp hroom ht => ?_⟩
  · have hg : mmuGuard (.alloc (b.setWidth 3)) s.params s.chip = none := mmuGuard_alloc hbusy
    have hw := wrMmu_quiet (s := s.begin (.allocate b)) (n := allocFirst s.params) hg hq
    obtain ⟨t, new, hx, hend, htrace, hpolls, harr, hc, ho⟩ := allocate_exhausted hn hb hw hq (has_without_self _ _) rfl rfl
    exact ⟨t, new, hx, hend, htrace, hpolls, harr, hc, ho ⟨rfl, rfl, fun _ => rfl, rfl, rfl, rfl, rfl, rfl⟩,
      samePackets_of_chip (by rw [hc]; rfl) (by rw [hc]; rfl)⟩
  · obtain ⟨t, r, d, hx, hs⟩ := allocateSteps_denied (s := (s.begin (.allocate b)).later dt (agentGap .allocFail))
      (n := b.setWidth 3) hbusy hr hatt hspin rfl
    have hx' := (allocateSteps_later (s := s.begin (.allocate b)) (mmuGuard_alloc hbusy) ht).trans hx
    have harr : t.chip.arr = arrValue s.params true r d := congrArg Chip.arr hs.chip
    refine ⟨_, allocate_of_steps hn hb hx', ⟨rfl, ?_⟩, ?_, ?_,
      (State.OnlyChip.of_begin_later (hs.onlyChip rfl)).finish _ _,
      samePackets_of_chip (by rw [State.finish_chip, hs.chip]; rfl) (by rw [State.finish_chip, hs.chip]; rfl)⟩
    · show some (OpResult.mk (.allocationFailed _) 0 false) = some ⟨.allocationFailed t.chip.arr, 0, false⟩
      rw [harr]
      rfl
    · exact (congrArg (has · _) harr).trans (has_arrValue ..)
    · rw [State.finish_chip, hs.chip, ← without_or_self]
      rfl
  · obtain ⟨u, seed, a, hw, hs, htrace⟩ := wrMmu_alloc_silent (s := (s.begin (.allocate b)).later dt (agentGap (.allocSilent p)))
      (n := b.setWidth 3) (allocFirst s.params) hbusy hr hp (by rw [toNat_pages hn]; exact hroom) rfl
    have hw' := (wrMmu_later (s := s.begin (.allocate b)) (allocFirst s.params) (mmuGuard_alloc hbusy) ht).trans hw
    rw [toNat_pages hn] at hs
    obtain ⟨t, new, hx, hend, htr, hpolls, harr, hc, ho⟩ := allocate_exhausted hn hb hw' hs.tape
      (by rw [hs.chip, hs.params]; exact has_without_self _ _) hs.params htrace
    have htc := hc.trans hs.chip
    obtain ⟨hentry, hother, hbytes⟩ := buffers_of_handedOut (s := s) (t := t) (p := p)
      (congrArg Chip.table htc) (congrArg Chip.pktMem htc)
    refine ⟨t, new, hx, hend, htr, hpolls, harr, hentry, hother, hbytes, ?_, ho (.of_begin_later (hs.onlyChip rfl))⟩
    rw [htc]
    rfl

end Sys2Proof.Machine
end

section
/-! PROOFS. A run of the interrupt context that never ends (spec/60_exceptions.md R324, R334, spec/93_implementation_defined.md
U17): where it stands, and that a gap keeps the first of them (log 46). -/

namespace Sys2Proof.Machine

variable {s t u : State} {x : Handling} {n exit : IrqPos} {h : HandlerRun} {g : Hang}

/-! ## What a run leaves alone, whether it ends or hangs -/

/-- Neither an agent nor the interrupt context changes the parameters, and neither takes back or notes a hang. -/
def State.untouched (s : State) : Config.Params × Option Hang := (s.params, s.hang)

/-- Where a part of a run has come to. -/
def reached : Except State Handling → State
  | .error u => u
  | .ok y => y.1

@[simp] theorem reached_ok (y : Handling) : reached (.ok y) = y.1 := rfl

@[simp] theorem reached_error (u : State) : reached (.error u) = u := rfl

@[simp] theorem State.setChip_untouched (c : Chip) (s : State) : (s.setChip c).untouched = s.untouched := rfl
@[simp] theorem State.setIrq_untouched (q : IrqCtx) (s : State) : (s.setIrq q).untouched = s.untouched := rfl
@[simp] theorem State.note_untouched (a : Access) (s : State) : (s.note a).untouched = s.untouched := rfl
@[simp] theorem State.irqAt_untouched (p : IrqPos) (s : State) : (s.irqAt p).untouched = s.untouched := rfl

@[simp] theorem readReg_untouched (r : Reg) (s : State) : (readReg r s).2.untouched = s.untouched := by
  simp [State.untouched]

@[simp] theorem setReg_untouched (r : Reg) (v : Word) (s : State) : (setReg r v s).untouched = s.untouched := by
  simp [State.untouched]

theorem State.KeptByAgents.untouched (h : s.KeptByAgents t) : t.untouched = s.untouched :=
  Prod.ext h.params h.hang

@[simp] theorem handlerGap_untouched (x : Handling) : (handlerGap x).1.untouched = x.1.untouched := by
  unfold handlerGap
  split
  · rfl
  · exact (agentSteps_kept _ _).untouched

@[simp] theorem handlerRead_untouched (n : IrqPos) (r : Reg) (w : Nat) (x : Handling) :
    (handlerRead n r w x).2.1.untouched = x.1.untouched := by
  simp [handlerRead]

@[simp] theorem handlerKeep_untouched (n : IrqPos) (r : Reg) (w : Nat) (keep : Word → IrqCtx → IrqCtx) (x : Handling) :
    (handlerKeep n r w keep x).1.untouched = x.1.untouched := by
  simp [handlerKeep]

@[simp] theorem handlerWrite_untouched (n : IrqPos) (r : Reg) (w : Nat) (v : Word) (x : Handling) :
    (handlerWrite n r w v x).1.untouched = x.1.untouched := by
  simp [handlerWrite]

@[simp] theorem handlerWritePtr_untouched (n : IrqPos) (v : Word) (x : Handling) :
    (handlerWritePtr n v x).1.untouched = x.1.untouched := by
  simp [handlerWritePtr]

@[simp] theorem handlerDelay_untouched (n : IrqPos) (t : Nat) (x : Handling) :
    (handlerDelay n t x).1.untouched = x.1.untouched := by
  simp [handlerDelay]

@[simp] theorem handlerGoto_untouched (n : IrqPos) (x : Handling) : (handlerGoto n x).1.untouched = x.1.untouched := rfl

@[simp] theorem handlerReenable_untouched (n : IrqPos) (x : Handling) :
    (handlerReenable n x).1.untouched = x.1.untouched := by
  simp [handlerReenable]

@[simp] theorem irqEnter_untouched (touch : Bool) (x : Handling) : (irqEnter touch x).1.untouched = x.1.untouched := by
  unfold irqEnter
  dsimp only
  split <;> simp

@[simp] theorem irqExit_untouched (touch : Bool) (x : Handling) : (irqExit touch x).1.untouched = x.1.untouched := by
  unfold irqExit
  dsimp only
  split <;> simp

@[simp] theorem handlerWait_untouched (exit : IrqPos) (fuel : Nat) : ∀ (k : Nat) (x : Handling),
    (reached (handlerWait exit fuel k x)).untouched = x.1.untouched := by
  induction fuel with
  | zero => exact fun _ _ => rfl
  | succ fuel ih =>
    intro k x
    unfold handlerWait
    dsimp only
    split <;> simp [ih]

@[simp] theorem handlerFree_untouched (exit : IrqPos) (p : Pkt) (x : Handling) :
    (reached (handlerFree exit p x)).untouched = x.1.untouched := by
  unfold handlerFree
  dsimp only
  split <;> simp

@[simp] theorem handlerRepair_untouched (exit : IrqPos) (h : HandlerRun) (x : Handling) :
    (reached (handlerRepair exit h x)).untouched = x.1.untouched := by
  have hre (n : IrqPos) : (if h.reenable then handlerReenable n x else x).1.untouched = x.1.untouched := by
    split <;> simp
  unfold handlerRepair
  split
  · exact hre exit
  · exact (handlerFree_untouched ..).trans (hre _)

@[simp] theorem txErrBody_untouched (exit : IrqPos) (h : HandlerRun) (x : Handling) :
    (reached (txErrBody exit h x)).untouched = x.1.untouched := by
  unfold txErrBody
  dsimp only
  split <;> split <;> simp [handlerAck]

/-! ## The packet bank in a run -/

@[simp] theorem readReg_bank (r : Reg) (s : State) : (readReg r s).2.chip.bank = s.chip.bank := by
  rw [readReg_chip]

@[simp] theorem handlerRead_bank (n : IrqPos) (r : Reg) (w : Nat) (x : Handling) :
    (handlerRead n r w x).2.1.chip.bank = x.1.chip.bank := by
  simp [handlerRead]

@[simp] theorem handlerDelay_bank (n : IrqPos) (t : Nat) (x : Handling) :
    (handlerDelay n t x).1.chip.bank = x.1.chip.bank := by
  simp [handlerDelay]

@[simp] theorem handlerGap_params (x : Handling) : (handlerGap x).1.params = x.1.params :=
  congrArg Prod.fst (handlerGap_untouched x)

/-- The entry selects PB (R331). -/
theorem irqEnter_bank (touch : Bool) (x : Handling) : (irqEnter touch x).1.chip.bank = x.1.params.regs.pb := by
  unfold irqEnter
  dsimp only
  split <;> simp [handlerKeep, handlerWrite, setReg_bsr]

@[simp] theorem handlerAck_bank (n : IrqPos) (x : Handling) : (handlerAck n x).1.chip.bank = x.1.chip.bank := by
  simp [handlerAck, handlerWrite, setReg_intAck]

/-- Setting TXEN again comes back to PB (R335). -/
theorem handlerReenable_bank (n : IrqPos) (x : Handling) :
    (handlerReenable n x).1.chip.bank = x.1.params.regs.pb := by
  simp [handlerReenable, handlerWrite, setReg_bsr, handlerRead]

theorem handlerWait_bank (exit : IrqPos) (fuel : Nat) : ∀ (k : Nat) (x : Handling),
    (reached (handlerWait exit fuel k x)).chip.bank = x.1.chip.bank := by
  induction fuel with
  | zero => exact fun _ _ => rfl
  | succ fuel ih =>
    intro k x
    unfold handlerWait
    dsimp only
    split
    · simp [ih]
    · exact handlerRead_bank ..

/-- No command changes the selected bank. -/
@[simp] theorem mmuEffect_bank (k : MmuCode) (p : Config.Params) (c : Chip) : (mmuEffect k p c).bank = c.bank := by
  cases k <;> rfl

theorem handlerFree_bank (exit : IrqPos) (p : Pkt) (x : Handling) :
    (reached (handlerFree exit p x)).chip.bank = x.1.chip.bank := by
  unfold handlerFree
  dsimp only
  split
  · simp [handlerWait_bank, handlerWrite, setReg_pnr]
  · simp [handlerGoto, handlerWrite, setReg_pnr]

/-! ## Where a run hangs -/

/-- The machine at a poll of BUSY that has found 1, its delay over (R183, R334). -/
structure State.AtPoll (u : State) : Prop where
  busy : u.chip.busy = true
  pos : ∃ k, u.irq.pos = .wait k 1

@[simp] theorem handlerGap_gaps (x : Handling) : (handlerGap x).2 = x.2.tail := by
  unfold handlerGap
  split <;> simp [*]

/-- The last poll of a run stands behind its last gap, so that what it found stays. -/
theorem handlerWait_atPoll (exit : IrqPos) (fuel : Nat) : ∀ (k : Nat) (x : Handling), x.2.length < fuel →
    handlerWait exit fuel k x = .error u → u.AtPoll := by
  induction fuel with
  | zero => exact fun _ _ hl => absurd hl (Nat.not_lt_zero _)
  | succ fuel ih =>
    intro k x hl h
    simp only [handlerWait] at h
    split at h
    · rename_i hbusy
      rcases Nat.eq_zero_or_pos fuel with rfl | hf
      · have hx : x.2 = [] := List.length_eq_zero_iff.1 (by omega)
        have hgap (z : State) : handlerGap (z, x.2) = (z, []) := by rw [hx]; rfl
        have hnil (z : State) : handlerGap (z, []) = (z, []) := rfl
        simp only [handlerRead, handlerDelay, hgap, hnil, handlerWait] at h hbusy
        obtain rfl := Except.error.inj h
        refine ⟨?_, _, rfl⟩
        exact (readReg_mmuCmd_busy x.1).symm.trans (by simpa using hbusy)
      · refine ih _ _ ?_ h
        simp [handlerDelay, handlerRead]
        omega
    · cases h

theorem handlerFree_atPoll {p : Pkt} (h : handlerFree exit p x = .error u) : u.AtPoll := by
  unfold handlerFree at h
  dsimp only at h
  split at h
  · exact handlerWait_atPoll exit _ 1 _ (Nat.lt_succ_self _) h
  · cases h

/-- A run hangs in its FREE alone, which the entry or the way back from TCR has selected PB for. -/
theorem handlerRepair_hangs (hb : x.1.chip.bank = x.1.params.regs.pb) (he : handlerRepair exit h x = .error u) :
    u.AtPoll ∧ u.chip.bank = x.1.params.regs.pb := by
  unfold handlerRepair at he
  split at he
  · cases he
  · rename_i p hp
    refine ⟨handlerFree_atPoll he, ?_⟩
    have hbank := handlerFree_bank exit p (if h.reenable then handlerReenable (.body 7) x else x)
    rw [he, reached_error] at hbank
    rw [hbank]
    split
    · exact handlerReenable_bank ..
    · exact hb

theorem txErrBody_hangs (hb : x.1.chip.bank = x.1.params.regs.pb) (he : txErrBody exit h x = .error u) :
    u.AtPoll ∧ u.chip.bank = x.1.params.regs.pb := by
  have hp (n m : IrqPos) (r : Reg) (w : Nat) : (handlerAck n (handlerRead m r w x).2).1.params = x.1.params :=
    congrArg Prod.fst ((handlerWrite_untouched ..).trans (handlerRead_untouched ..))
  unfold txErrBody at he
  dsimp only at he
  split at he
  · split at he
    · have h' := handlerRepair_hangs (by rw [handlerAck_bank, handlerRead_bank, hp, hb]) he
      rwa [hp] at h'
    · cases he
  · split at he <;> cases he

/-- A run that never ends stands at its poll, in the packet bank (R324, R334). -/
theorem runHandler_hangs (he : runHandler h s = some (.error u)) : u.AtPoll ∧ u.chip.bank = s.params.regs.pb := by
  have hp : (irqEnter h.touches (s.irqAt (.save 1), h.gaps)).1.params = s.params :=
    congrArg Prod.fst (irqEnter_untouched ..)
  unfold runHandler at he
  split at he
  · split at he
    · rename_i hb
      obtain rfl := Except.error.inj (Option.some.inj he)
      have h' := txErrBody_hangs (by rw [hp]; exact irqEnter_bank ..) hb
      rwa [hp] at h'
    · cases he
  · cases he

/-! ## Hangs in a gap -/

/-- A run that ends leaves a hang as it is. -/
theorem runHandler_hang (he : runHandler h s = some (.ok t)) : t.hang = s.hang := by
  unfold runHandler at he
  split at he
  · split at he
    · cases he
    · rename_i y hb
      obtain rfl := Except.ok.inj (Option.some.inj he)
      have hy := txErrBody_untouched (irqExitPos h.touches) h (irqEnter h.touches (s.irqAt (.save 1), h.gaps))
      rw [hb, reached_ok] at hy
      calc (irqExit h.touches y).1.hang = y.1.hang := congrArg Prod.snd (irqExit_untouched ..)
        _ = _ := congrArg Prod.snd hy
        _ = s.hang := congrArg Prod.snd (irqEnter_untouched ..)
  · cases he

theorem noteHang_of_some (hs : s.hang = some g) (t : State) : s.noteHang t = s := by
  simp [State.noteHang, hs]

theorem noteHang_of_none (hs : s.hang = none) (t : State) :
    s.noteHang t = { s with hang := some ⟨t.chip, t.phy, t.eng, t.irq, t.hostMem, t.env⟩ } := by
  simp [State.noteHang, hs]

theorem eventStep_hang (hs : s.hang = some g) (e : Event) : (eventStep e s).hang = some g := by
  cases e with
  | agent e => exact (agentStep_kept e s).hang.trans hs
  | irq h =>
    unfold eventStep
    dsimp only
    split
    · exact hs
    · rename_i he; exact (runHandler_hang he).trans hs
    · rw [noteHang_of_some hs]; exact hs

theorem eventSteps_hang (es : List Event) : ∀ s : State, s.hang = some g → (eventSteps es s).hang = some g := by
  induction es with
  | nil => exact fun _ hs => hs
  | cons e es ih => exact fun s hs => ih _ (eventStep_hang hs e)

/-- Nothing that happens in a gap unmakes a hang or replaces it by another (log 46). -/
theorem gap_hang (hs : s.hang = some g) : (gap s).hang = some g := by
  unfold gap
  split
  · exact hs
  · exact eventSteps_hang _ _ hs

/-- A gap that holds only a run that never ends notes where it stands. -/
theorem gap_of_hanging {dt : Nat} {rest : List Gap} (ht : s.env.tape = ⟨dt, [.irq h]⟩ :: rest)
    (he : runHandler h { s with env := { s.env with tape := rest, now := s.env.now + dt } } = some (.error u)) :
    gap s = State.noteHang { s with env := { s.env with tape := rest, now := s.env.now + dt } } u := by
  rw [gap_cons ht, eventSteps_cons, eventSteps_nil, eventStep, he]

end Sys2Proof.Machine
end

section
/-! PROOFS. The foreground where a handler has hung (spec/60_exceptions.md R324, spec/93_implementation_defined.md U17): nothing it
would have done behind the hang refuses or faults, and the hang stays as it is noted (log 46). -/

namespace Sys2Proof.Machine

variable {s t : State} {h : Hang} {n m back : Next} {r : Reg} {w : Nat} {v : Word} {b : BitVec 2} {p : SeqPos}
  {k : State → Out}

/-- The hang `h` is noted. -/
def State.HangsAt (h : Hang) (s : State) : Prop := s.hang = some h

/-! ## Accesses -/

namespace State.HangsAt

theorem of_eq (hs : s.HangsAt h) (he : t.hang = s.hang) : t.HangsAt h := he.trans hs

theorem setEng {e : Engine} (hs : s.HangsAt h) : (s.setEng e).HangsAt h := hs

theorem advance (hs : s.HangsAt h) : (s.advance n).HangsAt h := hs

theorem setHold {a : Bool} (hs : s.HangsAt h) : (s.setHold a).HangsAt h := hs

theorem begin {i : Instr} (hs : s.HangsAt h) : (s.begin i).HangsAt h := hs

theorem call {i : Instr} (hs : s.HangsAt h) : (s.call i back).HangsAt h := hs

theorem finishWith {a : OpResult} (hs : s.HangsAt h) : (s.finishWith a).HangsAt h := hs

theorem finish {c : Condition} {a : Int} (hs : s.HangsAt h) : (s.finish c a).HangsAt h := hs

theorem gap (hs : s.HangsAt h) : (Machine.gap s).HangsAt h := gap_hang hs

theorem rd (hs : s.HangsAt h) : (Machine.rd n r w s).2.HangsAt h := gap (of_eq hs (by simp))

theorem rdKeep {keep : Word → Engine → Engine} (hs : s.HangsAt h) : (Machine.rdKeep n r w keep s).HangsAt h :=
  gap (of_eq hs (by simp))

theorem wr (hs : s.HangsAt h) : (Machine.wr n r w v s).HangsAt h := gap (of_eq hs (by simp))

theorem wrBank (hs : s.HangsAt h) : (Machine.wrBank n b s).HangsAt h := wr hs

theorem wrBankHold (hs : s.HangsAt h) : (Machine.wrBankHold n b s).HangsAt h := wrBank (s := s.setHold true) hs

theorem mmuIssue {c : MmuCode} (hs : s.HangsAt h) : (Machine.mmuIssue n c s).HangsAt h :=
  gap (s := ((mmuTake c s).note _).advance n) hs

theorem delay {d : Nat} (hs : s.HangsAt h) : (Machine.delay n d s).HangsAt h := gap (s := (s.note _).advance n) hs

theorem accessed {a : Access} (hs : s.HangsAt h) : (Machine.accessed a s).HangsAt h :=
  gap (s := (s.note a).advance .ret) hs

theorem saveCtx (hs : s.HangsAt h) : (Machine.saveCtx n m s).HangsAt h := rdKeep (rdKeep hs)

theorem restoreCtx (hs : s.HangsAt h) : (Machine.restoreCtx n m s).HangsAt h := wr (wr hs)

theorem restoreOnFailure (hs : s.HangsAt h) : (Machine.restoreOnFailure n m s).HangsAt h := by
  unfold Machine.restoreOnFailure
  split
  · exact restoreCtx hs
  · exact hs

theorem setBits {bits : Word} (hs : s.HangsAt h) : (Machine.setBits n m r bits s).HangsAt h := wr (rd hs)

theorem clearBits {bits : Word} (hs : s.HangsAt h) : (Machine.clearBits n m r bits s).HangsAt h := wr (rd hs)

end State.HangsAt

/-! ## What answers, and what does not refuse -/

/-- What goes on, with the hang still noted. -/
def AnswersHung (h : Hang) (o : Out) : Prop := ∃ t, o = .next t ∧ t.HangsAt h

/-- An access that is not refused, with the hang still noted in the state that `st` picks. -/
def Through {α : Type} (h : Hang) (st : α → State) (r : Except Refusal α) : Prop := ∃ a, r = .ok a ∧ (st a).HangsAt h

theorem Through.andThen {α : Type} {st : α → State} {e : Except Refusal α} {f : α → Out} (hr : Through h st e)
    (hf : ∀ a, (st a).HangsAt h → AnswersHung h (f a)) : AnswersHung h (andThen e f) := by
  obtain ⟨a, rfl, ha⟩ := hr
  exact hf a ha

/-- A refusal behind a hang lets the foreground go on, and what it goes on to is dropped (R324, log 46). -/
theorem State.HangsAt.refuse {α : Type} {st : α → State} {a : α} (hs : s.HangsAt h) (ha : (st a).HangsAt h)
    (e : Refusal) : Through h st (s.refuse e a) :=
  ⟨a, refuse_of_hang e a hs, ha⟩

theorem waitPoll_hung (hk : ∀ u : State, u.HangsAt h → AnswersHung h (k u)) (hs : s.HangsAt h) :
    AnswersHung h (waitPoll p k s) := by
  rcases waitPoll_cases p k s with ⟨-, e⟩ | ⟨-, e⟩ <;> rw [e]
  · exact ⟨_, rfl, hs.rd.delay⟩
  · exact hk _ hs.rd

theorem waitIdle_hung (hk : ∀ u : State, u.HangsAt h → AnswersHung h (k u)) (hs : s.HangsAt h) :
    AnswersHung h (waitIdle back p k s) :=
  waitPoll_hung hk hs.call

theorem finishOk_hung (s : State) (hs : s.HangsAt h) : AnswersHung h (finishOk s) := ⟨_, rfl, hs⟩

/-! ## Commands and DATA -/

theorem wrMmu_hung (n : Next) (c : MmuCode) (hs : s.HangsAt h) : Through h id (wrMmu n c s) := by
  unfold wrMmu
  split
  · exact hs.refuse (st := id) (a := s.advance n) hs _
  · exact ⟨_, rfl, hs.mmuIssue⟩

/-- A read and a write of the window keep a hang as they keep everything else that they do not see. -/
theorem hang_of_readBeside {α : Type} {f : State → Except Refusal (α × State)} {a : α × State}
    (hf : ∀ r : State, f (r.beside s) = (f s).map fun x => (x.1, r.beside x.2)) (ha : f s = .ok a) :
    a.2.hang = s.hang := by
  have hs : f s = (f s).map fun x => (x.1, s.beside x.2) := hf s
  rw [ha] at hs
  rw [Except.ok.inj hs]
  rfl

theorem hang_of_writeBeside {f : State → Except Refusal State}
    (hf : ∀ r : State, ∃ p, f (r.beside s) = (f s).map (r.setPkt p).beside) (ht : f s = .ok t) : t.hang = s.hang := by
  obtain ⟨p, hs⟩ : ∃ p, f s = (f s).map (s.setPkt p).beside := hf s
  rw [ht] at hs
  rw [Except.ok.inj hs]
  rfl

theorem dataRead_hang {a : Long × State} (ha : dataRead w s = .ok a) : a.2.hang = s.hang :=
  hang_of_readBeside (fun r => dataRead_beside r w s) ha

theorem dataWrite_hang {x : Long} (ht : dataWrite w x s = .ok t) : t.hang = s.hang :=
  hang_of_writeBeside (fun r => ⟨r.eng.pkt, dataWrite_beside r w x s⟩) ht

theorem rdData_hung (n : Next) (hs : s.HangsAt h) : Through h Prod.snd (rdData n s) := by
  unfold rdData
  split
  · exact hs.refuse (st := Prod.snd) (a := (0#16, s.advance n)) hs _
  · rename_i v u hd
    exact ⟨_, rfl, (hs.of_eq (dataRead_hang hd)).gap (s := (u.note (.read .data 2 v)).advance n)⟩

theorem wrData_hung (n : Next) (v : Word) (hs : s.HangsAt h) : Through h id (wrData n v s) := by
  unfold wrData
  split
  · exact hs.refuse (st := id) (a := s.advance n) hs _
  · rename_i u hd
    exact ⟨_, rfl, (hs.of_eq (dataWrite_hang hd)).gap (s := (u.note _).advance n)⟩

/-! ## The allocator (R181, R184, R185) -/

theorem spinAlloc_hung (a i : Nat) : ∀ (j : Nat) (s : State), s.HangsAt h → (spinAlloc a i j s).2.HangsAt h := by
  induction i with
  | zero => exact fun _ _ hs => hs
  | succ i ih =>
    intro j s hs
    unfold spinAlloc
    dsimp only
    split
    · exact hs.rd
    · exact ih _ _ hs.rd

theorem attemptAlloc_hung (spin i : Nat) : ∀ (a : Nat) (s : State), s.HangsAt h →
    (attemptAlloc spin i a s).2.HangsAt h := by
  induction i with
  | zero => exact fun _ _ hs => hs
  | succ i ih =>
    intro a s hs
    unfold attemptAlloc
    dsimp only
    split
    · exact spinAlloc_hung _ _ _ _ hs
    · exact ih _ _ (spinAlloc_hung _ _ _ _ hs)

theorem readResult_hung (hs : s.HangsAt h) : (readResult s).2.HangsAt h := by
  unfold readResult
  dsimp only
  split <;> exact (hs.of_eq (by simp)).gap

theorem allocateSteps_hung (c : BitVec 3) (hs : s.HangsAt h) : Through h Prod.snd (allocateSteps c s) := by
  obtain ⟨t, ht, hu⟩ := wrMmu_hung (allocFirst s.params) (.alloc c) hs
  have ha := attemptAlloc_hung t.params.allocSpin t.params.allocAttempts 1 t hu
  unfold allocateSteps
  rw [ht]
  dsimp only
  split
  · exact ⟨_, rfl, readResult_hung ha⟩
  · exact ⟨_, rfl, ha⟩

theorem allocate_hung {c : Byte} (hc : c.toNat < 8) (hb : s.chip.bank = s.params.regs.pb) (hs : s.HangsAt h) :
    AnswersHung h (execAllocate c s) := by
  rw [execAllocate, if_pos hc, inPacketBank_of_bank _ hb]
  refine (allocateSteps_hung _ hs.begin).andThen fun a ha => ?_
  split <;> exact ⟨_, rfl, ha⟩

theorem release_hung (hb : s.chip.bank = s.params.regs.pb) (hs : s.HangsAt h) : AnswersHung h (execRelease s) := by
  rw [execRelease, inPacketBank_of_bank _ hb]
  exact (wrMmu_hung _ _ hs.begin).andThen fun _ => waitIdle_hung finishOk_hung

theorem free_hung (c : Byte) (hb : s.chip.bank = s.params.regs.pb) (hs : s.HangsAt h) : AnswersHung h (execFree c s) := by
  rw [execFree, inPacketBank_of_bank _ hb]
  exact (wrMmu_hung _ _ (.wr hs.begin)).andThen fun _ => waitIdle_hung finishOk_hung

/-! ## TRANSMIT (R200) -/

theorem txByte_hung (len i : Nat) (hs : s.HangsAt h) : (txByte len i s).2.HangsAt h := by
  unfold txByte
  split <;> exact hs

theorem sendWords_hung (len i : Nat) : ∀ (j : Nat) (s : State), s.HangsAt h → Through h id (sendWords len i j s) := by
  induction i with
  | zero => exact fun _ s hs => ⟨s, rfl, hs⟩
  | succ i ih =>
    intro j s hs
    obtain ⟨t, ht, hu⟩ := wrData_hung (if i = 0 then .to 12 else .to 11 1 (.word (j + 1)))
      (wordOf (txByte len (2 * j) s).1 (txByte len (2 * j + 1) (txByte len (2 * j) s).2).1)
      (txByte_hung len (2 * j + 1) (txByte_hung len (2 * j) hs))
    unfold sendWords
    dsimp only
    rw [ht]
    exact ih _ _ hu

theorem sendTrailer_hung (len length : Nat) (hs : s.HangsAt h) : Through h id (sendTrailer len length s) := by
  unfold sendTrailer
  split
  · exact wrData_hung _ _ hs
  · exact wrData_hung _ _ (txByte_hung _ _ hs)

theorem packFrame_hung (len length : Nat) (q : Pkt) (hs : s.HangsAt h) : Through h id (packFrame len length q s) := by
  unfold packFrame
  dsimp only
  obtain ⟨a, ha, hu⟩ := wrData_hung (.to 10) 0#16 (hs.wr (n := .to 8) (r := .pnr) (w := 1)
    (v := (pktByte s.params q).setWidth 16) |>.wr (n := .to 9) (r := .ptr) (w := 2) (v := ptrTxWrite s.params))
  rw [ha]
  obtain ⟨c, hc, hu⟩ := wrData_hung (.to 11 1 (.word 0)) (BitVec.ofNat 16 (length + Config.envOverhead)) hu
  dsimp only [id] at hc ⊢
  rw [hc]
  obtain ⟨d, hd, hu⟩ := sendWords_hung len (length / 2) 0 _ hu
  dsimp only [id] at hd ⊢
  rw [hd]
  exact sendTrailer_hung _ _ hu

theorem txDone_hung (length : Nat) (s : State) (hs : s.HangsAt h) : AnswersHung h (txDone length s) :=
  ⟨_, rfl, hs.restoreCtx⟩

theorem txTimedOut_hung (s : State) (hs : s.HangsAt h) : AnswersHung h (txTimedOut s) :=
  ⟨_, rfl, hs.restoreOnFailure⟩

theorem txPollRound_hung (length : Nat) (hs : s.HangsAt h) : AnswersHung h (txPollRound length s) := by
  unfold txPollRound
  dsimp only
  split
  · exact waitIdle_hung (txDone_hung length) hs.rd.wr
  · split
    · exact waitIdle_hung txTimedOut_hung hs.rd
    · exact ⟨_, rfl, hs.rd⟩

theorem sendPacked_hung (length : Nat) (hs : s.HangsAt h) : AnswersHung h (sendPacked length s) :=
  (wrMmu_hung _ _ (.wr (.rd hs))).andThen fun _ hu => txPollRound_hung length hu

theorem claimBuffer_hung (code : Nat) (hs : s.HangsAt h) : Through h Prod.snd (claimBuffer code s) :=
  allocateSteps_hung _ hs.wrBankHold.saveCtx

theorem transmit_hung (len : Word) (hs : s.HangsAt h) : AnswersHung h (execTransmit len s) := by
  unfold execTransmit
  dsimp only
  split
  · exact ⟨_, rfl, hs⟩
  · refine (claimBuffer_hung _ hs.begin).andThen fun a ha => ?_
    split
    · exact ⟨_, rfl, (State.HangsAt.restoreOnFailure ha)⟩
    · exact (packFrame_hung _ _ _ ha).andThen fun _ hu => sendPacked_hung _ hu

/-! ## RECEIVE (R220) -/

theorem copyWords_hung (sink i : Nat) : ∀ (j : Nat) (s : State), s.HangsAt h → Through h id (copyWords sink i j s) := by
  induction i with
  | zero => exact fun _ s hs => ⟨s, rfl, hs⟩
  | succ i ih =>
    intro j s hs
    obtain ⟨a, ha, hu⟩ := rdData_hung (.to 10 2 (.word j)) hs
    unfold copyWords
    rw [ha]
    exact ih _ _ hu

theorem copyPayload_hung (sink i : Nat) (hs : s.HangsAt h) : Through h id (copyPayload sink i s) := by
  obtain ⟨t, ht, hu⟩ := copyWords_hung sink (i / 2) 0 s hs
  obtain ⟨a, ha, hv⟩ := rdData_hung (.to 11 2) hu
  unfold copyPayload
  rw [ht]
  dsimp only [id] at ha ⊢
  split
  · rw [ha]
    exact ⟨_, rfl, hv⟩
  · exact ⟨t, rfl, hu⟩

theorem rxFinish_hung (o : RxOutcome) (s : State) (hs : s.HangsAt h) : AnswersHung h (rxFinish o s) := by
  cases o <;> exact ⟨_, rfl, hs.restoreCtx⟩

theorem rxRelease_hung (o : RxOutcome) (s : State) (hs : s.HangsAt h) : AnswersHung h (rxRelease o s) :=
  (wrMmu_hung _ _ hs).andThen fun _ => waitIdle_hung (rxFinish_hung o)

theorem lengthFault_hung (hs : s.HangsAt h) : AnswersHung h (lengthFault s) := by
  unfold lengthFault
  rw [show s.hang = some h from hs]
  exact ⟨_, rfl, hs⟩

theorem rxBody_hung (status lenWord : Word) (hs : s.HangsAt h) : AnswersHung h (rxBody status lenWord s) := by
  unfold rxBody
  split
  · exact waitIdle_hung (rxRelease_hung _) hs
  · split
    · exact lengthFault_hung hs
    · exact (copyPayload_hung _ _ hs).andThen fun _ => waitIdle_hung (rxRelease_hung _)

theorem rxHeader_hung (hs : s.HangsAt h) : AnswersHung h (rxHeader s) :=
  (rdData_hung _ hs.wr).andThen fun _ ha => (rdData_hung _ ha).andThen fun _ hb => rxBody_hung _ _ hb

theorem receive_hung (hs : s.HangsAt h) : AnswersHung h (execReceive s) := by
  have hf : (rd (.to 4) .fifo 2 (saveCtx (.to 2 2) (.to 3)
      (wrBank (.to 2) (s.begin .receive).params.regs.pb (s.begin .receive)))).2.HangsAt h :=
    .rd (.saveCtx (.wrBank hs.begin))
  unfold execReceive
  dsimp only
  split
  · exact ⟨_, rfl, hf⟩
  · exact rxHeader_hung hf

/-! ## Blocks (R167, R168) -/

theorem readBlockLoop_hung (off : Byte) (buf i : Nat) : ∀ (j : Nat) (s : State), s.HangsAt h →
    Through h id (readBlockLoop off buf i j s) := by
  induction i with
  | zero => exact fun _ s hs => ⟨s, rfl, hs⟩
  | succ i ih =>
    intro j s hs
    unfold readBlockLoop
    split
    · exact hs.refuse (st := id) (a := s) hs _
    · rename_i hr
      exact ih _ _ (State.HangsAt.gap (hs.of_eq (winReadWord_aside hr).hang))

theorem writeBlockLoop_hung (off : Byte) (buf i : Nat) : ∀ (j : Nat) (s : State), s.HangsAt h →
    Through h id (writeBlockLoop off buf i j s) := by
  induction i with
  | zero => exact fun _ s hs => ⟨s, rfl, hs⟩
  | succ i ih =>
    intro j s hs
    unfold writeBlockLoop
    dsimp only
    split
    · exact hs.refuse (st := id) (a := s) hs _
    · rename_i hw
      exact ih _ _ (State.HangsAt.gap (hs.of_eq (winWriteWord_aside hw).hang))

theorem readBlock_hung (off : Byte) (count : Word) (hs : s.HangsAt h) : AnswersHung h (execReadBlock off count s) :=
  (readBlockLoop_hung off s.eng.bufRef _ 0 (s.begin (.readBlock off count)) hs).andThen fun _ hu =>
    ⟨_, rfl, hu⟩

theorem writeBlock_hung (off : Byte) (count : Word) (hs : s.HangsAt h) : AnswersHung h (execWriteBlock off count s) :=
  (writeBlockLoop_hung off s.eng.bufRef _ 0 (s.begin (.writeBlock off count)) hs).andThen fun _ hu =>
    ⟨_, rfl, hu⟩

/-! ## MII and PHY_CONFIGURE (R243, R280) -/

theorem runCycle_hung (n : Next) (base : Word) (i : Nat) (c : Cycle) (hs : s.HangsAt h) :
    (runCycle n base i c s).HangsAt h := by
  unfold runCycle
  exact .rdKeep (.delay (.wr (.delay (.wr hs))))

theorem runCycles_hung (base : Word) (cs : List Cycle) : ∀ (i : Nat) (s : State), s.HangsAt h →
    (runCycles base i cs s).HangsAt h := by
  induction cs with
  | nil => exact fun _ _ hs => hs
  | cons c cs ih => exact fun i s hs => ih _ _ (runCycle_hung _ _ _ _ hs)

theorem runFrame_hung (c : List Drive) (hs : s.HangsAt h) : (runFrame c s).HangsAt h := by
  unfold runFrame runSequence
  exact .wrBank (.wr (runCycles_hung _ _ _ _ (.rd (.wrBank (.rdKeep (.advance (.setEng hs)))))))

theorem miiReadAt_hung (phy reg : BitVec 5) (hs : s.HangsAt h) : (miiReadAt phy reg s).2.HangsAt h :=
  .advance (.setEng (runFrame_hung _ hs))

theorem miiWriteAt_hung (phy reg : BitVec 5) (v : Word) (hs : s.HangsAt h) : (miiWriteAt phy reg v s).HangsAt h :=
  .advance (.setEng (runFrame_hung _ hs))

theorem miiReadReg_hung (back : Next) (reg : BitVec 5) (hs : s.HangsAt h) : (miiReadReg back reg s).2.HangsAt h :=
  miiReadAt_hung _ _ hs.call

theorem miiWriteReg_hung (back : Next) (reg : BitVec 5) (v : Word) (hs : s.HangsAt h) :
    (miiWriteReg back reg v s).HangsAt h :=
  miiWriteAt_hung _ _ _ hs.call

theorem pollPhyReset_hung (i : Nat) : ∀ (j : Nat) (s : State), s.HangsAt h → (pollPhyReset i j s).2.HangsAt h := by
  induction i with
  | zero => exact fun _ _ hs => hs
  | succ i ih =>
    intro j s hs
    unfold pollPhyReset
    dsimp only
    split
    · exact ih _ _ (.delay (miiReadReg_hung _ _ hs))
    · exact miiReadReg_hung _ _ hs

theorem pollPhyAneg_hung (i : Nat) : ∀ (j : Nat) (s : State), s.HangsAt h → (pollPhyAneg i j s).2.HangsAt h := by
  induction i with
  | zero => exact fun _ _ hs => hs
  | succ i ih =>
    intro j s hs
    have hv := miiReadReg_hung (.to 9 2 (.poll j)) s.params.phyMap.stat hs
    unfold pollPhyAneg
    dsimp only
    split
    · exact hv
    · refine ih _ _ (.delay ?_)
      split
      · exact miiWriteReg_hung _ _ _ hv
      · exact hv

theorem phyAdvertise_hung (hs : s.HangsAt h) : (phyAdvertise s).HangsAt h :=
  miiWriteReg_hung _ _ _ (.setEng (miiWriteReg_hung (.to 8) _ _
    (.setEng (miiReadReg_hung (.to 6) _ (miiWriteReg_hung (.to 5) _ _ hs)))))

theorem phyConfigureRun_hung (hs : s.HangsAt h) : (phyConfigureRun s).2.HangsAt h := by
  have hr := pollPhyReset_hung Config.phyResetPolls 1 _
    (miiWriteReg_hung (.to 2 1 (.poll 1)) s.params.phyMap.ctrl (phyReset s.params) hs)
  unfold phyConfigureRun
  dsimp only
  split
  · exact pollPhyAneg_hung _ _ _ (phyAdvertise_hung hr)
  · exact hr

theorem markConfigured_hung (hs : s.HangsAt h) : (markConfigured s).HangsAt h := by
  unfold markConfigured
  split <;> exact hs

/-! ## The lifecycle (R300, R303, R304, R308, R310) -/

theorem resetConfig_hung (hs : s.HangsAt h) : (resetConfig s).HangsAt h := by
  unfold resetConfig
  dsimp only
  split
  · exact .setBits (.wr (.wrBank (.wr (.wrBank hs))))
  · exact .wr (.wrBank (.wr (.wrBank hs)))

theorem resetHead_hung (hs : s.HangsAt h) : (resetHead s).HangsAt h :=
  .mmuIssue (.wrBankHold (.setBits (.wrBank (.wr (.wr (.wrBank (resetConfig_hung hs)))))))

theorem resetTail_hung (hs : s.HangsAt h) : (resetTail s).HangsAt h := State.HangsAt.wr hs

theorem resetDone_hung (s : State) (hs : s.HangsAt h) : AnswersHung h (resetDone s) := ⟨_, rfl, resetTail_hung hs⟩

theorem reset_hung (hs : s.HangsAt h) : AnswersHung h (execReset s) :=
  waitIdle_hung resetDone_hung (resetHead_hung hs.begin)

theorem enableRun_hung (hs : s.HangsAt h) : (enableRun s).HangsAt h :=
  State.HangsAt.wr (.wrBank (.wr (.wr (.wrBank hs))))

theorem shutdownRun_hung (hs : s.HangsAt h) : (shutdownRun s).HangsAt h := by
  unfold shutdownRun
  dsimp only
  have hc := hs.wrBank (n := .to 1 2) (b := s.params.regs.pb) |>.wr (n := .to 2) (r := .intMask) (w := 1) (v := 0#16)
    |>.wrBank (n := .to 2 2) (b := s.params.regs.cb)
    |>.clearBits (n := .to 2 3) (m := .to 2 4) (r := .tcr) (bits := txen s.params)
    |>.clearBits (n := .to 2 5) (m := .to 3) (r := .rcr) (bits := rxen s.params)
  split
  · exact State.HangsAt.clearBits (.wrBank hc)
  · exact hc

theorem selectSig_hung (hs : s.HangsAt h) : (selectSig s).HangsAt h := by
  unfold selectSig
  split
  · exact hs.wrBank
  · exact hs

theorem probeRun_hung (hs : s.HangsAt h) : (probeRun s).2.HangsAt h :=
  State.HangsAt.gap (s := ((selectSig s).note _).advance (.to 2)) (selectSig_hung hs)

theorem writeMac_hung (a : Mac) (hs : s.HangsAt h) : (writeMac a s).HangsAt h :=
  List.foldlRecOn _ _ hs fun _ hu _ _ => hu.wr

theorem openRest_hung (hs : s.HangsAt h) : AnswersHung h (openRest s) := by
  have hm := markConfigured_hung (phyConfigureRun_hung (hs.call (i := .phyConfigure) (back := .to 4)))
  unfold openRest
  dsimp only
  split
  · exact ⟨_, rfl, hm⟩
  · exact ⟨_, rfl, State.HangsAt.finishWith (enableRun_hung (.call (writeMac_hung _ hm.wrBank)))⟩

theorem openAfterReset_hung (s : State) (hs : s.HangsAt h) : AnswersHung h (openAfterReset s) :=
  openRest_hung (resetTail_hung hs)

theorem openOp_hung (hs : s.HangsAt h) : AnswersHung h (execOpen s) := by
  have hp := probeRun_hung (s := (s.begin .openOp).call .probe (.to 2)) hs
  unfold execOpen
  dsimp only
  split
  · exact waitIdle_hung openAfterReset_hung (resetHead_hung hp)
  · exact ⟨_, rfl, hp⟩

end Sys2Proof.Machine
end

section
/-! PROOFS. WAIT_MMU_IDLE and the hangs of the interrupt context (spec/41_allocator.md R183, R192, spec/60_exceptions.md R324,
R334, spec/93_implementation_defined.md U17): O41. -/

namespace Sys2Proof.Machine

variable {s t u : State} {h : Hang} {o : Nat} {k : MmuCode} {i : Instr} {out : Out}

/-! ## Window accesses where a handler has hung: they refuse, or leave the hang as it is -/

theorem readPlace_hang {p : Place} {a : Byte × State} (ha : readPlace p s = .ok a) : a.2.hang = s.hang := by
  cases p with
  | data =>
    simp only [readPlace] at ha
    split at ha
    · rename_i hd
      obtain rfl := Except.ok.inj ha
      exact dataRead_hang hd
    · cases ha
  | byte q high =>
    obtain rfl := Except.ok.inj ha
    exact readReg_hang q s

theorem winReadByte_hang {a : Byte × State} (ha : winReadByte o s = .ok a) : a.2.hang = s.hang := by
  unfold winReadByte at ha
  split at ha
  · cases ha
  · exact readPlace_hang ha

theorem winWriteByte_hang {v : Byte} (ht : winWriteByte o v s = .ok t) : t.hang = s.hang := by
  unfold winWriteByte at ht
  split at ht
  · cases ht
  · exact hang_of_writeBeside (fun r => writePlace_beside r _ v s) ht

theorem readWordAt_hang {b : BitVec 2} {a : Word × State} (ha : readWordAt b o s = .ok a) : a.2.hang = s.hang :=
  hang_of_readBeside (fun r => readWordAt_beside r b o s) ha

theorem winReadLong_hang {a : Long × State} (ha : winReadLong o s = .ok a) : a.2.hang = s.hang := by
  unfold winReadLong at ha
  split at ha
  · split at ha
    · exact dataRead_hang ha
    · split at ha
      · cases ha
      · rename_i hlo
        split at ha
        · cases ha
        · rename_i hhi
          obtain rfl := Except.ok.inj ha
          exact (readWordAt_hang hhi).trans (readWordAt_hang hlo)
  · cases ha

/-! ## Operations where a handler has hung -/

/-- Whatever goes on has the hang still noted; it may refuse instead. -/
def KeepsHang (h : Hang) (out : Out) : Prop := ∀ t, out = .next t → t.HangsAt h

theorem AnswersHung.keeps (ho : AnswersHung h out) : KeepsHang h out := by
  obtain ⟨u, rfl, hu⟩ := ho
  intro t ht
  obtain rfl := Host.Outcome.next.inj ht
  exact hu

theorem State.HangsAt.keeps (hs : s.HangsAt h) : KeepsHang h (.next s) := AnswersHung.keeps ⟨s, rfl, hs⟩

theorem keepsHang_refused (r : Refusal) : KeepsHang h (.refused r) := fun _ ht => nomatch ht

theorem keepsHang_ite {c : Prop} [Decidable c] {r : Refusal} (ho : c → KeepsHang h out) :
    KeepsHang h (if c then out else .refused r) := by
  split
  · exact ho ‹_›
  · exact keepsHang_refused r

theorem keepsHang_inPacketBank (ho : s.chip.bank = s.params.regs.pb → KeepsHang h out) :
    KeepsHang h (inPacketBank s out) :=
  keepsHang_ite ho

theorem keepsHang_andThen {α : Type} {e : Except Refusal α} {f : α → Out} (hf : ∀ a, e = .ok a → KeepsHang h (f a)) :
    KeepsHang h (andThen e f) := by
  cases e with
  | error r => exact keepsHang_refused r
  | ok a => exact hf a rfl

/-- An operation of one access. -/
theorem keepsHang_oneRead {α : Type} {e : Except Refusal (α × State)} {a : α × State → Access} {v : α × State → Int}
    (hs : s.HangsAt h) (he : ∀ x, e = .ok x → x.2.hang = s.hang) :
    KeepsHang h (andThen e fun x => .next ((accessed (a x) x.2).finish .ok (v x))) :=
  keepsHang_andThen fun x hx => State.HangsAt.keeps (.finish (.accessed (hs.of_eq (he x hx))))

theorem keepsHang_oneWrite {e : Except Refusal State} {a : Access} (hs : s.HangsAt h)
    (he : ∀ u, e = .ok u → u.hang = s.hang) :
    KeepsHang h (andThen e fun u => .next ((accessed a u).finish .ok 0)) :=
  keepsHang_andThen fun u hu => State.HangsAt.keeps (.finish (.accessed (hs.of_eq (he u hu))))

theorem readByte_keepsHang (off : Byte) (hs : s.HangsAt h) : KeepsHang h (execReadByte off s) :=
  keepsHang_oneRead hs.begin fun _ => winReadByte_hang

theorem writeByte_keepsHang (off v : Byte) (hs : s.HangsAt h) : KeepsHang h (execWriteByte off v s) :=
  keepsHang_oneWrite hs.begin fun _ => winWriteByte_hang

theorem issueCommand_keepsHang (k : MmuCode) (hs : s.HangsAt h) : KeepsHang h (issueCommand k s) :=
  keepsHang_inPacketBank fun _ => AnswersHung.keeps <|
    (wrMmu_hung _ _ hs.begin).andThen fun _ hu => ⟨_, rfl, hu⟩

/-- No operation takes back a hang or replaces it by another (log 46). -/
theorem exec_keepsHang (i : Instr) (hs : s.HangsAt h) : KeepsHang h (exec i s) := by
  cases i with
  | selectBank n => exact keepsHang_ite fun _ => State.HangsAt.keeps (.finish (.wrBank (.setHold hs.begin)))
  | readByte off => exact readByte_keepsHang off hs
  | readWord off => exact keepsHang_oneRead hs.begin fun _ hx => (winReadWord_aside hx).hang
  | readLong off => exact keepsHang_oneRead hs.begin fun _ => winReadLong_hang
  | writeByte off v => exact writeByte_keepsHang off v hs
  | writeWord off v => exact keepsHang_oneWrite hs.begin fun _ hu => (winWriteWord_aside hu).hang
  | writeLong off v =>
    exact keepsHang_oneWrite hs.begin fun _ => hang_of_writeBeside fun r => winWriteLong_beside r _ v _
  | readBlock off count => exact (readBlock_hung off count hs).keeps
  | writeBlock off count => exact (writeBlock_hung off count hs).keeps
  | allocate n =>
    refine keepsHang_ite fun hn => keepsHang_inPacketBank fun hb => ?_
    have ha := allocate_hung hn hb hs
    rw [execAllocate, if_pos hn, inPacketBank_of_bank _ hb] at ha
    exact ha.keeps
  | release => exact fun t ht => (release_hung (inPacketBank_next ht).1 hs).keeps t ht
  | free p => exact fun t ht => (free_hung p (inPacketBank_next ht).1 hs).keeps t ht
  | waitMmuIdle => exact keepsHang_inPacketBank fun _ => (waitPoll_hung finishOk_hung hs.begin).keeps
  | transmit len => exact (transmit_hung len hs).keeps
  | receive => exact (receive_hung hs).keeps
  | miiRead reg => exact keepsHang_ite fun _ => State.HangsAt.keeps (.finish <| miiReadAt_hung _ _ hs.begin)
  | miiWrite reg v => exact keepsHang_ite fun _ => State.HangsAt.keeps (.finish <| miiWriteAt_hung _ _ _ hs.begin)
  | phyConfigure => exact State.HangsAt.keeps (markConfigured_hung (phyConfigureRun_hung hs.begin))
  | reset => exact (reset_hung hs).keeps
  | enable => exact State.HangsAt.keeps (enableRun_hung hs.begin)
  | shutdown => exact State.HangsAt.keeps (shutdownRun_hung hs.begin)
  | probe =>
    have hp := probeRun_hung (hs.begin (i := .probe))
    show KeepsHang h (execProbe s)
    unfold execProbe
    dsimp only
    split <;> exact State.HangsAt.keeps hp
  | openOp => exact (openOp_hung hs).keeps
  | closeOp => exact State.HangsAt.keeps (shutdownRun_hung (s := (s.begin .closeOp).call .shutdown (.to 2)) hs)
  | mmuAlloc n => exact issueCommand_keepsHang _ hs
  | mmuReset => exact issueCommand_keepsHang _ hs
  | mmuRelease => exact issueCommand_keepsHang _ hs
  | mmuFree => exact issueCommand_keepsHang _ hs
  | mmuEnqueue => exact issueCommand_keepsHang _ hs
  | miiReadFrame phy reg => exact State.HangsAt.keeps (.finish <| miiReadAt_hung _ _ hs.begin)
  | miiWriteFrame phy reg v =>
    exact State.HangsAt.keeps (.finish <| miiWriteAt_hung _ _ _ hs.begin)

/-- The operations that refuse nothing behind their first step go on. -/
theorem exec_answersHung (hs : s.HangsAt h)
    (hi : (∃ len, i = .transmit len) ∨ i = .receive ∨ (∃ off n, i = .readBlock off n ∨ i = .writeBlock off n) ∨
      i = .reset ∨ i = .openOp ∨
      (s.chip.bank = s.params.regs.pb ∧ (i = .release ∨ (∃ p, i = .free p) ∨ ∃ n : Byte, n.toNat < 8 ∧
        i = .allocate n))) : AnswersHung h (exec i s) := by
  rcases hi with ⟨len, rfl⟩ | rfl | ⟨off, n, rfl | rfl⟩ | rfl | rfl | ⟨hb, rfl | ⟨p, rfl⟩ | ⟨n, hn, rfl⟩⟩
  · exact transmit_hung len hs
  · exact receive_hung hs
  · exact readBlock_hung off n hs
  · exact writeBlock_hung off n hs
  · exact reset_hung hs
  · exact openOp_hung hs
  · exact release_hung hb hs
  · exact free_hung p hb hs
  · exact allocate_hung hn hb hs

/-! ## WAIT_MMU_IDLE (R183) -/

theorem State.OnlyChip.park (g : s.OnlyChip t) (p : SeqPos) : s.OnlyChip (t.park p) :=
  { g with eng := Engine.eq_of_beside (f := (t.park p).eng) (congrArg Engine.beside g.eng :) }

theorem State.Leads.nothing {j : Nat} (g : s.Leads s.chip s.eng j t) : t.chip = s.chip ∧ s.OnlyChip t ∧ s.SamePackets t :=
  ⟨g.chip, g.onlyChip rfl, samePackets_of_chip (congrArg Chip.table g.chip) (congrArg Chip.pktMem g.chip)⟩

/-- A poll of BUSY with the agents at rest changes nothing. -/
theorem poll_leads (n : Next) (hr : s.RestsFor 1) : s.Leads s.chip s.eng 1 (rd n .mmuCmd 2 s).2 :=
  rd_leads n .mmuCmd 2 hr

theorem delay_leads (n : Next) (d : Nat) (hr : s.RestsFor 1) : s.Leads s.chip s.eng 1 (delay n d s) :=
  (leads_setChip s.chip s).access (.delay d) n hr

/-- BUSY = 0 ends the operation. -/
theorem waitPoll_ends (p : SeqPos) (hb : s.chip.busy = false) :
    ∃ t, waitPoll p finishOk s = .next t ∧ t.Ended .ok 0 ∧
      (s.Quiet → t.chip = s.chip ∧ s.OnlyChip t ∧ s.SamePackets t) := by
  refine ⟨_, waitPoll_of_idle p finishOk hb, ⟨rfl, rfl⟩, fun hq => ?_⟩
  have hl := poll_leads (.to 1 2) (restsFor_of_quiet hq 1)
  obtain ⟨chip, only, packets⟩ := (hl.keeps (leads_advance .ret _) rfl |>.congr hl.chip rfl).nothing
  exact ⟨chip, only.finish .ok 0, packets⟩

/-- BUSY = 1 leaves the operation in its wait. -/
theorem waitPoll_stands (p : SeqPos) (k : State → Out) (hb : s.chip.busy = true) :
    ∃ t, waitPoll p k s = .next t ∧ t.eng.pos = p ∧ t.eng.result = s.eng.result ∧
      (s.Quiet → (t.chip = s.chip ∧ s.OnlyChip t ∧ s.SamePackets t) ∧ t.Quiet) := by
  refine ⟨_, waitPoll_of_busy p k hb, rfl, by simp [State.park, delay, rd], fun hq => ?_⟩
  have hl := poll_leads (.to 1 2) (restsFor_of_quiet hq 1)
  have hd := delay_leads (.to 1) s.params.mmuPollDelay (restsFor_of_quiet (hl.quiet hq) 1)
  have hs := (hl.keeps hd (n := 2) rfl).congr hl.chip rfl
  obtain ⟨chip, only, packets⟩ := hs.nothing
  exact ⟨⟨chip, only.park p, packets⟩, hs.quiet hq⟩

/-- One more round of a wait that BUSY does not end, with the agents at rest. -/
theorem step_waits (hp : s.eng.pos = .waitIdle) (hb : s.chip.busy = true) (hh : s.hang = none) (hq : s.Quiet) :
    ∃ t, step s = .next t ∧ t.eng.pos = .waitIdle ∧ t.chip = s.chip ∧ t.hang = none ∧ t.Quiet := by
  obtain ⟨t, ht, hpos, -, hl⟩ := waitPoll_stands .waitIdle finishOk hb
  obtain ⟨⟨chip, only, -⟩, quiet⟩ := hl hq
  have hn : t.hang = none := only.hang.trans hh
  refine ⟨t, ?_, hpos, chip, hn, quiet⟩
  rw [step_of_not_idle (by simp [hp]), ← settle_of_none hn, ← ht]
  simp only [resume, hp]

/-- BUSY that never falls keeps the operation in its wait for ever (R324). -/
theorem runToIdle_waits (k : Nat) : ∀ s : State, s.eng.pos = .waitIdle → s.chip.busy = true → s.hang = none → s.Quiet →
    ∃ t, runToIdle k s = .next t ∧ t.eng.pos = .waitIdle ∧ t.chip = s.chip := by
  induction k with
  | zero => exact fun s hp _ _ _ => ⟨s, rfl, hp, rfl⟩
  | succ k ih =>
    intro s hp hb hh hq
    obtain ⟨u, hu, hpu, hcu, hhu, hqu⟩ := step_waits hp hb hh hq
    obtain ⟨t, ht, hpt, hct⟩ := ih u hpu (by rw [hcu]; exact hb) hhu hqu
    refine ⟨t, ?_, hpt, hct.trans hcu⟩
    simpa [runToIdle, hp, hu] using ht

/-- The wait ends in the first step that finds BUSY = 0. -/
theorem step_endsWait (hp : s.eng.pos = .waitIdle) (hb : s.chip.busy = false) (hh : s.hang = none)
    (he : s.irq.enabled = false) :
    ∃ t, step s = .next t ∧ t.Ended .ok 0 ∧ (s.Quiet → t.chip = s.chip ∧ s.OnlyChip t ∧ s.SamePackets t) := by
  obtain ⟨t, ht, hend, hq⟩ := waitPoll_ends .waitIdle hb
  have hr : resume s = .next t := by simpa only [resume, hp] using ht
  obtain ⟨-, -, -, -, -, hang⟩ := State.steady_eq_iff.1 (resume_steady hr)
  exact ⟨t, by rw [step_of_not_idle (by simp [hp]), hr, settle_of_none ((hang he).trans hh)], hend, hq⟩

/-! ## The step in which a handler hangs, and the steps behind it -/

/-- A step in which a handler hangs answers the machine at its poll; the inbox is the step's own (log 46). -/
theorem step_hangs {inbox : List Input} (he : step s = settle (.next t)) (ht : t.HangsAt h) (hi : t.inbox = inbox) :
    ∃ v, step s = .next v ∧ v.eng.pos = .irqHang ∧ v.eng.result = none ∧ v.chip = h.chip ∧ v.phy = h.phy ∧
      v.irq = h.irq ∧ v.hostMem = h.hostMem ∧ v.inbox = inbox ∧ v.hang = none :=
  ⟨thaw h t, he.trans (settle_of_some ht), rfl, rfl, rfl, rfl, rfl, rfl, hi, rfl⟩

theorem inbox_of_steady (h : t.steady = s.steady) : t.inbox = s.inbox := by
  obtain ⟨-, -, inbox, -⟩ := State.steady_eq_iff.1 h
  exact inbox

/-- A handler that hangs polls again, and nothing else happens (R324, U17). -/
theorem step_pollsAgain (hp : s.eng.pos = .irqHang) (hh : s.hang = none) :
    step s = .next (hangRound s) := by
  have hr : resume s = .next (hangRound s) := by simp only [resume, hp]
  rw [step_of_not_idle (by simp [hp]), hr, settle_of_none (by simpa [hangRound] using hh)]

theorem runToIdle_hangs (k : Nat) : ∀ s : State, s.eng.pos = .irqHang → s.hang = none →
    ∃ t, runToIdle k s = .next t ∧ t.eng.pos = .irqHang ∧ t.chip = s.chip ∧ t.inbox = s.inbox ∧
      t.hostMem = s.hostMem ∧ t.phy = s.phy := by
  induction k with
  | zero => exact fun s hp _ => ⟨s, rfl, hp, rfl, rfl, rfl, rfl⟩
  | succ k ih =>
    intro s hp hh
    obtain ⟨t, ht, hpt, chip, inbox, hostMem, phy⟩ :=
      ih (hangRound s) ((congrArg Engine.pos (hangRound_eng s)).trans hp) (by simpa [hangRound] using hh)
    refine ⟨t, ?_, hpt, chip, ?_, ?_, ?_⟩
    · simpa [runToIdle, hp, step_pollsAgain hp hh] using ht
    · simpa [hangRound] using inbox
    · simpa [hangRound] using hostMem
    · simpa [hangRound] using phy

/-- A gap that holds only a run that never ends notes where it stands. -/
theorem gap_notes {g : HandlerRun} {dt : Nat} {rest : List Gap} (hh : s.hang = none)
    (ht : s.env.tape = ⟨dt, [.irq g]⟩ :: rest)
    (he : runHandler g { s with env := { s.env with tape := rest, now := s.env.now + dt } } = some (.error u)) :
    (gap s).HangsAt ⟨u.chip, u.phy, u.eng, u.irq, u.hostMem, u.env⟩ := by
  rw [gap_of_hanging ht he, noteHang_of_none (by exact hh)]
  rfl

/-- Settles O41: a wait polls until BUSY has fallen, and a hang, once noted, is what its step comes to. -/
theorem waitMmuIdleWaitsForBusy : Obligations.WaitMmuIdleWaitsForBusy := by
  refine ⟨fun s hb hbusy => ?_, fun s hb hbusy => ?_, fun s hp hb hh he => step_endsWait hp hb hh he,
    fun s k hp hb hh hq => runToIdle_waits k s hp hb hh hq, fun g s u he => ?_, fun g s u hp hi hh ht he => ?_,
    fun s u g dt rest hh ht he => gap_notes hh ht he, fun s h hs => gap_hang hs,
    fun i s t h hs ht => exec_keepsHang i hs t ht, fun i s h hs hi => exec_answersHung hs hi,
    fun n k v s h hs => ⟨wrMmu_hung n k hs, rdData_hung n hs, wrData_hung n v hs⟩,
    fun s r buf rest i u t h hp hi hd hu hs => ?_, fun s t h hp hr ht => ?_, fun s k hp hh => runToIdle_hangs k s hp hh⟩
  · obtain ⟨t, ht, hend, hq⟩ := waitPoll_ends (s := s.begin .waitMmuIdle) .waitIdle hbusy
    refine ⟨t, (inPacketBank_of_bank _ hb).trans ht, hend, fun hs => ?_⟩
    obtain ⟨chip, only, packets⟩ := hq hs
    exact ⟨chip, { only with }, packets⟩
  · obtain ⟨t, ht, hp, hres, hq⟩ := waitPoll_stands (s := s.begin .waitMmuIdle) .waitIdle finishOk hbusy
    refine ⟨t, (inPacketBank_of_bank _ hb).trans ht, hp, hres, fun hs => ?_⟩
    obtain ⟨chip, only, packets⟩ := (hq hs).1
    exact ⟨chip, { only with }, packets⟩
  · obtain ⟨⟨busy, pos⟩, bank⟩ := runHandler_hangs he
    exact ⟨busy, pos, bank⟩
  · obtain ⟨t, ht, pos, result, chip, -, irq, -⟩ :=
      step_hangs (s := s) (t := gap s) (by simp only [step, hp, hi]; rfl) (gap_notes hh ht he) rfl
    exact ⟨t, ht, pos, result, chip, irq⟩
  · have hstep := step_of_decode_ok hp hi hd
    have hin : u.inbox = rest := by rw [hu]; exact inbox_of_steady (gap_steady _)
    rw [show startOperation i buf rest s = u from hu.symm] at hstep
    rcases hs with hs | ⟨hs, hx, ht⟩
    · exact step_hangs (hstep.trans (by rw [unlessHung_of_some _ hs, settle_of_some hs])) hs hin
    · exact step_hangs (hstep.trans (by rw [unlessHung_of_none _ hs, hx])) ht
        ((inbox_of_steady (exec_steady hx)).trans hin)
  · obtain ⟨v, hv, pos, result, chip, phy, irq, -, inbox, hang⟩ :=
      step_hangs ((step_of_not_idle hp).trans (by rw [hr])) ht (inbox_of_steady (resume_steady hr))
    exact ⟨v, hv, pos, result, chip, phy, irq, inbox, hang⟩

end Sys2Proof.Machine
end

section
/-! PROOFS. The transmitter's steps (spec/42_transmit.md R212 to R214, spec/10_state.md R41), and the completion of an
auto-release (spec/41_allocator.md R192). -/

namespace Sys2Proof.Machine

variable {s : State} {c : Chip} {q : Config.Params} {p : Pkt} {ps : List Pkt} {tx ct : Bool}

/-! ## Flags of INT_STATUS -/

theorem has_or {n : Nat} (v w m : BitVec n) : has (v ||| w) m = (has v m || has w m) := by
  have hor : (v ||| w) &&& m = v &&& m ||| w &&& m := by
    apply BitVec.eq_of_getLsbD_eq
    intro i _
    simp only [BitVec.getLsbD_and, BitVec.getLsbD_or, Bool.and_or_distrib_right]
  rw [has, hor, Bool.eq_iff_iff]
  simp only [has, bne_iff_ne, Bool.or_eq_true, ne_eq, BitVec.or_eq_zero_iff]
  tauto

theorem has_bit_of_ne {n : Nat} {i j : Fin n} (h : i ≠ j) : has (bit i) (bit j) = false := by
  rw [has_bit, getLsbD_bit, decide_eq_false]
  exact fun hij => h (Fin.ext hij.symm)

theorem has_bit_self {n : Nat} (i : Fin n) : has (bit i) (bit i) = true := by simp [has_bit]

theorem has_flag {n : Nat} (m k : BitVec n) (b : Bool) : has (flag m b) k = (b && has m k) := by
  cases b
  · exact has_zero k
  · rfl

/-- The transmitter's three flags are three bits (R127). -/
theorem txFlags_of_bitsOk (h : bitsOk q.bits) :
    has (intTx q) (intTxEmpty q) = false ∧ has (intTx q) (intTxErr q) = false ∧
      has (intTxEmpty q) (intTxErr q) = false ∧ has (intTxErr q) (intTxEmpty q) = false := by
  obtain ⟨-, -, h, -⟩ := h
  simp only [List.nodup_cons, List.mem_cons, List.not_mem_nil, or_false, not_or, ← ne_eq] at h
  obtain ⟨-, ⟨het, her⟩, htr, -⟩ := h
  exact ⟨has_bit_of_ne het.symm, has_bit_of_ne htr, has_bit_of_ne her, has_bit_of_ne her.symm⟩

/-! ## The steps -/

/-- A completion makes BUSY 1 as long as its auto-release is not finished (R192). -/
theorem busy_of_autoFree (h : c.autoFree ≠ []) : c.busy = true := by
  simp [Chip.busy, h]

theorem agentStep_txDequeue (hr : has s.chip.rcr (softRst s.params) = false)
    (hen : has s.chip.tcr (txen s.params) = true) (hpow : has s.chip.config (powerEn s.params) = true)
    (hfl : s.chip.inFlight = none) (hf : s.chip.txFifo = p :: ps) :
    agentStep .txDequeue s = (s.setChip { s.chip with txFifo := ps, inFlight := some p }).send (frameOf p s) := by
  simp [agentStep, Chip.inSoftReset, hr, txTake, hen, hpow, hfl, hf]

theorem agentStep_autoFreeDone (hr : has s.chip.rcr (softRst s.params) = false) (ha : s.chip.autoFree = p :: ps) :
    agentStep .autoFreeDone s = s.setChip { s.chip.freePkt p with autoFree := ps } := by
  simp [agentStep, Chip.inSoftReset, hr, autoFreeCompletion, ha]

theorem agentStep_txDone (hr : has s.chip.rcr (softRst s.params) = false) :
    agentStep (.txDone tx) s = s.setChip (txSuccess tx s.params s.chip) := by
  simp [agentStep, Chip.inSoftReset, hr]

theorem agentStep_txFail (hr : has s.chip.rcr (softRst s.params) = false) :
    agentStep (.txFail tx ct) s = s.setChip (txFailure tx ct s.params s.chip) := by
  simp [agentStep, Chip.inSoftReset, hr]

theorem txSuccess_of_inFlight (h : c.inFlight = some p) :
    txSuccess tx q c = { c with
      inFlight := none
      autoFree := if has c.ctl (autoRelease q) then c.autoFree ++ [p] else c.autoFree
      failed := c.failed.filter (fun r => r != p)
      intStatus := c.intStatus ||| flag (intTx q) (tx || !has c.ctl (autoRelease q)) |||
        flag (intTxEmpty q) c.txFifo.isEmpty } := by
  simp only [txSuccess, h]

theorem txFailure_of_inFlight (h : c.inFlight = some p) :
    txFailure tx ct q c = { c with
      inFlight := none
      failed := c.failed ++ [p]
      intStatus := c.intStatus ||| intTxErr q ||| flag (intTx q) tx
      tcr := if ct then without c.tcr (txen q) else c.tcr } := by
  simp only [txFailure, h]

/-- Settles O18, by the flags each completion sets in INT_STATUS. -/
theorem transmitterCompletes : Obligations.TransmitterCompletes := by
  refine ⟨fun s p tx hbits hr hp => ?_, fun s p tx ct hbits hr hp => ?_⟩
  · obtain ⟨htxEmpty, htxErr, hemptyErr, -⟩ := txFlags_of_bitsOk hbits
    rw [agentStep_txDone hr, txSuccess_of_inFlight hp]
    refine ⟨rfl, fun ha => ⟨busy_of_autoFree ?_, if_pos ha⟩, fun ha => ⟨if_neg (by simp [ha]), ?_⟩, fun hf => ?_,
      fun hf => ?_, ?_, rfl⟩
    · simp [ha]
    · simp [has_or, has_flag, ha, show has (intTx s.params) (intTx s.params) = true from has_bit_self _]
    · simp [has_or, has_flag, hf, show has (intTxEmpty s.params) (intTxEmpty s.params) = true from has_bit_self _]
    · simp [has_or, has_flag, htxEmpty, List.isEmpty_eq_false_iff.2 hf]
    · simp [has_or, has_flag, htxErr, hemptyErr]
  · obtain ⟨htxEmpty, -, -, herrEmpty⟩ := txFlags_of_bitsOk hbits
    rw [agentStep_txFail hr, txFailure_of_inFlight hp]
    refine ⟨rfl, ?_, ?_, rfl, rfl, rfl⟩
    · simp [has_or, show has (intTxErr s.params) (intTxErr s.params) = true from has_bit_self _]
    · simp [has_or, has_flag, htxEmpty, herrEmpty]

end Sys2Proof.Machine
end

section
/-! PROOFS. The conditions TRANSMIT can end with (spec/42_transmit.md R200, R201, R209). -/

namespace Sys2Proof.Machine

variable {s t : State} {length : Nat} {len : Word}

/-- What a TRANSMIT that has passed step 3 can end with, where it has ended (R200). -/
def State.EndsTransmit (t : State) : Prop :=
  t.eng.pos = .idle →
    ∃ v, t.Ended .ok v ∨ t.Ended .transmitTimeout v ∨ ∃ cause, t.Ended (.transmitAllocationFailed cause) v

/-- A wait stands at its poll, or what follows it ends. -/
theorem waitIdle_endsTransmit {back : Next} {pos : SeqPos} {k : State → Out} (hpos : pos ≠ .idle)
    (hk : ∀ u, k u = .next t → t.EndsTransmit) (h : waitIdle back pos k s = .next t) : t.EndsTransmit := by
  rcases waitPoll_cases pos k (s.call .waitMmuIdle back) with ⟨-, e⟩ | ⟨-, e⟩
  · obtain rfl := Host.Outcome.next.inj (e.symm.trans h)
    exact fun hp => absurd hp hpos
  · exact hk _ (e.symm.trans h)

theorem txDone_endsTransmit (h : txDone length s = .next t) : t.EndsTransmit := by
  obtain rfl := Host.Outcome.next.inj h
  exact fun _ => ⟨_, .inl ⟨rfl, rfl⟩⟩

theorem txTimedOut_endsTransmit (h : txTimedOut s = .next t) : t.EndsTransmit := by
  obtain rfl := Host.Outcome.next.inj h
  exact fun _ => ⟨_, .inr (.inl ⟨rfl, rfl⟩)⟩

theorem txPollRound_endsTransmit (h : txPollRound length s = .next t) : t.EndsTransmit := by
  unfold txPollRound at h
  dsimp only at h
  split at h
  · exact waitIdle_endsTransmit (by simp) (fun _ => txDone_endsTransmit) h
  · split at h
    · exact waitIdle_endsTransmit (by simp) (fun _ => txTimedOut_endsTransmit) h
    · obtain rfl := Host.Outcome.next.inj h
      exact nofun

theorem execTransmit_endsTransmit (hlen : len.toNat ≤ 2041) (h : execTransmit len s = .next t) : t.EndsTransmit := by
  unfold execTransmit at h
  dsimp only at h
  have hfits : ¬ Config.maxPageCode < pageCode (paddedLength len.toNat) := Nat.not_lt.2 (pageCode_le hlen)
  rw [if_neg hfits] at h
  obtain ⟨⟨cause | p, u⟩, -, h⟩ := andThen_next h
  · obtain rfl := Host.Outcome.next.inj h
    exact fun _ => ⟨_, .inr (.inr ⟨cause, rfl, rfl⟩)⟩
  · obtain ⟨v, -, h⟩ := andThen_next h
    obtain ⟨w, -, h⟩ := andThen_next h
    exact txPollRound_endsTransmit h

/-- Step 3 (R201): nothing has been touched yet. -/
theorem transmit_tooLarge (hlen : 2041 < len.toNat) : exec (.transmit len) s = .next (s.finish .frameTooLarge 0) := by
  have hcode : Config.maxPageCode < pageCode (paddedLength len.toNat) := by
    simp only [pageCode, paddedLength, evenPart, Config.minFrame, Config.envOverhead, Config.pageBytes, Config.maxPageCode]
    omega
  simp only [exec, execTransmit, hcode, if_true]
  rfl

/-- Settles O42: no end behind step 3 is FrameTooLarge. -/
theorem oversizeFramesAreRejected : Obligations.OversizeFramesAreRejected := by
  refine fun s len => ⟨by omega, transmit_tooLarge, fun hlen t h hend => ?_⟩
  obtain ⟨hpos, hres⟩ := hend
  obtain ⟨v, ⟨-, h⟩ | ⟨-, h⟩ | ⟨cause, -, h⟩⟩ := execTransmit_endsTransmit hlen h hpos <;> simp [hres] at h

end Sys2Proof.Machine
end

section
/-! PROOFS. TRANSMIT's other ends (spec/42_transmit.md R207 to R209, spec/41_allocator.md R196): no buffer, the poll of step 15
that ends it, and the selection restored (spec/30_encoding.md R158). -/

namespace Sys2Proof.Machine

variable {s t u : State} {c : Chip} {q : Config.Params} {p : Pkt} {k length : Nat} {len : Word}

/-! ## The selection restored (R158) -/

/-- The chip unit with another selection written to PNR and PTR, which loads `dp` (R45). -/
def Chip.reselected (q : Config.Params) (pnr : Byte) (ptr : Word) (c : Chip) : Chip :=
  { c with pnr := pnr, ptr := ptr, dp := offsetOf q ptr, dpStale := false }

theorem restoreCtx_leads (nx ny : Next) (hr : s.RestsFor 2) :
    s.Leads (s.chip.reselected s.params s.eng.savedPnr s.eng.savedPtr) s.eng 2 (restoreCtx nx ny s) := by
  have hpnr := wr_leads (c := { s.chip with pnr := s.eng.savedPnr }) nx .pnr 1 (v := s.eng.savedPnr.setWidth 16)
    (by rw [setReg_pnr, lowByte_setWidth]) (hr.mono (by omega))
  have hptr := wr_leads ny .ptr 2 (setReg_ptr (wr nx .pnr 1 (s.eng.savedPnr.setWidth 16) s).eng.savedPtr _)
    (hpnr.rests hr (by omega))
  have hslot : (wr nx .pnr 1 (s.eng.savedPnr.setWidth 16) s).eng.savedPtr = s.eng.savedPtr := by rw [hpnr.eng]
  refine (hpnr.keeps hptr rfl).congr ?_ rfl
  rw [hpnr.chip, hpnr.params, hslot]
  rfl

/-- What a failure exit leaves of the selection (R209, D11). -/
def Chip.unselected (q : Config.Params) (pnr : Byte) (ptr : Word) (c : Chip) : Chip :=
  if q.restoreOnFailure then c.reselected q pnr ptr else c

theorem restoreOnFailure_leads (nx ny : Next) (hq : s.Quiet) :
    s.Leads (s.chip.unselected s.params s.eng.savedPnr s.eng.savedPtr) s.eng 0 (restoreOnFailure nx ny s) := by
  unfold restoreOnFailure Chip.unselected
  split
  · exact (restoreCtx_leads nx ny (restsFor_of_quiet hq 2)).of_quiet hq
  · exact leads_bump 0 s

/-- Where PNR and PTR still hold what has been saved, restoring them is seen in `dp` alone. -/
theorem unselected_self (q : Config.Params) (c : Chip) :
    c.unselected q c.pnr c.ptr = { c with
      dp := if q.restoreOnFailure then offsetOf q c.ptr else c.dp
      dpStale := if q.restoreOnFailure then false else c.dpStale } := by
  unfold Chip.unselected
  cases q.restoreOnFailure <;> rfl

/-! ## No buffer (R209) -/

/-- Steps 4 to 6 as far as the allocate command (R202). -/
theorem claimBuffer_leads (code : Nat) (hr : s.RestsFor 3) :
    ∃ u, claimBuffer code s = allocateSteps (BitVec.ofNat 3 code) u ∧
      s.Leads { s.chip with bank := s.params.regs.pb }
        { s.eng with savedPnr := s.chip.pnr, savedPtr := s.chip.ptr } 3 u :=
  ⟨_, rfl, ((saveCtx_wrBankHold_leads hr).keeps (leads_call (.allocate (BitVec.ofNat 8 code)) (.to 6 2) _) rfl).congr
    (saveCtx_wrBankHold_leads hr).chip rfl⟩

/-- An allocation that has come to nothing. -/
theorem transmit_unclaimed {cause : AllocCause} (hlen : len.toNat ≤ 2041)
    (h : claimBuffer (pageCode (paddedLength len.toNat)) (s.begin (.transmit len)) = .ok (.error cause, u))
    (hu : (s.begin (.transmit len)).Leads c
      { (s.begin (.transmit len)).eng with savedPnr := s.chip.pnr, savedPtr := s.chip.ptr } k u) (hq : u.Quiet) :
    ∃ t, exec (.transmit len) s = .next (t.raise (.transmitAllocationFailed cause) 0) ∧
      s.Leads (c.unselected s.params s.chip.pnr s.chip.ptr)
        { s.eng with savedPnr := s.chip.pnr, savedPtr := s.chip.ptr } k t := by
  have hfits : ¬ Config.maxPageCode < pageCode (paddedLength len.toNat) := Nat.not_lt.2 (pageCode_le hlen)
  refine ⟨restoreOnFailure (.to 6 3) (.to 6 4) u, by simp only [exec, execTransmit, hfits, if_false, h, andThen_ok], ?_⟩
  have hs := (leads_begin (.transmit len) s).trans hu (Nat.zero_add k)
  refine (hs.keeps (restoreOnFailure_leads _ _ hq) rfl).congr ?_ rfl
  rw [hs.chip, hs.eng, hs.params]

/-- The page code of a frame as the allocate command carries it (R138). -/
def allocCode (len : Word) : BitVec 3 := BitVec.ofNat 3 (pageCode (paddedLength len.toNat))

theorem toNat_allocCode (hlen : len.toNat ≤ 2041) : (allocCode len).toNat = pageCode (paddedLength len.toNat) := by
  have := pageCode_le hlen
  rw [allocCode, BitVec.toNat_ofNat]
  omega

/-- The chip unit that has taken the allocate command of a frame with PB selected (R190, R202). -/
def Chip.asked (q : Config.Params) (len : Word) (c : Chip) : Chip :=
  mmuEffect (.alloc (allocCode len)) q { c with bank := q.regs.pb }

/-- No answer. -/
theorem transmit_unanswered (hlen : len.toNat ≤ 2041) (hb : s.chip.busy = false) (hq : s.Quiet) :
    ∃ t k, exec (.transmit len) s = .next (t.raise (.transmitAllocationFailed .exhausted) 0) ∧
      s.Leads ((s.chip.asked s.params len).unselected s.params s.chip.pnr s.chip.ptr)
        { s.eng with savedPnr := s.chip.pnr, savedPtr := s.chip.ptr } k t := by
  obtain ⟨u, hclaim, hu⟩ := claimBuffer_leads (s := s.begin (.transmit len)) (pageCode (paddedLength len.toNat))
    (restsFor_of_quiet hq 3)
  obtain ⟨v, hw, hv⟩ := wrMmu_leads (q := .alloc (allocCode len)) (allocFirst u.params)
    (mmuGuard_alloc (by rw [hu.chip]; exact hb)) (restsFor_of_quiet (hu.quiet hq) 1)
  have hv := hu.keeps hv rfl
  rw [hu.chip, hu.params] at hv
  obtain ⟨w, hx, hw, -⟩ := allocateSteps_exhausted hw (hv.quiet hq)
    (by rw [hv.chip, hv.params]; exact has_without_self _ _)
  have hw := (hv.keeps hw rfl).congr hv.chip rfl
  obtain ⟨t, ht⟩ := transmit_unclaimed hlen (hclaim.trans hx) hw (hw.quiet hq)
  exact ⟨t, _, ht⟩

/-- A failure (R196 b). -/
theorem transmit_denied (hlen : len.toNat ≤ 2041) (hb : s.chip.busy = false)
    (hr : has s.chip.rcr (softRst s.params) = false) (hatt : 1 ≤ s.params.allocAttempts)
    (hspin : 1 ≤ s.params.allocSpin) (htape : s.env.tape = quietGaps 3 ++ agentGap .allocFail) :
    ∃ t k r d, exec (.transmit len) s =
        .next (t.raise (.transmitAllocationFailed (.failed (arrValue s.params true r d))) 0) ∧
      s.Leads ({ (s.chip.asked s.params len).denied s.params (arrValue s.params true r d) with
          arrSeen := true }.unselected s.params s.chip.pnr s.chip.ptr)
        { s.eng with savedPnr := s.chip.pnr, savedPtr := s.chip.ptr } k t := by
  obtain ⟨u, hclaim, hu⟩ := claimBuffer_leads (s := s.begin (.transmit len)) (pageCode (paddedLength len.toNat))
    (restsFor_of_quietGaps htape)
  obtain ⟨v, r, d, hx, hv⟩ := allocateSteps_denied (s := u) (n := allocCode len) (by rw [hu.chip]; exact hb)
    (by rw [hu.chip, hu.params]; exact hr) (by rwa [hu.params]) (by rwa [hu.params])
    (by rw [hu.tape, State.begin_env, htape]; rfl)
  have hv := hu.keeps hv rfl
  rw [hu.chip, hu.params] at hv
  rw [hu.params] at hx
  obtain ⟨t, ht⟩ := transmit_unclaimed hlen (hclaim.trans hx) hv (by rw [State.Quiet, hv.tape, State.begin_env, htape]; rfl)
  exact ⟨t, _, r, d, ht⟩

/-- A success that INT_STATUS does not show (R196 d, R376). -/
theorem transmit_unseen (hlen : len.toNat ≤ 2041) (hb : s.chip.busy = false)
    (hr : has s.chip.rcr (softRst s.params) = false) (hp : s.chip.allocated p = false)
    (hroom : usedPages s.chip.table + (pageCode (paddedLength len.toNat) + 1) ≤ s.params.totalPages)
    (htape : s.env.tape = quietGaps 3 ++ agentGap (.allocSilent p)) :
    ∃ t k seed a, exec (.transmit len) s = .next (t.raise (.transmitAllocationFailed .exhausted) 0) ∧
      s.Leads (((s.chip.asked s.params len).answeredSilently ⟨p, pageCode (paddedLength len.toNat) + 1, seed⟩ a).unselected
          s.params s.chip.pnr s.chip.ptr)
        { s.eng with savedPnr := s.chip.pnr, savedPtr := s.chip.ptr } k t := by
  obtain ⟨u, hclaim, hu⟩ := claimBuffer_leads (s := s.begin (.transmit len)) (pageCode (paddedLength len.toNat))
    (restsFor_of_quietGaps htape)
  obtain ⟨v, seed, a, hw, hv, -⟩ := wrMmu_alloc_silent (s := u) (n := allocCode len) (p := p) (allocFirst u.params)
    (by rw [hu.chip]; exact hb) (by rw [hu.chip, hu.params]; exact hr) (by rw [hu.chip]; exact hp)
    (by rw [hu.chip, hu.params, toNat_allocCode hlen]; exact hroom) (by rw [hu.tape, State.begin_env, htape]; rfl)
  have hv := hu.keeps hv rfl
  rw [hu.chip, hu.params, toNat_allocCode hlen] at hv
  have hq : v.Quiet := by rw [State.Quiet, hv.tape, State.begin_env, htape]; rfl
  obtain ⟨w, hx, hw, -⟩ := allocateSteps_exhausted hw hq (by rw [hv.chip, hv.params]; exact has_without_self _ _)
  obtain ⟨t, ht⟩ := transmit_unclaimed hlen (hclaim.trans hx) ((hv.keeps hw rfl).congr hv.chip rfl) (hw.quiet hq)
  exact ⟨t, _, seed, a, ht⟩

/-! ## The poll (R207) -/

/-- A wait that BUSY = 0 ends at once. -/
theorem waitIdle_leads (back : Next) (pos : SeqPos) (f : State → Out) (hb : s.chip.busy = false) (hr : s.RestsFor 1) :
    ∃ t, waitIdle back pos f s = f t ∧ s.Leads s.chip s.eng 1 t := by
  have hpoll := poll_leads (s := s.call .waitMmuIdle back) (.to 1 2) hr
  exact ⟨_, waitIdle_of_idle back pos f hb,
    (leads_call .waitMmuIdle back s).keeps ((hpoll.keeps (leads_advance .ret _) rfl).congr hpoll.chip rfl) rfl⟩

/-- The chip unit behind a poll of INT_STATUS (log 20). -/
def Chip.polled (q : Config.Params) (c : Chip) : Chip :=
  { c with arrSeen := c.arrSeen || has c.intStatus (intAlloc q) }

theorem txPoll_leads (hr : s.RestsFor 1) : s.Leads (s.chip.polled s.params) s.eng 1 (rd (.to 15 2) .intStatus 1 s).2 :=
  rd_leads (.to 15 2) .intStatus 1 hr

/-- TX_EMPTY ends the operation, however late it is seen (R207, R208). -/
theorem txPollRound_ends (he : has s.chip.intStatus (intTxEmpty s.params) = true) (hb : s.chip.busy = false)
    (hr : s.RestsFor 5) :
    ∃ t, txPollRound length s = .next (t.finish .ok length) ∧
      s.Leads ({ s.chip.polled s.params with
        intStatus := without s.chip.intStatus (intTxEmpty s.params) }.reselected s.params s.eng.savedPnr s.eng.savedPtr)
        s.eng 5 t := by
  have hpoll := txPoll_leads (hr.mono (by omega))
  have hack := wr_leads (.to 18) .intAck 1 (setReg_intAck ((intTxEmpty s.params).setWidth 16) _)
    (hpoll.rests hr (by omega))
  rw [hpoll.chip, lowByte_setWidth] at hack
  have hack := hpoll.keeps hack rfl
  obtain ⟨u, hwait, hu⟩ := waitIdle_leads (.to 19) (.txDoneWait length) (txDone length) (by rw [hack.chip]; exact hb)
    (hack.rests hr (by omega))
  have hu := hack.keeps hu rfl
  refine ⟨restoreCtx (.to 19 2) (.to 20) u, ?_, (hu.keeps (restoreCtx_leads _ _ (hu.rests hr (by omega))) rfl).congr ?_ rfl⟩
  · simp only [txPollRound, rd_fst, readReg_intStatus, he, if_true]
    exact hwait
  · rw [hu.chip, hack.chip, hu.eng, hu.params]
    rfl

/-- Without TX_EMPTY the time ends it (R209). -/
theorem txPollRound_timesOut (he : has s.chip.intStatus (intTxEmpty s.params) = false)
    (ht : s.params.txTimeout ≤ s.env.now - s.eng.t0) (hb : s.chip.busy = false) (hq : s.Quiet) :
    ∃ t, txPollRound length s = .next (t.raise .transmitTimeout 0) ∧
      s.Leads ((s.chip.polled s.params).unselected s.params s.eng.savedPnr s.eng.savedPtr) s.eng 0 t := by
  have hpoll := (txPoll_leads (restsFor_of_quiet hq 1)).of_quiet hq
  obtain ⟨u, hwait, hu⟩ := waitIdle_leads (.to 16 2) .txTimeoutWait txTimedOut (by rw [hpoll.chip]; exact hb)
    (restsFor_of_quiet (hpoll.quiet hq) 1)
  have hu := (hpoll.keeps hu rfl).of_quiet hq
  have ht0 : (rd (.to 15 2) .intStatus 1 s).2.eng.t0 = s.eng.t0 := by rw [hpoll.eng]
  refine ⟨restoreOnFailure (.to 16 3) (.to 16 4) u, ?_,
    (hu.keeps (restoreOnFailure_leads _ _ (hu.quiet hq)) rfl).congr ?_ rfl⟩
  · simp only [txPollRound, rd_fst, readReg_intStatus, he, hpoll.now, ht0, ht, if_true]
    exact hwait
  · rw [hu.chip, hpoll.chip, hu.eng, hu.params]

/-- A step at the poll is one more round of it. -/
theorem step_txPoll (hp : s.eng.pos = .txPoll length) (h : txPollRound length s = .next t) (hh : t.hang = none) :
    step s = .next t := by
  rw [step_of_not_idle (by simp [hp]), ← settle_of_none hh, ← h]
  simp only [resume, hp]

/-! ## The obligation -/

/-- Settles O45: an allocation without a buffer ends in `transmit_unclaimed`, a round of the poll as INT_STATUS and the clock
say. -/
theorem transmitOtherEnds : Obligations.TransmitOtherEnds := by
  refine ⟨fun s len hlen hb hq => ?_, fun s len hlen hb hr hatt hspin ht => ?_, fun s len p hlen hb hr hp hroom ht => ?_,
    fun s length hpos hb hh hq he => ?_, fun s length hpos hb hh hq he ht => ?_, fun s length hpos hh hq he ht => ?_⟩
  · obtain ⟨t, k, hx, ht⟩ := transmit_unanswered hlen hb hq
    refine ⟨_, hx, ⟨rfl, rfl⟩, ?_, ht.phy, fun a => congrArg (·.read a) ht.hostMem⟩
    exact ht.chip.trans (unselected_self s.params (s.chip.asked s.params len))
  · obtain ⟨t, k, r, d, hx, hs⟩ := transmit_denied hlen hb hr hatt hspin ht
    have hc := hs.chip.trans (unselected_self s.params
      { (s.chip.asked s.params len).denied s.params (arrValue s.params true r d) with arrSeen := true })
    have harr : t.chip.arr = arrValue s.params true r d := congrArg Chip.arr hc
    refine ⟨_, hx, ⟨rfl, ?_⟩, ?_, ?_, hs.phy, fun a => congrArg (·.read a) hs.hostMem⟩
    · rw [State.raise_chip, harr]
      rfl
    · rw [State.raise_chip, harr]
      exact has_arrValue ..
    · rw [State.raise_chip, hc, ← without_or_self]
      rfl
  · obtain ⟨t, k, seed, a, hx, hs⟩ := transmit_unseen hlen hb hr hp hroom ht
    have hc := hs.chip.trans (unselected_self s.params ((s.chip.asked s.params len).answeredSilently _ a))
    obtain ⟨⟨e, hentry, -⟩, -, hbytes⟩ := buffers_of_handedOut (s := s)
      (t := t.raise (.transmitAllocationFailed .exhausted) 0) (p := p) (congrArg Chip.table hc) (congrArg Chip.pktMem hc)
    refine ⟨_, hx, ⟨rfl, rfl⟩, ?_, congrArg Chip.pending hc, (congrArg Chip.txFifo hc :),
      (congrArg Chip.pnr hc :), (congrArg Chip.ptr hc :), hbytes⟩
    rw [Chip.allocated, hentry]
    rfl
  · obtain ⟨t, hx, ht⟩ := txPollRound_ends (length := length) he hb (restsFor_of_quiet hq 5)
    refine ⟨_, step_txPoll hpos hx (ht.hang.trans hh), ⟨rfl, rfl⟩, ?_⟩
    rw [State.finish_chip, ht.chip]
    rfl
  · obtain ⟨t, hx, ht⟩ := txPollRound_timesOut (length := length) he ht hb hq
    refine ⟨_, step_txPoll hpos hx (ht.hang.trans hh), ⟨rfl, rfl⟩, ?_⟩
    rw [State.raise_chip, ht.chip, Chip.unselected]
    cases s.params.restoreOnFailure <;> rfl
  · obtain ⟨t, hx, hs⟩ := txPollRound_parks (length := length) he ht (restsFor_of_quiet hq 1)
    refine ⟨t, step_txPoll hpos hx (hs.hang.trans hh), by rw [hs.eng], ?_⟩
    rw [hs.chip]

end Sys2Proof.Machine
end

section
/-! PROOFS. TRANSMIT whose buffer the MMU agent hands out and whose packet the transmitter sends in the gap behind the enqueue
(spec/42_transmit.md R200, R206 to R208, R210, R212, R213): the frame that is sent, and the buffer given back. -/

namespace Sys2Proof.Machine

variable {s t : State} {c : Chip} {q : Config.Params} {p : Pkt} {x : Entry} {bs : List Byte} {len : Word}
  {k length : Nat} {e : Engine} {tx : Bool} {rest : List Gap}

/-! ## The frame sent (R211, R212) -/

/-- A frame that has been taken is seen in the list of frames alone. -/
theorem State.Leads.send (h : s.Leads c e k t) (f : SentFrame) : (s.send f).Leads c e k (t.send f) :=
  { h with sent := congrArg (f :: ·) h.sent }

/-- The frame of a buffer that holds an envelope is its payload (R211). -/
theorem frameOf_of_envelope (hx : findEntry s.chip.table p = some x)
    (hb : HoldsEnvelope s.params bs (s.chip.bufByte x)) (hfit : evenPart bs.length + 6 ≤ x.capacity)
    (hlen : bs.length + 6 < 65536) : frameOf p s = ⟨p, some bs⟩ := by
  have hcount : (wordOf (s.chip.bufByte x 2) (s.chip.bufByte x 3)).toNat = bs.length + 6 := by
    obtain ⟨hlo, hhi⟩ := hb.count
    rw [hlo, hhi, wordOf_lowByte_highByte, BitVec.toNat_ofNat, Nat.mod_eq_of_lt hlen]
  have hfits : envelopeFits x (s.chip.bufByte x) = true := by
    simp only [envelopeFits, hcount, Config.envOverhead, decide_eq_true_eq]
    unfold evenPart at *
    omega
  simp only [frameOf, hx, Option.bind_some, hfits, if_true, hb.decode hlen]

/-! ## The transmitter's part (R212, R213) -/

/-- The chip unit whose transmitter has sent packet `p` and whose MMU agent has given its buffer back (R213, R192). -/
def Chip.transmitted (q : Config.Params) (tx : Bool) (p : Pkt) (c : Chip) : Chip :=
  { c.freePkt p with intStatus := c.intStatus ||| flag (intTx q) tx ||| intTxEmpty q }

/-- What happens in the gap: the packet is taken, sent, and its buffer given back. -/
def sendingEvents (tx : Bool) : List Event := [.agent .txDequeue, .agent (.txDone tx), .agent .autoFreeDone]

/-- The transmitter can send a packet and the MMU agent give its buffer back: nothing holds the chip unit in reset, it is
powered, in auto-release mode, and neither of them has anything to do yet (R212, R213). -/
structure Chip.CanSend (q : Config.Params) (c : Chip) : Prop where
  running : has c.rcr (softRst q) = false
  enabled : has c.tcr (txen q) = true
  powered : has c.config (powerEn q) = true
  auto : has c.ctl (autoRelease q) = true
  inFlight : c.inFlight = none
  autoFree : c.autoFree = []

theorem eventSteps_sendingEvents (h : s.chip.CanSend s.params) (hf : s.chip.txFifo = [p]) :
    (s.send (frameOf p s)).Leads ({ s.chip with txFifo := [] }.transmitted s.params tx p) s.eng 0
      (eventSteps (sendingEvents tx) s) := by
  obtain ⟨hr, hen, hpow, hauto, hfl, ha⟩ := h
  have hsteps : eventSteps (sendingEvents tx) s =
      agentStep .autoFreeDone (agentStep (.txDone tx) (agentStep .txDequeue s)) := rfl
  rw [hsteps, agentStep_txDequeue hr hen hpow hfl hf, agentStep_txDone (by exact hr), txSuccess_of_inFlight (p := p) rfl,
    agentStep_autoFreeDone (p := p) (ps := []) (by exact hr) (by simp [hauto, ha])]
  refine ⟨?_, rfl, rfl, rfl, rfl, rfl, rfl, rfl, rfl, rfl, rfl⟩
  simp [Chip.transmitted, Chip.freePkt, hauto, ha, hfl, flag]

/-- A command, and the events of the gap behind it. -/
theorem wrMmu_events {cmd : MmuCode} {events : List Event} (nx : Next) (hg : mmuGuard cmd s.params s.chip = none)
    (htape : s.env.tape = ⟨0, events⟩ :: rest) :
    ∃ y, wrMmu nx cmd s = .ok (eventSteps events y) ∧
      s.Leads (mmuEffect cmd s.params s.chip) { s.eng with pkt := handleAfter cmd s.eng.pkt } 1 y := by
  rw [wrMmu_of_guard hg, mmuIssue, gap_cons (by exact htape)]
  exact ⟨_, rfl, rfl, rfl, by rw [htape]; rfl, rfl, rfl, rfl, rfl, rfl, rfl, rfl, rfl⟩

/-- A frame depends on the parameters and the buffers alone. -/
theorem frameOf_congr (hp : t.params = s.params) (htable : t.chip.table = s.chip.table)
    (hmem : t.chip.pktMem = s.chip.pktMem) : frameOf p t = frameOf p s := by
  have hbyte (e : Entry) : t.chip.bufByte e = s.chip.bufByte e := by
    funext o
    rw [Chip.bufByte, Chip.bufByte, hmem]
  simp only [frameOf, hp, htable, hbyte]

/-- MMU_ENQUEUE, with its packet sent in the gap behind it. -/
theorem wrMmu_enqueue_sends (nx : Next) (hg : mmuGuard .enqueue s.params s.chip = none)
    (hsel : s.chip.pktSel s.params = p) (h : s.chip.CanSend s.params) (hf : s.chip.txFifo = [])
    (htape : s.env.tape = ⟨0, sendingEvents tx⟩ :: rest) :
    ∃ t, wrMmu nx .enqueue s = .ok t ∧
      (s.send (frameOf p s)).Leads (s.chip.transmitted s.params tx p) { s.eng with pkt := none } 1 t := by
  obtain ⟨y, hgap, hy⟩ := wrMmu_events nx hg htape
  have hsent := eventSteps_sendingEvents (s := y) (p := p) (tx := tx) (by rw [hy.chip, hy.params]; exact { h with })
    (by rw [hy.chip, mmuEffect, hf, hsel]; rfl)
  rw [frameOf_congr hy.params (by rw [hy.chip]; rfl) (by rw [hy.chip]; rfl)] at hsent
  refine ⟨_, hgap, ((hy.send (frameOf p s)).keeps hsent rfl).congr ?_ rfl⟩
  rw [hy.chip, hy.params, mmuEffect, ← hf]

/-! ## The operation -/

/-- The caller's bytes at the front of a padded frame (R136). -/
theorem State.Pads.take {len : Nat} (h : s.Pads len 0 bs) (hl : len ≤ bs.length) :
    bs.take len = (List.range len).map (s.hostRead s.eng.bufRef) := by
  refine List.ext_getElem? fun i => ?_
  rcases Nat.lt_or_ge i len with hi | hi
  · simp [hi, h i (Nat.lt_of_lt_of_le hi hl) (by omega)]
  · simp [hi]

/-- Steps 1 to 12, with the buffer that has been handed out (R138, R200). -/
theorem transmit_packs (hbits : bitsOk s.params.bits) (hlen : len.toNat ≤ 2041)
    (hb : s.chip.busy = false) (hr : has s.chip.rcr (softRst s.params) = false) (hp : s.chip.allocated p = false)
    (hroom : usedPages s.chip.table + (pageCode (paddedLength len.toNat) + 1) ≤ s.params.totalPages)
    (hatt : 1 ≤ s.params.allocAttempts) (hspin : 1 ≤ s.params.allocSpin)
    (htape : s.env.tape = quietGaps 3 ++ (agentGap (.allocOk p) ++
      (quietGaps 2 ++ (quietGaps (paddedLength len.toNat / 2 + 5) ++ rest)))) :
    ∃ t x arr bs k, exec (.transmit len) s = sendPacked (paddedLength len.toNat) t ∧ x.pkt = p ∧
      x.pages = pageCode (paddedLength len.toNat) + 1 ∧ bs.length = paddedLength len.toNat ∧ s.Pads len.toNat 0 bs ∧
      t.env.tape = rest ∧
      s.Leads (s.chip.filled s.params (allocCode len) x arr bs)
        { s.eng with savedPnr := s.chip.pnr, savedPtr := s.chip.ptr, pkt := some p } k t := by
  have hcode := pageCode_le hlen
  obtain ⟨u, seed, b, hclaim, hu⟩ := claimBuffer_claimed (s := s.begin (.transmit len)) hcode hbits hb hr hp hroom hatt
    hspin htape (by simp [quietGaps])
  have hu := (leads_begin (.transmit len) s).trans hu rfl
  have htu : u.env.tape = quietGaps (paddedLength len.toNat / 2 + 5) ++ rest := by rw [hu.tape, htape]; rfl
  have hx := findEntry_insertEntry s.chip.table ⟨p, pageCode (paddedLength len.toNat) + 1, seed⟩ p
  rw [if_pos rfl] at hx
  obtain ⟨t, bs, hpack, hbs, hpads, ht⟩ := packFrame_packed (x := ⟨p, pageCode (paddedLength len.toNat) + 1, seed⟩)
    (len := len.toNat) (by rwa [hu.params]) (by rw [hu.chip, hu.params]; rfl) (by rw [hu.chip]; exact hx)
    (evenPart_fits (paddedLength len.toNat)) (restsFor_of_quietGaps htu)
  refine ⟨t, ⟨p, _, seed⟩, arrValue s.params false p b, bs, _, ?_, rfl, rfl, hbs, hu.pads rfl hpads, ?_,
    (hu.keeps ht rfl).congr ?_ rfl⟩
  · have hfits : ¬ Config.maxPageCode < pageCode (paddedLength len.toNat) := Nat.not_lt.2 hcode
    simp only [exec, execTransmit, hfits, if_false, hclaim, hpack, andThen_ok]
  · rw [ht.tape, htu, List.drop_left' (by simp [quietGaps])]
  · rw [hu.chip, hu.params]
    rfl

/-- INT_STATUS with the packet sent and TX_EMPTY acknowledged (R208, R213). -/
def Chip.sentStatus (q : Config.Params) (tx : Bool) (c : Chip) : Byte :=
  without (c.intStatus ||| flag (intTx q) tx ||| intTxEmpty q) (intTxEmpty q)

/-- The chip unit at the end: what the envelope was written in has been given back, the selection is restored. -/
def Chip.delivered (q : Config.Params) (tx : Bool) (p : Pkt) (pnr : Byte) (ptr : Word) (c : Chip) : Chip :=
  { c.freePkt p with
    intMask := c.intMask ||| (intTx q ||| intTxEmpty q)
    intStatus := c.sentStatus q tx }.reselected q pnr ptr

/-- Steps 13 to 20, where the packet is sent behind the enqueue (R206 to R208, R213). -/
theorem sendPacked_sends (hg : mmuGuard .enqueue s.params s.chip = none) (hsel : s.chip.pktSel s.params = p)
    (h : s.chip.CanSend s.params) (hf : s.chip.txFifo = []) (hp : s.chip.pending = none) (hs : s.chip.arrSeen = true)
    (htape : s.env.tape = quietGaps 2 ++ [⟨0, sendingEvents tx⟩]) :
    ∃ t, sendPacked length s = .next (t.finish .ok length) ∧
      (s.send (frameOf p s)).Leads
        (s.chip.delivered s.params tx p s.eng.savedPnr s.eng.savedPtr) { s.eng with pkt := none, t0 := s.env.now } 8 t := by
  have hmask := enableTxInts_leads (restsFor_of_quietGaps htape)
  obtain ⟨u, hw, hu⟩ := wrMmu_enqueue_sends (s := enableTxInts s) (p := p) (tx := tx) (rest := []) (.to 15)
    (by rw [hmask.chip, hmask.params]; exact hg) (by rw [hmask.chip, hmask.params]; exact hsel)
    (by rw [hmask.chip, hmask.params]; exact { h with }) (by rwa [hmask.chip]) (by rw [hmask.tape, htape]; rfl)
  rw [frameOf_congr hmask.params (by rw [hmask.chip]) (by rw [hmask.chip])] at hu
  have hu := (hmask.send (frameOf p s)).trans hu rfl
  rw [hmask.chip, hmask.params, hmask.eng] at hu
  have hv := hu.trans (leads_setEng { u.eng with t0 := u.env.now } u) rfl
  have hq : (u.setEng { u.eng with t0 := u.env.now }).Quiet := by rw [State.Quiet, hv.tape, State.send_env, htape]; rfl
  obtain ⟨t, hx, ht⟩ := txPollRound_ends (s := u.setEng { u.eng with t0 := u.env.now }) (length := length)
    (by simp [hu.chip, hu.params, Chip.transmitted, has_or, intTxEmpty, has_bit_self])
    (by rw [hv.chip, hu.chip]; exact (busy_of_no_command (by exact hp) (by exact h.autoFree)).1) (restsFor_of_quiet hq 5)
  refine ⟨t, by simp only [sendPacked, hw, andThen_ok, hx], (hv.trans ht rfl).congr ?_ ?_⟩
  · rw [State.setEng_eng, State.setEng_chip, State.setEng_params, hu.chip, hu.params, hu.eng]
    simp [Chip.delivered, Chip.reselected, Chip.polled, Chip.transmitted, Chip.freePkt, Chip.sentStatus, hs]
  · rw [State.setEng_eng, hu.eng, hu.now]
    rfl

/-- The envelope of a frame of at most 2041 bytes lies in the address space of one buffer (R42, R138). -/
theorem envelope_lt_span (hlen : len.toNat ≤ 2041) (hbs : bs.length = paddedLength len.toNat) :
    evenPart bs.length + 6 ≤ bufferSpan := by
  have hfit := evenPart_fits bs.length
  have hcode := pageCode_le hlen
  rw [← hbs] at hcode
  unfold bufferSpan
  omega

/-- The whole operation (R200). -/
theorem transmit_sends (hbits : bitsOk s.params.bits) (hlen : len.toNat ≤ 2041) (hb : s.chip.busy = false)
    (h : s.chip.CanSend s.params) (hp : s.chip.allocated p = false) (hqueued : s.chip.queued p = false)
    (hroom : usedPages s.chip.table + (pageCode (paddedLength len.toNat) + 1) ≤ s.params.totalPages)
    (hatt : 1 ≤ s.params.allocAttempts) (hspin : 1 ≤ s.params.allocSpin) (hf : s.chip.txFifo = [])
    (htape : s.env.tape = quietGaps 3 ++ agentGap (.allocOk p) ++ quietGaps (paddedLength len.toNat / 2 + 9) ++
      [⟨0, sendingEvents tx⟩]) :
    ∃ t x arr bs k, exec (.transmit len) s = .next (t.finish .ok (paddedLength len.toNat)) ∧ x.pkt = p ∧
      bs.length = paddedLength len.toNat ∧ s.Pads len.toNat 0 bs ∧
      (s.send ⟨p, some bs⟩).Leads
        ((s.chip.filled s.params (allocCode len) x arr bs).delivered s.params tx p s.chip.pnr s.chip.ptr)
        { s.eng with savedPnr := s.chip.pnr, savedPtr := s.chip.ptr, pkt := none, t0 := s.env.now } k t := by
  rw [show paddedLength len.toNat / 2 + 9 = 2 + (paddedLength len.toNat / 2 + 5) + 2 by omega, quietGaps_add,
    quietGaps_add] at htape
  simp only [List.append_assoc] at htape
  obtain ⟨u, x, arr, bs, k, h1, rfl, hpages, hbs, hpads, hut, hu⟩ :=
    transmit_packs hbits hlen hb h.running hp hroom hatt hspin htape
  obtain ⟨t, h2, ht⟩ := sendPacked_sends (s := u) (p := x.pkt) (tx := tx) (length := paddedLength len.toNat)
    (by rw [hu.chip, hu.params]; exact mmuGuard_filled hb hqueued) (by rw [hu.chip, hu.params]; exact pktSel_filled ..)
    (by rw [hu.chip, hu.params]; exact { h with }) (by rw [hu.chip]; exact hf) (by rw [hu.chip]; rfl)
    (by rw [hu.chip]; rfl) hut
  have hframe : frameOf x.pkt u = ⟨x.pkt, some bs⟩ := by
    refine frameOf_of_envelope (x := x) ?_ ?_ ?_ ?_
    · rw [hu.chip, findEntry_filled, if_pos rfl]
    · rw [hu.chip, hu.params]
      exact holdsEnvelope_filled _ _ _ _ _ _
    · rw [hbs, Entry.capacity, hpages]
      exact evenPart_fits _
    · have := envelope_lt_span hlen hbs
      unfold evenPart bufferSpan at this
      omega
  rw [hframe] at ht
  refine ⟨t, x, arr, bs, _, h1.trans h2, rfl, hbs, hpads, ((hu.send _).trans ht rfl).congr ?_ ?_⟩
  · rw [hu.chip, hu.params, hu.eng]
  · rw [hu.eng, hu.now]

theorem findEntry_of_free (h : c.allocated p = false) : findEntry c.table p = none := by
  simpa [Chip.allocated] using h

/-- The buffer is free again, and every other entry of the table is what it was. -/
theorem findEntry_delivered {n : BitVec 3} {arr pnr : Byte} {ptr : Word} (h : c.allocated x.pkt = false) (r : Pkt) :
    findEntry ((c.filled q n x arr bs).delivered q tx x.pkt pnr ptr).table r = findEntry c.table r := by
  refine (findEntry_filter (c.filled q n x arr bs).table r x.pkt).trans ?_
  by_cases hr : r = x.pkt
  · rw [if_pos hr, hr, findEntry_of_free h]
  · rw [if_neg hr, findEntry_filled, if_neg hr]

/-- Settles O43: the transmitter takes the envelope that steps 7 to 12 have written (`transmit_sends`), and the buffer it was
written in is given back. -/
theorem transmitSendsTheFrame : Obligations.TransmitSendsTheFrame := by
  intro s len p tx hbits hlen hb hr hp hqueued hroom hatt hspin hf hfl hen hpow hauto htape
  obtain ⟨t, x, arr, bs, k, hx, rfl, hbs, hpads, ht⟩ := transmit_sends hbits hlen hb
    ⟨hr, hen, hpow, hauto, hfl, autoFree_of_idle hb⟩ hp hqueued hroom hatt hspin hf htape
  have hentry (r : Pkt) : findEntry t.chip.table r = findEntry s.chip.table r := by
    rw [ht.chip]
    exact findEntry_delivered hp r
  refine ⟨_, bs, hx, ⟨rfl, rfl⟩, ht.sent, hbs, hpads.take (by rw [hbs]; exact Nat.le_max_left ..), ?_, ?_, ?_, hentry,
    fun r o ho => ?_, ht.phy, fun a => congrArg (·.read a) ht.hostMem, ht.irq, rfl, congrArg Engine.savedPnr ht.eng,
    congrArg Engine.savedPtr ht.eng⟩
  · rw [State.finish_chip, ht.chip]
    rfl
  · rw [State.finish_chip, ht.chip]
    exact has_without_self _ _
  · rw [State.finish_chip, Chip.allocated, hentry, findEntry_of_free hp]
    rfl
  · by_cases hne : r = x.pkt
    · rw [State.packetByte, State.packetByte, State.finish_chip, hentry, hne, findEntry_of_free hp]
      rfl
    · rw [packetByte_of_forget (t := t.finish .ok (paddedLength len.toNat))
        (s := s.setChip (s.chip.filled s.params (allocCode len) x arr bs)) (p := x.pkt) ?_ ?_ hne ho]
      · exact map_bufByte_filled hne ho (envelope_lt_span hlen hbs)
      · rw [State.finish_chip, State.setChip_chip, hentry, findEntry_filled, if_neg hne]
      · rw [State.finish_chip, ht.chip]
        rfl

end Sys2Proof.Machine
end

section
/-! PROOFS. The receiver agent's step (spec/43_receive.md R232): a frame that fits fills a buffer that nobody holds, and every
other buffer reads as before. -/

namespace Sys2Proof.Machine

variable {s t : State} {p q : Pkt} {pages o : Nat} {status lenWord : Word} {payload bs : List Byte}

/-! ## Bytes written from the start of a buffer on -/

/-- The bytes written stand in the buffer (R80). -/
theorem packetByte_of_written {e : Entry} (hf : findEntry t.chip.table p = some e)
    (hm : t.chip.pktMem = s.chip.pktMem.writeBytes (pktAddr p 0) bs) {k : Nat} (hk : k < bs.length) :
    t.packetByte p k = some bs[k] := by
  refine packetByte_of_read hf ?_
  rw [hm, show pktAddr p k = pktAddr p 0 + k by rw [← pktAddr_add, Nat.zero_add]]
  simp [Memory.read_writeBytes, hk]

/-- Every other buffer reads as before, since no buffer reaches into the next (R42, R70). -/
theorem packetByte_of_written_other (ht : t.chip.table = s.chip.table)
    (hm : t.chip.pktMem = s.chip.pktMem.writeBytes (pktAddr p 0) bs) (hbs : bs.length ≤ bufferSpan) (hq : q ≠ p)
    (ho : o < bufferSpan) : t.packetByte q o = s.packetByte q o := by
  have hne : q.toNat ≠ p.toNat := fun h => hq (BitVec.eq_of_toNat_eq h)
  have hout : pktAddr q o < pktAddr p 0 ∨ pktAddr p 0 + bs.length ≤ pktAddr q o := by
    unfold pktAddr bufferSpan at *
    omega
  rw [State.packetByte, State.packetByte, ht]
  refine Option.map_congr fun e he => ?_
  rw [Chip.bufByte, Chip.bufByte, hm, (findEntry_some he).2, Memory.read_writeBytes_of_out _ _ _ _ hout]

/-! ## The receiver's step -/

/-- What the receiver writes into a buffer: the two header words and the payload (R140, R141, R232). -/
def rxBytes (status lenWord : Word) (payload : List Byte) : List Byte :=
  wordBytes status ++ wordBytes lenWord ++ payload

/-- The chip unit behind the arrival of a frame in buffer `p`. -/
def Chip.arrived (p : Pkt) (pages seed : Nat) (bs : List Byte) (c : Chip) : Chip :=
  { c.takePkt p pages seed with
    pktMem := (c.takePkt p pages seed).pktMem.writeBytes (pktAddr p 0) bs
    rxFifo := (c.takePkt p pages seed).rxFifo ++ [p] }

/-- A frame of R232 that finds room is taken. -/
theorem chip_agentStep_rxFrame (hr : has s.chip.rcr (softRst s.params) = false)
    (hx : has s.chip.rcr (rxen s.params) = true) (hpow : has s.chip.config (powerEn s.params) = true)
    (ha : s.chip.allocated p = false) (hroom : usedPages s.chip.table + pages ≤ s.params.totalPages) (h1 : 1 ≤ pages)
    (h8 : pages ≤ 8) (hfit : rawLen lenWord + rawLen lenWord % 2 ≤ pages * 256)
    (hlen : payload.length = rawLen lenWord - 4) :
    (agentStep (.rxFrame p pages status lenWord payload) s).chip =
      s.chip.arrived p pages s.env.draw (rxBytes status lenWord payload) := by
  have hfits : 1 ≤ pages ∧ pages ≤ 8 ∧ roundEven (rawLen lenWord) ≤ pages * Config.pageBytes := ⟨h1, h8, hfit⟩
  have htake : payload.take (rawLen lenWord - Config.rxHeaderBytes) = payload :=
    List.take_of_length_le (Nat.le_of_eq hlen)
  simp [agentStep, Chip.inSoftReset, hr, rxArrive, hx, hpow, roomFor, ha, hroom, hfits, htake, Chip.arrived, rxBytes]

theorem length_rxBytes (status lenWord : Word) (payload : List Byte) :
    (rxBytes status lenWord payload).length = payload.length + 4 := by
  simp [rxBytes, wordBytes]

/-- Settles O19: the buffer is handed out (`buffers_of_handedOut`), and then the bytes of the frame are written from its
start on (`packetByte_of_written`). -/
theorem receiverFillsAWholeBuffer : Obligations.ReceiverFillsAWholeBuffer := by
  intro s p pages status lenWord payload hr hx hpow ha hroom h1 h8 hfit hlen
  have ht := chip_agentStep_rxFrame (status := status) hr hx hpow ha hroom h1 h8 hfit hlen
  generalize agentStep _ s = t at ht ⊢
  have htable := congrArg Chip.table ht
  have hmem := congrArg Chip.pktMem ht
  obtain ⟨⟨e, he, -⟩, -, hother⟩ := buffers_of_handedOut (s := s)
    (t := s.setChip (s.chip.takePkt p pages s.env.draw)) (p := p) (n := pages) (k := s.env.draw) rfl rfl
  have hbyte {k : Nat} {b : Byte} (hk : (rxBytes status lenWord payload)[k]? = some b) : t.packetByte p k = some b := by
    obtain ⟨hlt, rfl⟩ := List.getElem?_eq_some_iff.1 hk
    exact packetByte_of_written (s := s.setChip _) (by rw [htable]; exact he) hmem hlt
  refine ⟨congrArg Chip.rxFifo ht, hbyte rfl, hbyte rfl, hbyte rfl, hbyte rfl, fun i h => hbyte ?_, fun q o hq ho => ?_⟩
  · rw [rxBytes, List.getElem?_append_right (by simp [wordBytes])]
    simp [wordBytes, h]
  · have hspan : (rxBytes status lenWord payload).length ≤ bufferSpan := by
      rw [length_rxBytes]
      unfold bufferSpan
      omega
    exact (packetByte_of_written_other (s := s.setChip (s.chip.takePkt p pages s.env.draw)) htable hmem hspan hq ho).trans
      (hother q o hq ho)

end Sys2Proof.Machine
end

section
/-! PROOFS. Steps 1 to 13 of RECEIVE (spec/43_receive.md R220 to R225) while nothing happens in their gaps: the poll of the
receive FIFO, the header, and the copy of the payload from the buffer at its head. -/

namespace Sys2Proof.Machine

variable {s t u : State} {c c' : Chip} {q : Config.Params} {p : Pkt} {ps : List Pkt} {x : Entry} {n k d sink : Nat}

/-! ## The poll (R221) -/

/-- Steps 1 to 3: PB is selected, the selection saved, FIFO read. -/
def pollFifo (s : State) : Word × State :=
  rd (.to 4) .fifo 2 (saveCtx (.to 2 2) (.to 3) (wrBank (.to 2) s.params.regs.pb (s.begin .receive)))

theorem exec_receive (s : State) :
    exec .receive s = if has (pollFifo s).1 (rempty s.params) then .next ((pollFifo s).2.finish .ok 0)
      else rxHeader (pollFifo s).2 := rfl

/-- The chip unit with PB selected. -/
def Chip.inPacketBank (q : Config.Params) (c : Chip) : Chip := { c with bank := q.regs.pb }

/-- Steps 1 and 2. -/
theorem rxSave_leads (hr : s.RestsFor 3) :
    s.Leads (s.chip.inPacketBank s.params) { s.eng with savedPnr := s.chip.pnr, savedPtr := s.chip.ptr } 3
      (saveCtx (.to 2 2) (.to 3) (wrBank (.to 2) s.params.regs.pb (s.begin .receive))) := by
  have hbegin := leads_begin .receive s
  have hbank := wr_leads (s := s.begin .receive) (c := s.chip.inPacketBank s.params) (.to 2) .bsr 2
    (v := bankWord s.params s.params.regs.pb) (by rw [setReg_bsr]; simp [Chip.inPacketBank]) (hbegin.rests hr (by omega))
  have hsel := hbegin.keeps hbank rfl
  refine (hsel.trans (saveCtx_leads (.to 2 2) (.to 3) (hsel.rests hr (by omega))) rfl).congr hsel.chip ?_
  rw [hsel.chip, hsel.eng]
  rfl

/-- Steps 1 to 3: FIFO shows whether a frame waits (R32). -/
theorem pollFifo_leads (hr : s.RestsFor 4) :
    has (pollFifo s).1 (rempty s.params) = s.chip.rxFifo.isEmpty ∧
      s.Leads (s.chip.inPacketBank s.params) { s.eng with savedPnr := s.chip.pnr, savedPtr := s.chip.ptr } 4
        (pollFifo s).2 := by
  have hsave := rxSave_leads (hr.mono (by omega))
  have hfifo := rd_leads (.to 4) .fifo 2 (hsave.rests hr (by omega))
  have hempty := readReg_fifo_rempty
    (saveCtx (.to 2 2) (.to 3) (wrBank (.to 2) s.params.regs.pb (s.begin .receive)))
  rw [hsave.params, hsave.chip] at hempty
  exact ⟨hempty, (hsave.keeps hfifo rfl).congr hsave.chip rfl⟩

/-- An empty receive FIFO ends the operation (R221). -/
theorem receive_pollMiss (hf : s.chip.rxFifo = []) (hr : s.RestsFor 4) :
    exec .receive s = .next ((pollFifo s).2.finish .ok 0) := by
  rw [exec_receive, (pollFifo_leads hr).1, hf]
  rfl

theorem receive_polled (hf : s.chip.rxFifo = p :: ps) (hr : s.RestsFor 4) :
    exec .receive s = rxHeader (pollFifo s).2 := by
  rw [exec_receive, (pollFifo_leads hr).1, hf]
  rfl

/-! ## Reading the buffer at the head of the receive FIFO (R88, R89) -/

/-- Reads of DATA reach the buffer of packet `p`, at the head of the receive FIFO, and advance `dp` (R86 to R92, R132). -/
structure Chip.Drains (q : Config.Params) (p : Pkt) (x : Entry) (c : Chip) : Prop where
  bank : c.bank = q.regs.pb
  head : c.rxFifo.head? = some p
  entry : findEntry c.table p = some x
  rcv : has c.ptr (ptrRcv q) = true
  read : has c.ptr (ptrRead q) = true
  autoinc : has c.ptr (ptrAutoinc q) = true

/-- The chip unit with the data-path offset somewhere else. -/
def Chip.atOffset (d : Nat) (c : Chip) : Chip := { c with dp := d }

/-- The word at an offset of a buffer, its first byte low (R80). -/
def Chip.bufWord (c : Chip) (x : Entry) (d : Nat) : Word := wordOf (c.bufByte x d) (c.bufByte x (d + 1))

theorem Chip.Drains.dataReady (h : c.Drains q p x) (hc : s.chip = c.atOffset d) (hq : s.params = q) (he : d % 2 = 0)
    (hl : d + 2 ≤ x.pages * 256) : s.DataReady p x 2 true where
  bank := by rw [hc, hq]; exact h.bank
  target := by
    rw [hc, hq, show (c.atOffset d).ptr = c.ptr from rfl, if_pos h.rcv]
    exact h.head
  entry := by rw [hc]; exact h.entry
  mode := by rw [hc, hq]; exact h.read
  range := by rw [hc]; exact hl
  aligned := by rw [hc]; exact he

/-- The next word of the buffer (R90, R222, R224). -/
theorem dataRead_drains (h : c.Drains q p x) (hc : s.chip = c.atOffset d) (hq : s.params = q) (he : d % 2 = 0)
    (hl : d + 2 ≤ x.pages * 256) :
    ∃ v, dataRead 2 s = .ok (v, s.setChip (c.atOffset (d + 2))) ∧ lowWord v = c.bufWord x d := by
  have ha : s.advanced 2 = d + 2 := by
    unfold State.advanced
    rw [hc, hq, show (c.atOffset d).ptr = c.ptr from rfl, h.autoinc]
    rfl
  refine ⟨s.dataLong x 2, ?_, ?_⟩
  · rw [(h.dataReady hc hq he hl).dataRead, advance_eq, ha, State.dataLong, hc]
    rfl
  · rw [dataLong_word, hc]
    rfl

theorem rdData_drains (nx : Next) (h : c.Drains q p x) (hc : s.chip = c.atOffset d) (hq : s.params = q) (he : d % 2 = 0)
    (hl : d + 2 ≤ x.pages * 256) (hr : s.RestsFor 1) :
    ∃ t, rdData nx s = .ok (c.bufWord x d, t) ∧ s.Leads (c.atOffset (d + 2)) s.eng 1 t := by
  obtain ⟨v, hread, hv⟩ := dataRead_drains h hc hq he hl
  unfold rdData
  rw [hread, ← hv]
  exact ⟨_, rfl, (leads_setChip _ s).access _ nx hr⟩

/-! ## The header (R222) -/

/-- The chip unit with the pointer word of RECEIVE (R132). -/
def Chip.rxSelected (q : Config.Params) (c : Chip) : Chip := { c with ptr := ptrRxRead q, dp := 0, dpStale := false }

theorem offsetOf_ptrRxRead (hbits : bitsOk q.bits) : offsetOf q (ptrRxRead q) = 0 := by
  obtain ⟨-, -, -, -, hoff, -⟩ := hbits
  have hv := hoff q.bits.rcv (by simp)
  have ha := hoff q.bits.autoinc (by simp)
  have hd := hoff q.bits.read (by simp)
  have hz : getField q.bits.offset.val 11 (ptrRxRead q) = 0#11 := by
    apply BitVec.eq_of_getLsbD_eq
    intro i hi
    simp only [getLsbD_getField, ptrRxRead, ptrRcv, ptrAutoinc, ptrRead, BitVec.getLsbD_or, getLsbD_bit]
    simp
    omega
  rw [offsetOf, hz]
  rfl

theorem drains_rxSelected (hb : c.bank = q.regs.pb) (hf : c.rxFifo = p :: ps) (hx : findEntry c.table p = some x) :
    (c.rxSelected q).Drains q p x := by
  refine ⟨hb, congrArg List.head? hf, hx, ?_, ?_, ?_⟩ <;>
    simp [Chip.rxSelected, ptrRxRead, ptrRcv, ptrAutoinc, ptrRead, has_bit]

/-- Steps 5 to 7: the two header words stand at offsets 0 and 2, and `dp` is left at 4 (R222). -/
theorem rxHeader_leads (hbits : bitsOk s.params.bits) (h : (s.chip.rxSelected s.params).Drains s.params p x)
    (hp : 1 ≤ x.pages) (hr : s.RestsFor 3) :
    ∃ t, rxHeader s = rxBody (s.chip.bufWord x 0) (s.chip.bufWord x 2) t ∧
      s.Leads ((s.chip.rxSelected s.params).atOffset 4) s.eng 3 t := by
  have hptr := wr_leads (c := s.chip.rxSelected s.params) (.to 6) .ptr 2 (v := ptrRxRead s.params)
    (by rw [setReg_ptr, offsetOf_ptrRxRead hbits]; rfl) (hr.mono (by omega))
  obtain ⟨a, ha, hs⟩ := rdData_drains (d := 0) (.to 7) h hptr.chip hptr.params rfl (by omega) (hptr.rests hr (by omega))
  have hs := hptr.keeps hs rfl
  obtain ⟨b, hb, ht⟩ := rdData_drains (.to 8) h hs.chip hs.params rfl (by omega) (hs.rests hr (by omega))
  refine ⟨b, ?_, hs.keeps ht rfl⟩
  simp only [rxHeader, ha, hb, andThen_ok]
  rfl

/-! ## The copy (R224, R225) -/

/-- `n` bytes of a buffer from offset `d` on. -/
def Chip.bufBytes (c : Chip) (x : Entry) (d n : Nat) : List Byte := (List.range n).map fun i => c.bufByte x (d + i)

theorem length_bufBytes (c : Chip) (x : Entry) (d n : Nat) : (c.bufBytes x d n).length = n := by simp [Chip.bufBytes]

theorem bufBytes_add (c : Chip) (x : Entry) (d m n : Nat) :
    c.bufBytes x d (m + n) = c.bufBytes x d m ++ c.bufBytes x (d + m) n := by
  simp [Chip.bufBytes, List.range_add, Nat.add_assoc]

theorem wordBytes_bufWord (c : Chip) (x : Entry) (d : Nat) : wordBytes (c.bufWord x d) = c.bufBytes x d 2 := by
  simp [wordBytes, Chip.bufWord, Chip.bufBytes, List.range_succ]

theorem bufBytes_one (c : Chip) (x : Entry) (d : Nat) : c.bufBytes x d 1 = [lowByte (c.bufWord x d)] := by
  simp [Chip.bufWord, Chip.bufBytes]

/-- What a part leaves unchanged does not depend on what the host buffers hold. -/
theorem State.Leads.setHost {e : Engine} (h : s.Leads c e k t) (m : Memory) : (s.setHost m).Leads c e k (t.setHost m) :=
  { h with hostMem := rfl }

/-- `s` with bytes written to the host buffer at `a` (R12). -/
def State.putBytes (a : Nat) (bs : List Byte) (s : State) : State := s.setHost (s.hostMem.writeBytes a bs)

/-- The host bytes behind an access, and the sequencer behind them (R14). -/
theorem State.Leads.hostBytes {e : Engine} (h : s.Leads c e k t) (a : Nat) (bs : List Byte) (nx : Next) :
    (s.putBytes a bs).Leads c e k ((t.putBytes a bs).advance nx) := by
  have hput := h.setHost (t.hostMem.writeBytes a bs)
  unfold State.putBytes
  rw [← h.hostMem]
  exact (hput.keeps (leads_advance nx _) rfl).congr hput.chip rfl

/-- Two parts that write host bytes one behind the other. -/
theorem State.Leads.putBytes {e : Engine} {a b j : Nat} {bs bs' : List Byte} (h : (s.putBytes a bs).Leads c e j t)
    (g : (t.putBytes b bs').Leads c' t.eng k u) (hb : b = a + bs.length) :
    (s.putBytes a (bs ++ bs')).Leads c' e (j + k) u := by
  have hmem : t.hostMem.writeBytes b bs' = s.hostMem.writeBytes a (bs ++ bs') := by
    rw [Memory.writeBytes_append, h.hostMem, hb]
    rfl
  unfold State.putBytes at g
  rw [hmem] at g
  exact (h.setHost _).keeps g rfl

/-- Step 10, one word: its two bytes go to the sink, low byte first (R93, R224). -/
theorem copyWords_succ_leads (h : c.Drains q p x) (sink n k : Nat) (hc : s.chip = c.atOffset d) (hq : s.params = q)
    (he : d % 2 = 0) (hl : d + 2 ≤ x.pages * 256) (hr : s.RestsFor 1) :
    ∃ t, copyWords sink (n + 1) k s = copyWords sink n (k + 1) t ∧
      (s.putBytes (sink + 2 * k) (c.bufBytes x d 2)).Leads (c.atOffset (d + 2)) s.eng 1 t := by
  obtain ⟨a, ha, hs⟩ := rdData_drains (.to 10 2 (.word k)) h hc hq he hl hr
  refine ⟨_, by rw [copyWords, ha], ?_⟩
  rw [← wordBytes_bufWord]
  exact hs.hostBytes _ _ _

/-- Step 10: `n` words from offset `d` on stand in the sink behind its first `k` words. -/
theorem copyWords_leads (h : c.Drains q p x) (sink : Nat) : ∀ (n k d : Nat) (s : State), s.chip = c.atOffset d →
    s.params = q → d % 2 = 0 → d + 2 * n ≤ x.pages * 256 → s.RestsFor n →
    ∃ t, copyWords sink n k s = .ok t ∧
      (s.putBytes (sink + 2 * k) (c.bufBytes x d (2 * n))).Leads (c.atOffset (d + 2 * n)) s.eng n t := by
  intro n
  induction n with
  | zero => exact fun k d s hc hq he hl hr => ⟨s, rfl, (leads_bump 0 s).congr hc rfl⟩
  | succ n ih =>
    intro k d s hc hq he hl hr
    obtain ⟨a, ha, hs⟩ := copyWords_succ_leads h sink n k hc hq he (by omega) (hr.mono (by omega))
    obtain ⟨t, ht, hst⟩ := ih (k + 1) (d + 2) a hs.chip (hs.params.trans hq) (by omega) (by omega)
      (hs.rests (s := s.putBytes _ _) hr (by omega))
    refine ⟨t, ha.trans ht, ?_⟩
    have hall := hs.putBytes hst (by rw [length_bufBytes, Nat.mul_succ, Nat.add_assoc])
    rw [← bufBytes_add] at hall
    rw [Nat.mul_succ, Nat.add_comm (2 * n), Nat.add_comm n]
    exact hall.congr (by rw [Nat.add_assoc]) rfl

/-- Steps 10 and 11: the payload stands in the sink, of the last word of an odd one the low byte alone (R225). -/
theorem copyPayload_leads (h : c.Drains q p x) (sink : Nat) (hc : s.chip = c.atOffset 4) (hq : s.params = q)
    (hl : n + n % 2 + 4 ≤ x.pages * 256) (hr : s.RestsFor ((n + 1) / 2)) :
    ∃ t d, copyPayload sink n s = .ok t ∧
      (s.putBytes sink (c.bufBytes x 4 n)).Leads (c.atOffset d) s.eng ((n + 1) / 2) t := by
  obtain ⟨a, ha, hs⟩ := copyWords_leads h sink (n / 2) 0 4 s hc hq rfl (by omega) (hr.mono (by omega))
  obtain ⟨m, rfl | rfl⟩ := n.even_or_odd'
  · rw [Nat.mul_div_cancel_left m (by omega)] at ha hs
    exact ⟨a, _, by simp [copyPayload, ha], by rwa [show (2 * m + 1) / 2 = m by omega]⟩
  · have hm : (2 * m + 1) / 2 = m := by omega
    rw [hm] at ha hs
    rw [show (2 * m + 1 + 1) / 2 = m + 1 by omega] at hr ⊢
    obtain ⟨b, hb, ht⟩ := rdData_drains (.to 11 2) h hs.chip (hs.params.trans hq) (by omega) (by omega)
      (hs.rests (s := s.putBytes _ _) hr (by omega))
    refine ⟨(b.hostWrite sink (2 * m) (lowByte (c.bufWord x (4 + 2 * m)))).advance (.to 12), 4 + 2 * m + 2, ?_, ?_⟩
    · simp [copyPayload, hm, ha, hb]
    · rw [bufBytes_add, bufBytes_one]
      exact hs.putBytes (ht.hostBytes (sink + 2 * m) _ (.to 12)) (by rw [length_bufBytes, Nat.mul_zero, Nat.add_zero])

end Sys2Proof.Machine
end

section
/-! PROOFS. Steps 14 to 19 of RECEIVE (spec/43_receive.md R226, R227) where the MMU agent completes the release in the gap behind
it, and RECEIVE's ends: the frame delivered, the poll-miss, the frame discarded, the length fault. -/

namespace Sys2Proof.Machine

variable {s t : State} {c : Chip} {q : Config.Params} {p : Pkt} {ps : List Pkt} {x : Entry} {n k d : Nat} {o : RxOutcome}

/-! ## The release (R226) -/

/-- A release command that the agent completes in the gap behind it, and the wait of step 16. -/
theorem rxRelease_leads (o : RxOutcome) (hp : s.chip.pending = none) (ha : s.chip.autoFree = [])
    (hr : has s.chip.rcr (softRst s.params) = false) (hf : s.chip.rxFifo = p :: ps)
    (ht : s.env.tape = agentGap .mmuDone) :
    ∃ t, rxRelease o s = rxFinish o t ∧ s.Leads (s.chip.released p ps) s.eng 2 t := by
  have hg : mmuGuard .release s.params s.chip = none := by simp [mmuGuard, busy_of_no_command hp ha, hf]
  have hdone : mmuCompletion (mmuEffect .release s.params s.chip) = s.chip.released p ps :=
    mmuCompletion_release (c := { s.chip with pending := some .release }) rfl hf
  obtain ⟨v, hw, hv, -⟩ := wrMmu_agentGap (e := .mmuDone) (rest := []) (.to 16) hg ht
  rw [agentStep_mmuDone (by rw [hv.chip, hv.params]; exact hr), hv.chip, hdone] at hw
  have hd := hv.keeps (leads_setChip (s.chip.released p ps) v) rfl
  obtain ⟨t, hx, htl⟩ := waitIdle_leads (.to 17) (.rxReleaseWait o) (rxFinish o)
    (busy_of_no_command (c := s.chip.released p ps) rfl ha).1 (restsFor_of_quiet (hd.tape.trans (by rw [ht]; rfl)) 1)
  refine ⟨t, ?_, hd.keeps htl rfl⟩
  rw [rxRelease, hw]
  exact hx

/-- The chip unit when RECEIVE has given the buffer of `p` back and restored the selection (R226). -/
def Chip.received (q : Config.Params) (p : Pkt) (ps : List Pkt) (c : Chip) : Chip :=
  ((c.inPacketBank q).released p ps).reselected q c.pnr c.ptr

/-- Steps 14 to 17, behind the header or the copy. -/
theorem rxTail_leads (o : RxOutcome)
    (h : s.Leads (((s.chip.inPacketBank s.params).rxSelected s.params).atOffset d)
      { s.eng with savedPnr := s.chip.pnr, savedPtr := s.chip.ptr } k t)
    (hp : s.chip.pending = none) (ha : s.chip.autoFree = []) (hr : has s.chip.rcr (softRst s.params) = false)
    (hf : s.chip.rxFifo = p :: ps) (ht : s.env.tape = quietGaps (k + 1) ++ agentGap .mmuDone) :
    ∃ u, waitIdle (.to 15) (.rxWait o) (rxRelease o) t = rxFinish o u ∧
      s.Leads (s.chip.received s.params p ps) { s.eng with savedPnr := s.chip.pnr, savedPtr := s.chip.ptr } (k + 5)
        (restoreCtx (.to 17 2) (.to 18) u) := by
  have hrest : t.RestsFor 1 := h.rests (restsFor_of_quietGaps ht) (by omega)
  obtain ⟨v, hv, hlv⟩ := waitIdle_leads (.to 15) (.rxWait o) (rxRelease o)
    (by rw [h.chip]; exact (busy_of_no_command (c := s.chip) hp ha).1) hrest
  have hlv := h.keeps hlv rfl
  rw [h.chip] at hlv
  have htape : v.env.tape = agentGap .mmuDone := by
    rw [hlv.tape, ht]
    exact List.drop_left' (by simp [quietGaps])
  obtain ⟨u, hu, hlu⟩ := rxRelease_leads (s := v) (p := p) (ps := ps) o (by rw [hlv.chip]; exact hp)
    (by rw [hlv.chip]; exact ha) (by rw [hlv.chip, hlv.params]; exact hr) (by rw [hlv.chip]; exact hf) htape
  have hquiet : u.Quiet := hlu.tape.trans (by rw [htape]; rfl)
  have hlu := hlv.keeps hlu rfl
  refine ⟨u, hv.trans hu, (hlu.keeps (restoreCtx_leads _ _ (restsFor_of_quiet hquiet 2)) rfl).congr ?_ rfl⟩
  rw [hlu.chip, hlu.params, hlu.eng, hlv.chip]
  rfl

/-! ## A frame at the head of the receive FIFO -/

/-- Steps 1 to 7. -/
theorem receive_header (hbits : bitsOk s.params.bits) (hf : s.chip.rxFifo = p :: ps)
    (hx : findEntry s.chip.table p = some x) (hp : 1 ≤ x.pages) (hr : s.RestsFor 7) :
    ∃ t, exec .receive s = rxBody (s.chip.bufWord x 0) (s.chip.bufWord x 2) t ∧
      s.Leads (((s.chip.inPacketBank s.params).rxSelected s.params).atOffset 4)
        { s.eng with savedPnr := s.chip.pnr, savedPtr := s.chip.ptr } 7 t := by
  have hpoll := (pollFifo_leads (hr.mono (by omega))).2
  obtain ⟨t, ht, hlt⟩ := rxHeader_leads (x := x) (p := p) (s := (pollFifo s).2) (by rw [hpoll.params]; exact hbits)
    (by rw [hpoll.chip, hpoll.params]; exact drains_rxSelected rfl hf hx) hp (hpoll.rests hr (by omega))
  have hlt := hpoll.keeps hlt rfl
  rw [hpoll.chip, hpoll.params] at hlt
  refine ⟨t, ?_, hlt⟩
  rw [receive_polled hf (hr.mono (by omega)), ht, hpoll.chip]
  rfl

/-- What `rxTail_leads` says of the chip unit, as the statements put it. -/
theorem chip_of_received {s t : State} (hc : t.chip = s.chip.received s.params p ps) (hp : s.chip.pending = none) :
    (∀ r, t.chip.allocated r = (r != p && s.chip.allocated r)) ∧
      (∀ r o, r ≠ p → o < bufferSpan → t.packetByte r o = s.packetByte r o) ∧
      t.chip = { s.chip with
        bank := s.params.regs.pb, dp := offsetOf s.params s.chip.ptr, dpStale := false, rxFifo := ps,
        table := t.chip.table, pktMem := t.chip.pktMem, failed := s.chip.failed.filter (fun r => r != p) } := by
  obtain ⟨hfree, hbytes⟩ := buffers_of_givenBack (s := s) (t := t) (congrArg Chip.table hc) (congrArg Chip.pktMem hc)
  refine ⟨hfree, hbytes, ?_⟩
  rw [hc, Chip.received, Chip.released, ← hp]
  rfl

/-! ## What step 8 goes on to (R223, R224, R229) -/

theorem rxBody_discards {status : Word} (lenWord : Word) (h : has status (rxErrorMask s.params) = true) :
    rxBody status lenWord s = waitIdle (.to 15) (.rxWait (.discarded status)) (rxRelease (.discarded status)) s := by
  rw [rxBody, if_pos h]

theorem rxBody_tooShort {status lenWord : Word} (h : has status (rxErrorMask s.params) = false) (hl : rawLen lenWord < 4) :
    rxBody status lenWord s = lengthFault s := by
  rw [rxBody, if_neg (by rw [h]; decide), if_pos (show rawLen lenWord < Config.rxHeaderBytes from hl)]

theorem rxBody_copies {status lenWord : Word} (h : has status (rxErrorMask s.params) = false)
    (hl : rawLen lenWord = n + 4) (hc : copyPayload s.eng.bufRef n s = .ok t) :
    rxBody status lenWord s = waitIdle (.to 15) (.rxWait (.delivered n)) (rxRelease (.delivered n)) t := by
  have hn : rawLen lenWord - Config.rxHeaderBytes = n := by rw [hl]; rfl
  rw [rxBody, if_neg (by rw [h]; decide), if_neg (by rw [hl, Config.rxHeaderBytes]; omega), hn]
  dsimp only
  rw [hc, andThen_ok]

/-! ## The frame delivered -/

/-- RECEIVE of a frame without error flags, up to its end: the payload stands in the sink. -/
theorem receive_delivers (hbits : bitsOk s.params.bits) (hp : s.chip.pending = none) (ha : s.chip.autoFree = [])
    (hr : has s.chip.rcr (softRst s.params) = false) (hf : s.chip.rxFifo = p :: ps)
    (hx : findEntry s.chip.table p = some x) (herr : has (s.chip.bufWord x 0) (rxErrorMask s.params) = false)
    (hlen : rawLen (s.chip.bufWord x 2) = n + 4) (hl : n + n % 2 + 4 ≤ x.pages * 256)
    (ht : s.env.tape = quietGaps (8 + (n + 1) / 2) ++ agentGap .mmuDone) :
    ∃ t, exec .receive s = .next ((t.note (.deliver t.eng.bufRef n)).finish .ok n) ∧
      (s.putBytes s.eng.bufRef (s.chip.bufBytes x 4 n)).Leads (s.chip.received s.params p ps)
        { s.eng with savedPnr := s.chip.pnr, savedPtr := s.chip.ptr } (7 + (n + 1) / 2 + 5) t := by
  have hrest := restsFor_of_quietGaps ht
  obtain ⟨y, hy, hs⟩ := receive_header hbits hf hx (by omega) (hrest.mono (by omega))
  obtain ⟨z, d, hz, hlz⟩ := copyPayload_leads (s := y) (n := n)
    (drains_rxSelected (c := s.chip.inPacketBank s.params) rfl hf hx) y.eng.bufRef hs.chip hs.params hl
    (hs.rests hrest (by omega))
  have hcopied := State.Leads.putBytes (a := y.eng.bufRef) (bs := []) hs hlz rfl
  rw [show y.eng.bufRef = s.eng.bufRef by rw [hs.eng]] at hcopied
  obtain ⟨u, hu, hlu⟩ := rxTail_leads (s := s.putBytes s.eng.bufRef (s.chip.bufBytes x 4 n)) (.delivered n) hcopied hp ha hr
    hf (by rw [Nat.add_right_comm]; exact ht)
  refine ⟨_, ?_, hlu⟩
  rw [hy, rxBody_copies (by rw [hs.params]; exact herr) hlen hz, hu]
  rfl

/-- Settles O46: the bytes of the buffer stand in the sink (`receive_delivers`), and the buffer is given back
(`chip_of_received`). -/
theorem receiveDeliversTheFrame : Obligations.ReceiveDeliversTheFrame := by
  intro s p ps x n hbits hp ha hr hf hx herr hlen hl ht
  obtain ⟨t, hex, hs⟩ := receive_delivers hbits hp ha hr hf hx herr hlen hl ht
  obtain ⟨hfree, hbytes, hchip⟩ := chip_of_received (s := s) (t := (t.note (.deliver t.eng.bufRef n)).finish .ok n) hs.chip hp
  have hbuf : t.eng.bufRef = s.eng.bufRef := by rw [hs.eng]
  have hmem : t.hostMem = s.hostMem.writeBytes s.eng.bufRef (s.chip.bufBytes x 4 n) := hs.hostMem
  refine ⟨_, hex, ⟨rfl, rfl⟩, fun i hi => ?_, fun a ha => ?_, hfree, hbytes, hchip, ?_, hs.phy, hs.irq⟩
  · show (t.hostMem.read (s.eng.bufRef + i)).getD _ = _
    rw [hmem, Memory.read_writeBytes]
    simp [Chip.bufBytes, hi]
  · show t.hostMem.read a = _
    rw [hmem]
    exact Memory.read_writeBytes_of_out _ _ _ _ (by rw [length_bufBytes]; exact ha)
  · show some (Access.deliver t.eng.bufRef n) = _
    rw [hbuf]

/-! ## The other ends -/

/-- Settles O47: each end is the branch of step 4 or of step 8 that its frame takes. -/
theorem receiveOtherEnds : Obligations.ReceiveOtherEnds := by
  refine ⟨fun s hf hq => ?_, fun s p ps x hbits hp ha hr hf hx h1 herr ht => ?_,
    fun s p ps x hbits hf hx h1 herr hlen hq hh => ?_⟩
  · have hrest := restsFor_of_quiet hq 4
    have hs := (pollFifo_leads hrest).2
    exact ⟨_, receive_pollMiss hf hrest, ⟨rfl, rfl⟩, hs.chip, hs.phy, fun a => congrArg (·.read a) hs.hostMem⟩
  · obtain ⟨y, hy, hs⟩ := receive_header hbits hf hx h1 ((restsFor_of_quietGaps ht).mono (by omega))
    obtain ⟨u, hu, hlu⟩ := rxTail_leads (.discarded (s.chip.bufWord x 0)) hs hp ha hr hf ht
    refine ⟨(restoreCtx (.to 17 2) (.to 18) u).raise (.receiveError (s.chip.bufWord x 0)) 0, ?_, ⟨rfl, rfl⟩,
      fun a => congrArg (·.read a) hlu.hostMem, chip_of_received hlu.chip hp⟩
    rw [hy, rxBody_discards _ (by rw [hs.params]; exact herr), hu]
    rfl
  · obtain ⟨y, hy, hs⟩ := receive_header hbits hf hx h1 (restsFor_of_quiet hq 7)
    rw [hy, rxBody_tooShort (lenWord := s.chip.bufWord x 2) (by rw [hs.params]; exact herr) hlen, lengthFault, hs.hang.trans hh]

end Sys2Proof.Machine
end

section
/-! PROOFS. The accesses that R228 counts: reads of FIFO and MMU_RELEASE writes. Neither an agent nor a run of the interrupt context
that ends makes one (spec/60_exceptions.md R333 to R335), so that a gap adds none to the trace. -/

namespace Sys2Proof.Machine

variable {s t u : State} {x y : Handling} {q : Config.Params} {l : List Access} {a : Access} {k m : Nat × Nat × Nat}
  {n : IrqPos} {r : Reg} {w : Nat}

/-! ## Counting accesses -/

/-- How many of the accesses are reads of FIFO, reads of FIFO that show a frame, and MMU_RELEASE writes. -/
def tally (q : Config.Params) (l : List Access) : Nat × Nat × Nat :=
  (l.countP (isReadOf .fifo), l.countP (isFrameSeen q), l.countP (isReleaseWrite q.codes))

theorem tally_append (q : Config.Params) (l l' : List Access) : tally q (l ++ l') = tally q l + tally q l' := by
  simp [tally]

theorem tally_read (w : Nat) (v : Long) (h : r ≠ .fifo) : tally q [.read r w v] = 0 := by
  cases r with
  | fifo => contradiction
  | _ => rfl

theorem tally_write (w : Nat) (v : Long) (h : r ≠ .mmuCmd) : tally q [.write r w v] = 0 := by
  cases r with
  | mmuCmd => contradiction
  | _ => rfl

/-- The trace holds a word widened, which loses nothing of it. -/
theorem setWidth_long_inj {v v' : Word} : (v.setWidth 32 : Long) = v'.setWidth 32 ↔ v = v' :=
  ⟨fun h => by rw [← lowWord_setWidth v, h, lowWord_setWidth], congrArg _⟩

theorem has_setWidth_long (v m : Word) : has (v.setWidth 32 : Long) (m.setWidth 32) = has v m := by
  rw [has, has, ← BitVec.setWidth_and, Bool.eq_iff_iff, bne_iff_ne, bne_iff_ne]
  exact not_congr (setWidth_long_inj (v' := 0#16))

theorem tally_fifo (w : Nat) (v : Word) :
    tally q [.read .fifo w (v.setWidth 32)] = (1, (!has v (rempty q)).toNat, 0) := by
  simp only [tally, List.countP_singleton, isReadOf, isFrameSeen, isReleaseWrite, has_setWidth_long]
  cases has v (rempty q) <;> rfl

theorem tally_release (w : Nat) :
    tally q [.write .mmuCmd w ((encodeMmuCode q.codes .release).setWidth 32)] = (0, 0, 1) := by
  simp [tally, isReadOf, isFrameSeen, isReleaseWrite]

/-- The handler's own command is not the one counted, since the five commands have five words (R131). -/
theorem tally_free (h : codesOk q.codes) (w : Nat) :
    tally q [.write .mmuCmd w ((encodeMmuCode q.codes .free).setWidth 32)] = 0 := by
  have hne : encodeMmuCode q.codes .free ≠ encodeMmuCode q.codes .release := fun he => by
    have hk := decodeMmuCode_encodeMmuCode h .free
    rw [he, decodeMmuCode_encodeMmuCode h .release] at hk
    cases hk
  have hl := mt setWidth_long_inj.1 hne
  simp [tally, isReadOf, isFrameSeen, isReleaseWrite, hl]

/-! ## What a part adds to the trace -/

/-- From `s` to `t` the trace has grown by accesses of this tally, where MMU_CODES tells the commands apart. -/
structure State.Adds (s : State) (k : Nat × Nat × Nat) (t : State) : Prop where
  params : t.params = s.params
  trace : codesOk s.params.codes → ∃ new, t.env.trace = new ++ s.env.trace ∧ tally s.params new = k

namespace State.Adds

theorem refl (s : State) : s.Adds 0 s := ⟨rfl, fun _ => ⟨[], rfl, rfl⟩⟩

theorem trans (h : s.Adds k t) (g : t.Adds m u) : s.Adds (k + m) u where
  params := g.params.trans h.params
  trace := fun hc => by
    obtain ⟨l, hl, rfl⟩ := h.trace hc
    obtain ⟨l', hl', rfl⟩ := g.trace (by rw [h.params]; exact hc)
    exact ⟨l' ++ l, by rw [hl', hl, List.append_assoc], by rw [tally_append, h.params, add_comm]⟩

/-- What leaves the parameters and the trace alone. -/
theorem still (h : s.Adds k t) (hp : u.params = t.params) (ht : u.env.trace = t.env.trace) : s.Adds k u :=
  ⟨hp.trans h.params, fun hc => by rw [ht]; exact h.trace hc⟩

theorem setChip (h : s.Adds k t) (c : Chip) : s.Adds k (t.setChip c) := h.still rfl rfl

theorem kept (h : s.Adds k t) (g : t.KeptByAgents u) : s.Adds k u := h.still g.params g.trace

/-- One more entry of the trace. -/
theorem note (h : s.Adds k t) (ha : codesOk s.params.codes → tally s.params [a] = m) : s.Adds (k + m) (t.note a) :=
  h.trans ⟨rfl, fun hc => ⟨[a], rfl, by rw [h.params] at hc ⊢; exact ha hc⟩⟩

/-- One more entry that is not counted. -/
theorem note_zero (h : s.Adds k t) (ha : codesOk s.params.codes → tally s.params [a] = 0) : s.Adds k (t.note a) := by
  have hn := h.note ha
  rwa [add_zero] at hn

/-! ## The interrupt context -/

theorem handlerGap (h : s.Adds k x.1) : s.Adds k (handlerGap x).1 := by
  unfold Machine.handlerGap
  split
  · exact h
  · exact h.kept (agentSteps_kept _ _)

/-- An access of the handler: `t` is the state behind its effect. -/
theorem handlerAccess {gaps : List (List AgentEvent)} (h : s.Adds k t)
    (ha : codesOk s.params.codes → tally s.params [a] = 0) :
    s.Adds k (Machine.handlerGap ((t.note a).irqAt n, gaps)).1 :=
  handlerGap ((h.note_zero ha).still rfl rfl)

theorem handlerRead (h : s.Adds k x.1) (hr : r ≠ .fifo := by decide) : s.Adds k (Machine.handlerRead n r w x).2.1 :=
  (h.still (by simp) (by simp)).handlerAccess fun _ => tally_read _ _ hr

theorem handlerKeep {keep : Word → IrqCtx → IrqCtx} (h : s.Adds k x.1) (hr : r ≠ .fifo := by decide) :
    s.Adds k (Machine.handlerKeep n r w keep x).1 :=
  (h.still (by simp) (by simp)).handlerAccess fun _ => tally_read _ _ hr

theorem handlerWrite {v : Word} (h : s.Adds k x.1) (hr : r ≠ .mmuCmd := by decide) :
    s.Adds k (Machine.handlerWrite n r w v x).1 :=
  (h.still (by simp) (by simp)).handlerAccess fun _ => tally_write _ _ hr

theorem handlerWritePtr {v : Word} (h : s.Adds k x.1) : s.Adds k (Machine.handlerWritePtr n v x).1 :=
  (h.setChip _).handlerAccess fun _ => rfl

theorem handlerDelay {d : Nat} (h : s.Adds k x.1) : s.Adds k (Machine.handlerDelay n d x).1 := h.handlerAccess fun _ => rfl

theorem handlerGoto (h : s.Adds k x.1) : s.Adds k (Machine.handlerGoto n x).1 := h.still rfl rfl

theorem irqEnter {touch : Bool} (h : s.Adds k x.1) : s.Adds k (Machine.irqEnter touch x).1 := by
  unfold Machine.irqEnter
  dsimp only
  split
  · exact h.handlerKeep.handlerWrite.handlerKeep.handlerKeep
  · exact h.handlerKeep.handlerWrite

theorem irqExit {touch : Bool} (h : s.Adds k x.1) : s.Adds k (Machine.irqExit touch x).1 := by
  unfold Machine.irqExit
  dsimp only
  split
  · exact h.handlerWrite.handlerWritePtr.handlerWrite
  · exact h.handlerWrite

theorem handlerWait (exit : IrqPos) : ∀ (fuel j : Nat) (x y : Handling), s.Adds k x.1 →
    Machine.handlerWait exit fuel j x = .ok y → s.Adds k y.1
  | 0, _, _, _, _, he => by simp [Machine.handlerWait] at he
  | fuel + 1, j, x, y, h, he => by
    simp only [Machine.handlerWait] at he
    split at he
    · exact handlerWait exit fuel (j + 1) _ y h.handlerRead.handlerDelay he
    · obtain rfl := Except.ok.inj he
      exact h.handlerRead.handlerGoto

/-- The only command of the interrupt context is a FREE (R335). -/
theorem handlerFree {exit : IrqPos} {p : Pkt} (h : s.Adds k x.1) (he : Machine.handlerFree exit p x = .ok y) :
    s.Adds k y.1 := by
  unfold Machine.handlerFree at he
  dsimp only at he
  have hsel := h.handlerWrite (n := .body 8) (r := .pnr) (w := 1) (v := (pktByte x.1.params p).setWidth 16)
  split at he
  · refine handlerWait exit _ 1 _ y (handlerAccess (hsel.setChip _) fun hc => ?_) he
    rw [hsel.params]
    exact tally_free hc 2
  · obtain rfl := Except.ok.inj he
    exact hsel.handlerGoto

theorem handlerReenable (h : s.Adds k x.1) : s.Adds k (Machine.handlerReenable n x).1 :=
  h.handlerWrite.handlerRead.handlerWrite.handlerWrite

theorem handlerAck (h : s.Adds k x.1) : s.Adds k (Machine.handlerAck n x).1 := h.handlerWrite

theorem handlerRepair {exit : IrqPos} {b : HandlerRun} (h : s.Adds k x.1) (he : Machine.handlerRepair exit b x = .ok y) :
    s.Adds k y.1 := by
  have hre (n : IrqPos) : s.Adds k (if b.reenable then Machine.handlerReenable n x else x).1 := by
    split
    · exact h.handlerReenable
    · exact h
  unfold Machine.handlerRepair at he
  split at he
  · obtain rfl := Except.ok.inj he
    exact hre exit
  · exact (hre _).handlerFree he

theorem txErrBody {exit : IrqPos} {b : HandlerRun} (h : s.Adds k x.1) (he : Machine.txErrBody exit b x = .ok y) :
    s.Adds k y.1 := by
  unfold Machine.txErrBody at he
  dsimp only at he
  split at he
  · split at he
    · exact h.handlerRead.handlerAck.handlerRepair he
    · obtain rfl := Except.ok.inj he
      exact h.handlerRead.handlerGoto
  · split at he <;> obtain rfl := Except.ok.inj he
    · exact h.handlerAck
    · exact h.handlerGoto

theorem runHandler {b : HandlerRun} (h : s.Adds k t) (he : Machine.runHandler b t = some (.ok u)) : s.Adds k u := by
  unfold Machine.runHandler at he
  split at he
  · split at he
    · cases he
    · rename_i hb
      obtain rfl := Except.ok.inj (Option.some.inj he)
      exact (txErrBody (irqEnter (x := (t.irqAt (.save 1), b.gaps)) (h.still rfl rfl)) hb).irqExit
  · cases he

/-! ## Gaps -/

/-- A run that hangs is noted beside the trace, not in it (log 46). -/
theorem noteHang (h : s.Adds k t) (v : State) : s.Adds k (t.noteHang v) := by
  unfold State.noteHang
  split
  · exact h
  · exact h.still rfl rfl

theorem eventStep (h : s.Adds k t) (e : Event) : s.Adds k (Machine.eventStep e t) := by
  cases e with
  | agent e => exact h.kept (agentStep_kept e t)
  | irq b =>
    unfold Machine.eventStep
    dsimp only
    split
    · exact h
    · rename_i he; exact h.runHandler he
    · exact h.noteHang _

theorem eventSteps (es : List Event) : ∀ {t : State}, s.Adds k t → s.Adds k (Machine.eventSteps es t) := by
  induction es with
  | nil => exact fun h => h
  | cons e es ih => exact fun h => ih (h.eventStep e)

theorem gap (h : s.Adds k t) : s.Adds k (Machine.gap t) := by
  unfold Machine.gap
  split
  · exact h
  · exact eventSteps _ (h.still rfl rfl)

end State.Adds

end Sys2Proof.Machine
end

section
/-! PROOFS. R228 (spec/43_receive.md): over a RECEIVE the trace grows by one read of FIFO, and by a release command when that read
showed a frame, whatever happens in the gaps. -/

namespace Sys2Proof.Machine

variable {s t u : State} {k m : Nat × Nat × Nat} {a : Access} {nx ny back : Next} {r : Reg} {w i n : Nat} {p : SeqPos}
  {o : RxOutcome} {status lenWord : Word} {f : State → Out}

/-! ## The engine's accesses -/

namespace State.Adds

/-- An access that is counted, and its gap. -/
theorem access (h : s.Adds k t) (ha : codesOk s.params.codes → tally s.params [a] = m) :
    s.Adds (k + m) (Machine.gap ((t.note a).advance nx)) :=
  gap ((h.note ha).still rfl rfl)

/-- An access that is not. -/
theorem access_zero (h : s.Adds k t) (ha : codesOk s.params.codes → tally s.params [a] = 0) :
    s.Adds k (Machine.gap ((t.note a).advance nx)) :=
  gap ((h.note_zero ha).still rfl rfl)

theorem advance (h : s.Adds k t) : s.Adds k (t.advance nx) := h.still rfl rfl

theorem hostWrite {sink : Nat} {b : Byte} (h : s.Adds k t) : s.Adds k (t.hostWrite sink i b) := h.still rfl rfl

theorem rd (h : s.Adds k t) (hr : r ≠ .fifo := by decide) : s.Adds k (Machine.rd nx r w t).2 :=
  (h.still (by simp) (by simp)).access_zero fun _ => tally_read _ _ hr

/-- A read of FIFO is counted, and counted again where it shows a frame. -/
theorem rd_fifo (h : s.Adds 0 t) :
    s.Adds (1, (!has (Machine.rd nx .fifo w t).1 (rempty s.params)).toNat, 0) (Machine.rd nx .fifo w t).2 := by
  rw [rd_fst, ← zero_add (1, _, 0)]
  exact (h.still (readReg_params .fifo t) (readReg_trace .fifo t)).access fun _ => tally_fifo w (readReg .fifo t).1

theorem rdKeep {keep : Word → Engine → Engine} (h : s.Adds k t) (hr : r ≠ .fifo := by decide) :
    s.Adds k (Machine.rdKeep nx r w keep t) :=
  (h.still (by simp) (by simp)).access_zero fun _ => tally_read _ _ hr

theorem wr {v : Word} (h : s.Adds k t) (hr : r ≠ .mmuCmd := by decide) : s.Adds k (Machine.wr nx r w v t) :=
  (h.still (by simp) (by simp)).access_zero fun _ => tally_write _ _ hr

theorem wrBank {b : BitVec 2} (h : s.Adds k t) : s.Adds k (Machine.wrBank nx b t) := h.wr

theorem delay {d : Nat} (h : s.Adds k t) : s.Adds k (Machine.delay nx d t) := h.access_zero fun _ => rfl

theorem saveCtx (h : s.Adds k t) : s.Adds k (Machine.saveCtx nx ny t) := h.rdKeep.rdKeep

theorem restoreCtx (h : s.Adds k t) : s.Adds k (Machine.restoreCtx nx ny t) := h.wr.wr

theorem mmuIssue_release (h : s.Adds k t) : s.Adds (k + (0, 0, 1)) (Machine.mmuIssue nx .release t) := by
  have ht : s.Adds k (mmuTake .release t) := h.still rfl rfl
  refine ht.access (a := .write .mmuCmd 2 ((encodeMmuCode t.params.codes .release).setWidth 32)) fun _ => ?_
  rw [h.params]
  exact tally_release 2

theorem dataRead {b : Long × State} (h : s.Adds k t) (hb : Machine.dataRead w t = .ok b) : s.Adds k b.2 := by
  obtain ⟨hp, -⟩ := State.steady_eq_iff.1 (dataRead_steady hb)
  have ht : Machine.dataRead w t = (Machine.dataRead w t).map fun x => (x.1, t.beside x.2) := dataRead_beside t w t
  rw [hb] at ht
  exact h.still hp (congrArg (fun x : Long × State => x.2.env.trace) (Except.ok.inj ht))

/-- A word of DATA, or the one that a hang has kept the foreground from reading. -/
theorem rdData {b : Word × State} (h : s.Adds k t) (hb : Machine.rdData nx t = .ok b) : s.Adds k b.2 := by
  unfold Machine.rdData at hb
  split at hb
  · obtain ⟨-, rfl⟩ := refuse_ok hb
    exact h.advance
  · rename_i hd
    obtain rfl := Except.ok.inj hb
    exact (h.dataRead hd).access_zero fun _ => rfl

theorem copyWords (sink : Nat) : ∀ (i j : Nat) {t u : State}, s.Adds k t → Machine.copyWords sink i j t = .ok u →
    s.Adds k u := by
  intro i
  induction i with
  | zero =>
    intro j t u h hu
    obtain rfl := Except.ok.inj hu
    exact h
  | succ i ih =>
    intro j t u h hu
    unfold Machine.copyWords at hu
    split at hu
    · cases hu
    · rename_i hd
      exact ih _ (h.rdData hd).hostWrite.hostWrite.advance hu

theorem copyPayload {sink : Nat} (h : s.Adds k t) (hu : Machine.copyPayload sink n t = .ok u) : s.Adds k u := by
  unfold Machine.copyPayload at hu
  split at hu
  · cases hu
  · rename_i hw
    have hw := copyWords sink _ _ h hw
    split at hu
    · split at hu
      · cases hu
      · rename_i hd
        obtain rfl := Except.ok.inj hu
        exact (hw.rdData hd).hostWrite.advance
    · obtain rfl := Except.ok.inj hu
      exact hw

end State.Adds

/-! ## What is still to come -/

/-- The MMU_RELEASE writes that RECEIVE still makes from where it stands; none said of other positions. -/
def SeqPos.releasesLeft : SeqPos → Option Nat
  | .idle => some 0
  | .rxWait _ => some 1
  | .rxReleaseWait _ => some 0
  | _ => none

/-- Where `o` goes on and no handler hangs, the accesses counted so far and the releases still to come are `k` together. -/
def State.Owes (s : State) (k : Nat × Nat × Nat) (o : Out) : Prop :=
  ∀ t, o = .next t → t.hang = none → ∃ l j, s.Adds l t ∧ t.eng.pos.releasesLeft = some j ∧ l + (0, 0, j) = k

/-- Of a hung step nothing is owed. -/
theorem AnswersHung.owes {h : Hang} {out : Out} (ho : AnswersHung h out) : s.Owes k out := by
  obtain ⟨u, rfl, hu⟩ := ho
  intro t ht hh
  obtain rfl := Host.Outcome.next.inj ht
  rw [show u.hang = some h from hu] at hh
  cases hh

theorem owes_next (h : s.Adds k t) (hp : t.eng.pos.releasesLeft = some n) (hm : k + (0, 0, n) = m) :
    s.Owes m (.next t) := by
  intro u hu _
  obtain rfl := Host.Outcome.next.inj hu
  exact ⟨k, n, h, hp, hm⟩

theorem owes_andThen {α : Type} {e : Except Refusal α} {g : α → Out} (hg : ∀ b, e = .ok b → s.Owes k (g b)) :
    s.Owes k (andThen e g) := by
  cases e with
  | ok b => exact hg b rfl
  | error e => exact fun t ht _ => nomatch ht

/-- A wait owes what its position says, and so does what comes behind it. -/
theorem waitPoll_owes (h : s.Adds k t) (hp : p.releasesLeft = some n) (hm : k + (0, 0, n) = m)
    (hf : ∀ v, s.Adds k v → s.Owes m (f v)) : s.Owes m (waitPoll p f t) := by
  rcases waitPoll_cases p f t with ⟨-, e⟩ | ⟨-, e⟩ <;> rw [e]
  · exact owes_next (h.rd.delay.still rfl rfl) hp hm
  · exact hf _ h.rd.advance

theorem waitIdle_owes (h : s.Adds k t) (hp : p.releasesLeft = some n) (hm : k + (0, 0, n) = m)
    (hf : ∀ v, s.Adds k v → s.Owes m (f v)) : s.Owes m (waitIdle back p f t) :=
  waitPoll_owes (h.still rfl rfl) hp hm hf

/-! ## RECEIVE (R220) -/

theorem rxFinish_owes (h : s.Adds k t) : s.Owes k (rxFinish o t) := by
  cases o with
  | delivered n => exact owes_next ((h.restoreCtx.note_zero fun _ => rfl).still rfl rfl) rfl rfl
  | discarded status => exact owes_next (h.restoreCtx.still rfl rfl) rfl rfl

/-- Steps 15 and 16 make one release, unless a handler has hung before. -/
theorem rxRelease_owes (h : s.Adds k t) : s.Owes (k + (0, 0, 1)) (rxRelease o t) := by
  cases hh : t.hang with
  | some g => exact (rxRelease_hung o t hh).owes
  | none =>
    refine owes_andThen fun u hu => ?_
    rcases wrMmu_ok hu with ⟨-, rfl⟩ | ⟨hne, -⟩
    · exact waitIdle_owes h.mmuIssue_release rfl rfl fun _ hv => rxFinish_owes hv
    · exact absurd hh hne

theorem lengthFault_owes : s.Owes k (lengthFault t) := by
  cases hh : t.hang with
  | some g => exact (lengthFault_hung hh).owes
  | none =>
    rw [lengthFault, hh]
    exact fun u hu => nomatch hu

theorem rxBody_owes (h : s.Adds k t) : s.Owes (k + (0, 0, 1)) (rxBody status lenWord t) := by
  unfold rxBody
  split
  · exact waitIdle_owes h rfl rfl fun _ hv => rxRelease_owes hv
  · split
    · exact lengthFault_owes
    · exact owes_andThen fun u hu => waitIdle_owes (h.copyPayload hu) rfl rfl fun _ hv => rxRelease_owes hv

theorem rxHeader_owes (h : s.Adds k t) : s.Owes (k + (0, 0, 1)) (rxHeader t) :=
  owes_andThen fun _ ha => owes_andThen fun _ hb => rxBody_owes ((h.wr.rdData ha).rdData hb)

/-- Steps 1 to 3 read FIFO once. -/
theorem pollFifo_adds (s : State) :
    s.Adds (1, (!has (pollFifo s).1 (rempty s.params)).toNat, 0) (pollFifo s).2 := by
  have hbegin : s.Adds 0 (s.begin .receive) := (State.Adds.refl s).still rfl rfl
  exact hbegin.wrBank.saveCtx.rd_fifo

/-- RECEIVE reads FIFO once, and owes a release when that shows a frame. -/
theorem receive_owes (s : State) : ∃ b, s.Owes (1, b, b) (exec .receive s) := by
  have hpoll := pollFifo_adds s
  rw [exec_receive]
  cases hb : has (pollFifo s).1 (rempty s.params) <;> rw [hb] at hpoll
  · exact ⟨1, rxHeader_owes hpoll⟩
  · exact ⟨0, owes_next (hpoll.still rfl rfl) rfl rfl⟩

/-! ## The waits, to the end -/

/-- A round of a wait of RECEIVE owes what the wait does. -/
theorem resume_owes (hp : s.eng.pos.releasesLeft = some n) : s.Owes (0, 0, n) (resume s) := by
  have h := State.Adds.refl s
  have hn : (0 : Nat × Nat × Nat) + (0, 0, n) = (0, 0, n) := zero_add _
  unfold resume
  generalize hq : s.eng.pos = q at hp ⊢
  cases q with
  | idle => exact owes_next h (by rwa [hq]) hn
  | rxWait o =>
    obtain rfl : 1 = n := Option.some.inj hp
    exact waitPoll_owes h hp hn fun _ hv => hn ▸ rxRelease_owes hv
  | rxReleaseWait o =>
    obtain rfl : 0 = n := Option.some.inj hp
    exact waitPoll_owes h hp hn fun _ hv => rxFinish_owes hv
  | _ => cases hp

/-- What an outcome owes has been added when the operation has ended: a hang never ends (`runToIdle_hangs`). -/
theorem adds_of_owes {out : Out} {j : Nat} (ho : s.Owes k out) (hu : settle out = .next u) (hr : runToIdle j u = .next t)
    (hi : t.eng.pos = .idle) (ih : ∀ i, u.eng.pos.releasesLeft = some i → u.Adds (0, 0, i) t) : s.Adds k t := by
  obtain ⟨v, hv, ⟨hh, rfl⟩ | ⟨g, -, rfl⟩⟩ := settle_next hu
  · obtain ⟨l, i, hl, hp, rfl⟩ := ho u hv hh
    exact hl.trans (ih i hp)
  · obtain ⟨x, hx, hpos, -⟩ := runToIdle_hangs j (thaw g v) rfl rfl
    obtain rfl := Host.Outcome.next.inj (hx.symm.trans hr)
    rw [hpos] at hi
    cases hi

/-- Over the waits that are left the trace grows by the releases that are. -/
theorem runToIdle_adds (j : Nat) : ∀ (s : State) (n : Nat), s.eng.pos.releasesLeft = some n → runToIdle j s = .next t →
    t.eng.pos = .idle → s.Adds (0, 0, n) t := by
  have hidle (s : State) (n : Nat) (hp : s.eng.pos.releasesLeft = some n) (hi : s.eng.pos = .idle) :
      s.Adds (0, 0, n) s := by
    rw [hi] at hp
    obtain rfl : 0 = n := Option.some.inj hp
    exact .refl s
  induction j with
  | zero =>
    intro s n hp hr hi
    obtain rfl := Host.Outcome.next.inj hr
    exact hidle s n hp hi
  | succ j ih =>
    intro s n hp hr hi
    unfold runToIdle at hr
    split at hr
    · rename_i hs
      obtain rfl := Host.Outcome.next.inj hr
      exact hidle s n hp hs
    · rename_i hs
      rw [step_of_not_idle hs] at hr
      split at hr
      · rename_i u hu
        exact adds_of_owes (resume_owes hp) hu hr hi fun i hq => ih u i hq hr hi
      · cases hr
      · cases hr

/-- Settles O48: what RECEIVE owes (`receive_owes`) it has added at its end (`adds_of_owes`). -/
theorem receiveReleasesOncePerFrame : Obligations.ReceiveReleasesOncePerFrame := by
  intro j s t hc hr hi
  obtain ⟨b, ho⟩ := receive_owes s
  unfold runOperation at hr
  split at hr
  · rename_i u hu
    obtain ⟨new, ht, hk⟩ := (adds_of_owes ho hu hr hi fun i hq => runToIdle_adds j u i hq hr hi).trace hc
    obtain ⟨hfifo, hseen, hrel⟩ : _ ∧ _ ∧ _ := by simpa only [tally, Prod.mk.injEq] using hk
    exact ⟨new, ht, hfifo, hrel.trans hseen.symm⟩
  · cases hr
  · cases hr

end Sys2Proof.Machine
end

section
/-! PROOFS. The management frames cycle by cycle (spec/44_mii.md R241, R242) and the PHY's own steps (R266, R267). -/

namespace Sys2Proof.Machine

/-! ## Built frames -/

/-- A sequence is built with every `in` flag 0 (R241, R242). -/
theorem input_of_mem_toSequence {f : List Drive} {c : Cycle} (h : c ∈ toSequence f) : c.input = false := by
  obtain ⟨d, -, rfl⟩ := List.mem_map.1 h
  rfl

theorem length_frameCycles (isRead : Bool) (phy reg : BitVec 5) :
    (frameHead ++ opcodeCycles isRead ++ fieldCycles phy ++ fieldCycles reg).length = 46 := by
  simp [frameHead, opcodeCycles, fieldCycles]

/-- Behind its register address a read frame drives nothing (R241). -/
theorem cycleAt_buildRead_undriven (phy reg : BitVec 5) {k : Nat} (hk : 46 ≤ k) (hk' : k < 64) :
    cycleAt (buildRead phy reg) k = ⟨false, false⟩ := by
  have hl := length_frameCycles true phy reg
  rw [cycleAt, buildRead, List.getD_append_right _ _ _ _ (by omega), hl, List.getD_replicate _ (by omega)]
  rfl

/-- Settles O2: what O4 says of a frame the decoder takes, and its undriven cycles. -/
theorem framesAreBuiltCycleByCycle : Obligations.FramesAreBuiltCycleByCycle := by
  obtain ⟨hread, hwrite, -⟩ := frameDecoderChecksEveryCycle
  refine ⟨fun phy reg => ?_, fun phy reg value => ?_⟩
  · obtain ⟨hl, hones, h32, h33, h34, h35, hphy, hreg, -⟩ := (hread _ phy reg).1 (decodeFrame_buildRead phy reg)
    exact ⟨hl, hones, h32, h33, h34, h35, hphy, hreg, fun _ => cycleAt_buildRead_undriven phy reg,
      fun _ => input_of_mem_toSequence⟩
  · obtain ⟨hl, hones, h32, h33, h34, h35, hphy, hreg, hvalue, -⟩ :=
      (hwrite _ phy reg value).1 (decodeFrame_buildWrite phy reg value)
    exact ⟨hl, hones, h32, h33, h34, h35, hphy, hreg, rfl, rfl, hvalue, rfl, fun _ => input_of_mem_toSequence⟩

/-! ## The PHY's own steps -/

/-- A step of the PHY of its own accord is none of the chip unit (R266, R267). -/
theorem agentStep_phy_chip {e : AgentEvent} (h : e = .phyResetDone ∨ e = .phySetAck ∨ e = .phySetRemFlt ∨ e = .phyClrRemFlt)
    (s : State) : (agentStep e s).chip = s.chip := by
  rcases h with rfl | rfl | rfl | rfl <;> exact (apply_ite State.chip _ _ _).trans (ite_self _)

/-- Settles O35: each step is enabled by the PHY's progress, and leaves alone what an agent's step leaves alone. -/
theorem phyTakesItsOwnSteps : Obligations.PhyTakesItsOwnSteps := by
  refine ⟨fun s h => ?_, fun s h => ?_, fun s h => ⟨?_, ?_, ?_⟩, fun s h => ⟨?_, ?_, ?_⟩, fun s e he => ?_⟩
  · exact congrArg State.phy (if_pos h)
  · exact if_neg (by simp [h])
  · exact congrArg State.phy (if_pos h)
  · exact congrArg State.phy (if_pos h)
  · exact congrArg State.phy (if_pos h)
  · exact if_neg (by simp [h])
  · exact if_neg (by simp [h])
  · exact if_neg (by simp [h])
  · exact ⟨agentStep_phy_chip he s, (agentStep_kept e s).phyRx, (agentStep_kept e s).phyDrive⟩

end Sys2Proof.Machine
end

section
/-! PROOFS. What the foreground finds again behind a gap, whatever the agents and the interrupt context do in it (spec/20_memory.md
R101, spec/60_exceptions.md R331, R333, R334): the engine, host memory, MGMT, PNR and PTR; and the engine again in the state that a
handler hangs in. -/

namespace Sys2Proof.Machine

variable {s t u : State} {x y : Handling} {n exit : IrqPos} {h : HandlerRun} {r : Reg} {w : Nat} {v : Word} {a b : Bool}
  {g : Hang}

/-! ## What a run of the interrupt context gives back -/

/-- What a run of the interrupt context gives back to the foreground. -/
structure Foreground where
  eng : Engine
  hostMem : Memory
  mgmt : Word
  pnr : Byte
  ptr : Word

/-- It in a state of the run, in which PNR and PTR are held in the run's save slots (`a` for PNR, `b` for PTR) or still stand in
their registers. -/
def State.foreground (a b : Bool) (s : State) : Foreground where
  eng := s.eng
  hostMem := s.hostMem
  mgmt := s.chip.mgmt
  pnr := if a then s.irq.hPnr else s.chip.pnr
  ptr := if b then s.irq.hPtr else s.chip.ptr

@[simp] theorem State.note_foreground (c : Access) (s : State) : (s.note c).foreground a b = s.foreground a b := rfl
@[simp] theorem State.irqAt_foreground (p : IrqPos) (s : State) : (s.irqAt p).foreground a b = s.foreground a b := rfl

@[simp] theorem readReg_foreground (r : Reg) (s : State) : (readReg r s).2.foreground a b = s.foreground a b := by
  obtain ⟨k, hk⟩ := readReg_state r s
  rw [hk]
  rfl

@[simp] theorem mmuEffect_foreground (k : MmuCode) (s : State) :
    (s.setChip (mmuEffect k s.params s.chip)).foreground a b = s.foreground a b := by
  cases k <;> rfl

theorem State.KeptByAgents.foreground (h : s.KeptByAgents t) : t.foreground a b = s.foreground a b := by
  simp only [State.foreground, h.eng, h.hostMem, h.mgmt, h.irq, h.pnr, h.ptr]

/-! ## A run, access by access -/

@[simp] theorem handlerGap_foreground (x : Handling) : (handlerGap x).1.foreground a b = x.1.foreground a b := by
  unfold handlerGap
  split
  · rfl
  · exact (agentSteps_kept _ _).foreground

@[simp] theorem handlerRead_foreground (n : IrqPos) (r : Reg) (w : Nat) (x : Handling) :
    (handlerRead n r w x).2.1.foreground a b = x.1.foreground a b := by
  simp [handlerRead]

theorem handlerWrite_foreground (hw : (setReg r v x.1).foreground a b = x.1.foreground a b) :
    (handlerWrite n r w v x).1.foreground a b = x.1.foreground a b :=
  (handlerGap_foreground _).trans hw

@[simp] theorem handlerWrite_bsr_foreground (n : IrqPos) (w : Nat) (v : Word) (x : Handling) :
    (handlerWrite n .bsr w v x).1.foreground a b = x.1.foreground a b :=
  handlerWrite_foreground rfl

@[simp] theorem handlerAck_foreground (n : IrqPos) (x : Handling) : (handlerAck n x).1.foreground a b = x.1.foreground a b :=
  handlerWrite_foreground rfl

@[simp] theorem handlerDelay_foreground (n : IrqPos) (d : Nat) (x : Handling) :
    (handlerDelay n d x).1.foreground a b = x.1.foreground a b :=
  handlerGap_foreground _

@[simp] theorem handlerGoto_foreground (n : IrqPos) (x : Handling) : (handlerGoto n x).1.foreground a b = x.1.foreground a b :=
  rfl

@[simp] theorem handlerReenable_foreground (n : IrqPos) (x : Handling) :
    (handlerReenable n x).1.foreground a b = x.1.foreground a b := by
  simp only [handlerReenable, handlerWrite_bsr_foreground]
  rw [handlerWrite_foreground rfl]
  simp

/-- The read of BSR that saves the bank saves it beside PNR and PTR. -/
theorem handlerKeep_bsr_foreground (x : Handling) :
    (handlerKeep n .bsr w (fun v q => { q with hBank := bankOf x.1.params v }) x).1.foreground a b = x.1.foreground a b :=
  handlerGap_foreground _

/-- PNR goes into its save slot (R331). -/
theorem handlerKeep_pnr_foreground (x : Handling) :
    (handlerKeep n .pnr w (fun v q => { q with hPnr := lowByte v }) x).1.foreground true b = x.1.foreground false b := by
  have hs : (readReg .pnr x.1).2 = x.1 := rfl
  refine (handlerGap_foreground _).trans ?_
  simp [State.foreground, hs]

/-- PTR goes into its save slot (R331). -/
theorem handlerKeep_ptr_foreground (x : Handling) :
    (handlerKeep n .ptr w (fun v q => { q with hPtr := v }) x).1.foreground a true = x.1.foreground a false := by
  have hs : (readReg .ptr x.1).2 = x.1 := rfl
  refine (handlerGap_foreground _).trans ?_
  simp [State.foreground, hs]

/-- The entry saves PNR and PTR in a run that writes them (R331). -/
theorem irqEnter_foreground (touch : Bool) (x : Handling) :
    (irqEnter touch x).1.foreground touch touch = x.1.foreground false false := by
  unfold irqEnter
  cases touch
  · exact (handlerWrite_bsr_foreground ..).trans (handlerKeep_bsr_foreground x)
  · exact (handlerKeep_ptr_foreground _).trans <| (handlerKeep_pnr_foreground _).trans <|
      (handlerWrite_bsr_foreground ..).trans (handlerKeep_bsr_foreground x)

/-- The exit writes PNR and PTR back from their slots (R333). -/
theorem irqExit_foreground (touch : Bool) (x : Handling) :
    (irqExit touch x).1.foreground false false = x.1.foreground touch touch := by
  unfold irqExit
  cases touch
  · exact handlerWrite_bsr_foreground ..
  · have hpnr : (handlerWrite (.restore 2) .pnr 1 (x.1.irq.hPnr.setWidth 16) x).1.foreground false true =
        x.1.foreground true true := by
      refine (handlerGap_foreground _).trans ?_
      simp [State.foreground, setReg_pnr]
    refine (handlerWrite_bsr_foreground ..).trans (.trans (.trans (handlerGap_foreground _) ?_) hpnr)
    simp [State.foreground, handlerWrite]

theorem handlerWait_foreground (exit : IrqPos) (fuel : Nat) : ∀ (k : Nat) (x : Handling),
    (reached (handlerWait exit fuel k x)).foreground a b = x.1.foreground a b := by
  induction fuel with
  | zero => exact fun _ _ => rfl
  | succ fuel ih =>
    intro k x
    unfold handlerWait
    dsimp only
    split <;> simp [ih]

/-- FREE writes PNR, which is in its slot then. -/
theorem handlerFree_foreground (exit : IrqPos) (p : Pkt) (x : Handling) :
    (reached (handlerFree exit p x)).foreground true b = x.1.foreground true b := by
  have hpnr (c : Word) : (handlerWrite (.body 8) .pnr 1 c x).1.foreground true b = x.1.foreground true b :=
    handlerWrite_foreground rfl
  unfold handlerFree
  dsimp only
  split
  · simp [handlerWait_foreground, hpnr]
  · exact hpnr _

/-- A run that frees a packet saves PNR and PTR (`HandlerRun.touches`); the others write neither. -/
theorem handlerRepair_foreground (exit : IrqPos) (x : Handling) (ha : h.freed.isSome → a = true) :
    (reached (handlerRepair exit h x)).foreground a b = x.1.foreground a b := by
  have hre (n : IrqPos) : (if h.reenable then handlerReenable n x else x).1.foreground a b = x.1.foreground a b := by
    split <;> simp
  unfold handlerRepair
  split
  · exact hre exit
  · rename_i p hp
    obtain rfl := ha (by simp [hp])
    exact (handlerFree_foreground ..).trans (hre _)

theorem txErrBody_foreground (exit : IrqPos) (x : Handling) (ha : h.freed.isSome → a = true) :
    (reached (txErrBody exit h x)).foreground a b = x.1.foreground a b := by
  unfold txErrBody
  dsimp only
  split <;> split <;> simp [handlerRepair_foreground _ _ ha]

/-- What the entry and the body of a run come to. -/
theorem runBody_foreground (h : HandlerRun) (s : State) :
    (reached (txErrBody (irqExitPos h.touches) h (irqEnter h.touches (s.irqAt (.save 1), h.gaps)))).foreground
      h.touches h.touches = s.foreground false false :=
  (txErrBody_foreground _ _ fun hf => by simp [HandlerRun.touches, hf]).trans (irqEnter_foreground ..)

/-- A run that ends gives back what it found (R333, R334). -/
theorem runHandler_foreground (he : runHandler h s = some (.ok t)) : t.foreground false false = s.foreground false false := by
  have hb := runBody_foreground h s
  unfold runHandler at he
  split at he
  · split at he
    · cases he
    · rename_i y hy
      obtain rfl := Except.ok.inj (Option.some.inj he)
      rw [hy] at hb
      exact (irqExit_foreground ..).trans hb
  · cases he

/-- A run that hangs has not touched the engine (R334). -/
theorem runHandler_hangs_eng (he : runHandler h s = some (.error t)) : t.eng = s.eng := by
  have hb := runBody_foreground h s
  unfold runHandler at he
  split at he
  · split at he
    · rename_i y hy
      obtain rfl := Except.error.inj (Option.some.inj he)
      rw [hy] at hb
      exact congrArg Foreground.eng hb
    · cases he
  · cases he

/-! ## Gaps -/

theorem eventStep_foreground (e : Event) (s : State) : (eventStep e s).foreground false false = s.foreground false false := by
  cases e with
  | agent e => exact (agentStep_kept e s).foreground
  | irq h =>
    unfold eventStep
    dsimp only
    split
    · rfl
    · rename_i he; exact runHandler_foreground he
    · unfold State.noteHang
      split <;> rfl

theorem eventSteps_foreground (es : List Event) : ∀ s : State,
    (eventSteps es s).foreground false false = s.foreground false false := by
  induction es with
  | nil => exact fun _ => rfl
  | cons e es ih => exact fun s => (ih _).trans (eventStep_foreground e s)

theorem gap_foreground (s : State) : (gap s).foreground false false = s.foreground false false := by
  unfold gap
  split
  · rfl
  · exact eventSteps_foreground _ _

@[simp] theorem gap_hostMem (s : State) : (gap s).hostMem = s.hostMem := congrArg Foreground.hostMem (gap_foreground s)
@[simp] theorem gap_mgmt (s : State) : (gap s).chip.mgmt = s.chip.mgmt := congrArg Foreground.mgmt (gap_foreground s)
@[simp] theorem gap_pnr (s : State) : (gap s).chip.pnr = s.chip.pnr := congrArg Foreground.pnr (gap_foreground s)
@[simp] theorem gap_ptr (s : State) : (gap s).chip.ptr = s.chip.ptr := congrArg Foreground.ptr (gap_foreground s)

@[simp] theorem gap_params (s : State) : (gap s).params = s.params := congrArg Steady.params (gap_steady s)

/-! ## The engine where a handler hangs -/

theorem eventStep_hang_eng (hs : s.hang = none) (e : Event) (hg : (eventStep e s).hang = some g) : g.eng = s.eng := by
  cases e with
  | agent e =>
    rw [eventStep_agent, (agentStep_kept e s).hang, hs] at hg
    cases hg
  | irq h =>
    unfold eventStep at hg
    dsimp only at hg
    split at hg
    · rw [hs] at hg
      cases hg
    · rename_i he
      rw [runHandler_hang he, hs] at hg
      cases hg
    · rename_i t he
      rw [noteHang_of_none hs] at hg
      obtain rfl := Option.some.inj hg
      exact runHandler_hangs_eng he

theorem eventSteps_hang_eng (es : List Event) : ∀ s : State, s.hang = none → (eventSteps es s).hang = some g →
    g.eng = s.eng := by
  induction es with
  | nil => intro s hs hg; rw [eventSteps_nil, hs] at hg; cases hg
  | cons e es ih =>
    intro s hs hg
    cases he : (eventStep e s).hang with
    | none => exact (ih _ he hg).trans (eventStep_eng e s)
    | some g' =>
      rw [eventSteps_cons, eventSteps_hang es _ he] at hg
      obtain rfl := Option.some.inj hg
      exact eventStep_hang_eng hs e he

/-- A handler that hangs in a gap hangs with the engine as the gap found it (R334, log 46). -/
theorem gap_hang_eng (hs : s.hang = none) (hg : (gap s).hang = some g) : g.eng = s.eng := by
  cases ht : s.env.tape with
  | nil =>
    rw [gap_quiet ht, hs] at hg
    cases hg
  | cons p rest =>
    rw [gap_cons ht] at hg
    exact eventSteps_hang_eng _ { s with env := { s.env with tape := rest, now := s.env.now + p.dt } } hs hg

end Sys2Proof.Machine
end

section
/-! PROOFS. A management exchange on every schedule (spec/44_mii.md R243, R246 to R248, R250, R251): what it keeps from its first
access on, and that it restores the bank and leaves MGMT idle. -/

namespace Sys2Proof.Machine

variable {s t : State} {f : List Drive} {n : Next} {v : Word} {i : Instr}

/-! ## In the exchange -/

/-- The cycles of the sequence as they were built. -/
abbrev Engine.drives (e : Engine) : List Drive := e.seqBuf.map (fun c => Drive.mk c.oe c.dat)

/-- Behind the read of BSR the engine holds the bank and the frame until the exchange is over. -/
def Engine.Holds (b : BitVec 2) (f : List Drive) (e : Engine) : Prop := e.savedBank = b ∧ e.drives = f

/-- The chip unit beside the bank and MGMT, the two registers that an exchange writes. -/
def Chip.besidePins (c : Chip) : Chip := { c with bank := 0, mgmt := 0 }

theorem Chip.eq_of_besidePins {c d : Chip} (h : d.besidePins = c.besidePins) (hb : d.bank = c.bank) :
    d = { c with mgmt := d.mgmt } := by
  cases c
  cases d
  simp_all [Chip.besidePins]

/-- What an exchange of frame `f` that began in `s` keeps up to `t`; with the agents at rest all of the chip unit but the bank and
MGMT, and the interrupt context. -/
structure State.InExchange (s : State) (f : List Drive) (t : State) : Prop where
  params : t.params = s.params
  hostMem : t.hostMem = s.hostMem
  pnr : t.chip.pnr = s.chip.pnr
  ptr : t.chip.ptr = s.chip.ptr
  holds : t.eng.Holds s.chip.bank f
  hang : s.hang = none → ∀ h, t.hang = some h → h.eng.Holds s.chip.bank f
  quiet : s.Quiet → t.Quiet
  chip : s.Quiet → t.chip.besidePins = s.chip.besidePins
  irq : s.Quiet → t.irq = s.irq
  inbox : s.Quiet → t.inbox = s.inbox

namespace State.InExchange

theorem gap (h : s.InExchange f t) : s.InExchange f (Machine.gap t) where
  params := by simp [h.params]
  hostMem := by simp [h.hostMem]
  pnr := by simp [h.pnr]
  ptr := by simp [h.ptr]
  holds := by simpa using h.holds
  hang := fun hs g hg => by
    cases ht : t.hang with
    | none =>
      rw [gap_hang_eng ht hg]
      exact h.holds
    | some g' =>
      rw [gap_hang ht] at hg
      obtain rfl := Option.some.inj hg
      exact h.hang hs _ ht
  quiet := fun hq => by rw [gap_quiet (h.quiet hq)]; exact h.quiet hq
  chip := fun hq => by rw [gap_quiet (h.quiet hq)]; exact h.chip hq
  irq := fun hq => by rw [gap_quiet (h.quiet hq)]; exact h.irq hq
  inbox := fun hq => by rw [gap_quiet (h.quiet hq)]; exact h.inbox hq

theorem delay {d : Nat} (h : s.InExchange f t) : s.InExchange f (Machine.delay n d t) :=
  gap (t := (t.note (.delay d)).advance n) { h with }

theorem wrBank {b : BitVec 2} (h : s.InExchange f t) : s.InExchange f (Machine.wrBank n b t) := by
  rw [Machine.wrBank, wr_eq, setReg_bsr]
  exact gap { h with }

theorem wrMgmt (h : s.InExchange f t) : s.InExchange f (wr n .mgmt 2 v t) := by
  obtain ⟨p, k, hw⟩ := mgmtWrite_state v t
  rw [wr_eq, setReg_mgmt, hw]
  exact gap { h with }

theorem rdMgmt (h : s.InExchange f t) : s.InExchange f (rd n .mgmt 2 t).2 :=
  gap (t := ((t.bump 1).note (.read .mgmt 2 _)).advance n) { h with }

/-- A sample writes an `in` flag alone (R105). -/
theorem sample {j : Nat} {m : Word} (h : s.InExchange f t) :
    s.InExchange f (rdKeep n .mgmt 2 (fun v e => { e with seqBuf := Machine.sample j (has v m) e.seqBuf }) t) := by
  rw [rdKeep_eq]
  exact gap { h with holds := ⟨h.holds.1, (sample_drives j _ t.eng.seqBuf).trans h.holds.2⟩ }

theorem runCycle {base : Word} {j : Nat} {c : Cycle} (h : s.InExchange f t) :
    s.InExchange f (Machine.runCycle n base j c t) := by
  unfold Machine.runCycle
  exact h.wrMgmt.delay.wrMgmt.delay.sample

theorem runCycles (base : Word) (cs : List Cycle) : ∀ (j : Nat) {t : State}, s.InExchange f t →
    s.InExchange f (Machine.runCycles base j cs t) := by
  induction cs with
  | nil => exact fun _ _ h => h
  | cons c cs ih => exact fun j _ h => ih (j + 1) h.runCycle

end State.InExchange

/-! ## From its first access to its last -/

theorem saveBank_inExchange (hf : s.eng.drives = f) : s.InExchange f (saveBank s) := by
  rw [saveBank, rdKeep_eq]
  refine State.InExchange.gap ?_
  exact {
    params := rfl
    hostMem := rfl
    pnr := rfl
    ptr := rfl
    holds := ⟨readReg_bsr_bank s, hf⟩
    hang := fun hs g hg => nomatch hs.symm.trans hg
    quiet := id
    chip := fun _ => rfl
    irq := fun _ => rfl
    inbox := fun _ => rfl }

/-- MGMT with the four management bits cleared, the base value of R243 step 3, is one whatever the data pin shows. -/
theorem without_readReg_mgmt (s : State) :
    without (readReg .mgmt s).1 (mgmtBits s.params) = without s.chip.mgmt (mgmtBits s.params) := by
  apply BitVec.eq_of_getLsbD_eq
  intro k _
  simp only [readReg, mgmtBits, getLsbD_without, BitVec.getLsbD_or, getLsbD_flag]
  cases (mdi s.params).getLsbD k <;> simp

theorem without_mgmtBits_mdi (p : Config.Params) (w : Word) :
    without (without w (mgmtBits p)) (mdi p) = without w (mgmtBits p) := by
  apply BitVec.eq_of_getLsbD_eq
  intro k _
  simp only [mgmtBits, getLsbD_without, BitVec.getLsbD_or]
  cases (mdi p).getLsbD k <;> simp

/-- The executor with the management bank selected (R243 step 2), behind its read of MGMT, and the base value it has read (step
3). -/
def pinsSelected (s : State) : State := wrBank (runLine 3) s.params.regs.mb (saveBank s)

def baseRead (s : State) : State := (rd (inCycle 0 .low 1) .mgmt 2 (pinsSelected s)).2

def baseOf (s : State) : Word := without (readReg .mgmt (pinsSelected s)).1 (mgmtBits s.params)

/-- It behind its cycles (step 4). -/
def cyclesRun (s : State) : State := runCycles (baseOf s) 0 (baseRead s).eng.seqBuf (baseRead s)

/-- It with the pins left idle (step 5). -/
def pinsReleased (s : State) : State := wr (runLine 6) .mgmt 2 (baseOf s) (cyclesRun s)

/-- Step 6 restores the bank. -/
theorem runSequence_eq (s : State) : runSequence s = wrBank (.to 3) (pinsReleased s).eng.savedBank (pinsReleased s) := rfl

theorem pinsSelected_inExchange (hf : s.eng.drives = f) : s.InExchange f (pinsSelected s) := (saveBank_inExchange hf).wrBank

theorem baseRead_inExchange (hf : s.eng.drives = f) : s.InExchange f (baseRead s) := (pinsSelected_inExchange hf).rdMgmt

theorem cyclesRun_inExchange (hf : s.eng.drives = f) : s.InExchange f (cyclesRun s) :=
  (baseRead_inExchange hf).runCycles _ _ _

theorem pinsReleased_inExchange (hf : s.eng.drives = f) : s.InExchange f (pinsReleased s) :=
  (cyclesRun_inExchange hf).wrMgmt

theorem runSequence_inExchange (hf : s.eng.drives = f) : s.InExchange f (runSequence s) :=
  (pinsReleased_inExchange hf).wrBank

/-- The bank is restored, whatever it was (R247). -/
theorem runSequence_bank (s : State) : (runSequence s).chip.bank = s.chip.bank := by
  rw [runSequence_eq, wrBank_bank]
  exact (pinsReleased_inExchange rfl).holds.1

/-- The base value is MGMT as the exchange found it, the management bits cleared (R248). -/
theorem baseOf_eq (s : State) : baseOf s = without s.chip.mgmt (mgmtBits s.params) := by
  have hp : (pinsSelected s).params = s.params := (pinsSelected_inExchange rfl).params
  have hm : (pinsSelected s).chip.mgmt = s.chip.mgmt := by
    simp [pinsSelected, saveBank, wrBank, wr_eq, setReg_bsr, rdKeep_eq, readReg]
  rw [baseOf, ← hp, without_readReg_mgmt, hm]

/-- MGMT is left undriven, its clock low (R246). -/
theorem runSequence_mgmt (s : State) : (runSequence s).chip.mgmt = without s.chip.mgmt (mgmtBits s.params) := by
  have hp : (cyclesRun s).params = s.params := (cyclesRun_inExchange rfl).params
  have hr : (pinsReleased s).chip.mgmt = without (baseOf s) (mdi s.params) := by
    simp [pinsReleased, wr_eq, setReg_mgmt, hp]
  have hm : (runSequence s).chip.mgmt = (pinsReleased s).chip.mgmt := by
    simp [runSequence_eq, wrBank, wr_eq, setReg_bsr]
  rw [hm, hr, baseOf_eq, without_mgmtBits_mdi]

/-! ## The four rows -/

/-- Operation `i` behind its exchange of frame `f`. -/
def State.exchanged (s : State) (i : Instr) (f : List Drive) : State := runFrame f (s.begin i)

/-- It behind its end, with the sequence discarded (R62). -/
def State.exchangeOver (s : State) (i : Instr) (f : List Drive) (v : Int) : State :=
  ((discardSequence (s.exchanged i f)).advance .ret).finish .ok v

/-- `i` exchanges the frame that reads register `reg` at address `phy` (R250). -/
def Reads (q : Config.Params) (i : Instr) (phy reg : BitVec 5) : Prop :=
  i = .miiReadFrame phy reg ∨ ∃ r : Byte, r.toNat < 32 ∧ i = .miiRead r ∧ phy = q.phyAddr ∧ reg = r.setWidth 5

/-- `i` exchanges the frame that writes `v` to it (R251). -/
def Writes (q : Config.Params) (i : Instr) (phy reg : BitVec 5) (v : Word) : Prop :=
  i = .miiWriteFrame phy reg v ∨ ∃ r : Byte, r.toNat < 32 ∧ i = .miiWrite r v ∧ phy = q.phyAddr ∧ reg = r.setWidth 5

theorem Reads.exec {phy reg : BitVec 5} (h : Reads s.params i phy reg) :
    exec i s = .next (s.exchangeOver i (buildRead phy reg)
      (decodeInput (s.exchanged i (buildRead phy reg)).eng.seqBuf).toNat) := by
  obtain rfl | ⟨r, hr, rfl, rfl, rfl⟩ := h
  · rfl
  · exact if_pos hr

theorem Writes.exec {phy reg : BitVec 5} (h : Writes s.params i phy reg v) :
    exec i s = .next (s.exchangeOver i (buildWrite phy reg v) 0) := by
  obtain rfl | ⟨r, hr, rfl, rfl, rfl⟩ := h
  · rfl
  · exact if_pos hr

/-- The executor starts with the frame built. -/
theorem drives_toSequence (f : List Drive) : (toSequence f).map (fun c => Drive.mk c.oe c.dat) = f := by
  rw [toSequence, List.map_map]
  exact List.map_id f

theorem exchanged_inExchange (s : State) (i : Instr) (f : List Drive) : s.InExchange f (s.exchanged i f) :=
  have h := runSequence_inExchange (s := (((s.begin i).setEng { (s.begin i).eng with seqBuf := toSequence f }).advance
    (runLine 1))) (drives_toSequence f)
  { h with }

theorem exchanged_bank (s : State) (i : Instr) (f : List Drive) : (s.exchanged i f).chip.bank = s.chip.bank :=
  runSequence_bank _

theorem exchanged_mgmt (s : State) (i : Instr) (f : List Drive) :
    (s.exchanged i f).chip.mgmt = without s.chip.mgmt (mgmtBits s.params) :=
  runSequence_mgmt _

/-- Settles O49: every row is an exchange, whatever its frame holds. -/
theorem exchangesRestoreTheBank : Obligations.ExchangesRestoreTheBank := by
  intro i f s hi
  obtain ⟨v, hx⟩ : ∃ v, exec i s = .next (s.exchangeOver i f v) := by
    obtain ⟨reg, hreg, ⟨rfl, rfl⟩ | ⟨v, rfl, rfl⟩⟩ | ⟨phy, reg, ⟨rfl, rfl⟩ | ⟨v, rfl, rfl⟩⟩ := hi
    · exact ⟨_, Reads.exec (.inr ⟨reg, hreg, rfl, rfl, rfl⟩)⟩
    · exact ⟨_, Writes.exec (.inr ⟨reg, hreg, rfl, rfl, rfl⟩)⟩
    · exact ⟨_, Reads.exec (.inl rfl)⟩
    · exact ⟨_, Writes.exec (.inl rfl)⟩
  have h := exchanged_inExchange s i f
  have hbank := exchanged_bank s i f
  have hmgmt := exchanged_mgmt s i f
  unfold State.exchangeOver at hx
  generalize s.exchanged i f = t at hx h hbank hmgmt
  exact ⟨_, v, hx, ⟨rfl, rfl⟩, hbank, h.pnr, h.ptr, hmgmt, rfl, h.hostMem, fun g hs => h.hang hs g,
    fun hq => ⟨Chip.eq_of_besidePins (h.chip hq) hbank, h.irq hq, h.inbox hq⟩⟩

end Sys2Proof.Machine
end

section
/-! PROOFS. The accesses of a management exchange in order (spec/44_mii.md R253, R254), with the platform's enable off, so that no
handler makes one between them. -/

namespace Sys2Proof.Machine

variable {s t u : State} {q : Config.Params} {i : Instr} {f : List Drive} {l l' : List Access} {n : Next} {r : Reg} {w : Nat}
  {v base : Word} {c : Cycle} {j k : Nat}

/-! ## What a part adds to the trace -/

/-- From `s` to `t` the trace has grown by these accesses, oldest first, and the platform's enable is off. -/
structure State.Records (s : State) (l : List Access) (t : State) : Prop where
  params : t.params = s.params
  disabled : t.irq.enabled = false
  trace : t.env.trace = l.reverse ++ s.env.trace

theorem State.Records.trans (h : s.Records l t) (g : t.Records l' u) : s.Records (l ++ l') u where
  params := g.params.trans h.params
  disabled := g.disabled
  trace := by rw [g.trace, h.trace, List.reverse_append, List.append_assoc]

/-- An access and the gap behind it. -/
theorem records_gap {a : Access} (hp : t.params = s.params) (he : t.irq.enabled = false)
    (ht : t.env.trace = s.env.trace) : s.Records [a] (gap ((t.note a).advance n)) := by
  have h := gap_kept ((t.note a).advance n) he
  exact ⟨h.params.trans hp, h.enabled.trans he, h.trace.trans (congrArg _ ht)⟩

section
variable (he : s.irq.enabled = false)
include he

theorem wr_records (n : Next) (r : Reg) (w : Nat) (v : Word) : s.Records [.write r w (v.setWidth 32)] (wr n r w v s) :=
  records_gap (setReg_params r v s) (by simpa using he) (setReg_trace r v s)

theorem delay_records (n : Next) (d : Nat) : s.Records [.delay d] (delay n d s) := records_gap rfl he rfl

theorem rd_records (n : Next) (r : Reg) (w : Nat) : s.Records [.read r w ((readReg r s).1.setWidth 32)] (rd n r w s).2 :=
  records_gap (readReg_params r s) (by simpa using he) (readReg_trace r s)

theorem rdKeep_records (n : Next) (r : Reg) (w : Nat) (keep : Word → Engine → Engine) :
    s.Records [.read r w ((readReg r s).1.setWidth 32)] (rdKeep n r w keep s) :=
  records_gap (readReg_params r s) (by simpa using he) (readReg_trace r s)

end

/-! ## The accesses of cycles -/

/-- The accesses of `k` cycles: their registers, their clock levels, their delays and how many they are (R244, R245, R253). -/
structure CycleAccesses (q : Config.Params) (k : Nat) (l : List Access) : Prop where
  registers : l.filterMap windowAccess = (List.replicate k [(Reg.mgmt, true), (Reg.mgmt, true), (Reg.mgmt, false)]).flatten
  clock : l.filterMap (clockLevel q) = (List.replicate k [false, true]).flatten
  delays : l.countP (isDelayOf 50) = 2 * k
  length : l.length = 5 * k

theorem cycleAccesses_nil : CycleAccesses q 0 [] := ⟨rfl, rfl, rfl, rfl⟩

theorem CycleAccesses.cons (h : CycleAccesses q 1 l) (g : CycleAccesses q k l') : CycleAccesses q (k + 1) (l ++ l') where
  registers := by simp [h.registers, g.registers, List.replicate_succ]
  clock := by simp [h.clock, g.clock, List.replicate_succ]
  delays := by rw [List.countP_append, h.delays, g.delays]; omega
  length := by rw [List.length_append, h.length, g.length]; omega

@[simp] theorem clockLevel_read (r : Reg) (w : Nat) (x : Long) : clockLevel q (.read r w x) = none := rfl
@[simp] theorem clockLevel_delay (d : Nat) : clockLevel q (.delay d) = none := rfl
@[simp] theorem clockLevel_write_bsr (w : Nat) (x : Long) : clockLevel q (.write .bsr w x) = none := rfl
@[simp] theorem clockLevel_write_mgmt (w : Nat) (x : Long) :
    clockLevel q (.write .mgmt w x) = some (has x ((mclk q).setWidth 32)) := rfl

/-- The clock is low, then high (R244). -/
theorem cycleAccesses_one {x : Long} (hv : has v (mclk q) = false) :
    CycleAccesses q 1 [.write .mgmt 2 (v.setWidth 32), .delay 50, .write .mgmt 2 ((v ||| mclk q).setWidth 32), .delay 50,
      .read .mgmt 2 x] where
  registers := rfl
  clock := by
    have hk : has (mclk q) (mclk q) = true := has_bit_self _
    simp only [List.filterMap_cons, List.filterMap_nil, clockLevel_write_mgmt, clockLevel_read, clockLevel_delay,
      has_setWidth_long, has_or, hv, hk, Bool.or_true]
    rfl
  delays := rfl
  length := rfl

/-- The four management bits of MGMT are four bits (R127). -/
theorem mgmtFlags_of_bitsOk (h : bitsOk q.bits) :
    has (mdoe q) (mclk q) = false ∧ has (mdoe q) (mdi q) = false ∧ has (mdoe q) (mdo q) = false ∧
      has (mclk q) (mdoe q) = false ∧ has (mclk q) (mdi q) = false ∧ has (mclk q) (mdo q) = false ∧
      has (mdo q) (mdoe q) = false ∧ has (mdo q) (mclk q) = false ∧ has (mdo q) (mdi q) = false := by
  obtain ⟨-, h, -⟩ := h
  simp only [List.nodup_cons, List.mem_cons, List.not_mem_nil, or_false, not_or, ← ne_eq] at h
  obtain ⟨⟨hec, hei, heo⟩, ⟨hci, hco⟩, hio, -⟩ := h
  exact ⟨has_bit_of_ne hec, has_bit_of_ne hei, has_bit_of_ne heo, has_bit_of_ne hec.symm, has_bit_of_ne hci,
    has_bit_of_ne hco, has_bit_of_ne heo.symm, has_bit_of_ne hco.symm, has_bit_of_ne hio.symm⟩

/-- A value without management bits, such as the base value of an exchange (R248). -/
def Clean (q : Config.Params) (base : Word) : Prop := ∀ m ∈ [mdoe q, mclk q, mdi q, mdo q], has base m = false

theorem clean_without (q : Config.Params) (v : Word) : Clean q (without v (mgmtBits q)) := by
  intro m hm
  simp only [List.mem_cons, List.not_mem_nil, or_false] at hm
  rcases hm with rfl | rfl | rfl | rfl <;> rw [mgmtBits, mdoe, mclk, mdi, mdo, has_bit, getLsbD_without] <;> simp

/-- The low half of a cycle leaves the clock low (R243 step 4a). -/
theorem has_mclk_cycleWord (hb : bitsOk q.bits) (hc : Clean q base) (c : Cycle) :
    has (cycleWord q base c) (mclk q) = false := by
  obtain ⟨hec, -, -, -, -, -, -, hoc, -⟩ := mgmtFlags_of_bitsOk hb
  simp [cycleWord, has_or, has_flag, hec, hoc, hc (mclk q) (by simp)]

/-- Behind the low half of cycle `j` (R243 steps 4b and 4c), and behind its high half (steps 4d and 4e). -/
def clockLow (base : Word) (j : Nat) (c : Cycle) (s : State) : State :=
  delay (inCycle j .low 4) Config.miiHalfPeriod (wr (inCycle j .low 3) .mgmt 2 (cycleWord s.params base c) s)

def clockHigh (base : Word) (j : Nat) (c : Cycle) (s : State) : State :=
  delay (inCycle j .high 6) Config.miiHalfPeriod
    (wr (inCycle j .high 5) .mgmt 2 (cycleWord s.params base c ||| mclk (clockLow base j c s).params) (clockLow base j c s))

theorem runCycle_eq (n : Next) (base : Word) (j : Nat) (c : Cycle) (s : State) :
    runCycle n base j c s = rdKeep n .mgmt 2
      (fun v e => { e with seqBuf := sample j (has v (mdi (clockHigh base j c s).params)) e.seqBuf })
      (clockHigh base j c s) := rfl

theorem runCycle_records (hb : bitsOk s.params.bits) (hc : Clean s.params base) (he : s.irq.enabled = false) (n : Next)
    (j : Nat) (c : Cycle) : ∃ l, CycleAccesses s.params 1 l ∧ s.Records l (runCycle n base j c s) := by
  have h1 := wr_records he (inCycle j .low 3) .mgmt 2 (cycleWord s.params base c)
  have hlow : s.Records _ (clockLow base j c s) := h1.trans (delay_records h1.disabled (inCycle j .low 4) Config.miiHalfPeriod)
  have h3 := wr_records hlow.disabled (inCycle j .high 5) .mgmt 2
    (cycleWord s.params base c ||| mclk (clockLow base j c s).params)
  have hhigh : s.Records _ (clockHigh base j c s) :=
    hlow.trans (h3.trans (delay_records h3.disabled (inCycle j .high 6) Config.miiHalfPeriod))
  rw [hlow.params] at hhigh
  rw [runCycle_eq]
  exact ⟨_, cycleAccesses_one (has_mclk_cycleWord hb hc c), hhigh.trans (rdKeep_records hhigh.disabled n .mgmt 2 _)⟩

theorem runCycles_records (base : Word) (cs : List Cycle) : ∀ (j : Nat) (s : State), bitsOk s.params.bits →
    Clean s.params base → s.irq.enabled = false →
    ∃ l, CycleAccesses s.params cs.length l ∧ s.Records l (runCycles base j cs s) := by
  induction cs with
  | nil => exact fun _ s _ _ he => ⟨[], cycleAccesses_nil, rfl, he, rfl⟩
  | cons c cs ih =>
    intro j s hb hc he
    obtain ⟨l, hl, h⟩ := runCycle_records hb hc he (afterCycle j cs) j c
    obtain ⟨l', hl', h'⟩ := ih (j + 1) _ (by rwa [h.params]) (by rwa [h.params]) h.disabled
    rw [h.params] at hl'
    exact ⟨l ++ l', hl.cons hl', h.trans h'⟩

/-! ## The whole exchange -/

theorem length_drives (e : Engine) : e.drives.length = e.seqBuf.length := List.length_map _

/-- The accesses before the cycles and those behind them (R243 steps 1 to 3, 5 and 6). -/
theorem runSequence_records (hb : bitsOk s.params.bits) (he : s.irq.enabled = false) (hk : s.eng.seqBuf.length = k) :
    ∃ (a b c d e : Long) (l : List Access), CycleAccesses s.params k l ∧ has d ((mclk s.params).setWidth 32) = false ∧
      s.Records ([.read .bsr 2 a, .write .bsr 2 b, .read .mgmt 2 c] ++ l ++ [.write .mgmt 2 d, .write .bsr 2 e])
        (runSequence s) := by
  have hsave : s.Records _ (saveBank s) := rdKeep_records he (runLine 2) .bsr 2 _
  have hsel : s.Records _ (pinsSelected s) := hsave.trans (wr_records hsave.disabled (runLine 3) .bsr 2 _)
  have hread : s.Records _ (baseRead s) := hsel.trans (rd_records hsel.disabled (inCycle 0 .low 1) .mgmt 2)
  have hclean : Clean s.params (baseOf s) := clean_without _ _
  have hseq : (baseRead s).eng.seqBuf.length = k := by
    rw [← hk, ← length_drives, (baseRead_inExchange rfl).holds.2, length_drives]
  obtain ⟨l, hl, hcycles⟩ :=
    runCycles_records (baseOf s) (baseRead s).eng.seqBuf 0 _ (by rwa [hread.params]) (by rwa [hread.params]) hread.disabled
  rw [hseq, hread.params] at hl
  have hrun : s.Records _ (cyclesRun s) := hread.trans hcycles
  have hrel : s.Records _ (pinsReleased s) := hrun.trans (wr_records hrun.disabled (runLine 6) .mgmt 2 (baseOf s))
  have hend : s.Records _ (runSequence s) := hrel.trans (wr_records hrel.disabled (.to 3) .bsr 2 _)
  refine ⟨_, _, _, _, _, l, hl, ?_, by simpa only [List.append_assoc, List.cons_append, List.nil_append] using hend⟩
  rw [has_setWidth_long]
  exact hclean _ (by simp)

theorem exchanged_records (i : Instr) (hb : bitsOk s.params.bits) (he : s.irq.enabled = false) (hk : f.length = k) :
    ∃ (a b c d e : Long) (l : List Access), CycleAccesses s.params k l ∧ has d ((mclk s.params).setWidth 32) = false ∧
      s.Records ([.read .bsr 2 a, .write .bsr 2 b, .read .mgmt 2 c] ++ l ++ [.write .mgmt 2 d, .write .bsr 2 e])
        (s.exchanged i f) := by
  obtain ⟨a, b, c, d, e, l, hl, hd, h⟩ := runSequence_records (k := k)
    (s := ((s.begin i).setEng { (s.begin i).eng with seqBuf := toSequence f }).advance (runLine 1)) hb he
    ((List.length_map _).trans hk)
  exact ⟨a, b, c, d, e, l, hl, hd, { h with }⟩

/-- Settles O50: the accesses around the cycles, and those of each cycle. -/
theorem exchangeAccessOrder : Obligations.ExchangeAccessOrder := by
  intro i n s hb he hi
  obtain ⟨f, v, hn, hx⟩ : ∃ f v, f.length = n ∧ exec i s = .next (s.exchangeOver i f v) := by
    obtain ⟨rfl, ⟨reg, hreg, rfl⟩ | ⟨phy, reg, rfl⟩⟩ | ⟨rfl, ⟨reg, v, hreg, rfl⟩ | ⟨phy, reg, v, rfl⟩⟩ := hi
    · exact ⟨_, _, rfl, Reads.exec (.inr ⟨reg, hreg, rfl, rfl, rfl⟩)⟩
    · exact ⟨_, _, rfl, Reads.exec (phy := phy) (reg := reg) (.inl rfl)⟩
    · exact ⟨_, _, rfl, Writes.exec (.inr ⟨reg, hreg, rfl, rfl, rfl⟩)⟩
    · exact ⟨_, _, rfl, Writes.exec (phy := phy) (reg := reg) (.inl rfl)⟩
  obtain ⟨a, b, c, d, e, l, hl, hd, h⟩ := exchanged_records i hb he hn
  refine ⟨_, _, hx, h.trace, ?_, ?_, ?_, ?_⟩
  · rw [List.reverse_reverse]
    simp [List.filterMap_append, hl.registers, windowAccess, exchangeAccesses]
  · rw [List.reverse_reverse]
    simp [List.filterMap_cons, List.filterMap_append, hl.clock, hd]
  · simp [hl.delays, isDelayOf]
  · simp [hl.length]

end Sys2Proof.Machine
end

section
/-! PROOFS. The PHY through a management frame, edge by edge (spec/44_mii.md R262 to R265): the preamble and the header of either
frame, and what follows for the PHY that is addressed and for any other one. -/

namespace Sys2Proof.Machine

variable {q : Config.Params} {p p' : Phy} {d : Drive} {ds es : List Drive} {x b isRead : Bool} {xs : List Bool} {k m n : Nat}
  {bits : BitVec 14} {a r : BitVec 5} {v w rest : Word}

/-! ## Bits taken one by one -/

/-- The next bit of a field, the most significant one first (R148, R263, R265). -/
def shiftIn {n : Nat} (w : BitVec n) (b : Bool) : BitVec n := (w <<< 1) ||| (BitVec.ofBool b).setWidth n

theorem getLsbD_shiftIn {n : Nat} (w : BitVec n) (b : Bool) (i : Nat) :
    (shiftIn w b).getLsbD i = (decide (i < n) && if i = 0 then b else w.getLsbD (i - 1)) := by
  rcases i with - | i
  · simp [shiftIn]
  · simp [shiftIn]

theorem getLsbD_foldl_shiftIn {n : Nat} (l : List Bool) : ∀ (w : BitVec n) (i : Nat), (l.foldl shiftIn w).getLsbD i =
    (decide (i < n) && if i < l.length then l.getD (l.length - 1 - i) false else w.getLsbD (i - l.length)) := by
  induction l with
  | nil =>
    intro w i
    by_cases hi : i < n
    · simp [hi]
    · simp [hi, BitVec.getLsbD_of_ge w i (by omega)]
  | cons b l ih =>
    intro w i
    rw [List.foldl_cons, ih, List.length_cons]
    rcases Nat.lt_trichotomy i l.length with hi | rfl | hi
    · rw [if_pos hi, if_pos (by omega), show l.length + 1 - 1 - i = l.length - 1 - i + 1 by omega, List.getD_cons_succ]
    · rw [if_neg (Nat.lt_irrefl _), if_pos (Nat.lt_succ_self _), getLsbD_shiftIn, if_pos (Nat.sub_self _)]
      rcases Nat.lt_or_ge l.length n with hn | hn
      · simp [hn, show 0 < n by omega]
      · simp [Nat.not_lt.mpr hn]
    · rw [if_neg (by omega), if_neg (by omega), getLsbD_shiftIn, if_neg (by omega), Nat.sub_sub]
      rcases Nat.lt_or_ge i n with hn | hn
      · rw [decide_eq_true (show i - l.length < n by omega), Bool.true_and]
      · rw [decide_eq_false (Nat.not_lt.mpr hn), Bool.false_and, Bool.false_and]

/-- A field taken behind `w`. -/
theorem getLsbD_foldl_msbFirst {n m : Nat} (w : BitVec n) (f : BitVec m) (i : Nat) :
    ((msbFirst f).foldl shiftIn w).getLsbD i =
      (decide (i < n) && if i < m then f.getLsbD i else w.getLsbD (i - m)) := by
  rw [getLsbD_foldl_shiftIn, length_msbFirst]
  split
  · rw [getD_msbFirst _ _ (by omega), show m - 1 - (m - 1 - i) = i by omega]
  · rfl

/-- A whole field taken is the field. -/
theorem foldl_msbFirst_zero {n : Nat} (f : BitVec n) : (msbFirst f).foldl shiftIn 0#n = f := by
  apply BitVec.eq_of_getLsbD_eq
  intro i hi
  rw [getLsbD_foldl_msbFirst, if_pos hi, decide_eq_true hi, Bool.true_and]

/-! ## Edges -/

/-- The PHY behind a rising edge; without one on the pins nothing happens (R256, R262). -/
def Phy.clocked (q : Config.Params) (p : Phy) (d : Drive) (n : Nat) : Phy :=
  if p.addr = none then p else { p with ones := onesAfter p.ones d }.edge q p.ones d n

/-- Clocked through the cycles `ds` the PHY comes from `p` to `p'`; the levels `xs` are sampled, in an undriven cycle the one the
PHY drives if it drives one (R245, R260). -/
inductive Phy.Sees (q : Config.Params) : Phy → List Drive → List Bool → Phy → Prop
  | nil (p : Phy) : Sees q p [] [] p
  | cons {p p' : Phy} {d : Drive} {ds : List Drive} {x : Bool} {xs : List Bool} (n : Nat)
      (sampled : d.oe = false → ∀ b, (p.clocked q d n).drive = some b → x = b) (next : Sees q (p.clocked q d n) ds xs p') :
      Sees q p (d :: ds) (x :: xs) p'

theorem Phy.Sees.length (h : p.Sees q ds xs p') : xs.length = ds.length := by
  induction h with
  | nil => rfl
  | cons _ _ _ ih => rw [List.length_cons, ih, List.length_cons]

/-- The frame in two parts. -/
theorem Phy.Sees.of_append : ∀ {ds : List Drive} {p : Phy} {xs : List Bool}, p.Sees q (ds ++ es) xs p' →
    ∃ z ys zs, xs = ys ++ zs ∧ p.Sees q ds ys z ∧ z.Sees q es zs p'
  | [], _, _, h => ⟨_, [], _, rfl, .nil _, h⟩
  | _ :: _, _, _, .cons n hx h => by
    obtain ⟨z, ys, zs, rfl, hy, hz⟩ := h.of_append
    exact ⟨z, _ :: ys, zs, rfl, .cons n hx hy, hz⟩

/-- Without a PHY on the pins nothing changes (R256). -/
theorem Phy.Sees.of_absent (h : p.Sees q ds xs p') (ha : p.addr = none) : p' = p := by
  induction h with
  | nil => rfl
  | cons n _ _ ih =>
    rw [Phy.clocked, if_pos ha] at ih
    exact ih ha

/-! ## The header (R263) -/

/-- The preamble's ones are counted, up to 32. -/
theorem sees_preamble (k : Nat) : ∀ {p : Phy} {xs : List Bool}, p.Sees q (List.replicate (k + 1) (driven true)) xs p' →
    p.addr ≠ none → p.rx = .hunt → p' = { p with ones := min 32 (p.ones + (k + 1)) } := by
  have hedge (p : Phy) (n : Nat) (ha : p.addr ≠ none) (hh : p.rx = .hunt) :
      p.clocked q (driven true) n = { p with ones := min 32 (p.ones + 1) } := by
    rw [Phy.clocked, if_neg ha, driven, edge_of_hunt _ _ _ (by exact hh)]
    rfl
  induction k with
  | zero =>
    rintro p xs (- | ⟨n, -, - | -⟩) ha hh
    exact hedge p n ha hh
  | succ k ih =>
    rintro p xs (- | ⟨n, -, h⟩) ha hh
    rw [hedge p n ha hh] at h
    rw [ih h ha hh]
    congr 1
    dsimp only
    omega

/-- The bits behind the preamble as far as the opcode: the second one of the start code, and the opcode. -/
def openingBits (isRead : Bool) : BitVec 14 := [true, isRead, !isRead].foldl shiftIn 0#14

/-- Start code and opcode behind a whole preamble. -/
theorem sees_opening (h : p.Sees q ([driven false, driven true] ++ opcodeCycles isRead) xs p') (ha : p.addr ≠ none)
    (hh : p.rx = .hunt) (h32 : p.ones = 32) : ∃ k, p' = { p with ones := k, rx := .header 4 (openingBits isRead) } := by
  rcases h with - | ⟨n₁, -, - | ⟨n₂, -, - | ⟨n₃, -, - | ⟨n₄, -, - | -⟩⟩⟩⟩
  cases isRead <;> simp [Phy.clocked, Phy.edge, driven, ha, hh, h32, openingBits, shiftIn]

/-- A bit of the two addresses that is not the last one. -/
theorem clocked_header {c : Nat} (ha : p.addr ≠ none) (hr : p.rx = .header c bits) (h4 : 4 ≤ c) (h13 : c < 13) :
    p.clocked q (driven b) n = { p with ones := onesAfter p.ones (driven b), rx := .header (c + 1) (shiftIn bits b) } := by
  rw [Phy.clocked, if_neg ha]
  simp only [Phy.edge, hr, driven, if_true, if_neg (show ¬c = 1 by omega), if_neg (show ¬c = 3 by omega),
    if_neg (show ¬c = 13 by omega)]
  rfl

/-- What the PHY has recognised behind a header with these operands. -/
def Phy.heard (q : Config.Params) (p : Phy) (isRead : Bool) (a r : BitVec 5) (rest : Word) : PhyRx :=
  if p.addr = some a then if isRead then .reading (p.readReg q r rest) 0 else .writing r 0 0 else .foreign isRead 0

theorem recognise_eq (q : Config.Params) (p : Phy) (bits : BitVec 14) (rest : Word) :
    p.recognise q bits rest = { p with
      rx := p.heard q (bits.extractLsb' 10 2 = 0b10#2) (bits.extractLsb' 5 5) (bits.extractLsb' 0 5) rest } := by
  simp only [Phy.recognise, Phy.heard]
  split
  · split <;> rfl
  · rfl

/-- The bits of the two addresses, the last of which is recognised. -/
theorem sees_addresses (l : List Bool) : ∀ {p : Phy} {xs : List Bool} {c : Nat} {bits : BitVec 14},
    p.Sees q (l.map driven) xs p' → p.addr ≠ none → p.rx = .header c bits → 4 ≤ c → c < 14 → c + l.length = 14 →
    ∃ k rest, p' = { p with ones := k, rx := (p.recognise q (l.foldl shiftIn bits) rest).rx } := by
  induction l with
  | nil => exact fun _ _ _ _ h14 hl => absurd hl (by simpa using Nat.ne_of_lt h14)
  | cons b l ih =>
    rintro p xs c bits (- | ⟨n, -, h⟩) ha hr h4 h14 hl
    rw [List.length_cons] at hl
    by_cases hc : c = 13
    · subst hc
      obtain rfl : l = [] := List.eq_nil_of_length_eq_zero (by omega)
      rcases h with - | -
      refine ⟨onesAfter p.ones (driven b), Config.freeWord n, ?_⟩
      rw [Phy.clocked, if_neg ha]
      simp only [Phy.edge, hr, driven, if_true, show ¬13 = 1 by omega, show ¬13 = 3 by omega, if_false, recognise_eq]
      rfl
    · rw [clocked_header ha hr h4 (by omega)] at h
      obtain ⟨k, rest, rfl⟩ := ih h ha rfl (by omega) (by omega) (by omega)
      exact ⟨k, rest, by simp only [recognise_eq]; rfl⟩

/-- The operands in the fourteen bits. -/
theorem headerBits (isRead : Bool) (a r : BitVec 5) (bits : BitVec 14)
    (hb : bits = (msbFirst r).foldl shiftIn ((msbFirst a).foldl shiftIn (openingBits isRead))) :
    bits.extractLsb' 10 2 = BitVec.ofBool isRead ++ BitVec.ofBool (!isRead) ∧ bits.extractLsb' 5 5 = a ∧
      bits.extractLsb' 0 5 = r := by
  subst hb
  refine ⟨?_, ?_, ?_⟩
  · have ho : (openingBits isRead).extractLsb' 0 2 = BitVec.ofBool isRead ++ BitVec.ofBool (!isRead) := by
      cases isRead <;> rfl
    rw [← ho]
    apply BitVec.eq_of_getLsbD_eq
    intro i hi
    simp only [BitVec.getLsbD_extractLsb', getLsbD_foldl_msbFirst]
    rw [if_neg (by omega), if_neg (by omega), decide_eq_true (show 10 + i < 14 by omega),
      decide_eq_true (show 10 + i - 5 < 14 by omega), show 10 + i - 5 - 5 = 0 + i by omega, Bool.true_and, Bool.true_and]
  · apply BitVec.eq_of_getLsbD_eq
    intro i hi
    simp only [BitVec.getLsbD_extractLsb', getLsbD_foldl_msbFirst]
    rw [if_neg (by omega), Nat.add_sub_cancel_left, if_pos hi, decide_eq_true hi, decide_eq_true (show 5 + i < 14 by omega),
      decide_eq_true (show i < 14 by omega), Bool.true_and, Bool.true_and, Bool.true_and]
  · apply BitVec.eq_of_getLsbD_eq
    intro i hi
    simp only [BitVec.getLsbD_extractLsb', getLsbD_foldl_msbFirst]
    rw [Nat.zero_add, if_pos hi, decide_eq_true hi, decide_eq_true (show i < 14 by omega), Bool.true_and, Bool.true_and]

/-- The 46 cycles that the two frames begin with, the same but for the opcode. -/
def headCycles (isRead : Bool) (a r : BitVec 5) : List Drive :=
  frameHead ++ opcodeCycles isRead ++ fieldCycles a ++ fieldCycles r

/-- The header is recognised at the edge of cycle 45 (R263). -/
theorem sees_head (h : p.Sees q (headCycles isRead a r) xs p') (ha : p.addr ≠ none) (hh : p.rx = .hunt) :
    ∃ k rest, p' = { p with ones := k, rx := p.heard q isRead a r rest } := by
  have hsplit : headCycles isRead a r = List.replicate (31 + 1) (driven true) ++
      (([driven false, driven true] ++ opcodeCycles isRead) ++ (msbFirst a ++ msbFirst r).map driven) := by
    simp only [headCycles, frameHead, fieldCycles, List.map_append, List.append_assoc]
  rw [hsplit] at h
  obtain ⟨p₁, _, _, -, hpre, h⟩ := h.of_append
  obtain ⟨p₂, _, _, -, hopen, haddr⟩ := h.of_append
  obtain rfl := sees_preamble 31 hpre ha hh
  obtain ⟨k, rfl⟩ := sees_opening hopen ha hh (by dsimp only; omega)
  obtain ⟨k', rest, rfl⟩ := sees_addresses _ haddr ha rfl (by omega) (by omega) (by simp)
  obtain ⟨hop, hphy, hreg⟩ := headerBits isRead a r _ (List.foldl_append ..)
  refine ⟨k', rest, ?_⟩
  rw [recognise_eq, hop, hphy, hreg]
  cases isRead <;> rfl

/-! ## The frame of another PHY (R263) -/

/-- The last of the cycles behind cycle 45. -/
def lastCycle (isRead : Bool) : Nat := if isRead then 17 else 18

/-- The turnaround and the data of a foreign frame are let pass; only a write drives data. -/
theorem clocked_foreign (ha : p.addr ≠ none) (hr : p.rx = .foreign isRead k) (hk : k < lastCycle isRead)
    (hd : d.oe = true → isRead = false ∧ 2 ≤ k) :
    p.clocked q d n = { p with ones := onesAfter p.ones d, rx := .foreign isRead (k + 1), drive := none } := by
  rw [Phy.clocked, if_neg ha]
  cases isRead with
  | true =>
    have hoe : d.oe = false := by simpa using hd
    simp only [Phy.edge, hr, hoe, if_pos (show k < 17 from hk), Bool.false_eq_true, if_false]
  | false =>
    have hk : k < 18 := hk
    rcases Nat.lt_or_ge k 2 with h2 | h2
    · have hoe : d.oe = false := by
        cases h : d.oe with
        | false => rfl
        | true => exact absurd (hd h).2 (by omega)
      simp [Phy.edge, hr, hoe, h2, show k ≠ 18 by omega]
    · simp [Phy.edge, hr, show ¬k < 2 by omega, show k ≠ 18 by omega]

/-- Behind its last cycle the PHY waits for the next frame. -/
theorem clocked_foreign_last (ha : p.addr ≠ none) (hr : p.rx = .foreign isRead (lastCycle isRead)) :
    p.clocked q undriven n = { p with ones := 0, rx := .hunt, drive := none } := by
  rw [Phy.clocked, if_neg ha]
  cases isRead <;> simp [Phy.edge, hr, undriven, lastCycle, onesAfter]

theorem sees_foreign (ds : List Drive) : ∀ {p : Phy} {xs : List Bool} {k : Nat}, p.Sees q (ds ++ [undriven]) xs p' →
    p.addr ≠ none → p.rx = .foreign isRead k → k + ds.length = lastCycle isRead →
    (∀ j e, ds[j]? = some e → e.oe = true → isRead = false ∧ 2 ≤ k + j) →
    p' = { p with ones := 0, rx := .hunt, drive := none } := by
  induction ds with
  | nil =>
    rintro p xs k (- | ⟨n, -, - | -⟩) ha hr hl -
    exact clocked_foreign_last ha (by rw [hr, ← hl]; rfl)
  | cons d ds ih =>
    rintro p xs k (- | ⟨n, -, h⟩) ha hr hl hd
    rw [List.length_cons] at hl
    rw [clocked_foreign ha hr (by omega) (hd 0 d rfl)] at h
    rw [ih h ha rfl (by omega) (fun j e he hoe => by
      obtain ⟨hw, hj⟩ := hd (j + 1) e he hoe
      exact ⟨hw, by omega⟩)]

/-- The addresses of the frame are not the PHY's (R263). -/
theorem sees_other (h : p.Sees q (headCycles isRead a r ++ (ds ++ [undriven])) xs p') (ha : p.addr ≠ none)
    (hne : p.addr ≠ some a) (hh : p.rx = .hunt) (hl : ds.length = lastCycle isRead)
    (hd : ∀ j e, ds[j]? = some e → e.oe = true → isRead = false ∧ 2 ≤ j) : p' = { p with ones := 0, drive := none } := by
  obtain ⟨_, _, _, -, hhead, htail⟩ := h.of_append
  obtain ⟨k, rest, rfl⟩ := sees_head hhead ha hh
  rw [sees_foreign ds htail ha (if_neg hne) (by omega) (by simpa using hd), ← hh]

theorem sees_buildRead_other (h : p.Sees q (buildRead a r) xs p') (ha : p.addr ≠ none) (hne : p.addr ≠ some a)
    (hh : p.rx = .hunt) : p' = { p with ones := 0, drive := none } := by
  refine sees_other (isRead := true) (ds := List.replicate 17 undriven) h ha hne hh rfl fun j e he hoe => ?_
  obtain rfl := List.eq_of_mem_replicate (List.mem_of_getElem? he)
  exact nomatch hoe

theorem sees_buildWrite_other (h : p.Sees q (buildWrite a r v) xs p') (ha : p.addr ≠ none) (hne : p.addr ≠ some a)
    (hh : p.rx = .hunt) : p' = { p with ones := 0, drive := none } := by
  have hsplit : buildWrite a r v = headCycles false a r ++ ((List.replicate 2 undriven ++ fieldCycles v) ++ [undriven]) := by
    simp only [buildWrite, headCycles, List.append_assoc]
  rw [hsplit] at h
  refine sees_other h ha hne hh (by simp [fieldCycles, lastCycle]) fun j e he hoe => ⟨rfl, ?_⟩
  match j, he with
  | 0, he => obtain rfl := Option.some.inj he; exact nomatch hoe
  | 1, he => obtain rfl := Option.some.inj he; exact nomatch hoe
  | j + 2, _ => omega

/-! ## A read (R264) -/

/-- The turnaround, and then a bit of the value in each cycle. -/
theorem clocked_reading (ha : p.addr ≠ none) (hr : p.rx = .reading v k) (hk : k < 17) :
    p.clocked q undriven n = { p with
      ones := 0, rx := .reading v (k + 1), drive := if k = 0 then none else some (v.getLsbD (16 - k)) } := by
  rw [Phy.clocked, if_neg ha]
  rcases Nat.eq_zero_or_pos k with rfl | h0
  · simp [Phy.edge, hr, undriven, onesAfter]
  · simp [Phy.edge, hr, undriven, onesAfter, hk, show k ≠ 0 by omega]

theorem clocked_reading_last (ha : p.addr ≠ none) (hr : p.rx = .reading v 17) :
    p.clocked q undriven n = { p with ones := 0, rx := .hunt, drive := none } := by
  rw [Phy.clocked, if_neg ha]
  simp [Phy.edge, hr, undriven, onesAfter]

/-- The samples of the value's cycles are its bits. -/
theorem sees_reading (m : Nat) : ∀ {p : Phy} {xs : List Bool} {k : Nat}, p.Sees q (List.replicate (m + 1) undriven) xs p' →
    p.addr ≠ none → p.rx = .reading v k → k + m = 17 → p' = { p with ones := 0, rx := .hunt, drive := none } ∧
      ∀ j < m, k + j ≠ 0 → xs.getD j false = v.getLsbD (16 - (k + j)) := by
  induction m with
  | zero =>
    rintro p xs k (- | ⟨n, -, - | -⟩) ha hr hk
    obtain rfl : k = 17 := hk
    exact ⟨clocked_reading_last ha hr, nofun⟩
  | succ m ih =>
    rintro p xs k (- | ⟨n, hx, h⟩) ha hr hk
    have hc := clocked_reading (q := q) (n := n) ha hr (by omega)
    rw [hc] at h hx
    obtain ⟨hp, hxs⟩ := ih h ha rfl (by omega)
    refine ⟨by rw [hp], fun j hj h0 => ?_⟩
    cases j with
    | zero => exact hx rfl _ (if_neg h0)
    | succ j =>
      rw [List.getD_cons_succ, hxs j (by omega) (by omega)]
      congr 1
      omega

theorem sees_buildRead (h : p.Sees q (buildRead a r) xs p') (ha : p.addr = some a) (hh : p.rx = .hunt) :
    p' = { p with ones := 0, drive := none } ∧
      ∃ rest, ∀ k < 16, xs.getD (47 + k) false = (p.readReg q r rest).getLsbD (15 - k) := by
  have hne : p.addr ≠ none := by simp [ha]
  obtain ⟨_, ys, zs, rfl, hhead, htail⟩ := Phy.Sees.of_append (ds := headCycles true a r) h
  have hy : ys.length = 46 := hhead.length
  obtain ⟨k, rest, rfl⟩ := sees_head hhead hne hh
  obtain ⟨hp, hz⟩ := sees_reading (v := p.readReg q r rest) (k := 0) 17 htail hne (if_pos ha) rfl
  refine ⟨by rw [hp, ← hh], rest, fun j hj => ?_⟩
  rw [List.getD_append_right _ _ _ _ (by omega), hy, show 47 + j - 46 = j + 1 by omega, hz (j + 1) (by omega) (by omega)]
  congr 1
  omega

/-! ## A write (R265) -/

/-- A PHY at another place of a frame. -/
def Phy.amid (p : Phy) (k : Nat) (x : PhyRx) (o : Option Bool) : Phy := { p with ones := k, rx := x, drive := o }

/-- A write of a register touches only the registers and the progress of a reset or a negotiation (R265). -/
theorem writeReg_amid (q : Config.Params) (p : Phy) (r : BitVec 5) (w : Word) (k : Nat) (x : PhyRx) (o : Option Bool) :
    (p.amid k x o).writeReg q r w = (p.writeReg q r w).amid k x o := by
  simp only [Phy.writeReg, Phy.amid]
  split_ifs <;> rfl

theorem writeReg_rx (q : Config.Params) (p : Phy) (r : BitVec 5) (w : Word) : (p.writeReg q r w).rx = p.rx := by
  simp only [Phy.writeReg]
  split_ifs <;> rfl

/-- A bit of the value that is not the last one. -/
theorem clocked_writing (ha : p.addr ≠ none) (hr : p.rx = .writing r w k) (h2 : 2 ≤ k) (h17 : k < 17) :
    p.clocked q (driven b) n = p.amid (onesAfter p.ones (driven b)) (.writing r (shiftIn w b) (k + 1)) p.drive := by
  rw [Phy.clocked, if_neg ha]
  simp only [Phy.edge, hr, driven, if_true, if_neg (show ¬k < 2 by omega), if_pos (show k < 18 by omega),
    if_neg (show ¬k = 17 by omega)]
  rfl

/-- With the last one the register is written. -/
theorem clocked_writing_last (ha : p.addr ≠ none) (hr : p.rx = .writing r w 17) :
    p.clocked q (driven b) n =
      (p.writeReg q r (shiftIn w b)).amid (onesAfter p.ones (driven b)) (.writing r (shiftIn w b) 18) p.drive := by
  rw [Phy.clocked, if_neg ha]
  simp only [Phy.edge, hr, driven, if_true, show ¬17 < 2 by omega, show 17 < 18 by omega, if_false]
  exact congrArg (fun f : Phy => { f with rx := .writing r (shiftIn w b) 18 }) (writeReg_amid q p r _ _ (.writing r w 17) _)

/-- The bits of the value, the last of which commits it. -/
theorem sees_writing (l : List Bool) : ∀ {p : Phy} {xs : List Bool} {k : Nat} {w : Word}, p.Sees q (l.map driven) xs p' →
    p.addr ≠ none → p.rx = .writing r w k → 2 ≤ k → k < 18 → k + l.length = 18 →
    ∃ j, p' = (p.writeReg q r (l.foldl shiftIn w)).amid j (.writing r (l.foldl shiftIn w) 18) p.drive := by
  induction l with
  | nil => exact fun _ _ _ _ h18 hl => absurd hl (by simpa using Nat.ne_of_lt h18)
  | cons b l ih =>
    rintro p xs k w (- | ⟨n, -, h⟩) ha hr h2 h18 hl
    rw [List.length_cons] at hl
    by_cases hk : k = 17
    · subst hk
      obtain rfl : l = [] := List.eq_nil_of_length_eq_zero (by omega)
      rcases h with - | -
      exact ⟨_, clocked_writing_last ha hr⟩
    · rw [clocked_writing ha hr h2 (by omega)] at h
      obtain ⟨j, rfl⟩ := ih h ha rfl (by omega) (by omega) (by omega)
      exact ⟨j, by rw [writeReg_amid]; rfl⟩

/-- The turnaround before the value, and the cycle behind it. -/
theorem sees_turnaround (h : p.Sees q (List.replicate 2 undriven) xs p') (ha : p.addr ≠ none) (hr : p.rx = .writing r w 0) :
    p' = p.amid 0 (.writing r w 2) none := by
  rcases h with - | ⟨n₁, -, - | ⟨n₂, -, - | -⟩⟩
  simp [Phy.clocked, Phy.edge, Phy.amid, ha, hr, undriven, onesAfter]

theorem sees_writing_end (h : p.Sees q [undriven] xs p') (ha : p.addr ≠ none) (hr : p.rx = .writing r w 18) :
    p' = p.amid 0 .hunt p.drive := by
  rcases h with - | ⟨n, -, - | -⟩
  simp [Phy.clocked, Phy.edge, Phy.amid, ha, hr, undriven, onesAfter]

/-- The PHY that is addressed takes the value. -/
theorem sees_buildWrite (h : p.Sees q (buildWrite a r v) xs p') (ha : p.addr = some a) (hh : p.rx = .hunt) :
    p' = { p.writeReg q r v with ones := 0, drive := none } := by
  have hne : p.addr ≠ none := by simp [ha]
  have hsplit : buildWrite a r v =
      headCycles false a r ++ (List.replicate 2 undriven ++ ((msbFirst v).map driven ++ [undriven])) := by
    simp only [buildWrite, headCycles, fieldCycles, List.append_assoc]
  rw [hsplit] at h
  obtain ⟨_, _, _, -, hhead, h⟩ := h.of_append
  obtain ⟨_, _, _, -, hturn, h⟩ := h.of_append
  obtain ⟨p₄, _, _, -, hdata, hend⟩ := h.of_append
  obtain ⟨k, rest, rfl⟩ := sees_head hhead hne hh
  obtain rfl := sees_turnaround (r := r) (w := 0#16) hturn hne (if_pos ha)
  obtain ⟨j, hp₄⟩ := sees_writing (r := r) (w := 0#16) _ hdata hne rfl (by omega) (by omega) (by simp)
  rw [foldl_msbFirst_zero] at hp₄
  have hw := congrArg (Phy.amid · j (.writing r v 18) none) (writeReg_amid q p r v 0 (.writing r 0#16 2) none)
  obtain rfl : p₄ = (p.writeReg q r v).amid j (.writing r v 18) none := hp₄.trans hw
  rw [sees_writing_end hend (by simpa [Phy.amid] using hne) rfl, ← (writeReg_rx q p r v).trans hh]
  rfl

end Sys2Proof.Machine
end

section
/-! PROOFS. A management exchange in a quiet run, as the PHY sees it (spec/44_mii.md R243 to R245, R260), and what it does to the
PHY (R250 to R252, R256, R262 to R268). -/

namespace Sys2Proof.Machine

variable {s t : State} {q : Config.Params} {i : Instr} {f : List Drive} {base m : Word} {p : Phy} {a r : BitVec 5} {v w : Word}

/-! ## Half a cycle -/

theorem without_bit_of_clear {n : Nat} {w : BitVec n} {k : Fin n} (h : has w (bit k) = false) : without w (bit k) = w := by
  apply BitVec.eq_of_getLsbD_eq
  intro j _
  rw [has_bit] at h
  rw [getLsbD_without, getLsbD_bit]
  by_cases hj : j = k.val
  · rw [hj, h, Bool.false_and]
  · rw [decide_eq_false hj, Bool.not_false, Bool.and_true]

/-- A part of a cycle that samples nothing: behind it MGMT holds `m`, and the PHY is at `p`. -/
structure State.Clocks (s t : State) (m : Word) (p : Phy) : Prop where
  kept : s.KeptByCycles t
  seqBuf : t.eng.seqBuf = s.eng.seqBuf
  mgmt : t.chip.mgmt = m
  phy : t.phy = p

theorem wr_quiet_seqBuf (n : Next) (r : Reg) (k : Nat) (v : Word) (hq : s.Quiet) :
    (wr n r k v s).eng.seqBuf = s.eng.seqBuf := by
  obtain ⟨-, heng, -⟩ := wr_quiet_outside n r k v hq
  rw [heng]

/-- The write of half a cycle and the delay behind it. -/
theorem half_clocks (n n' : Next) (d : Nat) (v : Word) (hq : s.Quiet) :
    s.Clocks (delay n' d (wr n .mgmt 2 v s)) (without v (mdi s.params)) (mgmtWrite v s).phy := by
  obtain ⟨-, -, -, -, -, -, hchip, hphy, -⟩ := wr_quiet_outside n .mgmt 2 v hq
  have hw := wr_stays_quiet n .mgmt 2 v hq
  refine ⟨(wr_keptByCycles n .mgmt 2 v hq).trans (delay_keptByCycles n' d hw), ?_, ?_, ?_⟩ <;> rw [delay_quiet n' d hw]
  · exact wr_quiet_seqBuf n .mgmt 2 v hq
  · exact (congrArg Chip.mgmt hchip).trans (congrArg Chip.mgmt (mgmtWrite_chip v s))
  · exact hphy

/-- Without a rising clock the PHY takes no step (R262). -/
theorem mgmtWrite_phy_of_low (h : has v (mclk s.params) = false) : (mgmtWrite v s).phy = s.phy := by
  rw [← setReg_mgmt, setReg_mgmt_of_level (.inl h)]
  rfl

/-- With one it takes one, the data pin as this write leaves it (R260, log 47). -/
theorem mgmtWrite_phy_of_rising (h : has v (mclk s.params) = true) (h0 : has s.chip.mgmt (mclk s.params) = false) :
    (mgmtWrite v s).phy = s.phy.clocked s.params ⟨has v (mdoe s.params), has v (mdo s.params)⟩ s.env.draw :=
  mgmtWrite_rising_phy h h0

/-- A read of MGMT shows the level of the data pin (R37). -/
theorem has_mdi_readReg (h : has s.chip.mgmt (mdi s.params) = false) : has (readReg .mgmt s).1 (mdi s.params) =
    pinLevel s.params s.chip.mgmt s.phy.drive (Config.freeBit s.env.draw) :=
  has_or_flag _ _ _ h

/-! ## A cycle -/

/-- What the two halves of a cycle put on the pins (R243 steps 4a and 4d), and what they leave to the data pin. -/
theorem cycleWord_flags (hb : bitsOk q.bits) (hc : Clean q base) (c : Cycle) :
    has (cycleWord q base c ||| mclk q) (mdoe q) = c.oe ∧ has (cycleWord q base c ||| mclk q) (mdo q) = c.dat ∧
      has (cycleWord q base c) (mdi q) = false ∧ has (cycleWord q base c ||| mclk q) (mdi q) = false := by
  obtain ⟨-, hei, heo, hce, hci, hco, hoe, -, hoi⟩ := mgmtFlags_of_bitsOk hb
  have hbe := hc (mdoe q) (by simp)
  have hbo := hc (mdo q) (by simp)
  have hbi := hc (mdi q) (by simp)
  have hee : has (mdoe q) (mdoe q) = true := has_bit_self _
  have hoo : has (mdo q) (mdo q) = true := has_bit_self _
  simp [cycleWord, has_or, has_flag, hei, heo, hce, hci, hco, hoe, hoi, hbe, hbo, hbi, hee, hoo]

section
variable (hq : s.Quiet) (hb : bitsOk s.params.bits) (hc : Clean s.params base)
include hq hb hc

theorem clockLow_clocks (j : Nat) (c : Cycle) : s.Clocks (clockLow base j c s) (cycleWord s.params base c) s.phy := by
  obtain ⟨-, -, hi, -⟩ := cycleWord_flags hb hc c
  have h := half_clocks (inCycle j .low 3) (inCycle j .low 4) Config.miiHalfPeriod (cycleWord s.params base c) hq
  rw [mgmtWrite_phy_of_low (has_mclk_cycleWord hb hc c), show without (cycleWord s.params base c) (mdi s.params) = _ from
    without_bit_of_clear hi] at h
  exact h

theorem clockHigh_clocks (j : Nat) (c : Cycle) : ∃ n, s.Clocks (clockHigh base j c s)
    (cycleWord s.params base c ||| mclk s.params) (s.phy.clocked s.params ⟨c.oe, c.dat⟩ n) := by
  obtain ⟨hoe, hdo, -, hi⟩ := cycleWord_flags hb hc c
  have hl := clockLow_clocks hq hb hc j c
  have hp := hl.kept.params
  have hk : has (mclk s.params) (mclk s.params) = true := has_bit_self _
  have h := half_clocks (inCycle j .high 5) (inCycle j .high 6) Config.miiHalfPeriod
    (cycleWord s.params base c ||| mclk s.params) hl.kept.quiet
  rw [mgmtWrite_phy_of_rising (by rw [hp, has_or, hk, Bool.or_true]) (by rw [hp, hl.mgmt, has_mclk_cycleWord hb hc]), hp, hoe,
    hdo, hl.phy, show without (cycleWord s.params base c ||| mclk s.params) (mdi s.params) = _ from
    without_bit_of_clear hi] at h
  refine ⟨(clockLow base j c s).env.draw, ?_⟩
  rw [clockHigh, hp]
  exact { h with kept := hl.kept.trans h.kept, seqBuf := h.seqBuf.trans hl.seqBuf }

/-- The level sampled in cycle `j`, in an undriven cycle the one the PHY drives if it drives one (R245). -/
theorem runCycle_clocks (n : Next) (j : Nat) (c : Cycle) : ∃ k x, s.KeptByCycles (runCycle n base j c s) ∧
    (runCycle n base j c s).eng.seqBuf = sample j x s.eng.seqBuf ∧
    (runCycle n base j c s).phy = s.phy.clocked s.params ⟨c.oe, c.dat⟩ k ∧
    (c.oe = false → ∀ b, (s.phy.clocked s.params ⟨c.oe, c.dat⟩ k).drive = some b → x = b) := by
  obtain ⟨hoe, -, -, hi⟩ := cycleWord_flags hb hc c
  obtain ⟨k, hh⟩ := clockHigh_clocks hq hb hc j c
  rw [runCycle_eq]
  obtain ⟨-, hphy, heng, -⟩ := rdKeep_quiet_frame n .mgmt 2
    (fun v e => { e with seqBuf := sample j (has v (mdi (clockHigh base j c s).params)) e.seqBuf }) hh.kept.quiet
  refine ⟨k, _, runCycle_quiet n base j c hq, (congrArg Engine.seqBuf heng).trans (congrArg _ hh.seqBuf), hphy.trans hh.phy,
    fun hd b hdrive => ?_⟩
  rw [has_mdi_readReg (by rwa [hh.kept.params, hh.mgmt]), pinLevel, hh.kept.params, hh.mgmt, hoe, hd, hh.phy, hdrive]
  rfl

end

/-! ## The cycles -/

theorem sample_length_append (x : Bool) (c : Cycle) (cs : List Cycle) : ∀ done : List Cycle,
    sample done.length x (done ++ c :: cs) = done ++ [{ c with input := x }] ++ cs
  | [] => rfl
  | d :: done => congrArg (d :: ·) (sample_length_append x c cs done)

theorem runCycles_sees (cs : List Cycle) : ∀ (done : List Cycle) {s : State}, s.Quiet → bitsOk s.params.bits →
    Clean s.params base → s.eng.seqBuf = done ++ cs → ∃ cs', (runCycles base done.length cs s).eng.seqBuf = done ++ cs' ∧
      s.phy.Sees s.params (cs.map (fun c => Drive.mk c.oe c.dat)) (cs'.map Cycle.input)
        (runCycles base done.length cs s).phy := by
  induction cs with
  | nil => exact fun done s _ _ _ hs => ⟨[], hs, .nil _⟩
  | cons c cs ih =>
    intro done s hq hb hc hs
    obtain ⟨k, x, hkept, hseq, hphy, hx⟩ := runCycle_clocks hq hb hc (afterCycle done.length cs) done.length c
    have hp := hkept.params
    rw [hs, sample_length_append] at hseq
    obtain ⟨cs', hseq', hsees⟩ := ih (done ++ [{ c with input := x }]) hkept.quiet (by rwa [hp]) (by rwa [hp]) hseq
    rw [List.length_append] at hseq' hsees
    rw [hphy, hp] at hsees
    exact ⟨{ c with input := x } :: cs', hseq'.trans (List.append_cons done _ cs').symm, .cons k hx hsees⟩

/-! ## The exchange -/

/-- The executor's accesses before its cycles leave the PHY alone. -/
theorem baseRead_quiet (hq : s.Quiet) : (baseRead s).phy = s.phy ∧ (baseRead s).eng.seqBuf = s.eng.seqBuf := by
  obtain ⟨-, hphy₁, heng₁, -⟩ :=
    rdKeep_quiet_frame (runLine 2) .bsr 2 (fun v e => { e with savedBank := bankOf s.params v }) hq
  have hq₁ : (saveBank s).Quiet := rdKeep_stays_quiet _ _ _ _ hq
  obtain ⟨-, -, -, -, -, -, -, hphy₂, -⟩ :=
    wr_quiet_outside (runLine 3) .bsr 2 (bankWord (saveBank s).params s.params.regs.mb) hq₁
  have hq₂ : (pinsSelected s).Quiet := wr_stays_quiet _ _ _ _ hq₁
  obtain ⟨-, hphy₃, heng₃, -⟩ := rd_quiet_frame (inCycle 0 .low 1) .mgmt 2 hq₂
  refine ⟨hphy₃.trans (hphy₂.trans hphy₁), ?_⟩
  rw [baseRead, heng₃]
  dsimp only
  rw [pinsSelected, wrBank, wr_quiet_seqBuf _ _ _ _ hq₁, saveBank, heng₁]

/-- Nor do those behind them: the clock is low already. -/
theorem runSequence_behind (hq : s.Quiet) :
    (runSequence s).phy = (cyclesRun s).phy ∧ (runSequence s).eng.seqBuf = (cyclesRun s).eng.seqBuf := by
  have hrun := cyclesRun_inExchange (s := s) rfl
  have hrel := pinsReleased_inExchange (s := s) rfl
  obtain ⟨-, -, -, -, -, -, -, hphy₁, -⟩ := wr_quiet_outside (runLine 6) .mgmt 2 (baseOf s) (hrun.quiet hq)
  have hlow : has (baseOf s) (mclk (cyclesRun s).params) = false := by
    rw [hrun.params]
    exact clean_without s.params _ _ (by simp)
  obtain ⟨-, -, -, -, -, -, -, hphy₂, -⟩ := wr_quiet_outside (.to 3) .bsr 2
    (bankWord (pinsReleased s).params (pinsReleased s).eng.savedBank) (hrel.quiet hq)
  refine ⟨hphy₂.trans (hphy₁.trans (mgmtWrite_phy_of_low hlow)), ?_⟩
  rw [runSequence_eq, wrBank, wr_quiet_seqBuf _ _ _ _ (hrel.quiet hq), pinsReleased,
    wr_quiet_seqBuf _ _ _ _ (hrun.quiet hq)]

theorem runSequence_sees (hq : s.Quiet) (hb : bitsOk s.params.bits) :
    s.phy.Sees s.params s.eng.drives ((runSequence s).eng.seqBuf.map Cycle.input) (runSequence s).phy := by
  obtain ⟨hphy, hseq⟩ := baseRead_quiet hq
  obtain ⟨hphy', hseq'⟩ := runSequence_behind hq
  have hin := baseRead_inExchange (s := s) rfl
  have hc : Clean (baseRead s).params (baseOf s) := by
    rw [hin.params]
    exact clean_without _ _
  obtain ⟨cs', hcs, hsees⟩ := runCycles_sees (base := baseOf s) (baseRead s).eng.seqBuf [] (hin.quiet hq)
    (by rwa [hin.params]) hc rfl
  rw [hphy, hin.params] at hsees
  rw [hphy', hseq', show (cyclesRun s).eng.seqBuf = cs' from hcs, Engine.drives, ← hseq]
  exact hsees

theorem exchanged_sees (i : Instr) (f : List Drive) (hq : s.Quiet) (hb : bitsOk s.params.bits) :
    s.phy.Sees s.params f ((s.exchanged i f).eng.seqBuf.map Cycle.input) (s.exchanged i f).phy := by
  have h := runSequence_sees (s := ((s.begin i).setEng { (s.begin i).eng with seqBuf := toSequence f }).advance (runLine 1))
    hq hb
  rwa [show Engine.drives _ = f from drives_toSequence f] at h

/-- The result of a read is taken from the samples of cycles 47 to 62 (R148, R252). -/
theorem decodeInput_eq {cs : List Cycle} (h : ∀ k < 16, (cs.map Cycle.input).getD (47 + k) false = w.getLsbD (15 - k)) :
    decodeInput cs = w := by
  rw [decodeInput, ← fromMsb_getLsbD w]
  refine fromMsb_congr fun k hk => ?_
  rw [← h k hk]
  exact (List.getD_map _ _ Cycle.input).symm

/-! ## The rows -/

/-- The operand of MII_READ and MII_WRITE that names register `r`. -/
theorem setWidth_register (r : BitVec 5) : (r.setWidth 8).toNat < 32 ∧ r = (r.setWidth 8).setWidth 5 := by
  refine ⟨?_, ?_⟩
  · rw [BitVec.toNat_setWidth]
    omega
  · apply BitVec.eq_of_toNat_eq
    simp only [BitVec.toNat_setWidth]
    omega

theorem reads_of_row (h : i = .miiReadFrame a r ∨ (a = q.phyAddr ∧ i = .miiRead (r.setWidth 8))) : Reads q i a r := by
  obtain rfl | ⟨rfl, rfl⟩ := h
  · exact .inl rfl
  · exact .inr ⟨_, (setWidth_register r).1, rfl, rfl, (setWidth_register r).2⟩

theorem writes_of_row (h : i = .miiWriteFrame a r v ∨ (a = q.phyAddr ∧ i = .miiWrite (r.setWidth 8) v)) :
    Writes q i a r v := by
  obtain rfl | ⟨rfl, rfl⟩ := h
  · exact .inl rfl
  · exact .inr ⟨_, (setWidth_register r).1, rfl, rfl, (setWidth_register r).2⟩

/-- What an exchange leaves behind: its value, and the PHY as its cycles have left it. -/
theorem exchangeOver_ended (s : State) (i : Instr) (f : List Drive) (x : Int) :
    (s.exchangeOver i f x).Ended .ok x ∧ (s.exchangeOver i f x).phy = (s.exchanged i f).phy := by
  unfold State.exchangeOver
  generalize s.exchanged i f = t
  exact ⟨⟨rfl, rfl⟩, rfl⟩

section
variable (hb : bitsOk s.params.bits) (hq : s.Quiet) (hh : s.phy.rx = .hunt)
include hb hq hh

/-- A read of a register of the PHY that is addressed (R250, R252). -/
theorem phy_of_reads (h : Reads s.params i a r) (ha : s.phy.addr = some a) : ∃ t rest, exec i s = .next t ∧
    t.Ended .ok (s.phy.readReg s.params r rest).toNat ∧ t.phy = { s.phy with ones := 0, drive := none } := by
  obtain ⟨hphy, rest, hbits⟩ := sees_buildRead (exchanged_sees i (buildRead a r) hq hb) ha hh
  obtain ⟨hend, hover⟩ := exchangeOver_ended s i (buildRead a r) (s.phy.readReg s.params r rest).toNat
  exact ⟨_, rest, h.exec.trans (by rw [decodeInput_eq hbits]), hend, hover.trans hphy⟩

/-- A write of one (R251). -/
theorem phy_of_writes (h : Writes s.params i a r v) (ha : s.phy.addr = some a) : ∃ t, exec i s = .next t ∧
    t.Ended .ok 0 ∧ t.phy = { s.phy.writeReg s.params r v with ones := 0, drive := none } := by
  obtain ⟨hend, hover⟩ := exchangeOver_ended s i (buildWrite a r v) 0
  exact ⟨_, h.exec, hend, hover.trans (sees_buildWrite (exchanged_sees i _ hq hb) ha hh)⟩

/-- An exchange at another address, or without a PHY on the pins (R256, R263). -/
theorem exchangeOver_other (hf : f = buildRead a r ∨ ∃ v, f = buildWrite a r v) (hne : s.phy.addr ≠ some a) (x : Int) :
    (s.phy.addr = none → (s.exchangeOver i f x).phy = s.phy) ∧
      (s.phy.addr ≠ none → (s.exchangeOver i f x).phy = { s.phy with ones := 0, drive := none }) := by
  rw [(exchangeOver_ended s i f x).2]
  have hsees := exchanged_sees i f hq hb
  refine ⟨fun ha => hsees.of_absent ha, fun ha => ?_⟩
  obtain rfl | ⟨v, rfl⟩ := hf
  · exact sees_buildRead_other hsees ha hne hh
  · exact sees_buildWrite_other hsees ha hne hh

end

/-! ## The registers (R266 to R268) -/

/-- PHY_CTRL reads its stored bits, and in RESET whether a reset is in progress. -/
theorem readReg_ctrl (q : Config.Params) (p : Phy) (rest : Word) :
    has (p.readReg q q.phyMap.ctrl rest) (phyReset q) = p.resetting ∧
      p.readReg q q.phyMap.ctrl rest &&& ~~~(phyReset q ||| anegRestart q) =
        p.ctrl &&& ~~~(phyReset q ||| anegRestart q) := by
  rw [Phy.readReg, if_pos rfl]
  refine ⟨has_or_flag _ _ _ (has_without_self _ _), ?_⟩
  show without _ (phyVolatile q) = without _ (phyVolatile q)
  apply BitVec.eq_of_getLsbD_eq
  intro k _
  simp only [phyVolatile, getLsbD_without, BitVec.getLsbD_or, BitVec.getLsbD_and, getLsbD_flag]
  cases (phyReset q).getLsbD k <;> cases (anegRestart q).getLsbD k <;> simp

section
variable (hm : phyMapOk q.phyMap)
include hm

/-- The four registers have four numbers (R9). -/
theorem phyRegs_ne : q.phyMap.stat ≠ q.phyMap.ctrl ∧ q.phyMap.ad ≠ q.phyMap.ctrl ∧ q.phyMap.ad ≠ q.phyMap.stat ∧
    q.phyMap.mask ≠ q.phyMap.ctrl ∧ q.phyMap.mask ≠ q.phyMap.stat ∧ q.phyMap.mask ≠ q.phyMap.ad := by
  obtain ⟨h, -⟩ := hm
  simp only [List.nodup_cons, List.mem_cons, List.not_mem_nil, or_false, not_or, ← ne_eq] at h
  obtain ⟨⟨hcs, hca, hcm⟩, ⟨hsa, hsm⟩, ham, -⟩ := h
  exact ⟨hcs.symm, hca.symm, hsa.symm, hcm.symm, hsm.symm, ham.symm⟩

theorem readReg_named (p : Phy) (rest : Word) : p.readReg q q.phyMap.stat rest = p.stat ∧
    p.readReg q q.phyMap.ad rest = p.adv ∧ p.readReg q q.phyMap.mask rest = p.mask := by
  obtain ⟨hsc, hac, has, hmc, hms, hma⟩ := phyRegs_ne hm
  simp [Phy.readReg, hsc, hac, has, hmc, hms, hma]

theorem writeReg_named (p : Phy) (v : Word) : p.writeReg q q.phyMap.stat v = p ∧
    p.writeReg q q.phyMap.ad v = { p with adv := v } ∧ p.writeReg q q.phyMap.mask v = { p with mask := v } := by
  obtain ⟨hsc, hac, has, hmc, hms, hma⟩ := phyRegs_ne hm
  simp [Phy.writeReg, hsc, hac, has, hmc, hms, hma]

end

theorem writeReg_unnamed (p : Phy) (v : Word)
    (h : r ∉ [q.phyMap.ctrl, q.phyMap.stat, q.phyMap.ad, q.phyMap.mask]) : p.writeReg q r v = p := by
  simp only [List.mem_cons, List.not_mem_nil, or_false, not_or] at h
  obtain ⟨hc, hs, ha, hm⟩ := h
  simp [Phy.writeReg, hc, hs, ha, hm]

/-- Settles O51: the PHY sees the frame edge by edge, and the samples are what it has driven. -/
theorem exchangesReachThePhy : Obligations.ExchangesReachThePhy := by
  refine ⟨?_, ?_, ?_⟩
  · intro s i a r hb hm hq ha hh hi
    obtain ⟨t, rest, hx, hend, hphy⟩ := phy_of_reads hb hq hh (reads_of_row hi) ha
    obtain ⟨hstat, had, hmask⟩ := readReg_named hm s.phy rest
    refine ⟨t, _, hx, hend, hphy, ?_, ?_, ?_, ?_⟩ <;> rintro rfl
    · exact hstat
    · exact had
    · exact hmask
    · exact readReg_ctrl s.params s.phy rest
  · intro s i a r v p hb hm hq ha hh hi hp
    obtain ⟨t, hx, hend, hphy⟩ := phy_of_writes hb hq hh (writes_of_row hi) ha
    obtain ⟨hstat, had, hmask⟩ := writeReg_named hm s.phy v
    have hw : s.phy.writeReg s.params r v = p := by
      obtain ⟨rfl, rfl⟩ | ⟨rfl, rfl⟩ | ⟨rfl, rfl⟩ | ⟨hr, rfl⟩ | ⟨rfl, rfl⟩ := hp
      · exact hstat
      · exact had
      · exact hmask
      · exact writeReg_unnamed _ v hr
      · exact if_pos rfl
    exact ⟨t, hx, hend, by rw [hphy, hw]⟩
  · intro s i a r hb hq hne hh hi
    obtain ⟨f, x, hf, hx⟩ : ∃ f x, (f = buildRead a r ∨ ∃ v, f = buildWrite a r v) ∧
        exec i s = .next (s.exchangeOver i f x) := by
      obtain rfl | ⟨v, rfl⟩ | ⟨rfl, rfl | ⟨v, rfl⟩⟩ := hi
      · exact ⟨_, _, .inl rfl, (reads_of_row (.inl rfl)).exec⟩
      · exact ⟨_, _, .inr ⟨v, rfl⟩, (writes_of_row (.inl rfl)).exec⟩
      · exact ⟨_, _, .inl rfl, (reads_of_row (.inr ⟨rfl, rfl⟩)).exec⟩
      · exact ⟨_, _, .inr ⟨v, rfl⟩, (writes_of_row (.inr ⟨rfl, rfl⟩)).exec⟩
    obtain ⟨hnone, hsome⟩ := exchangeOver_other (i := i) hb hq hh hf hne x
    exact ⟨_, x, hx, (exchangeOver_ended s i f x).1, hnone, hsome⟩

end Sys2Proof.Machine
end

section
/-! PROOFS. PHY_CONFIGURE on every schedule (spec/45_phy_configure.md R280, R287, R288): what its exchanges and its waits leave as
they found it, and how it ends. -/

namespace Sys2Proof.Machine

variable {s u : State}

/-! ## What an exchange and a wait keep -/

/-- The selection and host memory, which PHY_CONFIGURE leaves as it found them. -/
def State.selection (s : State) : BitVec 2 × Byte × Word × Memory := (s.chip.bank, s.chip.pnr, s.chip.ptr, s.hostMem)

@[simp] theorem setEng_selection (e : Engine) (s : State) : (s.setEng e).selection = s.selection := rfl
@[simp] theorem call_selection (i : Instr) (back : Next) (s : State) : (s.call i back).selection = s.selection := rfl
@[simp] theorem begin_selection (i : Instr) (s : State) : (s.begin i).selection = s.selection := rfl
@[simp] theorem advance_selection (n : Next) (s : State) : (s.advance n).selection = s.selection := rfl
@[simp] theorem discardSequence_selection (s : State) : (discardSequence s).selection = s.selection := rfl

@[simp] theorem delay_selection (n : Next) (d : Nat) (s : State) : (delay n d s).selection = s.selection := by
  simp [State.selection, delay_eq]

@[simp] theorem runSequence_selection (s : State) : (runSequence s).selection = s.selection := by
  have h := runSequence_inExchange (s := s) rfl
  simp only [State.selection, runSequence_bank, h.pnr, h.ptr, h.hostMem]

@[simp] theorem runFrame_selection (f : List Drive) (s : State) : (runFrame f s).selection = s.selection := by
  simp [runFrame]

@[simp] theorem miiReadReg_selection (back : Next) (r : BitVec 5) (s : State) :
    (miiReadReg back r s).2.selection = s.selection := by
  simp [miiReadReg, miiReadAt]

@[simp] theorem miiWriteReg_selection (back : Next) (r : BitVec 5) (v : Word) (s : State) :
    (miiWriteReg back r v s).selection = s.selection := by
  simp [miiWriteReg, miiWriteAt]

/-! ## The pair `(caps, ad)` (R284) -/

@[simp] theorem delay_eng (n : Next) (d : Nat) (s : State) :
    (delay n d s).eng = { s.eng with point := advancePoint n s.eng.point } := by
  simp [delay_eq]

@[simp] theorem wr_eng (n : Next) (r : Reg) (w : Nat) (v : Word) (s : State) :
    (wr n r w v s).eng = { s.eng with point := advancePoint n s.eng.point } := by
  simp [wr_eq]

@[simp] theorem runCycle_capsAd (n : Next) (base : Word) (j : Nat) (c : Cycle) (s : State) :
    (runCycle n base j c s).eng.capsAd = s.eng.capsAd := by
  simp [runCycle, rdKeep_eq]

@[simp] theorem runCycles_capsAd (base : Word) (cs : List Cycle) : ∀ (j : Nat) (s : State),
    (runCycles base j cs s).eng.capsAd = s.eng.capsAd := by
  induction cs with
  | nil => exact fun _ _ => rfl
  | cons c cs ih => intro j s; simp [runCycles, ih]

@[simp] theorem runFrame_capsAd (f : List Drive) (s : State) : (runFrame f s).eng.capsAd = s.eng.capsAd := by
  simp [runFrame, runSequence, wrBank, rd_eq, rdKeep_eq]

@[simp] theorem miiReadReg_capsAd (back : Next) (r : BitVec 5) (s : State) :
    (miiReadReg back r s).2.eng.capsAd = s.eng.capsAd := by
  simp [miiReadReg, miiReadAt, discardSequence]

@[simp] theorem miiWriteReg_capsAd (back : Next) (r : BitVec 5) (v : Word) (s : State) :
    (miiWriteReg back r v s).eng.capsAd = s.eng.capsAd := by
  simp [miiWriteReg, miiWriteAt, discardSequence]

/-- The pair spans one pass (R284). -/
theorem phyAdvertise_capsAd (s : State) : (phyAdvertise s).eng.capsAd = none := by
  simp [phyAdvertise]

theorem pollPhyAneg_capsAd (k : Nat) : ∀ (i : Nat) (s : State), (pollPhyAneg k i s).2.eng.capsAd = s.eng.capsAd := by
  induction k with
  | zero => exact fun _ _ => rfl
  | succ k ih =>
    intro i s
    unfold pollPhyAneg
    dsimp only
    split
    · simp
    · rw [ih, delay_eng]
      split <;> simp

/-! ## The polls, and the whole operation -/

@[simp] theorem pollPhyReset_selection (k : Nat) : ∀ (i : Nat) (s : State), (pollPhyReset k i s).2.selection = s.selection := by
  induction k with
  | zero => exact fun _ _ => rfl
  | succ k ih =>
    intro i s
    unfold pollPhyReset
    dsimp only
    split <;> simp [ih]

@[simp] theorem pollPhyAneg_selection (k : Nat) : ∀ (i : Nat) (s : State), (pollPhyAneg k i s).2.selection = s.selection := by
  induction k with
  | zero => exact fun _ _ => rfl
  | succ k ih =>
    intro i s
    unfold pollPhyAneg
    dsimp only
    split
    · simp
    · rw [ih, delay_selection]
      split <;> simp

@[simp] theorem phyAdvertise_selection (s : State) : (phyAdvertise s).selection = s.selection := by
  simp [phyAdvertise]

theorem phyConfigureRun_selection (s : State) : (phyConfigureRun s).2.selection = s.selection := by
  unfold phyConfigureRun
  dsimp only
  split <;> simp

/-- The three results (R280). -/
theorem phyConfigureRun_condition (s : State) : (phyConfigureRun s).1 = .ok ∨ (phyConfigureRun s).1 = .phyResetTimeout ∨
    (phyConfigureRun s).1 = .phyAutonegTimeout := by
  unfold phyConfigureRun
  dsimp only
  split
  · dsimp only
    split
    · exact .inl rfl
    · exact .inr (.inr rfl)
  · exact .inr (.inl rfl)

/-- PHY_CONFIGURE ends behind its steps, and its end writes the engine alone. -/
theorem exec_phyConfigure {k : Condition} (hr : phyConfigureRun (s.begin .phyConfigure) = (k, u)) : ∃ e,
    exec .phyConfigure s = .next (u.setEng e) ∧ (u.setEng e).Ended k 0 ∧ e.capsAd = u.eng.capsAd := by
  have hx : exec .phyConfigure s = .next ((markConfigured (phyConfigureRun (s.begin .phyConfigure)).2).finish
    (phyConfigureRun (s.begin .phyConfigure)).1 0) := rfl
  rw [hr] at hx
  unfold markConfigured at hx
  split at hx <;> exact ⟨_, hx, ⟨rfl, rfl⟩, rfl⟩

end Sys2Proof.Machine
end

section
/-! PROOFS. The window accesses and the waits of PHY_CONFIGURE where no handler makes an access between them (spec/44_mii.md R254,
spec/45_phy_configure.md R281, R282, R286), whatever BITMAP is. -/

namespace Sys2Proof.Machine

variable {s t u : State} {a b : List (Reg × Bool)} {d w : Nat}

/-! ## What a part adds to the trace -/

/-- From `s` to `t` the trace has grown by the window accesses `a`, oldest first, and by `w` waits between polls. -/
def State.Makes (s : State) (a : List (Reg × Bool)) (w : Nat) (t : State) : Prop :=
  ∃ new, t.env.trace = new ++ s.env.trace ∧ new.reverse.filterMap windowAccess = a ∧ new.countP (isDelayOf 500) = w

theorem State.Makes.refl (s : State) : s.Makes [] 0 s := ⟨[], rfl, rfl, rfl⟩

theorem State.Makes.trans (h : s.Makes a d t) (g : t.Makes b w u) : s.Makes (a ++ b) (d + w) u := by
  obtain ⟨new, ht, rfl, rfl⟩ := h
  obtain ⟨new', hu, rfl, rfl⟩ := g
  exact ⟨new' ++ new, by rw [hu, ht, List.append_assoc], by simp, by rw [List.countP_append, Nat.add_comm]⟩

/-- No handler makes an access in the gaps to come: the platform's enable is off, or nothing happens in them. -/
def State.Undisturbed (s : State) : Prop := s.irq.enabled = false ∨ s.Quiet

theorem gap_undisturbed (h : s.Undisturbed) : (gap s).Undisturbed ∧ (gap s).env.trace = s.env.trace := by
  obtain he | hq := h
  · have hk := gap_kept s he
    exact ⟨.inl (hk.enabled.trans he), hk.trace⟩
  · rw [gap_quiet hq]
    exact ⟨.inr hq, rfl⟩

/-- It, and that no handler makes one from there on either. -/
structure State.MakesAlone (s : State) (a : List (Reg × Bool)) (w : Nat) (t : State) : Prop where
  undisturbed : t.Undisturbed
  makes : s.Makes a w t

namespace State.MakesAlone

theorem refl (h : s.Undisturbed) : s.MakesAlone [] 0 s := ⟨h, .refl s⟩

theorem trans (h : s.MakesAlone a d t) (g : t.MakesAlone b w u) : s.MakesAlone (a ++ b) (d + w) u :=
  ⟨g.undisturbed, h.makes.trans g.makes⟩

/-- The same list, said another way. -/
theorem congr (h : s.MakesAlone a d t) (ha : a = b) (hd : d = w) : s.MakesAlone b w t := ha ▸ hd ▸ h

variable {n : Next} {r : Reg} {k : Nat}

/-- An access or a delay, and the gap behind it; `u` is the state behind its effect. -/
theorem access (h : s.MakesAlone a w t) (x : Access) (hu : u.Undisturbed) (ht : u.env.trace = t.env.trace) :
    s.MakesAlone (a ++ [x].filterMap windowAccess) (w + [x].countP (isDelayOf 500)) (gap ((u.note x).advance n)) := by
  obtain ⟨hg, htr⟩ := gap_undisturbed (s := (u.note x).advance n) hu
  exact h.trans ⟨hg, [x], by rw [htr, ← ht]; rfl, rfl, rfl⟩

theorem wr {v : Word} (h : s.MakesAlone a w t) : s.MakesAlone (a ++ [(r, true)]) w (Machine.wr n r k v t) :=
  h.access (.write r k (v.setWidth 32)) (by simpa [Undisturbed, State.Quiet] using h.undisturbed) (by simp)

theorem rd (h : s.MakesAlone a w t) : s.MakesAlone (a ++ [(r, false)]) w (Machine.rd n r k t).2 :=
  h.access (.read r k ((readReg r t).1.setWidth 32)) (by simpa [Undisturbed, State.Quiet] using h.undisturbed) (by simp)

theorem rdKeep {keep : Word → Engine → Engine} (h : s.MakesAlone a w t) :
    s.MakesAlone (a ++ [(r, false)]) w (Machine.rdKeep n r k keep t) :=
  h.access (.read r k ((readReg r t).1.setWidth 32)) (by simpa [Undisturbed, State.Quiet] using h.undisturbed) (by simp)

theorem delay (h : s.MakesAlone a w t) (d : Nat) : s.MakesAlone a (w + if d = 500 then 1 else 0) (Machine.delay n d t) := by
  refine (h.access (n := n) (.delay d) h.undisturbed rfl).congr (List.append_nil _) ?_
  simp [isDelayOf, List.countP_singleton]

/-- What leaves the schedule and the trace alone. -/
theorem setEng (h : s.MakesAlone a w t) (e : Engine) : s.MakesAlone a w (t.setEng e) := ⟨h.undisturbed, h.makes⟩

/-! ## An exchange -/

theorem runCycle {base : Word} {j : Nat} {c : Cycle} (h : s.MakesAlone a w t) :
    s.MakesAlone (a ++ [(.mgmt, true), (.mgmt, true), (.mgmt, false)]) w (Machine.runCycle n base j c t) := by
  rw [runCycle_eq]
  have hlow : s.MakesAlone (a ++ [(.mgmt, true)]) w (clockLow base j c t) := h.wr.delay 50
  have hhigh : s.MakesAlone _ w (clockHigh base j c t) := hlow.wr.delay 50
  simpa using hhigh.rdKeep

theorem runCycles (base : Word) (cs : List Cycle) : ∀ (j : Nat) {a : List (Reg × Bool)} {t : State}, s.MakesAlone a w t →
    s.MakesAlone (a ++ (List.replicate cs.length [(Reg.mgmt, true), (Reg.mgmt, true), (Reg.mgmt, false)]).flatten) w
      (Machine.runCycles base j cs t) := by
  induction cs with
  | nil => exact fun _ _ _ h => h.congr (List.append_nil _).symm rfl
  | cons c cs ih =>
    exact fun j _ _ h => (ih (j + 1) (h.runCycle (n := afterCycle j cs))).congr (by simp [List.replicate_succ]) rfl

theorem runSequence (h : s.MakesAlone a w t) :
    s.MakesAlone (a ++ exchangeAccesses t.eng.seqBuf.length) w (Machine.runSequence t) := by
  have hread : s.MakesAlone (a ++ [(.bsr, false), (.bsr, true), (.mgmt, false)]) w (baseRead t) := by
    have hsave : s.MakesAlone _ w (saveBank t) := h.rdKeep
    have hsel : s.MakesAlone _ w (pinsSelected t) := hsave.wr
    have hbase : s.MakesAlone _ w (baseRead t) := hsel.rd
    simpa using hbase
  have hlen : (baseRead t).eng.seqBuf.length = t.eng.seqBuf.length := by
    rw [← length_drives, (baseRead_inExchange rfl).holds.2, length_drives]
  have hrun : s.MakesAlone _ w (cyclesRun t) := hread.runCycles (baseOf t) (baseRead t).eng.seqBuf 0
  have hrel : s.MakesAlone _ w (pinsReleased t) := hrun.wr
  have hend : s.MakesAlone _ w (Machine.runSequence t) := hrel.wr
  rw [hlen] at hend
  simpa [exchangeAccesses] using hend

theorem runFrame {f : List Drive} (h : s.MakesAlone a w t) :
    s.MakesAlone (a ++ exchangeAccesses f.length) w (Machine.runFrame f t) := by
  have hs : s.MakesAlone a w ((t.setEng { t.eng with seqBuf := toSequence f }).advance (runLine 1)) := (h.setEng _).setEng _
  exact hs.runSequence.congr (by simp [toSequence]) rfl

theorem miiReadReg {back : Next} {reg : BitVec 5} (h : s.MakesAlone a w t) :
    s.MakesAlone (a ++ exchangeAccesses 64) w (Machine.miiReadReg back reg t).2 :=
  ((runFrame (f := buildRead t.params.phyAddr reg) (t := t.call _ back) (h.setEng _)).setEng _).setEng _

theorem miiWriteReg {back : Next} {reg : BitVec 5} {v : Word} (h : s.MakesAlone a w t) :
    s.MakesAlone (a ++ exchangeAccesses 65) w (Machine.miiWriteReg back reg v t) :=
  ((runFrame (f := buildWrite t.params.phyAddr reg v) (t := t.call _ back) (h.setEng _)).setEng _).setEng _

/-! ## A reset that does not complete -/

/-- Each failed poll is one read exchange and one wait (R281). -/
theorem pollPhyReset (k : Nat) : ∀ (i : Nat) {a : List (Reg × Bool)} {w : Nat} {t : State}, s.MakesAlone a w t →
    (Machine.pollPhyReset k i t).1 = false →
    s.MakesAlone (a ++ (List.replicate k (exchangeAccesses 64)).flatten) (w + k) (Machine.pollPhyReset k i t).2 := by
  induction k with
  | zero => exact fun _ _ _ _ h _ => h.congr (List.append_nil _).symm rfl
  | succ k ih =>
    intro i a w t h hfail
    unfold Machine.pollPhyReset at hfail ⊢
    dsimp only at hfail ⊢
    split at hfail
    · rename_i hreset
      rw [if_pos hreset]
      exact (ih (i + 1) (h.miiReadReg.delay Config.phyPollInterval) hfail).congr (by simp [List.replicate_succ])
        (by rw [Config.phyPollInterval, if_pos rfl, Nat.add_assoc, Nat.add_comm 1])
    · cases hfail

/-- It raises its condition without another exchange (R282). -/
theorem phyConfigureRun (h : s.MakesAlone a w t) (ht : (Machine.phyConfigureRun t).1 = .phyResetTimeout) :
    s.MakesAlone (a ++ exchangeAccesses 65 ++ (List.replicate 6 (exchangeAccesses 64)).flatten) (w + 6)
      (Machine.phyConfigureRun t).2 := by
  unfold Machine.phyConfigureRun at ht ⊢
  dsimp only at ht ⊢
  split at ht
  · dsimp only at ht
    split at ht <;> cases ht
  · rename_i hfail
    rw [if_neg hfail]
    exact (h.miiWriteReg.pollPhyReset 6 1 (Bool.eq_false_of_not_eq_true hfail)).setEng _

end State.MakesAlone

end Sys2Proof.Machine
end

section
/-! PROOFS. A management exchange over gaps in which nothing happens: it is the exchange of a run at rest, with the tape moved on
(spec/20_memory.md R101, spec/44_mii.md R243, log 2). -/

namespace Sys2Proof.Machine

variable {s t u : State} {rest : List Gap} {n : Next} {k m : Nat} {base : Word}

/-! ## Beside a run at rest -/

/-- `t` is `u`, a state of a run at rest, but for its tape, in which nothing happens for `k` gaps and then `rest` follows. -/
structure State.Beside (u : State) (k : Nat) (rest : List Gap) (t : State) : Prop where
  quiet : u.Quiet
  same : t = u.withTape t.env.tape
  rests : t.RestsFor k
  tape : t.env.tape.drop k = rest

theorem beside_of_restsFor (h : s.RestsFor k) : (s.withTape []).Beside k (s.env.tape.drop k) s := ⟨rfl, rfl, h, rfl⟩

/-- Behind the gaps nothing but the tape is another. -/
theorem State.Beside.behind (h : u.Beside 0 rest t) : t = u.withTape rest := by
  rw [← h.tape]
  exact h.same

namespace State.Beside

/-- An effect that takes no notice of the tape. -/
theorem map (h : u.Beside k rest t) (f : State → State) (hf : ∀ l x, f (withTape l x) = withTape l (f x)) :
    (f u).Beside k rest (f t) := by
  have he := hf t.env.tape u
  rw [← h.same] at he
  have hu := hf [] u
  rw [withTape_self h.quiet] at hu
  have ht : (f t).env.tape = t.env.tape := congrArg (fun x => x.env.tape) he
  exact ⟨congrArg (fun x => x.env.tape) hu, by rw [ht]; exact he, by rw [RestsFor, ht]; exact h.rests, by rw [ht]; exact h.tape⟩

theorem gap (h : u.Beside (k + 1) rest t) : (Machine.gap u).Beside k rest (Machine.gap t) := by
  rw [gap_quiet h.quiet, gap_of_restsFor (h.rests.mono (by omega))]
  refine ⟨h.quiet, ?_, (Nat.add_comm k 1 ▸ h.rests).drop rfl, ?_⟩
  · exact (congrArg (withTape (t.env.tape.drop 1)) h.same).trans (withTape_withTape ..)
  · rw [withTape_tape, List.drop_drop, Nat.add_comm, h.tape]

end State.Beside

/-! ## Effects that take no notice of the tape -/

theorem phyEdge_withTape (d : Drive) (l : List Gap) (s : State) : phyEdge d (s.withTape l) = (phyEdge d s).withTape l := by
  rw [phyEdge, phyEdge, apply_ite (State.withTape l)]
  rfl

theorem mgmtWrite_withTape (v : Word) (l : List Gap) (s : State) : mgmtWrite v (s.withTape l) = (mgmtWrite v s).withTape l := by
  rw [mgmtWrite, mgmtWrite, apply_ite (State.withTape l), ← phyEdge_withTape]
  rfl

namespace State.Beside

theorem params (h : u.Beside k rest t) : t.params = u.params :=
  (congrArg State.params h.same).trans (withTape_params ..)

/-! ## The accesses of an exchange -/

theorem wrMgmt (h : u.Beside (k + 1) rest t) (v : Config.Params → Word) :
    (wr n .mgmt 2 (v u.params) u).Beside k rest (wr n .mgmt 2 (v t.params) t) :=
  gap (h.map (fun x => ((mgmtWrite (v x.params) x).note (.write .mgmt 2 ((v x.params).setWidth 32))).advance n)
    fun l x => congrArg (fun y => (note (.write .mgmt 2 ((v x.params).setWidth 32)) y).advance n) (mgmtWrite_withTape _ l x))

theorem wrBank (h : u.Beside (k + 1) rest t) (b : BitVec 2) :
    (Machine.wrBank n b u).Beside k rest (Machine.wrBank n b t) :=
  gap (h.map (fun x => ((setReg .bsr (bankWord x.params b) x).note
    (.write .bsr 2 ((bankWord x.params b).setWidth 32))).advance n) fun _ _ => rfl)

theorem delay (h : u.Beside (k + 1) rest t) (d : Nat) : (Machine.delay n d u).Beside k rest (Machine.delay n d t) :=
  gap (h.map (fun x => (x.note (.delay d)).advance n) fun _ _ => rfl)

theorem rd (h : u.Beside (k + 1) rest t) : (Machine.rd n .mgmt 2 u).2.Beside k rest (Machine.rd n .mgmt 2 t).2 :=
  gap (h.map (fun x => ((readReg .mgmt x).2.note (.read .mgmt 2 ((readReg .mgmt x).1.setWidth 32))).advance n)
    fun _ _ => rfl)

theorem saveBank (h : u.Beside (k + 1) rest t) : (Machine.saveBank u).Beside k rest (Machine.saveBank t) :=
  gap (h.map (fun x => (((readReg .bsr x).2.setEng
    { (readReg .bsr x).2.eng with savedBank := bankOf x.params (readReg .bsr x).1 }).note
      (.read .bsr 2 ((readReg .bsr x).1.setWidth 32))).advance (runLine 2)) fun _ _ => rfl)

theorem sample (h : u.Beside (k + 1) rest t) (j : Nat) :
    (rdKeep n .mgmt 2 (fun v e => { e with seqBuf := Machine.sample j (has v (mdi u.params)) e.seqBuf }) u).Beside k rest
      (rdKeep n .mgmt 2 (fun v e => { e with seqBuf := Machine.sample j (has v (mdi t.params)) e.seqBuf }) t) :=
  gap (h.map (fun x => (((readReg .mgmt x).2.setEng { (readReg .mgmt x).2.eng with
    seqBuf := Machine.sample j (has (readReg .mgmt x).1 (mdi x.params)) (readReg .mgmt x).2.eng.seqBuf }).note
      (.read .mgmt 2 ((readReg .mgmt x).1.setWidth 32))).advance n) fun _ _ => rfl)

/-- A cycle takes five gaps. -/
theorem runCycle (h : u.Beside (k + 5) rest t) (j : Nat) (c : Cycle) :
    (Machine.runCycle n base j c u).Beside k rest (Machine.runCycle n base j c t) := by
  unfold Machine.runCycle
  rw [h.params]
  exact ((((h.wrMgmt fun _ => cycleWord u.params base c).delay _).wrMgmt fun q =>
    cycleWord u.params base c ||| mclk q).delay _).sample j

theorem runCycles (base : Word) (cs : List Cycle) : ∀ (j k : Nat) {u t : State}, u.Beside (5 * cs.length + k) rest t →
    (Machine.runCycles base j cs u).Beside k rest (Machine.runCycles base j cs t) := by
  induction cs with
  | nil => exact fun _ k _ _ h => by rwa [List.length_nil, Nat.mul_zero, Nat.zero_add] at h
  | cons c cs ih =>
    intro j k u t h
    rw [show 5 * (c :: cs).length + k = 5 * cs.length + k + 5 by rw [List.length_cons]; omega] at h
    exact ih (j + 1) k (h.runCycle j c)

end State.Beside

/-! ## The exchange -/

/-- As far as the write of its last access, the exchange is the one of a run at rest. -/
theorem runSequence_of_rests (hm : s.eng.seqBuf.length = m) (h : s.RestsFor (5 * m + 4)) :
    runSequence s = gap ((runSequence (s.withTape [])).withTape (s.env.tape.drop (5 * m + 4))) := by
  have h0 := beside_of_restsFor h
  generalize s.env.tape.drop (5 * m + 4) = l at h0 ⊢
  have hread : (baseRead (s.withTape [])).Beside (5 * m + 1) l (baseRead s) := (h0.saveBank.wrBank _).rd
  have hlen : (baseRead s).eng.seqBuf.length = m := by
    rw [← hm, ← length_drives, (baseRead_inExchange rfl).holds.2, length_drives]
  have hseq : (baseRead (s.withTape [])).eng.seqBuf = (baseRead s).eng.seqBuf :=
    congrArg (fun x => x.eng.seqBuf) hread.same.symm
  have hbase : baseOf (s.withTape []) = baseOf s := (baseOf_eq _).trans (baseOf_eq s).symm
  have hrun : (cyclesRun (s.withTape [])).Beside 1 l (cyclesRun s) := by
    rw [cyclesRun, cyclesRun, hseq, hbase]
    exact State.Beside.runCycles _ _ _ _ (by rwa [hlen])
  have hrel : (pinsReleased (s.withTape [])).Beside 0 l (pinsReleased s) := by
    rw [pinsReleased, pinsReleased, hbase]
    exact hrun.wrMgmt fun _ => baseOf s
  have hquiet : (pinsReleased (s.withTape [])).Quiet := hrel.quiet
  rw [runSequence_eq, runSequence_eq, hrel.behind]
  generalize pinsReleased (s.withTape []) = x at hquiet
  rw [wrBank, wrBank, wr_quiet _ _ _ _ hquiet]
  rfl

theorem runFrame_of_rests {f : List Drive} (hf : f.length = m) (h : s.RestsFor (5 * m + 4)) :
    runFrame f s = gap ((runFrame f (s.withTape [])).withTape (s.env.tape.drop (5 * m + 4))) :=
  runSequence_of_rests (s := (s.setEng { s.eng with seqBuf := toSequence f }).advance (runLine 1))
    ((List.length_map _).trans hf) h

end Sys2Proof.Machine
end

section
/-! PROOFS. The engine and a PHY at its address from exchange to exchange (spec/44_mii.md R250 to R252, R265 to R268), over gaps in
which nothing happens but a step of the PHY of its own accord behind the last access of an exchange. -/

namespace Sys2Proof.Machine

variable {s t : State} {p : Phy} {l : List Gap} {a : List (Reg × Bool)} {m w : Nat} {f : List Drive} {r : BitVec 5} {v : Word}
  {back : Next}

/-- From `s` to `t` the engine has talked to a PHY at its address by the window accesses `a` and `w` waits between polls: the PHY is
at `p` and waits for a frame, and `l` is left of the tape. -/
structure State.Talks (s : State) (p : Phy) (l : List Gap) (a : List (Reg × Bool)) (w : Nat) (t : State) : Prop where
  params : t.params = s.params
  chip : t.chip = { s.chip with mgmt := t.chip.mgmt }
  tape : t.env.tape = l
  addr : p.addr = some s.params.phyAddr
  phy : ∃ k o, t.phy = p.amid k .hunt o
  makes : s.Makes a w t

theorem writeReg_addr (q : Config.Params) (p : Phy) (r : BitVec 5) (v : Word) : (p.writeReg q r v).addr = p.addr := by
  simp only [Phy.writeReg]
  split_ifs <;> rfl

theorem runFrame_sees (f : List Drive) (hq : s.Quiet) (hb : bitsOk s.params.bits) :
    s.phy.Sees s.params f ((runFrame f s).eng.seqBuf.map Cycle.input) (runFrame f s).phy := by
  have h := runSequence_sees (s := (s.setEng { s.eng with seqBuf := toSequence f }).advance (runLine 1)) hq hb
  rwa [show Engine.drives _ = f from drives_toSequence f] at h

theorem runFrame_inExchange (f : List Drive) (s : State) : s.InExchange f (runFrame f s) :=
  have h := runSequence_inExchange (s := (s.setEng { s.eng with seqBuf := toSequence f }).advance (runLine 1))
    (drives_toSequence f)
  { h with }

theorem miiWriteReg_of_frame {x : State}
    (h : runFrame (buildWrite t.params.phyAddr r v) (t.call (.miiWrite (r.setWidth 8) v) back) = x) :
    miiWriteReg back r v t = (discardSequence x).advance .ret := by
  subst h
  rfl

theorem miiReadReg_of_frame {x : State}
    (h : runFrame (buildRead t.params.phyAddr r) (t.call (.miiRead (r.setWidth 8)) back) = x) :
    miiReadReg back r t = (decodeInput x.eng.seqBuf, (discardSequence x).advance .ret) := by
  subst h
  rfl

namespace State.Talks

/-- An operation begins. -/
theorem start (i : Instr) (ha : s.phy.addr = some s.params.phyAddr) (hh : s.phy.rx = .hunt) :
    s.Talks s.phy s.env.tape [] 0 (s.begin i) where
  params := rfl
  chip := rfl
  tape := rfl
  addr := ha
  phy := ⟨s.phy.ones, s.phy.drive, by rw [← hh]; rfl⟩
  makes := .refl s

/-- The engine's own steps. -/
theorem setEng (h : s.Talks p l a w t) (e : Engine) : s.Talks p l a w (t.setEng e) := { h with }

/-- The exchange discards its sequence and comes back to the rule that called it (R62). -/
theorem ret (h : s.Talks p l a w t) : s.Talks p l a w ((discardSequence t).advance .ret) := { h with }

/-! ## Gaps -/

theorem gap (h : s.Talks p l a w t) (hr : t.RestsFor 1) : s.Talks p (l.drop 1) a w (Machine.gap t) := by
  rw [gap_of_restsFor hr, h.tape]
  exact { h with tape := rfl }

/-- The PHY completes its reset (R266). -/
theorem gap_resetDone (h : s.Talks p (agentGap .phyResetDone ++ l) a w t) (hp : p.resetting = true) :
    s.Talks (p.resetDone s.params) l a w (Machine.gap t) := by
  obtain ⟨k, o, hphy⟩ := h.phy
  have hstep : agentStep .phyResetDone (t.withTape l) = (t.withTape l).setPhy (t.phy.resetDone t.params) :=
    if_pos (by rw [withTape_phy, hphy]; exact hp)
  rw [gap_agentGap h.tape, hstep]
  exact { h with tape := rfl, phy := ⟨k, o, by rw [setPhy_phy, hphy, h.params]; rfl⟩ }

/-- The PHY acknowledges (R267). -/
theorem gap_setAck (h : s.Talks p (agentGap .phySetAck ++ l) a w t) (hp : p.aneg = true) :
    s.Talks { p with stat := p.stat ||| anegAck s.params } l a w (Machine.gap t) := by
  obtain ⟨k, o, hphy⟩ := h.phy
  have hstep : agentStep .phySetAck (t.withTape l) =
      (t.withTape l).setPhy { t.phy with stat := t.phy.stat ||| anegAck t.params } :=
    if_pos (by rw [withTape_phy, hphy]; exact hp)
  rw [gap_agentGap h.tape, hstep]
  exact { h with tape := rfl, phy := ⟨k, o, by rw [setPhy_phy, hphy, h.params]; rfl⟩ }

/-- A wait between polls. -/
theorem delay (h : s.Talks p [] a w t) (n : Next) : s.Talks p [] a (w + 1) (Machine.delay n Config.phyPollInterval t) := by
  have hm : s.Makes (a ++ []) (w + 1) (t.note (.delay 500)) := h.makes.trans ⟨[.delay 500], rfl, rfl, rfl⟩
  rw [List.append_nil] at hm
  rw [delay_quiet n _ h.tape]
  exact { h with makes := hm }

/-! ## Exchanges -/

section
variable (hb : bitsOk s.params.bits)
include hb

/-- The state before the gap behind the last access of an exchange: it is over, and the PHY is where its cycles have left it. -/
theorem frame (h : s.Talks p l a w t) (hf : f.length = m) (hr : t.RestsFor (5 * m + 4)) : ∃ x, runFrame f t = Machine.gap x ∧
    t.phy.Sees s.params f (x.eng.seqBuf.map Cycle.input) x.phy ∧
    ∀ p' : Phy, p'.addr = p.addr → (∃ k o, x.phy = p'.amid k .hunt o) →
      s.Talks p' (l.drop (5 * m + 4)) (a ++ exchangeAccesses m) w x := by
  have hrun := runFrame_of_rests hf hr
  have hsees := runFrame_sees (s := t.withTape []) f rfl (by rwa [withTape_params, h.params])
  have hin := runFrame_inExchange f (t.withTape [])
  have hchip := Chip.eq_of_besidePins (hin.chip rfl) (runSequence_bank _)
  have hmakes := (State.MakesAlone.refl (s := t.withTape []) (.inr rfl)).runFrame (f := f) |>.makes
  rw [withTape_params, h.params] at hsees
  rw [hf] at hmakes
  rw [h.tape] at hrun
  refine ⟨_, hrun, hsees, fun p' ha hp => ?_⟩
  exact ⟨hin.params.trans h.params, hchip.trans (by rw [withTape_chip, h.chip]; rfl), rfl, ha.trans h.addr, hp,
    h.makes.trans hmakes⟩

/-- A write of a register, before the gap behind its last access (R251, R265). -/
theorem write (h : s.Talks p l a w t) (back : Next) (r : BitVec 5) (v : Word) (hr : t.RestsFor 329) :
    ∃ x, miiWriteReg back r v t = (discardSequence (Machine.gap x)).advance .ret ∧
      s.Talks (p.writeReg s.params r v) (l.drop 329) (a ++ exchangeAccesses 65) w x := by
  obtain ⟨k, o, hphy⟩ := h.phy
  obtain ⟨x, hx, hsees, htalks⟩ := frame hb (m := 65) (f := buildWrite t.params.phyAddr r v)
    (h.setEng (t.call (.miiWrite (r.setWidth 8) v) back).eng) rfl hr
  refine ⟨x, miiWriteReg_of_frame hx, htalks _ (writeReg_addr ..) ⟨0, none, ?_⟩⟩
  rw [setEng_phy, hphy, h.params] at hsees
  rw [sees_buildWrite hsees h.addr rfl, writeReg_amid]
  exact congrArg (fun z => { (p.writeReg s.params r v).amid k z o with ones := 0, drive := none }) rfl

/-- It, where nothing happens in that gap either. -/
theorem writeQuiet (h : s.Talks p l a w t) (back : Next) (r : BitVec 5) (v : Word) (hr : t.RestsFor 330) :
    s.Talks (p.writeReg s.params r v) (l.drop 330) (a ++ exchangeAccesses 65) w (miiWriteReg back r v t) := by
  obtain ⟨x, hx, hw⟩ := write hb h back r v (hr.mono (by omega))
  have hg := hw.gap (State.RestsFor.drop (k := 329) hr (hw.tape.trans (by rw [h.tape])))
  rw [List.drop_drop] at hg
  rw [hx]
  exact hg.ret

/-- A read of one (R250, R252). -/
theorem read (h : s.Talks p l a w t) (back : Next) (r : BitVec 5) (hr : t.RestsFor 325) : ∃ u rest,
    miiReadReg back r t = (p.readReg s.params r rest, u) ∧ s.Talks p (l.drop 325) (a ++ exchangeAccesses 64) w u := by
  obtain ⟨k, o, hphy⟩ := h.phy
  obtain ⟨x, hx, hsees, htalks⟩ := frame hb (m := 64) (f := buildRead t.params.phyAddr r)
    (h.setEng (t.call (.miiRead (r.setWidth 8)) back).eng) rfl (hr.mono (by omega))
  rw [setEng_phy, hphy, h.params] at hsees
  obtain ⟨hp, rest, hbits⟩ := sees_buildRead hsees h.addr rfl
  have hu := htalks p rfl ⟨0, none, hp⟩
  have hg := hu.gap (State.RestsFor.drop (k := 324) hr (hu.tape.trans (by rw [h.tape])))
  rw [List.drop_drop] at hg
  have hv : decodeInput (Machine.gap x).eng.seqBuf = p.readReg s.params r rest := by
    rw [gap_eng]
    exact decodeInput_eq hbits
  exact ⟨_, rest, by rw [miiReadReg_of_frame hx, hv], hg.ret⟩

end

end State.Talks

end Sys2Proof.Machine
end

section
/-! PROOFS. PHY_CONFIGURE with a PHY that answers, with one whose reset does not complete and with one that never acknowledges
(spec/45_phy_configure.md R280 to R287). -/

namespace Sys2Proof.Machine

variable {s t u x : State} {q : Config.Params} {p : Phy} {l : List Gap} {a : List (Reg × Bool)} {w : Nat} {c : Bool}

/-! ## What its words write -/

/-- The three flags of PHY_CTRL, and the two that a poll of PHY_STAT tests, are different bits (R9). -/
theorem phyFlags_of_phyMapOk (hm : phyMapOk q.phyMap) :
    q.phyMap.reset ≠ q.phyMap.anegEn ∧ q.phyMap.reset ≠ q.phyMap.anegRestart ∧ q.phyMap.anegEn ≠ q.phyMap.anegRestart ∧
      q.phyMap.anegAck ≠ q.phyMap.remFlt := by
  obtain ⟨-, hctrl, hstat, -⟩ := hm
  simp only [List.nodup_cons, List.mem_cons, List.not_mem_nil, or_false, not_or, ← ne_eq] at hctrl hstat
  obtain ⟨⟨hre, hrr⟩, her, -⟩ := hctrl
  exact ⟨hre, hrr, her, hstat.2.2.2.2.2.1⟩

/-- A write of RESET starts a reset, and leaves the advertisement and the mask (R281). -/
theorem writeReg_reset (q : Config.Params) (p : Phy) : (p.writeReg q q.phyMap.ctrl (phyReset q)).resetting = true ∧
    (p.writeReg q q.phyMap.ctrl (phyReset q)).adv = p.adv ∧ (p.writeReg q q.phyMap.ctrl (phyReset q)).mask = p.mask := by
  have hr : has (phyReset q) (phyReset q) = true := has_bit_self _
  rw [Phy.writeReg, if_pos rfl, hr, Bool.or_true]
  exact ⟨rfl, rfl, rfl⟩

/-- The restart of a negotiation (R267, R285). -/
theorem writeReg_restart (hm : phyMapOk q.phyMap) (p : Phy) : p.writeReg q q.phyMap.ctrl (restartWord q) =
    { p with ctrl := anegEn q, aneg := true, stat := without p.stat (anegAck q) } := by
  obtain ⟨hre, hrr, her, -⟩ := phyFlags_of_phyMapOk hm
  have hreset : has (restartWord q) (phyReset q) = false := by
    rw [restartWord, has_or, anegEn, anegRestart, phyReset, has_bit_of_ne hre.symm, has_bit_of_ne hrr.symm]
    rfl
  have hrestart : has (restartWord q) (anegRestart q) = true := by
    rw [restartWord, has_or, show has (anegRestart q) (anegRestart q) = true from has_bit_self _, Bool.or_true]
  have hctrl : without (restartWord q) (phyVolatile q) = anegEn q := by
    apply BitVec.eq_of_getLsbD_eq
    intro k _
    have hre' := Fin.val_ne_of_ne hre
    have her' := Fin.val_ne_of_ne her
    rw [Bool.eq_iff_iff]
    simp only [restartWord, phyVolatile, anegEn, anegRestart, phyReset, getLsbD_without, BitVec.getLsbD_or, getLsbD_bit,
      Bool.and_eq_true, Bool.or_eq_true, Bool.not_eq_true', Bool.or_eq_false_iff, decide_eq_true_eq, decide_eq_false_iff_not]
    omega
  rw [Phy.writeReg, if_pos rfl, hreset, hrestart, hctrl, if_pos rfl, Bool.or_false, Bool.or_true]

/-! ## The polls -/

/-- The exchanges of a poll that fails, with a remote fault in PHY_STAT or without one (R286). -/
def failedPoll (fault : Bool) : List (Reg × Bool) :=
  if fault then exchangeAccesses 64 ++ exchangeAccesses 65 else exchangeAccesses 64

section
variable (hb : bitsOk s.params.bits)
include hb

/-- A poll that finds the reset complete ends the polls (R281). -/
theorem pollPhyReset_complete (h : s.Talks p l a w t) (hp : p.resetting = false) (k i : Nat) (hr : t.RestsFor 325) :
    ∃ u, pollPhyReset (k + 1) i t = (true, u) ∧ s.Talks p (l.drop 325) (a ++ exchangeAccesses 64) w u := by
  obtain ⟨u, rest, hread, hu⟩ := h.read hb (.to 2 2 (.poll i)) s.params.phyMap.ctrl hr
  obtain ⟨hreset, -⟩ := readReg_ctrl s.params p rest
  refine ⟨u, ?_, hu⟩
  rw [pollPhyReset, h.params, hread, if_neg (by rw [hreset, hp]; exact Bool.false_ne_true)]

/-- While the reset is in progress every poll fails (R281). -/
theorem pollPhyReset_resetting (hp : p.resetting = true) (k : Nat) : ∀ (i : Nat) {a : List (Reg × Bool)} {w : Nat} {t : State},
    s.Talks p [] a w t → ∃ u b, pollPhyReset k i t = (false, u) ∧ s.Talks p [] b (w + k) u := by
  induction k with
  | zero => exact fun _ a _ t h => ⟨t, a, rfl, h⟩
  | succ k ih =>
    intro i a w t h
    obtain ⟨u, rest, hread, hu⟩ := h.read hb (.to 2 2 (.poll i)) s.params.phyMap.ctrl (restsFor_of_quiet h.tape _)
    obtain ⟨hreset, -⟩ := readReg_ctrl s.params p rest
    rw [pollPhyReset, h.params, hread, if_pos (by rw [hreset, hp])]
    obtain ⟨x, b, hx, hxt⟩ := ih (i + 1) (hu.delay (if k = 0 then .to 3 else .to 2 1 (.poll (i + 1))))
    exact ⟨x, b, hx, by rwa [Nat.add_right_comm, Nat.add_assoc] at hxt⟩

variable (hm : phyMapOk s.params.phyMap)
include hm

/-- A poll that finds the acknowledge ends the polls (R286). -/
theorem pollPhyAneg_acknowledged (h : s.Talks p l a w t) (hp : has p.stat (anegAck s.params) = true) (k i : Nat)
    (hr : t.RestsFor 325) : ∃ u b, pollPhyAneg (k + 1) i t = (true, u) ∧ s.Talks p (l.drop 325) b w u := by
  obtain ⟨u, rest, hread, hu⟩ := h.read hb (.to 9 2 (.poll i)) s.params.phyMap.stat hr
  rw [(readReg_named hm p rest).1] at hread
  exact ⟨u, _, by rw [pollPhyAneg, h.params, hread, if_pos hp], hu⟩

/-- Where the PHY does not acknowledge every poll fails; a restart finds the negotiation restarted (R286). -/
theorem pollPhyAneg_failed (hack : has p.stat (anegAck s.params) = false)
    (hp : p.writeReg s.params s.params.phyMap.ctrl (restartWord s.params) = p) (k : Nat) :
    ∀ (i : Nat) {a : List (Reg × Bool)} {w : Nat} {t : State}, s.Talks p [] a w t → ∃ u, pollPhyAneg k i t = (false, u) ∧
      s.Talks p [] (a ++ (List.replicate k (failedPoll (has p.stat (remFlt s.params)))).flatten) (w + k) u := by
  induction k with
  | zero => exact fun _ a _ t h => ⟨t, rfl, by simpa using h⟩
  | succ k ih =>
    intro i a w t h
    obtain ⟨u, rest, hread, hu⟩ := h.read hb (.to 9 2 (.poll i)) s.params.phyMap.stat (restsFor_of_quiet h.tape _)
    rw [(readReg_named hm p rest).1] at hread
    have hpoll : s.Talks p [] (a ++ failedPoll (has p.stat (remFlt s.params))) w
        (if has p.stat (remFlt s.params) then
          miiWriteReg (.to 9 4 (.poll i)) s.params.phyMap.ctrl (restartWord s.params) u else u) := by
      unfold failedPoll
      split
      · have hx := hu.writeQuiet hb (.to 9 4 (.poll i)) s.params.phyMap.ctrl (restartWord s.params)
          (restsFor_of_quiet hu.tape _)
        rwa [hp, List.append_assoc] at hx
      · exact hu
    rw [pollPhyAneg, h.params, hread, if_neg (by rw [hack]; exact Bool.false_ne_true)]
    obtain ⟨x, hx, hxt⟩ := ih (i + 1) (hpoll.delay (if k = 0 then .to 10 else .to 9 1 (.poll (i + 1))))
    refine ⟨x, hx, ?_⟩
    rwa [List.append_assoc, ← List.flatten_cons, ← List.replicate_succ, Nat.add_right_comm, Nat.add_assoc] at hxt

/-! ## Steps 4 to 8 -/

/-- The PHY behind steps 4 to 7: its events masked, its capabilities advertised (R283, R284). -/
def Phy.advertised (q : Config.Params) (p : Phy) : Phy := { p with mask := q.phyIntMask, adv := advertise q p.stat }

/-- Before their last exchange, which restarts the negotiation. -/
theorem phyAdvertise_talks (h : s.Talks p l a w t) (hr : t.RestsFor 985) : ∃ u,
    phyAdvertise t = miiWriteReg (.to 9 1 (.poll 1)) s.params.phyMap.ctrl (restartWord s.params) u ∧
    s.Talks (p.advertised s.params) (l.drop 985) (a ++ exchangeAccesses 65 ++ exchangeAccesses 64 ++ exchangeAccesses 65) w u := by
  have hrest {k n : Nat} {b : List (Reg × Bool)} {p' : Phy} {x : State} (hx : s.Talks p' (l.drop k) b w x) (hn : k + n ≤ 985) :
      x.RestsFor n := (hr.mono hn).drop (by rw [hx.tape, h.tape])
  have hmask := h.writeQuiet hb (.to 5) s.params.phyMap.mask s.params.phyIntMask (hr.mono (by omega))
  obtain ⟨u, rest, hread, hu⟩ := hmask.read hb (.to 6) s.params.phyMap.stat (hrest hmask (by omega))
  rw [(writeReg_named hm p _).2.2] at hread hu
  rw [(readReg_named hm _ rest).1] at hread
  rw [List.drop_drop] at hu
  have had := (hu.setEng { u.eng with capsAd := some (p.stat, advertise s.params p.stat) }).writeQuiet hb (.to 8)
    s.params.phyMap.ad (advertise s.params p.stat) (hrest (hu.setEng _) (by omega))
  rw [(writeReg_named hm _ _).2.1, List.drop_drop] at had
  refine ⟨_, ?_, had.setEng { (miiWriteReg (.to 8) s.params.phyMap.ad (advertise s.params p.stat)
    (u.setEng { u.eng with capsAd := some (p.stat, advertise s.params p.stat) })).eng with capsAd := none }⟩
  unfold phyAdvertise
  dsimp only
  rw [h.params, hread]

end

/-! ## The operation -/

/-- The two stages of polls (R280). -/
theorem phyConfigureRun_of_polls (hr : pollPhyReset Config.phyResetPolls 1
      (miiWriteReg (.to 2 1 (.poll 1)) s.params.phyMap.ctrl (phyReset s.params) s) = (true, u))
    (ha : pollPhyAneg Config.phyAnegPolls 1 (phyAdvertise u) = (c, x)) :
    phyConfigureRun s = (if c then .ok else .phyAutonegTimeout, x.advance .ret) := by
  rw [phyConfigureRun, hr]
  dsimp only
  rw [if_pos rfl, ha]

theorem phyConfigureRun_of_failed (hr : pollPhyReset Config.phyResetPolls 1
      (miiWriteReg (.to 2 1 (.poll 1)) s.params.phyMap.ctrl (phyReset s.params) s) = (false, u)) :
    phyConfigureRun s = (.phyResetTimeout, u.advance .ret) := by
  rw [phyConfigureRun, hr]
  rfl

theorem drop_quietGaps (n : Nat) (l : List Gap) : (quietGaps n ++ l).drop n = l := List.drop_left' List.length_replicate

/-- The PHY behind a reset that has been started and has completed (R266). -/
def Phy.rebooted (q : Config.Params) (p : Phy) : Phy := (p.writeReg q q.phyMap.ctrl (phyReset q)).resetDone q

/-- The PHY with its capabilities advertised and its negotiation started (R283 to R285). -/
def Phy.negotiating (q : Config.Params) (p : Phy) : Phy :=
  { p.advertised q with ctrl := anegEn q, aneg := true, stat := without p.stat (anegAck q) }

/-- A restart finds the negotiation restarted (R286). -/
theorem writeReg_negotiating (hm : phyMapOk q.phyMap) (p : Phy) :
    (p.negotiating q).writeReg q q.phyMap.ctrl (restartWord q) = p.negotiating q := by
  rw [writeReg_restart hm]
  exact congrArg (fun v => { p.negotiating q with stat := v }) (without_without p.stat (anegAck q))

/-- The accesses before the polls of the negotiation, where the first poll of the reset finds it complete. -/
def configureAccesses : List (Reg × Bool) :=
  exchangeAccesses 65 ++ exchangeAccesses 64 ++ exchangeAccesses 65 ++ exchangeAccesses 64 ++ exchangeAccesses 65 ++
    exchangeAccesses 65

/-- With a PHY that completes its reset behind the first exchange: before the gap behind the restart of the negotiation. -/
theorem phyConfigure_negotiates (hb : bitsOk s.params.bits) (hm : phyMapOk s.params.phyMap)
    (ha : s.phy.addr = some s.params.phyAddr) (hh : s.phy.rx = .hunt)
    (ht : s.env.tape = quietGaps 329 ++ (agentGap .phyResetDone ++ l)) (hl : ∀ g ∈ l.take 1639, g = ⟨0, []⟩) :
    ∃ u x, pollPhyReset Config.phyResetPolls 1
        (miiWriteReg (.to 2 1 (.poll 1)) s.params.phyMap.ctrl (phyReset s.params) (s.begin .phyConfigure)) = (true, u) ∧
      phyAdvertise u = (discardSequence (gap x)).advance .ret ∧
      s.Talks ((s.phy.rebooted s.params).negotiating s.params) (l.drop 1639) configureAccesses 0 x := by
  obtain ⟨y, hy, hyt⟩ := (State.Talks.start .phyConfigure ha hh).write hb (.to 2 1 (.poll 1)) s.params.phyMap.ctrl
    (phyReset s.params) (restsFor_of_quietGaps (s := s.begin .phyConfigure) ht)
  rw [ht, drop_quietGaps] at hyt
  have hreset := (hyt.gap_resetDone (writeReg_reset ..).1).ret
  have hrest {k n : Nat} {b : List (Reg × Bool)} {p : Phy} {x : State} (hx : s.Talks p (l.drop k) b 0 x) (hn : k + n ≤ 1639) :
      x.RestsFor n := (State.RestsFor.mono (s := s.withTape l) hl hn).drop hx.tape
  rw [← hy] at hreset
  obtain ⟨u, hpoll, hu⟩ := pollPhyReset_complete hb hreset rfl 5 1 (hrest (k := 0) hreset (by omega))
  obtain ⟨v, hadv, hv⟩ := phyAdvertise_talks hb hm hu (hrest hu (by omega))
  rw [List.drop_drop] at hv
  obtain ⟨x, hx, hxt⟩ := hv.write hb (.to 9 1 (.poll 1)) s.params.phyMap.ctrl (restartWord s.params) (hrest hv (by omega))
  rw [List.drop_drop, writeReg_restart hm] at hxt
  exact ⟨u, x, hpoll, hadv.trans hx, hxt⟩

/-- Settles O53: on every schedule no part disturbs the selection; with a PHY that answers, the first poll of either stage ends it. -/
theorem phyConfigureCompletes : Obligations.PhyConfigureCompletes := by
  refine ⟨fun s => ?_, fun s hb hm ha hh ht => ?_⟩
  · obtain ⟨e, hx, hend, -⟩ := exec_phyConfigure (s := s) rfl
    have hs := phyConfigureRun_selection (s.begin .phyConfigure)
    simp only [State.selection, Prod.mk.injEq] at hs
    obtain ⟨hbank, hpnr, hptr, hhost⟩ := hs
    exact ⟨_, _, hx, hend, phyConfigureRun_condition _, hbank, hpnr, hptr, hhost⟩
  · obtain ⟨u, x, hreset, hadv, hxt⟩ := phyConfigure_negotiates (l := quietGaps 1639 ++ agentGap .phySetAck) hb hm ha hh
      (ht.trans (by simp only [List.append_assoc])) (restsFor_of_quietGaps (s := s.withTape _) rfl)
    rw [drop_quietGaps] at hxt
    have hack := (hxt.gap_setAck (l := []) rfl).ret
    rw [← hadv] at hack
    have hset (v : Word) : has (v ||| anegAck s.params) (anegAck s.params) = true := by
      rw [has_or, show has (anegAck s.params) (anegAck s.params) = true from has_bit_self _, Bool.or_true]
    obtain ⟨v, b, hpoll, hv⟩ := pollPhyAneg_acknowledged hb hm hack (hset _) 19 1 (restsFor_of_quiet hack.tape _)
    have hcaps : v.eng.capsAd = none := by
      rw [← phyAdvertise_capsAd u, ← pollPhyAneg_capsAd (19 + 1) 1 (phyAdvertise u), hpoll]
    obtain ⟨e, hx, hend, he⟩ := exec_phyConfigure (phyConfigureRun_of_polls hreset hpoll)
    obtain ⟨k, o, hphy⟩ := hv.phy
    exact ⟨_, hx, hend, congrArg Phy.mask hphy, congrArg Phy.adv hphy, congrArg Phy.ctrl hphy, congrArg Phy.aneg hphy,
      congrArg Phy.resetting hphy, (congrArg (fun y => has y.stat _) hphy).trans (hset _), hv.chip, he.trans hcaps⟩

/-- Settles O54: the polls of the reset are all it makes behind its first exchange, each with its wait; while the PHY's reset is in
progress each of them fails. -/
theorem phyResetTimeoutStopsWriting : Obligations.PhyResetTimeoutStopsWriting := by
  refine ⟨fun s t he hx ht => ?_, fun s hb hm hq ha hh => ?_⟩
  · obtain ⟨e, hx', hend, -⟩ := exec_phyConfigure (s := s) rfl
    obtain rfl := Host.Outcome.next.inj (hx.symm.trans hx')
    have hc : (phyConfigureRun (s.begin .phyConfigure)).1 = .phyResetTimeout :=
      congrArg OpResult.cond (Option.some.inj (hend.2.symm.trans ht.2))
    exact ((State.MakesAlone.refl (s := s.begin .phyConfigure) (.inl he)).phyConfigureRun hc).makes
  · have hstart := (State.Talks.start .phyConfigure ha hh).writeQuiet hb (.to 2 1 (.poll 1)) s.params.phyMap.ctrl
      (phyReset s.params) (restsFor_of_quiet hq _)
    rw [show s.env.tape = [] from hq] at hstart
    obtain ⟨hreset, hadv, hmask⟩ := writeReg_reset s.params s.phy
    obtain ⟨u, b, hpoll, hu⟩ := pollPhyReset_resetting hb hreset 6 1 hstart
    obtain ⟨e, hx, hend, -⟩ := exec_phyConfigure (phyConfigureRun_of_failed hpoll)
    obtain ⟨k, o, hphy⟩ := hu.phy
    exact ⟨_, hx, hend, (congrArg Phy.resetting hphy).trans hreset, (congrArg Phy.adv hphy).trans hadv,
      (congrArg Phy.mask hphy).trans hmask, hu.chip⟩

/-- Settles O57: every poll of the negotiation fails, and a restart changes nothing that the one before it has not. -/
theorem negotiationEnds : Obligations.NegotiationEnds := by
  intro s hb hm ha hh ht
  obtain ⟨u, x, hreset, hadv, hxt⟩ := phyConfigure_negotiates (l := []) hb hm ha hh (by rw [ht, List.append_nil]) (by simp)
  have hstart := (hxt.gap (restsFor_of_quiet hxt.tape _)).ret
  rw [← hadv] at hstart
  obtain ⟨-, -, -, hne⟩ := phyFlags_of_phyMapOk hm
  have hfault : has (without s.params.phyDefStat (anegAck s.params)) (remFlt s.params) =
      has s.params.phyDefStat (remFlt s.params) := by
    rw [remFlt, has_bit, getLsbD_without, anegAck, getLsbD_bit, decide_eq_false (fun h => hne (Fin.ext h.symm)), has_bit]
    simp
  obtain ⟨v, hpoll, hv⟩ := pollPhyAneg_failed hb hm (has_without_self _ _) (writeReg_negotiating hm _) 20 1 hstart
  obtain ⟨e, hx, hend, -⟩ := exec_phyConfigure (phyConfigureRun_of_polls hreset hpoll)
  obtain ⟨k, o, hphy⟩ := hv.phy
  obtain ⟨new, htrace, haccesses, hwaits⟩ := hv.makes
  have haccesses : new.reverse.filterMap windowAccess = configureAccesses ++
    (List.replicate 20 (failedPoll (has s.params.phyDefStat (remFlt s.params)))).flatten := by rw [← hfault]; exact haccesses
  refine ⟨_, new, hx, hend, htrace, hwaits, congrArg Phy.aneg hphy, congrArg Phy.ctrl hphy, congrArg Phy.adv hphy,
    congrArg Phy.mask hphy, hv.chip, fun hf => ?_, fun hf => ?_⟩ <;> rw [haccesses, hf] <;> rfl

end Sys2Proof.Machine
end

section
/-! PROOFS. The agents' rest in the soft reset and without power (spec/46_lifecycle.md R301, R305, spec/42_transmit.md R212,
spec/43_receive.md R232). -/

namespace Sys2Proof.Machine

variable {s : State}

/-- In the soft reset no step changes the chip unit: its agents take none, and the PHY's own are none of it (R301). -/
theorem agentStep_chip_of_softReset (e : AgentEvent) (h : s.chip.inSoftReset s.params = true) :
    (agentStep e s).chip = s.chip := by
  cases e with
  | phyResetDone => exact agentStep_phy_chip (.inl rfl) s
  | phySetAck => exact agentStep_phy_chip (.inr (.inl rfl)) s
  | phySetRemFlt => exact agentStep_phy_chip (.inr (.inr (.inl rfl))) s
  | phyClrRemFlt => exact agentStep_phy_chip (.inr (.inr (.inr rfl))) s
  | _ => exact congrArg State.chip (if_pos h)

/-- Without TXEN or POWER_EN the transmitter takes no packet (R212, R305). -/
theorem txTake_of_disabled (h : has s.chip.config (powerEn s.params) = false ∨ has s.chip.tcr (txen s.params) = false) :
    txTake s = s := by
  rcases h with h | h <;> simp [txTake, h]

/-- Without RXEN or POWER_EN the receiver takes no frame (R232, R305). -/
theorem rxArrive_of_disabled (p : Pkt) (pages : Nat) (status lenWord : Word) (payload : List Byte)
    (h : has s.chip.config (powerEn s.params) = false ∨ has s.chip.rcr (rxen s.params) = false) :
    rxArrive p pages status lenWord payload s = s := by
  rcases h with h | h <;> simp [rxArrive, h]

/-- Settles O16: outside the soft reset the transmitter and the receiver test their enables. -/
theorem agentsRestInResetAndLowPower : Obligations.AgentsRestInResetAndLowPower := by
  refine ⟨fun e s h => agentStep_chip_of_softReset e h, fun s h => ?_, fun s p pages status lenWord payload h => ?_⟩
  · have hs : agentStep .txDequeue s = s := by rw [agentStep, txTake_of_disabled h, ite_self]
    rw [hs]
    exact ⟨rfl, rfl⟩
  · rw [agentStep, rxArrive_of_disabled p pages status lenWord payload h, ite_self]

end Sys2Proof.Machine
end

section
/-! PROOFS. Writes of RCR and CONFIG that reset the chip unit or wake it (spec/46_lifecycle.md R301, R305,
spec/60_exceptions.md R352). -/

namespace Sys2Proof.Machine

variable {s : State} {i : Instr} {off : Byte} {r : Reg} {w : Word}

/-- Operation `i` writes word `w` to register `r`: as a word, or by a byte that merges with what the register holds (R164, R165,
log 11). -/
def State.WritesTo (s : State) (i : Instr) (off : Byte) (r : Reg) (w : Word) : Prop :=
  (i = .writeWord off w ∧ off.toNat % 2 = 0 ∧ s.WordAt off.toNat r) ∨
  ∃ b high, i = .writeByte off b ∧ placeAt s.params.regs s.chip.bank off.toNat = some (.byte r high) ∧
    w = mergeHalf (storedWord r s.params s.chip) high b

/-- It is one access, and its effect is the register's. -/
theorem State.WritesTo.exec (h : s.WritesTo i off r w) (hr : r ≠ .mmuCmd) :
    ∃ a, exec i s = .next ((accessed a (setReg r w (s.begin i))).finish .ok 0) := by
  rcases h with ⟨rfl, he, hp, hp'⟩ | ⟨b, high, rfl, hp, rfl⟩
  · refine ⟨.write (labelAt off s) 2 (w.setWidth 32), ?_⟩
    show execWriteWord off w s = _
    simp only [execWriteWord, winWriteWord, he, if_true, writeWordAt, State.begin_params, State.begin_chip, hp, hp',
      writeReg_of_ne_mmuCmd _ _ hr, andThen_ok]
  · refine ⟨.write (labelAt off s) 1 (b.setWidth 32), ?_⟩
    show execWriteByte off b s = _
    simp only [execWriteByte, winWriteByte, State.begin_params, State.begin_chip, hp, writePlace,
      writeReg_of_ne_mmuCmd _ _ hr, andThen_ok]

/-- With the agents at rest it leaves what that effect leaves. -/
theorem State.WritesTo.leaves (h : s.WritesTo i off r w) (hr : r ≠ .mmuCmd) :
    ∃ t, Machine.exec i s = .next t ∧ t.Ended .ok 0 ∧ (s.Quiet → t.chip = (setReg r w (s.begin i)).chip ∧
      t.phy = (setReg r w (s.begin i)).phy ∧ t.irq = s.irq ∧ t.hostMem = s.hostMem) := by
  obtain ⟨a, hx⟩ := h.exec hr
  refine ⟨_, hx, ⟨rfl, rfl⟩, fun hq => ?_⟩
  rw [accessed, gap_quiet (by exact (setReg_tape ..).trans hq)]
  exact ⟨rfl, rfl, setReg_irq .., setReg_hostMem ..⟩

/-- Settles O28: such a write of RCR is the soft reset, such a write of CONFIG the end of the low-power state. -/
theorem softResetKeepsConfigAndSignature : Obligations.SoftResetKeepsConfigAndSignature := by
  refine ⟨fun s i off w hw h => ?_, fun s i off w h hw hc => ?_⟩
  · have hi : s.WritesTo i off .rcr w := by simpa only [State.WritesTo, mergeHalf_eq, storedWord] using h
    obtain ⟨t, hx, hend, ht⟩ := hi.leaves (by decide)
    refine ⟨t, hx, hend, fun hq => ?_⟩
    obtain ⟨hchip, hphy, hirq, hmem⟩ := ht hq
    rw [setReg_rcr_reset w (s.begin i) hw] at hchip hphy
    obtain ⟨hconfig, hsig, hrst, -⟩ := softReset_frame (s.begin i)
    rw [hchip]
    exact ⟨hconfig, hsig, hrst, hmem, hirq, hphy⟩
  · have hi : s.WritesTo i off .config w := by simpa only [State.WritesTo, mergeHalf_eq, storedWord] using h
    obtain ⟨t, hx, hend, ht⟩ := hi.leaves (by decide)
    refine ⟨t, hx, hend, fun hq => ?_⟩
    obtain ⟨hchip, hphy, hirq, hmem⟩ := ht hq
    rw [setReg_config_powerUp w (s.begin i) hw hc] at hchip hphy
    obtain ⟨hconfig, hsig, -, hheld⟩ := powerUp_frame ((s.begin i).setChip { s.chip with config := w })
    rw [hchip]
    exact ⟨hconfig, hsig, hmem, hirq, hphy, hheld⟩

end Sys2Proof.Machine
end

section
/-! PROOFS. PROBE, and the ends of OPEN that it brings about (spec/46_lifecycle.md R308, R310). -/

namespace Sys2Proof.Machine

variable {s t : State} {k : Nat}

/-! ## The signature -/

/-- The gaps PROBE takes: one behind its bank select, where REGMAP gives SIG a bank, and one behind its read. -/
def probeGaps (p : Config.Params) : Nat := if p.regs.sigBank.isSome then 2 else 1

/-- The chip unit behind PROBE. -/
def Chip.probed (q : Config.Params) (c : Chip) : Chip := { c with bank := q.regs.sigBank.getD c.bank }

/-- PROBE's condition (R308). -/
def probeCondition (q : Config.Params) (c : Chip) : Condition :=
  if c.sigValue q = q.chipSignature then .ok else .hardwareNotDetected (c.sigValue q)

/-- The signature is a constant of the chip: no gap changes what PROBE reads, or what it compares with (R38). -/
theorem probeRun_shows (s : State) : (probeRun s).1 = s.chip.sigValue s.params ∧ (probeRun s).2.params = s.params := by
  obtain ⟨hparams, -, -, hsig, -⟩ := State.steady_eq_iff.1 (selectSig_steady s)
  refine ⟨?_, (State.steady_eq_iff.1 (probeRun_steady s)).1⟩
  show (selectSig s).chip.sigValue (selectSig s).params = _
  rw [Chip.sigValue, hsig, hparams, Chip.sigValue]

theorem probeRun_leads (h : s.RestsFor (probeGaps s.params)) :
    s.Leads (s.chip.probed s.params) s.eng (probeGaps s.params) (probeRun s).2 := by
  have read {t : State} (ht : t.RestsFor 1) (a : Access) :
      t.Leads t.chip t.eng 1 ((gap ((t.note a).advance (.to 2))).advance .ret) :=
    have hgap := (leads_setChip t.chip t).access a (.to 2) ht
    (hgap.keeps (leads_advance .ret _) rfl).congr hgap.chip rfl
  unfold probeRun selectSig probeGaps Chip.probed at *
  cases hb : s.params.regs.sigBank with
  | none => exact read (by simpa [hb] using h) _
  | some b =>
    rw [hb] at h
    have hbank := wr_leads (.to 1 2) .bsr 2 (setReg_bsr (bankWord s.params b) s) (h.mono (by simp))
    have hread := hbank.keeps (read (hbank.rests h (by simp)) (.read (.sig 0) (wrBank (.to 1 2) b s).params.regs.sigWidth.bytes
      ((wrBank (.to 1 2) b s).chip.sigValue (wrBank (.to 1 2) b s).params))) rfl
    exact hread.congr (by rw [hbank.chip, bankOf_bankWord]; rfl) rfl

/-! ## The operations -/

theorem exec_probe (s : State) :
    exec .probe s = .next ((probeRun (s.begin .probe)).2.finish (probeCondition s.params s.chip) 0) := by
  obtain ⟨hv, hp⟩ := probeRun_shows (s.begin .probe)
  show execProbe s = _
  unfold execProbe probeCondition
  dsimp only
  rw [hv, hp]
  exact (apply_ite (fun c => Host.Outcome.next ((probeRun (s.begin .probe)).2.finish c 0)) _ _ _).symm

/-- OPEN behind its PROBE, called from its first step. -/
def openProbed (s : State) : State := (probeRun ((s.begin .openOp).call .probe (.to 2))).2

theorem exec_openOp_of_wrong (h : s.chip.sigValue s.params ≠ s.params.chipSignature) :
    exec .openOp s = .next ((openProbed s).finish (.hardwareNotDetected (s.chip.sigValue s.params)) (-1)) := by
  obtain ⟨hv, hp⟩ := probeRun_shows ((s.begin .openOp).call .probe (.to 2))
  show execOpen s = _
  unfold execOpen
  dsimp only
  rw [hv, hp]
  exact if_neg h

theorem exec_openOp_of_right (h : s.chip.sigValue s.params = s.params.chipSignature) :
    exec .openOp s = waitIdle (.to 7) .openWait openAfterReset (resetHead ((openProbed s).call .reset (.to 3))) := by
  obtain ⟨hv, hp⟩ := probeRun_shows ((s.begin .openOp).call .probe (.to 2))
  show execOpen s = _
  unfold execOpen
  dsimp only
  rw [hv, hp]
  exact if_pos h

/-- What an operation that ends behind PROBE leaves with the agents at rest. -/
theorem probed_leaves {u : State} (hu : s.Leads s.chip s.eng 0 u) (hq : s.Quiet) (c : Condition) (v : Int) :
    ((probeRun u).2.finish c v).chip = s.chip.probed s.params ∧ s.OnlyChip ((probeRun u).2.finish c v) ∧
      s.SamePackets ((probeRun u).2.finish c v) := by
  have h := hu.keeps (probeRun_leads (restsFor_of_quiet (hu.quiet hq) _)) (Nat.zero_add _)
  rw [hu.chip, hu.params] at h
  exact ⟨h.chip, (h.onlyChip rfl).finish c v,
    samePackets_of_chip (congrArg Chip.table h.chip :) (congrArg Chip.pktMem h.chip :)⟩

/-- Settles O58: both operations read the signature of the state they start in. -/
theorem probeChecksTheSignature : Obligations.ProbeChecksTheSignature := by
  refine ⟨fun s hs => ?_, fun s hs => ⟨?_, ?_⟩⟩
  · have hx := exec_probe s
    rw [probeCondition, if_pos hs] at hx
    exact ⟨_, hx, ⟨rfl, rfl⟩, fun hq => probed_leaves (leads_begin .probe s) hq _ _⟩
  · have hx := exec_probe s
    rw [probeCondition, if_neg hs] at hx
    exact ⟨_, hx, ⟨rfl, rfl⟩, fun hq => probed_leaves (leads_begin .probe s) hq _ _⟩
  · have hu := (leads_begin .openOp s).keeps (leads_call .probe (.to 2) _) rfl
    exact ⟨_, exec_openOp_of_wrong hs, ⟨rfl, rfl⟩, fun hq => probed_leaves hu hq _ _⟩

end Sys2Proof.Machine
end

section
/-! PROOFS. The MAC address selected, and when it is missing (spec/46_lifecycle.md R309). -/

namespace Sys2Proof.Machine

variable {s t u : State} {valid : Mac → Bool} {m chip : Mac} {source override stored fallback : Option Mac}

theorem validMac_of_valid (h : source = some m) (hm : valid m = true) : validMac valid source = some m := by
  simp [validMac, h, hm]

theorem validMac_of_invalid (h : ∀ m, source = some m → valid m = false) : validMac valid source = none := by
  cases source with
  | none => rfl
  | some m => simp [validMac, h m rfl]

theorem params_of_steady (h : t.steady = s.steady) : t.params = s.params := congrArg Steady.params h

/-- With a fallback there is an address to select. -/
theorem selectMac_isSome (valid : Mac → Bool) (override stored : Option Mac) (chip : Mac) (h : fallback.isSome = true) :
    ∃ a, selectMac valid override stored chip fallback = some a := by
  obtain ⟨m, rfl⟩ := Option.isSome_iff_exists.1 h
  unfold selectMac
  split
  · exact ⟨_, rfl⟩
  · split
    · exact ⟨_, rfl⟩
    · split <;> exact ⟨_, rfl⟩

/-- Behind its RESET, OPEN ends well while there is a fallback (R310). -/
theorem openAfterReset_ends (hf : s.params.macFallback.isSome = true) (h : openAfterReset s = .next t) :
    ∃ w, t.eng.result = some ⟨.ok, 0, w⟩ := by
  have hp : (markConfigured (phyConfigureRun ((resetTail s).call .phyConfigure (.to 4))).2).params = s.params :=
    params_of_steady (by simp)
  unfold openAfterReset openRest at h
  dsimp only at h
  rw [hp] at h
  obtain ⟨a, ha⟩ := selectMac_isSome Config.macValid s.params.macOverride s.params.macStored
    (markConfigured (phyConfigureRun ((resetTail s).call .phyConfigure (.to 4))).2).chip.mac hf
  rw [ha] at h
  obtain rfl := Host.Outcome.next.inj h
  exact ⟨a.2, rfl⟩

/-- A round of OPEN's wait stays there, or ends well. -/
theorem openWait_next (hf : s.params.macFallback.isSome = true) (h : waitPoll .openWait openAfterReset s = .next t) :
    t.eng.pos = .openWait ∨ ∃ w, t.eng.result = some ⟨.ok, 0, w⟩ := by
  rcases waitPoll_cases .openWait openAfterReset s with ⟨-, hx⟩ | ⟨-, hx⟩ <;> rw [hx] at h
  · obtain rfl := Host.Outcome.next.inj h
    exact .inl rfl
  · refine .inr (openAfterReset_ends ?_ h)
    have hp : ((rd (.to 1 2) .mmuCmd 2 s).2.advance .ret).params = s.params := params_of_steady (by simp)
    rwa [hp]

/-- Neither at a wait nor behind another end has an operation ended so. -/
theorem not_macAddressMissing (h : t.eng.pos ≠ .idle ∨ ∃ c v w, t.eng.result = some ⟨c, v, w⟩ ∧ c ≠ .macAddressMissing) :
    ¬ t.Ended .macAddressMissing (-1) := by
  rintro ⟨hpos, hres⟩
  rcases h with h | ⟨c, v, w, hr, hc⟩
  · exact h hpos
  · exact hc (congrArg OpResult.cond (Option.some.inj (hr.symm.trans hres)))

theorem not_macAddressMissing_of_openWait (h : t.eng.pos = .openWait ∨ ∃ w, t.eng.result = some ⟨.ok, 0, w⟩) :
    ¬ t.Ended .macAddressMissing (-1) := by
  refine not_macAddressMissing ?_
  rcases h with h | ⟨w, h⟩
  · exact .inl (by rw [h]; decide)
  · exact .inr ⟨_, _, w, h, by decide⟩

/-- OPEN raises it neither in its first step, which may end behind PROBE. -/
theorem exec_openOp_not_macAddressMissing (hf : s.params.macFallback.isSome = true) (h : exec .openOp s = .next t) :
    ¬ t.Ended .macAddressMissing (-1) := by
  by_cases hs : s.chip.sigValue s.params = s.params.chipSignature
  · rw [exec_openOp_of_right hs] at h
    have hp : (resetHead ((openProbed s).call .reset (.to 3))).params = s.params := params_of_steady (by simp [openProbed])
    refine not_macAddressMissing_of_openWait (openWait_next (s := (resetHead _).call .waitMmuIdle _) ?_ h)
    rwa [State.call_params, hp]
  · rw [exec_openOp_of_wrong hs] at h
    obtain rfl := Host.Outcome.next.inj h
    exact not_macAddressMissing (.inr ⟨_, _, _, rfl, nofun⟩)

/-- Nor in a step at its wait, in which a handler may hang (log 46). -/
theorem step_openWait_not_macAddressMissing (hf : s.params.macFallback.isSome = true) (hp : s.eng.pos = .openWait)
    (h : step s = .next t) : ¬ t.Ended .macAddressMissing (-1) := by
  rw [step_of_not_idle (by rw [hp]; decide)] at h
  obtain ⟨u, hu, ⟨-, rfl⟩ | ⟨g, -, rfl⟩⟩ := settle_next h
  · rw [resume, hp] at hu
    exact not_macAddressMissing_of_openWait (openWait_next hf hu)
  · exact not_macAddressMissing (.inl nofun)

/-- Settles O59: the cases of `selectMac`, and OPEN to its end by way of its wait. -/
theorem macAddressSelection : Obligations.MacAddressSelection := by
  refine ⟨fun valid override stored fallback chip => ⟨fun m ho hm => ?_, fun ho => ⟨fun m hs hm => ?_, fun hs => ⟨fun hc => ?_,
    fun hc => ⟨fun m hf => ?_, fun hf => ?_⟩⟩⟩⟩, fun s t hf h => ?_⟩
  · rw [selectMac, validMac_of_valid ho hm]
  · rw [selectMac, validMac_of_invalid ho, validMac_of_valid hs hm]
    simp [bne, beq_eq_decide, decide_not]
  · rw [selectMac, validMac_of_invalid ho, validMac_of_invalid hs, if_pos hc]
  · rw [selectMac, validMac_of_invalid ho, validMac_of_invalid hs, hc, hf]
    rfl
  · rw [selectMac, validMac_of_invalid ho, validMac_of_invalid hs, hc, hf]
    rfl
  · rcases h with h | ⟨hp, h⟩
    · exact exec_openOp_not_macAddressMissing hf h
    · exact step_openWait_not_macAddressMissing hf hp h

end Sys2Proof.Machine
end

section
/-! PROOFS. The registers that neither an agent nor a run of the interrupt context writes, whatever happens in a gap (spec/20_memory.md
R101, spec/60_exceptions.md R333 to R335): RCR, CONFIG, CTL, INT_MASK and MACADDR; the hold flag of R332 beside them. -/

namespace Sys2Proof.Machine

variable {s t : State} {x y : Handling} {n : IrqPos} {r : Reg} {w : Nat} {v : Word}

/-! ## What a run of the interrupt context leaves alone -/

/-- What neither the agents nor the interrupt context write. -/
structure Settings where
  rcr : Word
  config : Word
  ctl : Word
  intMask : Byte
  mac : Mac
  hold : Bool

def State.settings (s : State) : Settings where
  rcr := s.chip.rcr
  config := s.chip.config
  ctl := s.chip.ctl
  intMask := s.chip.intMask
  mac := s.chip.mac
  hold := s.irq.hold

@[simp] theorem State.note_settings (a : Access) (s : State) : (s.note a).settings = s.settings := rfl
@[simp] theorem State.irqAt_settings (p : IrqPos) (s : State) : (s.irqAt p).settings = s.settings := rfl

@[simp] theorem readReg_settings (r : Reg) (s : State) : (readReg r s).2.settings = s.settings := by
  obtain ⟨k, hk⟩ := readReg_state r s
  rw [hk]
  rfl

@[simp] theorem mmuEffect_settings (k : MmuCode) (s : State) :
    (s.setChip (mmuEffect k s.params s.chip)).settings = s.settings := by
  cases k <;> rfl

theorem State.KeptByAgents.settings (h : s.KeptByAgents t) : t.settings = s.settings := by
  simp only [State.settings, h.rcr, h.config, h.ctl, h.intMask, h.mac, h.hold]

@[simp] theorem handlerGap_settings (x : Handling) : (handlerGap x).1.settings = x.1.settings := by
  unfold handlerGap
  split
  · rfl
  · exact (agentSteps_kept _ _).settings

@[simp] theorem handlerRead_settings (n : IrqPos) (r : Reg) (w : Nat) (x : Handling) :
    (handlerRead n r w x).2.1.settings = x.1.settings := by
  simp [handlerRead]

theorem handlerKeep_settings {keep : Word → IrqCtx → IrqCtx} (hk : ∀ v q, (keep v q).hold = q.hold) (x : Handling) :
    (handlerKeep n r w keep x).1.settings = x.1.settings := by
  refine (handlerGap_settings _).trans (Eq.trans ?_ (readReg_settings r x.1))
  exact congrArg (fun b => { (readReg r x.1).2.settings with hold := b }) (hk _ _)

/-- The registers a handler writes are none of them. -/
@[simp] theorem handlerWrite_settings (n : IrqPos) (w : Nat) (v : Word) (x : Handling) (hr : r ∈ [.bsr, .tcr, .pnr, .intAck]) :
    (handlerWrite n r w v x).1.settings = x.1.settings := by
  refine (handlerGap_settings _).trans ?_
  simp only [List.mem_cons, List.not_mem_nil, or_false] at hr
  rcases hr with rfl | rfl | rfl | rfl <;> rfl

@[simp] theorem handlerWritePtr_settings (n : IrqPos) (v : Word) (x : Handling) :
    (handlerWritePtr n v x).1.settings = x.1.settings :=
  handlerGap_settings _

@[simp] theorem handlerDelay_settings (n : IrqPos) (d : Nat) (x : Handling) :
    (handlerDelay n d x).1.settings = x.1.settings :=
  handlerGap_settings _

@[simp] theorem handlerGoto_settings (n : IrqPos) (x : Handling) : (handlerGoto n x).1.settings = x.1.settings := rfl

@[simp] theorem handlerAck_settings (n : IrqPos) (x : Handling) : (handlerAck n x).1.settings = x.1.settings := by
  simp [handlerAck]

@[simp] theorem handlerReenable_settings (n : IrqPos) (x : Handling) : (handlerReenable n x).1.settings = x.1.settings := by
  simp [handlerReenable]

@[simp] theorem irqEnter_settings (touch : Bool) (x : Handling) : (irqEnter touch x).1.settings = x.1.settings := by
  unfold irqEnter
  cases touch <;> simp [handlerKeep_settings]

@[simp] theorem irqExit_settings (touch : Bool) (x : Handling) : (irqExit touch x).1.settings = x.1.settings := by
  unfold irqExit
  cases touch <;> simp

@[simp] theorem handlerWait_settings (exit : IrqPos) (fuel : Nat) : ∀ (k : Nat) (x : Handling),
    (reached (handlerWait exit fuel k x)).settings = x.1.settings := by
  induction fuel with
  | zero => exact fun _ _ => rfl
  | succ fuel ih =>
    intro k x
    unfold handlerWait
    dsimp only
    split <;> simp [ih]

@[simp] theorem handlerFree_settings (exit : IrqPos) (p : Pkt) (x : Handling) :
    (reached (handlerFree exit p x)).settings = x.1.settings := by
  unfold handlerFree
  dsimp only
  split <;> simp

@[simp] theorem handlerRepair_settings (exit : IrqPos) (h : HandlerRun) (x : Handling) :
    (reached (handlerRepair exit h x)).settings = x.1.settings := by
  have hre (n : IrqPos) : (if h.reenable then handlerReenable n x else x).1.settings = x.1.settings := by
    split <;> simp
  unfold handlerRepair
  split
  · exact hre exit
  · exact (handlerFree_settings ..).trans (hre _)

@[simp] theorem txErrBody_settings (exit : IrqPos) (h : HandlerRun) (x : Handling) :
    (reached (txErrBody exit h x)).settings = x.1.settings := by
  unfold txErrBody
  dsimp only
  split <;> split <;> simp

theorem runHandler_settings {h : HandlerRun} (he : runHandler h s = some (.ok t)) : t.settings = s.settings := by
  have hb := txErrBody_settings (irqExitPos h.touches) h (irqEnter h.touches (s.irqAt (.save 1), h.gaps))
  unfold runHandler at he
  split at he
  · split at he
    · cases he
    · rename_i y hy
      obtain rfl := Except.ok.inj (Option.some.inj he)
      rw [hy, reached_ok] at hb
      exact (irqExit_settings ..).trans (hb.trans (irqEnter_settings ..))
  · cases he

/-! ## Gaps -/

theorem eventStep_settings (e : Event) (s : State) : (eventStep e s).settings = s.settings := by
  cases e with
  | agent e => exact (agentStep_kept e s).settings
  | irq h =>
    unfold eventStep
    dsimp only
    split
    · rfl
    · rename_i he; exact runHandler_settings he
    · unfold State.noteHang
      split <;> rfl

theorem eventSteps_settings (es : List Event) : ∀ s : State, (eventSteps es s).settings = s.settings := by
  induction es with
  | nil => exact fun _ => rfl
  | cons e es ih => exact fun s => (ih _).trans (eventStep_settings e s)

@[simp] theorem gap_settings (s : State) : (gap s).settings = s.settings := by
  unfold gap
  split
  · rfl
  · exact eventSteps_settings _ _

/-! ## What the foreground finds again behind an access -/

/-- The registers and the memory that the foreground finds behind a gap as it left them, with the selection and the flag of R332. -/
structure Controls extends Settings where
  bank : BitVec 2
  pnr : Byte
  ptr : Word
  hostMem : Memory

def State.controls (s : State) : Controls where
  toSettings := s.settings
  bank := s.chip.bank
  pnr := s.chip.pnr
  ptr := s.chip.ptr
  hostMem := s.hostMem

@[simp] theorem setEng_controls (e : Engine) (s : State) : (s.setEng e).controls = s.controls := rfl
@[simp] theorem advance_controls (n : Next) (s : State) : (s.advance n).controls = s.controls := rfl
@[simp] theorem begin_controls (i : Instr) (s : State) : (s.begin i).controls = s.controls := rfl
@[simp] theorem call_controls (i : Instr) (back : Next) (s : State) : (s.call i back).controls = s.controls := rfl
@[simp] theorem setLife_controls (l : Life) (s : State) : (s.setLife l).controls = s.controls := rfl
@[simp] theorem finishWith_controls (o : OpResult) (s : State) : (s.finishWith o).controls = s.controls := rfl
@[simp] theorem finish_controls (c : Condition) (a : Int) (s : State) : (s.finish c a).controls = s.controls := rfl

@[simp] theorem gap_controls (s : State) : (gap s).controls = s.controls := by
  simp only [State.controls, gap_settings, gap_bank, gap_pnr, gap_ptr, gap_hostMem]

@[simp] theorem rd_controls (n : Next) (r : Reg) (w : Nat) (s : State) : (rd n r w s).2.controls = s.controls := by
  obtain ⟨k, hk⟩ := readReg_state r s
  rw [rd_eq, gap_controls, hk]
  rfl

/-- A write leaves of them what its effect leaves. -/
theorem wr_controls (n : Next) (r : Reg) (w : Nat) (v : Word) (s : State) :
    (wr n r w v s).controls = (setReg r v s).controls := gap_controls _

@[simp] theorem wr_params (n : Next) (r : Reg) (w : Nat) (v : Word) (s : State) : (wr n r w v s).params = s.params :=
  params_of_steady (wr_steady n r w v s)

@[simp] theorem rd_params (n : Next) (r : Reg) (w : Nat) (s : State) : (rd n r w s).2.params = s.params :=
  params_of_steady (rd_steady n r w s)

@[simp] theorem wrBank_params (n : Next) (b : BitVec 2) (s : State) : (wrBank n b s).params = s.params := wr_params ..

@[simp] theorem wrBank_controls (n : Next) (b : BitVec 2) (s : State) :
    (wrBank n b s).controls = { s.controls with bank := b } := by
  rw [wrBank, wr_controls, setReg_bsr, bankOf_bankWord]
  rfl

@[simp] theorem wr_tcr_controls (n : Next) (w : Nat) (v : Word) (s : State) : (wr n .tcr w v s).controls = s.controls :=
  wr_controls ..

theorem wr_rcr_controls (n : Next) (w : Nat) (h : has v (softRst s.params) = false) :
    (wr n .rcr w v s).controls = { s.controls with rcr := v } := by
  rw [wr_controls, setReg_rcr v s h]
  rfl

theorem wr_config_controls (n : Next) (w : Nat) (h : has v (powerEn s.params) = false) :
    (wr n .config w v s).controls = { s.controls with config := v } := by
  rw [wr_controls, setReg_config v s (.inl h)]
  rfl

@[simp] theorem wr_intMask_controls (n : Next) (w : Nat) (v : Word) (s : State) :
    (wr n .intMask w v s).controls = { s.controls with intMask := lowByte v } :=
  wr_controls ..

end Sys2Proof.Machine
end

section
/-! PROOFS. ENABLE, SHUTDOWN and CLOSE (spec/46_lifecycle.md R303, R304, R307, R311): what they leave on every schedule, and that
nothing sets TXEN again once INT_MASK is 0, because no handler starts then. -/

namespace Sys2Proof.Machine

variable {s t : State} {n m : Next} {r : Reg} {k w : Nat} {v bits : Word} {c d : Chip} {e : Engine} {q : Config.Params}

theorem wrBank_leads (n : Next) (b : BitVec 2) (h : s.RestsFor 1) : s.Leads { s.chip with bank := b } s.eng 1 (wrBank n b s) :=
  (wr_leads n .bsr 2 (setReg_bsr (bankWord s.params b) s) h).congr (by rw [bankOf_bankWord]) rfl

/-- An operation that leaves the flag of R332 alone leaves the interrupt context alone with the agents at rest. -/
theorem State.Leads.irq_eq (h : s.Leads c e k t) (hold : t.irq.hold = s.irq.hold) : t.irq = s.irq := by
  rw [h.irq, hold]

theorem State.Leads.setLife (h : s.Leads c e k t) (l : Life) : s.Leads c { e with life := l } k (t.setLife l) :=
  { h with eng := congrArg (fun x : Engine => { x with life := l }) h.eng }

/-! ## ENABLE (R303) -/

theorem has_rcrDefault_softRst (q : Config.Params) : has (rcrDefault q) (softRst q) = false := has_without_self _ _

theorem has_rcrDefault_rxen (h : bitsOk q.bits) : has (rcrDefault q) (rxen q) = true := by
  have hne := Fin.val_ne_of_ne h.1
  rw [rxen, has_bit]
  simp [rcrDefault, rxen, softRst, getLsbD_without, getLsbD_bit, hne]

/-- The registers it leaves, whatever happens in its gaps. -/
theorem enableRun_controls (s : State) : (enableRun s).controls =
    { s.controls with bank := s.params.regs.pb, rcr := rcrDefault s.params, intMask := s.params.driverIntSet } := by
  simp only [enableRun, setLife_controls, wr_intMask_controls, wrBank_controls, lowByte_setWidth]
  rw [wr_rcr_controls _ _ (by simpa using has_rcrDefault_softRst s.params), wr_tcr_controls, wrBank_controls]

/-- The chip unit behind ENABLE. -/
def Chip.enabled (q : Config.Params) (c : Chip) : Chip :=
  { c with bank := q.regs.pb, tcr := tcrDefault q, rcr := rcrDefault q, intMask := q.driverIntSet }

theorem enableRun_leads (h : s.RestsFor 5) :
    s.Leads (s.chip.enabled s.params) { s.eng with life := .enabled } 5 (enableRun s) := by
  have hcb := wrBank_leads (.to 1 2) s.params.regs.cb (h.mono (by omega))
  have htcr := hcb.keeps (wr_leads (.to 1 3) .tcr 2 (setReg_tcr (tcrDefault s.params) _) (hcb.rests h (by omega))) rfl
  have hrcr := htcr.keeps (wr_leads (.to 2) .rcr 2
    (setReg_rcr (rcrDefault s.params) _ (by simpa using has_rcrDefault_softRst s.params)) (htcr.rests h (by omega))) rfl
  have hpb := hrcr.keeps (wrBank_leads (.to 2 2) s.params.regs.pb (hrcr.rests h (by omega))) rfl
  have hmask := hpb.keeps (wr_leads .ret .intMask 1 (setReg_intMask (s.params.driverIntSet.setWidth 16) _)
    (hpb.rests h (by omega))) rfl
  refine (hmask.congr ?_ rfl).setLife .enabled
  rw [hpb.chip, hrcr.chip, htcr.chip, hcb.chip, lowByte_setWidth]
  rfl

/-! ## No handler starts while INT_MASK is 0 (R326, R330) -/

theorem runHandler_of_masked (h : HandlerRun) (hm : s.chip.intMask = 0) : runHandler h s = none := by
  simp [runHandler, canInterrupt, Chip.lineAsserted, hm, has]

theorem eventStep_kept_of_masked (a : Event) (hm : s.chip.intMask = 0) : s.KeptByAgents (eventStep a s) := by
  cases a with
  | agent a => exact agentStep_kept a s
  | irq h => rw [eventStep, runHandler_of_masked h hm]; exact .refl s

theorem eventSteps_kept_of_masked (es : List Event) : ∀ s : State, s.chip.intMask = 0 → s.KeptByAgents (eventSteps es s) := by
  induction es with
  | nil => exact fun s _ => .refl s
  | cons a es ih =>
    intro s hm
    have h := eventStep_kept_of_masked a hm
    exact h.trans (ih _ (h.intMask.trans hm))

/-- A gap is the agents' alone then. -/
theorem gap_kept_of_masked (hm : s.chip.intMask = 0) : s.KeptByAgents (gap s) := by
  cases h : s.env.tape with
  | nil => rw [gap_quiet h]; exact .refl s
  | cons g rest =>
    rw [gap_cons h]
    exact keptByAgents_env rfl (eventSteps_kept_of_masked _ _ hm)

/-- The interrupts are masked and the transmitter is off. -/
structure State.TxOff (s : State) : Prop where
  masked : s.chip.intMask = 0
  off : has s.chip.tcr (txen s.params) = false

namespace State.TxOff

/-- Agents clear TXEN, they do not set it (R214). -/
theorem gap (h : s.TxOff) : (Machine.gap s).TxOff where
  masked := (gap_kept_of_masked h.masked).intMask.trans h.masked
  off := by
    rw [gap_params]
    rcases (gap_kept_of_masked h.masked).tcr with ht | ht <;> rw [ht]
    · exact h.off
    · exact has_without_self _ _

theorem rd (h : s.TxOff) : (Machine.rd n r w s).2.TxOff := by
  obtain ⟨j, hj⟩ := readReg_state r s
  rw [rd_eq, hj]
  exact gap ⟨h.masked, h.off⟩

/-- A write whose effect on the chip unit is neither on INT_MASK nor on TCR. -/
theorem wr (h : s.TxOff) (hw : setReg r v s = s.setChip c) (hi : c.intMask = s.chip.intMask) (ht : c.tcr = s.chip.tcr) :
    (Machine.wr n r w v s).TxOff := by
  rw [wr_eq, hw]
  exact gap ⟨hi.trans h.masked, (congrArg (has · _) ht).trans h.off⟩

end State.TxOff

/-! ## SHUTDOWN (R304) -/

/-- SHUTDOWN behind its first access, its third, its fifth and its seventh: with the interrupts masked, the transmitter off, and the
receiver off. -/
def masked (s : State) : State := wr (.to 2) .intMask 1 0#16 (wrBank (.to 1 2) s.params.regs.pb s)

def txStopped (s : State) : State :=
  clearBits (.to 2 3) (.to 2 4) .tcr (txen s.params) (wrBank (.to 2 2) s.params.regs.cb (masked s))

def rxStopped (s : State) : State := clearBits (.to 2 5) (.to 3) .rcr (rxen s.params) (txStopped s)

/-- Behind step 3 of a machine that switches the power. -/
def poweredDown (s : State) : State :=
  clearBits (.to 3 3) .ret .config (powerEn s.params) (wrBank (.to 3 2) s.params.regs.gb (rxStopped s))

theorem shutdownRun_eq (s : State) : shutdownRun s =
    if s.params.usePower then (poweredDown s).setLife .powerDown else ((rxStopped s).advance .ret).setLife .disabled := rfl

@[simp] theorem clearBits_params (n m : Next) (r : Reg) (bits : Word) (s : State) : (clearBits n m r bits s).params = s.params := by
  simp [clearBits]

@[simp] theorem masked_params (s : State) : (masked s).params = s.params := by simp [masked]
@[simp] theorem txStopped_params (s : State) : (txStopped s).params = s.params := by simp [txStopped]
@[simp] theorem rxStopped_params (s : State) : (rxStopped s).params = s.params := by simp [rxStopped]

@[simp] theorem clearBits_tcr_controls (n m : Next) (bits : Word) (s : State) :
    (clearBits n m .tcr bits s).controls = s.controls := by
  simp [clearBits]

theorem has_without_of_clear {n : Nat} {w b : BitVec n} (m : BitVec n) (h : has w b = false) : has (without w m) b = false := by
  simp only [has, without, bne_eq_false_iff_eq] at h ⊢
  rw [BitVec.and_assoc, BitVec.and_comm (~~~m), ← BitVec.and_assoc, h, BitVec.zero_and]

theorem clearBits_rcr_controls (n m : Next) (bits : Word) (h : has s.controls.rcr (softRst s.params) = false) :
    (clearBits n m .rcr bits s).controls = { s.controls with rcr := without s.controls.rcr bits } := by
  rw [clearBits, wr_rcr_controls _ _ (by rw [rd_params]; exact has_without_of_clear bits h), rd_controls]
  rfl

theorem clearBits_config_controls (n m : Next) (s : State) :
    (clearBits n m .config (powerEn s.params) s).controls =
      { s.controls with config := without s.controls.config (powerEn s.params) } := by
  rw [clearBits, wr_config_controls _ _ (by rw [rd_params]; exact has_without_self _ _), rd_controls]
  rfl

@[simp] theorem masked_controls (s : State) :
    (masked s).controls = { s.controls with bank := s.params.regs.pb, intMask := 0 } := by
  simp [masked]
  rfl

@[simp] theorem txStopped_controls (s : State) :
    (txStopped s).controls = { s.controls with bank := s.params.regs.cb, intMask := 0 } := by
  simp [txStopped]

theorem rxStopped_controls (h : has s.chip.rcr (softRst s.params) = false) : (rxStopped s).controls =
    { s.controls with bank := s.params.regs.cb, intMask := 0, rcr := without s.chip.rcr (rxen s.params) } := by
  rw [rxStopped, clearBits_rcr_controls _ _ _ (by rw [txStopped_controls, txStopped_params]; exact h), txStopped_controls]
  rfl

/-- The registers behind SHUTDOWN. -/
def Controls.shutDown (q : Config.Params) (x : Controls) : Controls :=
  { x with
    bank := if q.usePower then q.regs.gb else q.regs.cb
    intMask := 0
    rcr := without x.rcr (rxen q)
    config := if q.usePower then without x.config (powerEn q) else x.config }

theorem shutdownRun_controls (h : has s.chip.rcr (softRst s.params) = false) :
    (shutdownRun s).controls = s.controls.shutDown s.params := by
  have hrx := rxStopped_controls h
  rw [shutdownRun_eq, Controls.shutDown]
  split
  · have hpower := clearBits_config_controls (.to 3 3) .ret (wrBank (.to 3 2) s.params.regs.gb (rxStopped s))
    rw [wrBank_params, rxStopped_params, wrBank_controls, hrx] at hpower
    exact hpower
  · exact hrx

@[simp] theorem wr_hostMem (n : Next) (r : Reg) (w : Nat) (v : Word) (s : State) : (wr n r w v s).hostMem = s.hostMem := by
  simp [wr_eq]

@[simp] theorem rd_hostMem (n : Next) (r : Reg) (w : Nat) (s : State) : (rd n r w s).2.hostMem = s.hostMem :=
  congrArg Controls.hostMem (rd_controls n r w s)

theorem shutdownRun_hostMem (s : State) : (shutdownRun s).hostMem = s.hostMem := by
  rw [shutdownRun_eq]
  split <;> simp [poweredDown, rxStopped, txStopped, masked, clearBits, wrBank]

/-! ### The transmitter -/

theorem State.TxOff.wrBank (h : s.TxOff) {b : BitVec 2} : (Machine.wrBank n b s).TxOff := h.wr (setReg_bsr _ _) rfl rfl

theorem txStopped_txOff (s : State) : (txStopped s).TxOff := by
  have hm : (rd (.to 2 3) .tcr 2 (wrBank (.to 2 2) s.params.regs.cb (masked s))).2.controls.intMask = 0 := by simp
  exact State.TxOff.gap (s := ((setReg .tcr _ (rd (.to 2 3) .tcr 2 _).2).note _).advance _)
    ⟨hm, by simp [setReg_tcr, has_without_self]⟩

theorem State.TxOff.clearBits_rcr (h : s.TxOff) (hc : has s.chip.rcr (softRst s.params) = false) :
    (clearBits n m .rcr bits s).TxOff :=
  h.rd.wr (setReg_rcr _ _ (by rw [rd_params]; exact has_without_of_clear bits hc)) rfl rfl

theorem State.TxOff.clearBits_config (h : s.TxOff) : (clearBits n m .config (powerEn s.params) s).TxOff :=
  h.rd.wr (setReg_config _ _ (.inl (by rw [rd_params]; exact has_without_self _ _))) rfl rfl

theorem rxStopped_txOff (h : has s.chip.rcr (softRst s.params) = false) : (rxStopped s).TxOff := by
  have hrcr : (txStopped s).chip.rcr = s.chip.rcr := congrArg (fun x : Controls => x.rcr) (txStopped_controls s)
  exact (txStopped_txOff s).clearBits_rcr (by rw [hrcr, txStopped_params, h])

theorem shutdownRun_txOff (h : has s.chip.rcr (softRst s.params) = false) : (shutdownRun s).TxOff := by
  have hrx := rxStopped_txOff h
  rw [shutdownRun_eq]
  split
  · have hpower := (hrx.wrBank (n := .to 3 2) (b := s.params.regs.gb)).clearBits_config (n := .to 3 3) (m := .ret)
    rw [wrBank_params, rxStopped_params] at hpower
    exact ⟨hpower.masked, hpower.off⟩
  · exact ⟨hrx.masked, hrx.off⟩

/-! ### With the agents at rest -/

theorem clearBits_tcr_leads (n m : Next) (bits : Word) (h : s.RestsFor 2) :
    s.Leads { s.chip with tcr := without s.chip.tcr bits } s.eng 2 (clearBits n m .tcr bits s) := by
  have hrd := rd_leads n .tcr 2 (h.mono (by omega))
  refine (hrd.keeps (wr_leads m .tcr 2 (setReg_tcr _ _) (hrd.rests h (by omega))) rfl).congr ?_ rfl
  rw [hrd.chip]
  rfl

theorem clearBits_rcr_leads (n m : Next) (bits : Word) (hc : has s.chip.rcr (softRst s.params) = false) (h : s.RestsFor 2) :
    s.Leads { s.chip with rcr := without s.chip.rcr bits } s.eng 2 (clearBits n m .rcr bits s) := by
  have hrd := rd_leads n .rcr 2 (h.mono (by omega))
  have hw := setReg_rcr (without s.chip.rcr bits) (rd n .rcr 2 s).2 (by rw [rd_params]; exact has_without_of_clear bits hc)
  refine (hrd.keeps (wr_leads m .rcr 2 hw (hrd.rests h (by omega))) rfl).congr ?_ rfl
  rw [hrd.chip]
  rfl

theorem clearBits_config_leads (n m : Next) (h : s.RestsFor 2) :
    s.Leads { s.chip with config := without s.chip.config (powerEn s.params) } s.eng 2
      (clearBits n m .config (powerEn s.params) s) := by
  have hrd := rd_leads n .config 2 (h.mono (by omega))
  have hw := setReg_config (without s.chip.config (powerEn s.params)) (rd n .config 2 s).2
    (.inl (by rw [rd_params]; exact has_without_self _ _))
  refine (hrd.keeps (wr_leads m .config 2 hw (hrd.rests h (by omega))) rfl).congr ?_ rfl
  rw [hrd.chip]
  rfl

/-- The chip unit behind step 2, and behind the operation. -/
def Chip.stopped (q : Config.Params) (c : Chip) : Chip :=
  { c with bank := q.regs.cb, intMask := 0, tcr := without c.tcr (txen q), rcr := without c.rcr (rxen q) }

def Chip.shutDown (q : Config.Params) (c : Chip) : Chip :=
  if q.usePower then { c.stopped q with bank := q.regs.gb, config := without c.config (powerEn q) } else c.stopped q

/-- What it leaves alone. -/
theorem Chip.shutDown_frame (q : Config.Params) (c : Chip) : c.shutDown q = { c with
    intMask := 0, tcr := c.tcr &&& ~~~txen q, rcr := (c.shutDown q).rcr, config := (c.shutDown q).config,
    bank := (c.shutDown q).bank } := by
  unfold Chip.shutDown
  split <;> rfl

theorem txStopped_leads (h : s.RestsFor 5) :
    s.Leads { s.chip with bank := s.params.regs.cb, intMask := 0, tcr := without s.chip.tcr (txen s.params) } s.eng 5
      (txStopped s) := by
  have hpb := wrBank_leads (.to 1 2) s.params.regs.pb (h.mono (by omega))
  have hmask := hpb.keeps (wr_leads (.to 2) .intMask 1 (setReg_intMask 0#16 _) (hpb.rests h (by omega))) rfl
  have hcb := hmask.keeps (wrBank_leads (.to 2 2) s.params.regs.cb (hmask.rests h (by omega))) rfl
  refine (hcb.keeps (clearBits_tcr_leads (.to 2 3) (.to 2 4) (txen s.params) (hcb.rests h (by omega))) rfl).congr ?_ rfl
  rw [hcb.chip, hmask.chip, hpb.chip]
  rfl

theorem rxStopped_leads (hc : has s.chip.rcr (softRst s.params) = false) (h : s.RestsFor 7) :
    s.Leads (s.chip.stopped s.params) s.eng 7 (rxStopped s) := by
  have htx := txStopped_leads (h.mono (by omega))
  have hrx := htx.keeps (clearBits_rcr_leads (.to 2 5) (.to 3) (rxen s.params)
    (by rw [htx.chip, htx.params]; exact hc) (htx.rests h (by omega))) rfl
  exact hrx.congr (by rw [htx.chip]; rfl) rfl

theorem shutdownRun_leads (hc : has s.chip.rcr (softRst s.params) = false) (hq : s.Quiet) :
    ∃ l, s.Leads (s.chip.shutDown s.params) { s.eng with life := l } 0 (shutdownRun s) := by
  have hrx := (rxStopped_leads hc (restsFor_of_quiet hq 7)).of_quiet hq
  rw [shutdownRun_eq, Chip.shutDown]
  split
  · have hgb := hrx.keeps (wrBank_leads (.to 3 2) s.params.regs.gb (restsFor_of_quiet (hrx.quiet hq) 1)) rfl
    have hpower := hgb.keeps (clearBits_config_leads (.to 3 3) .ret (restsFor_of_quiet (hgb.quiet hq) 2)) rfl
    rw [wrBank_params, rxStopped_params] at hpower
    exact ⟨.powerDown, ((hpower.congr (by rw [hgb.chip, hrx.chip]; rfl) rfl).of_quiet hq).setLife .powerDown⟩
  · exact ⟨.disabled, ((hrx.keeps (leads_advance .ret _) rfl).congr hrx.chip rfl).setLife .disabled⟩

/-! ## The obligation -/

/-- What SHUTDOWN leaves, called by CLOSE or by itself: `u` is the state it starts in. -/
theorem shutdown_leaves {u : State} (hu : s.Leads s.chip s.eng 0 u) (hc : u.controls = s.controls)
    (h : has s.chip.rcr (softRst s.params) = false) :
    (shutdownRun u).controls = s.controls.shutDown s.params ∧ (shutdownRun u).TxOff ∧
      (s.Quiet → (shutdownRun u).chip = s.chip.shutDown s.params ∧ (shutdownRun u).phy = s.phy ∧
        (shutdownRun u).irq = s.irq) := by
  have hrst : has u.chip.rcr (softRst u.params) = false := by rw [hu.chip, hu.params, h]
  have hcontrols := shutdownRun_controls hrst
  rw [hc, hu.params] at hcontrols
  refine ⟨hcontrols, shutdownRun_txOff hrst, fun hq => ?_⟩
  obtain ⟨l, hleads⟩ := shutdownRun_leads hrst (hu.quiet hq)
  have hs := hu.trans hleads rfl
  refine ⟨by rw [hs.chip, hu.chip, hu.params], hs.phy, hs.irq_eq (congrArg (fun x : Controls => x.hold) hcontrols)⟩

/-- The arrow of R307 that SHUTDOWN takes. -/
theorem shutdownRun_life (s : State) :
    (shutdownRun s).eng.life = if s.params.usePower then .powerDown else .disabled := by
  rw [shutdownRun_eq]
  split <;> rfl

/-- SHUTDOWN itself, and called by CLOSE. -/
theorem exec_shutdown_or_close {i : Instr} (hi : i = .shutdown ∨ i = .closeOp) (s : State) :
    ∃ u, exec i s = .next ((shutdownRun u).finish .ok 0) ∧ s.Leads s.chip s.eng 0 u ∧ u.controls = s.controls := by
  rcases hi with rfl | rfl
  · exact ⟨_, rfl, leads_begin .shutdown s, rfl⟩
  · exact ⟨_, rfl, (leads_begin .closeOp s).keeps (leads_call .shutdown (.to 2) _) rfl, rfl⟩

/-- Settles O56: the registers on every schedule are those of `State.controls`, the rest is where the parts lead at rest. -/
theorem enableAndShutdown : Obligations.EnableAndShutdown := by
  refine ⟨fun s => ?_, fun i s hi => ?_⟩
  · have hc := enableRun_controls (s.begin .enable)
    refine ⟨(enableRun (s.begin .enable)).finish .ok 0, rfl, ⟨rfl, rfl⟩, rfl, congrArg Controls.bank hc, fun hb => ?_, ?_,
      congrArg (fun x : Controls => x.intMask) hc, congrArg Controls.pnr hc, congrArg Controls.ptr hc,
      congrArg Controls.hostMem hc, fun hq => ?_⟩
    · exact (congrArg (fun x : Controls => has x.rcr _) hc).trans (has_rcrDefault_rxen hb)
    · exact (congrArg (fun x : Controls => has x.rcr _) hc).trans (has_rcrDefault_softRst _)
    · have h := enableRun_leads (s := s.begin .enable) (restsFor_of_quiet hq 5)
      exact ⟨h.chip, h.phy, h.irq_eq (congrArg (fun x : Controls => x.hold) hc)⟩
  · obtain ⟨u, hx, hu, hc⟩ := exec_shutdown_or_close hi s
    refine ⟨_, hx, ⟨rfl, rfl⟩, (shutdownRun_hostMem u).trans hu.hostMem, ?_, fun h => ?_⟩
    · rw [← hu.params]
      exact shutdownRun_life u
    · obtain ⟨hcontrols, htx, hq⟩ := shutdown_leaves hu hc h
      have hp : (shutdownRun u).params = s.params :=
        (params_of_steady (shutdownRun_steady u)).trans hu.params
      refine ⟨htx.masked, hp ▸ htx.off, congrArg (fun x : Controls => x.rcr) hcontrols,
        congrArg (fun x : Controls => x.ctl) hcontrols, congrArg Controls.pnr hcontrols, congrArg Controls.ptr hcontrols,
        congrArg Controls.bank hcontrols, congrArg (fun x : Controls => x.config) hcontrols, fun hquiet => ?_⟩
      obtain ⟨hchip, hphy, hirq⟩ := hq hquiet
      refine ⟨?_, hphy, hirq⟩
      rw [State.finish_chip, hchip]
      exact Chip.shutDown_frame s.params s.chip

end Sys2Proof.Machine
end

section
/-! PROOFS. The gaps RESET takes, and its end with an MMU agent that completes the command (spec/46_lifecycle.md R300,
spec/20_memory.md R101, log 2). -/

namespace Sys2Proof.Machine

variable {s t : State} {n m : Next} {r : Reg} {j k w : Nat} {v bits : Word} {f g : State → State}

/-! ## How far a part of an operation moves the tape on -/

/-- A part that takes `k` gaps of the tape, as far as nothing happens in them. -/
def Takes (k : Nat) (f : State → State) : Prop := ∀ s : State, s.RestsFor k → (f s).env.tape = s.env.tape.drop k

theorem Takes.comp (hg : Takes k g) (hf : Takes j f) : Takes (j + k) (fun s => g (f s)) := fun s h => by
  have ht := hf s (h.mono (by omega))
  rw [hg _ (h.drop ht), ht, List.drop_drop]

/-- A gap behind what leaves the tape alone. -/
theorem takes_gap (hf : ∀ s, (f s).env.tape = s.env.tape) : Takes 1 (fun s => gap (f s)) := fun s h => by
  have hr : (f s).RestsFor 1 := by rwa [State.RestsFor, hf s]
  exact (congrArg (fun t : State => t.env.tape) (gap_of_restsFor hr)).trans (congrArg (List.drop 1) (hf s))

theorem Takes.quiet (hf : Takes k f) (hq : s.Quiet) : (f s).Quiet := by
  rw [State.Quiet, hf s (restsFor_of_quiet hq k), show s.env.tape = [] from hq, List.drop_nil]

theorem takes_wr (n : Next) (r : Reg) (w : Nat) (v : Word) : Takes 1 (wr n r w v) :=
  takes_gap (f := fun s => ((setReg r v s).note _).advance n) (setReg_tape r v)

theorem takes_rd (n : Next) (r : Reg) (w : Nat) : Takes 1 (fun s => (rd n r w s).2) :=
  takes_gap (f := fun s => ((readReg r s).2.note _).advance n) (readReg_tape r)

theorem takes_wrBank (n : Next) (b : BitVec 2) : Takes 1 (wrBank n b) := fun s => takes_wr n .bsr 2 (bankWord s.params b) s

theorem takes_wrBankHold (n : Next) (b : BitVec 2) : Takes 1 (wrBankHold n b) := fun s => takes_wrBank n b (s.setHold true)

theorem takes_setBits (n m : Next) (r : Reg) (bits : Word) : Takes 2 (setBits n m r bits) := fun s =>
  (takes_wr m r 2 ((rd n r 2 s).1 ||| bits)).comp (takes_rd n r 2) s

/-! ## RESET up to its MMU_RESET -/

/-- The gaps of steps 1 to 3. -/
def configGaps (p : Config.Params) : Nat := if p.usePower then 6 else 4

theorem resetConfig_tape (h : s.RestsFor (configGaps s.params)) :
    (resetConfig s).env.tape = s.env.tape.drop (configGaps s.params) := by
  have hfour := ((takes_wr (.to 3) .config 2 s.params.configDefault).comp (takes_wrBank (.to 2 2) s.params.regs.gb)).comp
    ((takes_wr (.to 2) .rcr 2 (softRst s.params)).comp (takes_wrBank (.to 1 2) s.params.regs.cb))
  unfold configGaps resetConfig at *
  dsimp only
  cases hp : s.params.usePower with
  | false => rw [hp] at h; exact hfour s h
  | true => rw [hp] at h; exact (takes_setBits (.to 3 2) (.to 4) .config (powerEn s.params)).comp hfour s h

theorem takes_resetControl : Takes 6 resetControl := fun s =>
  ((takes_setBits (.to 5 3) (.to 6) .ctl (autoRelease s.params)).comp (takes_wrBank (.to 5 2) s.params.regs.gb)).comp
    ((takes_wr (.to 5) .tcr 2 0#16).comp ((takes_wr (.to 4 3) .rcr 2 0#16).comp (takes_wrBank (.to 4 2) s.params.regs.cb))) s

/-- RESET where it writes MMU_RESET. -/
def resetPosted (s : State) : State := wrBankHold (.to 6 2) s.params.regs.pb (resetControl (resetConfig s))

theorem resetHead_eq (s : State) : resetHead s = wrMmuReset (.to 6 3) (resetPosted s) := rfl

theorem resetPosted_tape (h : s.RestsFor (configGaps s.params + 7)) :
    (resetPosted s).env.tape = s.env.tape.drop (configGaps s.params + 7) := by
  have hc := resetConfig_tape (h.mono (by omega))
  have hp := (takes_wrBankHold (.to 6 2) s.params.regs.pb).comp takes_resetControl (resetConfig s) (h.drop hc)
  rw [hc, List.drop_drop] at hp
  exact hp

@[simp] theorem resetPosted_params (s : State) : (resetPosted s).params = s.params := params_of_steady (by simp [resetPosted])

/-! ## What it has written there, whatever happens in its gaps -/

@[simp] theorem wr_ctl_controls (n : Next) (w : Nat) (v : Word) (s : State) :
    (wr n .ctl w v s).controls = { s.controls with ctl := v } := wr_controls ..

@[simp] theorem setBits_hostMem (n m : Next) (r : Reg) (bits : Word) (s : State) : (setBits n m r bits s).hostMem = s.hostMem := by
  simp [setBits]

theorem resetConfig_hostMem (s : State) : (resetConfig s).hostMem = s.hostMem := by
  unfold resetConfig
  dsimp only
  split <;> simp [wrBank]

theorem resetControl_hostMem (s : State) : (resetControl s).hostMem = s.hostMem := by
  simp [resetControl, wrBank]

@[simp] theorem resetPosted_hostMem (s : State) : (resetPosted s).hostMem = s.hostMem := by
  simp [resetPosted, wrBankHold, wrBank, resetConfig_hostMem, resetControl_hostMem]

/-- Step 4 clears RCR, SOFT_RST with it. -/
theorem resetControl_rcr (s : State) : (resetControl s).chip.rcr = 0 := by
  have h : (resetControl s).controls.rcr = 0 := by
    simp only [resetControl, setBits, wr_ctl_controls, rd_controls, wrBank_controls, wr_tcr_controls]
    rw [wr_rcr_controls _ _ (has_zero _)]
    rfl
  exact h

theorem resetPosted_rcr (s : State) : (resetPosted s).chip.rcr = 0 := by
  have h := congrArg (fun x : Controls => x.rcr) (wrBank_controls (.to 6 2) s.params.regs.pb
    ((resetControl (resetConfig s)).setHold true))
  exact h.trans (resetControl_rcr _)

/-! ## The MMU agent completes it -/

/-- The machine behind an MMU_RESET that the agent completed in the tape's last gap: idle, and with nothing to come. -/
structure State.ResetTo (s t : State) : Prop where
  idle : t.chip.busy = false
  quiet : t.Quiet
  params : t.params = s.params
  hostMem : t.hostMem = s.hostMem

theorem wrMmuReset_completed (n : Next) (ht : s.env.tape = agentGap .mmuDone) (hr : has s.chip.rcr (softRst s.params) = false) :
    s.ResetTo (wrMmuReset n s) := by
  rw [wrMmuReset, mmuIssue, gap_agentGap (rest := []) (by exact ht), agentStep_mmuDone (by exact hr), mmuCompletion_reset rfl]
  exact ⟨rfl, rfl, rfl, rfl⟩

theorem resetHead_completed (ht : s.env.tape = quietGaps (configGaps s.params + 7) ++ agentGap .mmuDone) :
    s.ResetTo (resetHead s) := by
  have htape := (resetPosted_tape (restsFor_of_quietGaps ht)).trans (by rw [ht, drop_quietGaps])
  have h := wrMmuReset_completed (.to 6 3) htape (by rw [resetPosted_rcr]; exact has_zero _)
  exact ⟨h.idle, h.quiet, h.params.trans (resetPosted_params s), h.hostMem.trans (resetPosted_hostMem s)⟩

end Sys2Proof.Machine
end

section
/-! PROOFS. PHY_CONFIGURE keeps an empty tape empty, and the rest of OPEN: the address written, the default words, the end
(spec/45_phy_configure.md R287, spec/46_lifecycle.md R303, R309, R310). -/

namespace Sys2Proof.Machine

variable {s t : State} {back : Next} {reg : BitVec 5}

/-! ## PHY_CONFIGURE in a quiet run -/

theorem miiReadReg_stays_quiet (back : Next) (reg : BitVec 5) (h : s.Quiet) : (miiReadReg back reg s).2.Quiet :=
  (runFrame_inExchange (buildRead s.params.phyAddr reg) (s.call (.miiRead (reg.setWidth 8)) back)).quiet h

theorem miiWriteReg_stays_quiet (back : Next) (reg : BitVec 5) (v : Word) (h : s.Quiet) : (miiWriteReg back reg v s).Quiet :=
  (runFrame_inExchange (buildWrite s.params.phyAddr reg v) (s.call (.miiWrite (reg.setWidth 8) v) back)).quiet h

theorem pollPhyReset_stays_quiet (k : Nat) : ∀ (i : Nat) {s : State}, s.Quiet → (pollPhyReset k i s).2.Quiet := by
  induction k with
  | zero => exact fun _ _ h => h
  | succ k ih =>
    intro i s h
    have hread := miiReadReg_stays_quiet (.to 2 2 (.poll i)) s.params.phyMap.ctrl h
    unfold pollPhyReset
    dsimp only
    split
    · exact ih (i + 1) (delay_stays_quiet _ _ hread)
    · exact hread

theorem pollPhyAneg_stays_quiet (k : Nat) : ∀ (i : Nat) {s : State}, s.Quiet → (pollPhyAneg k i s).2.Quiet := by
  induction k with
  | zero => exact fun _ _ h => h
  | succ k ih =>
    intro i s h
    have hread := miiReadReg_stays_quiet (.to 9 2 (.poll i)) s.params.phyMap.stat h
    unfold pollPhyAneg
    dsimp only
    split
    · exact hread
    · refine ih (i + 1) (delay_stays_quiet _ _ ?_)
      split
      · exact miiWriteReg_stays_quiet _ _ _ hread
      · exact hread

theorem State.Quiet.setEng (h : s.Quiet) (e : Engine) : (s.setEng e).Quiet := h

theorem phyAdvertise_stays_quiet (h : s.Quiet) : (phyAdvertise s).Quiet :=
  miiWriteReg_stays_quiet _ _ _ (.setEng (miiWriteReg_stays_quiet _ _ _ (.setEng
    (miiReadReg_stays_quiet _ _ (miiWriteReg_stays_quiet _ _ _ h)) _)) _)

theorem phyConfigureRun_stays_quiet (h : s.Quiet) : (phyConfigureRun s).2.Quiet := by
  have hreset := pollPhyReset_stays_quiet Config.phyResetPolls 1
    (miiWriteReg_stays_quiet (.to 2 1 (.poll 1)) s.params.phyMap.ctrl (phyReset s.params) h)
  unfold phyConfigureRun
  dsimp only
  split
  · exact pollPhyAneg_stays_quiet _ _ (phyAdvertise_stays_quiet hreset)
  · exact hreset

theorem markConfigured_stays_quiet (h : s.Quiet) : (markConfigured s).Quiet := by
  unfold markConfigured
  split <;> exact h

/-- OPEN behind PHY_CONFIGURE and its arrow, called from step 4. -/
def openConfigured (s : State) : State := markConfigured (phyConfigureRun (s.call .phyConfigure (.to 4))).2

theorem openConfigured_stays_quiet (h : s.Quiet) : (openConfigured s).Quiet :=
  markConfigured_stays_quiet (phyConfigureRun_stays_quiet h)

@[simp] theorem openConfigured_params (s : State) : (openConfigured s).params = s.params :=
  params_of_steady (by simp [openConfigured])

theorem openConfigured_hostMem (s : State) : (openConfigured s).hostMem = s.hostMem := by
  have h := phyConfigureRun_selection (s.call .phyConfigure (.to 4))
  unfold openConfigured markConfigured
  split <;> exact congrArg (fun x : BitVec 2 × Byte × Word × Memory => x.2.2.2) h

/-! ## MACADDR (R309) -/

@[simp] theorem wr_mac_controls (n : Next) (i w : Nat) (v : Word) (s : State) :
    (wr n (.mac i) w v s).controls = { s.controls with mac := setMacByte s.controls.mac i (lowByte v) } := wr_controls ..

theorem setMacByte_all (a m : Mac) : (List.range 6).foldl (fun b i => setMacByte b i (macByte m i)) a = m := by
  refine Vector.ext fun i hi => ?_
  simp only [List.range_succ, List.range_zero, List.nil_append, List.foldl_append, List.foldl_cons, List.foldl_nil, setMacByte,
    macByte, Vector.getElem_setIfInBounds]
  interval_cases i <;> simp [Vector.getD]

theorem writeMac_controls (m : Mac) (s : State) : (writeMac m s).controls = { s.controls with mac := m } := by
  have h : ∀ (is : List Nat) (s : State), (is.foldl (fun t i =>
      wr (if i = 5 then .to 6 else .to 5 (i + 3)) (.mac i) 1 ((macByte m i).setWidth 16) t) s).controls =
      { s.controls with mac := is.foldl (fun b i => setMacByte b i (macByte m i)) s.controls.mac } := by
    intro is
    induction is with
    | nil => exact fun _ => rfl
    | cons i is ih => intro s; simp [ih]
  rw [writeMac, h, setMacByte_all]

theorem writeMac_stays_quiet (m : Mac) (h : s.Quiet) : (writeMac m s).Quiet :=
  List.foldlRecOn (motive := State.Quiet) (List.range 6) _ h fun _ ht _ _ => wr_stays_quiet _ _ _ _ ht

@[simp] theorem writeMac_params (m : Mac) (s : State) : (writeMac m s).params = s.params := params_of_steady (by simp)

/-! ## To the end -/

/-- OPEN where it calls ENABLE, with address `m` selected. -/
def openAddressed (m : Mac) (s : State) : State := writeMac m (wrBank (.to 5 2) s.params.regs.macBank s)

theorem openAddressed_controls (m : Mac) (s : State) :
    (openAddressed m s).controls = { s.controls with bank := s.params.regs.macBank, mac := m } := by
  rw [openAddressed, writeMac_controls, wrBank_controls]

theorem openRest_of_selected {a : Mac × Bool}
    (h : selectMac Config.macValid s.params.macOverride s.params.macStored (openConfigured s).chip.mac s.params.macFallback =
      some a) :
    openRest s = .next ((enableRun ((openAddressed a.1 (openConfigured s)).call .enable (.to 7))).finishWith ⟨.ok, 0, a.2⟩) := by
  rw [← openConfigured_params s] at h
  unfold openRest
  dsimp only
  rw [show markConfigured _ = openConfigured s from rfl, h]
  rfl

/-- What OPEN leaves behind its RESET, when nothing happens from there on. -/
theorem openRest_ends (hq : s.Quiet) (hf : s.params.macFallback.isSome = true) :
    ∃ t w, openRest s = .next t ∧ t.eng.pos = .idle ∧ t.eng.result = some ⟨.ok, 0, w⟩ ∧ t.eng.life = .enabled ∧
      t.chip.bank = s.params.regs.pb ∧ t.chip.tcr = tcrDefault s.params ∧ t.chip.rcr = rcrDefault s.params ∧
      t.chip.intMask = s.params.driverIntSet ∧
      (∃ onChip, selectMac Config.macValid s.params.macOverride s.params.macStored onChip s.params.macFallback =
        some (t.chip.mac, w)) ∧
      t.hostMem = s.hostMem := by
  obtain ⟨a, ha⟩ := selectMac_isSome Config.macValid s.params.macOverride s.params.macStored (openConfigured s).chip.mac hf
  have hp : (openAddressed a.1 (openConfigured s)).params = s.params := by simp [openAddressed]
  have hrest : (openAddressed a.1 (openConfigured s)).Quiet :=
    writeMac_stays_quiet _ (wr_stays_quiet _ _ _ _ (openConfigured_stays_quiet hq))
  have hc := enableRun_controls ((openAddressed a.1 (openConfigured s)).call .enable (.to 7))
  rw [call_controls, openAddressed_controls, State.call_params, hp] at hc
  have hl := enableRun_leads (s := (openAddressed a.1 (openConfigured s)).call .enable (.to 7)) (restsFor_of_quiet hrest 5)
  refine ⟨_, a.2, openRest_of_selected ha, rfl, rfl, rfl, congrArg Controls.bank hc, ?_,
    congrArg (fun x : Controls => x.rcr) hc, congrArg (fun x : Controls => x.intMask) hc,
    ⟨(openConfigured s).chip.mac, ha.trans ?_⟩, (congrArg Controls.hostMem hc).trans (openConfigured_hostMem s)⟩
  · have ht := congrArg Chip.tcr hl.chip
    rw [State.call_params, hp] at ht
    exact ht
  · have hm : _ = a.1 := congrArg (fun x : Controls => x.mac) hc
    exact congrArg (fun m => some (m, a.2)) hm.symm

theorem openProbed_leads (h : s.RestsFor (probeGaps s.params)) :
    s.Leads (s.chip.probed s.params) s.eng (probeGaps s.params) (openProbed s) :=
  ((leads_begin .openOp s).keeps (leads_call .probe (.to 2) _) rfl).keeps
    (probeRun_leads (s := (s.begin .openOp).call .probe (.to 2)) h) (Nat.zero_add _)

/-- OPEN behind its MMU_RESET, in the RESET called from step 3. -/
theorem openReset_completed
    (ht : s.env.tape = quietGaps (probeGaps s.params + (configGaps s.params + 7)) ++ agentGap .mmuDone) :
    s.ResetTo (resetHead ((openProbed s).call .reset (.to 3))) := by
  have hl := openProbed_leads ((restsFor_of_quietGaps ht).mono (by simp))
  have htape := hl.tape
  rw [ht, quietGaps_add, List.append_assoc, drop_quietGaps, ← hl.params] at htape
  have h := resetHead_completed (s := (openProbed s).call .reset (.to 3)) htape
  exact ⟨h.idle, h.quiet, h.params.trans hl.params, h.hostMem.trans hl.hostMem⟩

/-- The gaps of the obligation, counted part by part. -/
theorem openGaps_eq (p : Config.Params) : (if p.usePower then 14 else 12) + (if p.regs.sigBank.isSome then 1 else 0) =
    probeGaps p + (configGaps p + 7) := by
  unfold probeGaps configGaps
  split <;> split <;> rfl

/-- Settles O60: OPEN passes its wait at the first poll, and `openRest_ends` says what the rest leaves. -/
theorem openBringsTheMachineUp : Obligations.OpenBringsTheMachineUp := by
  intro s hs hf ht
  rw [openGaps_eq] at ht
  have hr := openReset_completed ht
  obtain ⟨u, hx, hu⟩ := waitIdle_leads (.to 7) .openWait openAfterReset hr.idle (restsFor_of_quiet hr.quiet 1)
  have hp : (resetTail u).params = s.params := (params_of_steady (by simp)).trans (hu.params.trans hr.params)
  have hm : (resetTail u).hostMem = s.hostMem := (wr_hostMem ..).trans (hu.hostMem.trans hr.hostMem)
  have hq : (resetTail u).Quiet := wr_stays_quiet _ _ _ _ (hu.quiet hr.quiet)
  obtain ⟨t, w, ho, hleaves⟩ := openRest_ends hq (by rw [hp]; exact hf)
  rw [hp, hm] at hleaves
  exact ⟨t, w, (exec_openOp_of_right hs).trans (hx.trans ho), hleaves⟩

end Sys2Proof.Machine
end

section
/-! PROOFS. A run of the interrupt context as an induction over its accesses (spec/60_exceptions.md R331, R333 to R335): what every
access keeps, and every step of an agent behind it, a run that ends keeps. -/

namespace Sys2Proof.Machine

variable {P Q : Handling → Prop} {s t : State} {x y : Handling} {n exit : IrqPos} {r : Reg} {w : Nat} {v : Word} {p : Pkt}
  {b : HandlerRun} {touch : Bool}

/-- The predicate is kept by whatever a run does, its command and its write of PTR left out. -/
structure HandlerKeeps (P : Handling → Prop) : Prop where
  gap : ∀ x, P x → P (handlerGap x)
  irq : ∀ x q, P x → P (x.1.setIrq q, x.2)
  read : ∀ x r w v, P x → P ((readReg r x.1).2.note (.read r w v), x.2)
  write : ∀ x r w v a, r = .bsr ∨ r = .tcr ∨ r = .pnr ∨ r = .intAck → P x → P ((setReg r v x.1).note (.write r w a), x.2)
  delay : ∀ x d, P x → P (x.1.note (.delay d), x.2)

/-- A predicate of the state alone that no agent's step ends, nor what a read leaves or a write of one of the handler's registers. -/
theorem handlerKeeps_of_state {P : State → Prop} (agent : ∀ e t, P t → P (agentStep e t)) (irq : ∀ t q, P t → P (t.setIrq q))
    (read : ∀ t seen k r w v, P t → P (((t.setChip { t.chip with arrSeen := seen }).bump k).note (.read r w v)))
    (write : ∀ t bank tcr pnr st r w v, r = .bsr ∨ r = .tcr ∨ r = .pnr ∨ r = .intAck → P t →
      P ((t.setChip { t.chip with bank := bank, tcr := tcr, pnr := pnr, intStatus := st }).note (.write r w v)))
    (delay : ∀ t d, P t → P (t.note (.delay d))) : HandlerKeeps fun x => P x.1 where
  gap x h := by
    unfold handlerGap
    split
    · exact h
    · exact List.foldlRecOn (motive := P) _ _ h fun t ht e _ => agent e t ht
  irq x := irq x.1
  read x r w v h := by
    obtain ⟨k, hk⟩ := readReg_state r x.1
    rw [hk]
    exact read _ _ k r w v h
  write x r w v a hr h := by
    rcases hr with rfl | rfl | rfl | rfl
    · exact write _ (bankOf x.1.params v) x.1.chip.tcr x.1.chip.pnr x.1.chip.intStatus _ w a (by simp) h
    · exact write _ x.1.chip.bank v x.1.chip.pnr x.1.chip.intStatus _ w a (by simp) h
    · exact write _ x.1.chip.bank x.1.chip.tcr (lowByte v) x.1.chip.intStatus _ w a (by simp) h
    · exact write _ x.1.chip.bank x.1.chip.tcr x.1.chip.pnr (without x.1.chip.intStatus (lowByte v)) _ w a (by simp) h
  delay x := delay x.1

namespace HandlerKeeps

theorem handlerRead (hP : HandlerKeeps P) (h : P x) : P (Machine.handlerRead n r w x).2 :=
  hP.gap _ (hP.irq _ _ (hP.read x r w _ h))

theorem handlerKeep (hP : HandlerKeeps P) {keep : Word → IrqCtx → IrqCtx} (h : P x) : P (Machine.handlerKeep n r w keep x) :=
  hP.gap _ (hP.irq _ _ (hP.read x r w _ h))

theorem handlerWrite (hP : HandlerKeeps P) (h : P x) (hr : r = .bsr ∨ r = .tcr ∨ r = .pnr ∨ r = .intAck := by simp) :
    P (Machine.handlerWrite n r w v x) :=
  hP.gap _ (hP.irq _ _ (hP.write x r w v _ hr h))

theorem handlerDelay (hP : HandlerKeeps P) {d : Nat} (h : P x) : P (Machine.handlerDelay n d x) :=
  hP.gap _ (hP.irq _ _ (hP.delay x d h))

theorem handlerGoto (hP : HandlerKeeps P) (h : P x) : P (Machine.handlerGoto n x) := hP.irq x _ h

theorem irqEnter (hP : HandlerKeeps P) (h : P x) : P (Machine.irqEnter touch x) := by
  unfold Machine.irqEnter
  dsimp only
  split
  · exact hP.handlerKeep (hP.handlerKeep (hP.handlerWrite (hP.handlerKeep h)))
  · exact hP.handlerWrite (hP.handlerKeep h)

theorem handlerAck (hP : HandlerKeeps P) (h : P x) : P (Machine.handlerAck n x) := hP.handlerWrite h

theorem handlerReenable (hP : HandlerKeeps P) (h : P x) : P (Machine.handlerReenable n x) :=
  hP.handlerWrite (hP.handlerWrite (hP.handlerRead (hP.handlerWrite h)))

/-- The wait of a run ends with a poll that finds BUSY = 0. -/
theorem handlerWait (hP : HandlerKeeps P) (hQ : HandlerKeeps Q) (hidle : ∀ x, P x → x.1.chip.busy = false → Q x)
    (exit : IrqPos) (fuel : Nat) : ∀ (k : Nat) (x : Handling), P x → Machine.handlerWait exit fuel k x = .ok y → Q y := by
  induction fuel with
  | zero => intro k x h he; cases he
  | succ fuel ih =>
    intro k x h he
    have hparams : (Machine.handlerRead (.wait k 2) .mmuCmd 2 x).2.1.params = x.1.params :=
      congrArg Prod.fst (handlerRead_untouched ..)
    simp only [Machine.handlerWait, hparams] at he
    split at he
    · exact ih _ _ (hP.handlerDelay (hP.handlerRead h)) he
    · rename_i hbusy
      obtain rfl := Except.ok.inj he
      have hb : x.1.chip.busy = false := by
        rw [← readReg_mmuCmd_busy]
        exact Bool.eq_false_iff.2 hbusy
      exact hQ.handlerGoto (hQ.handlerRead (hidle x h hb))

/-- PNR selects the packet that a run is to free when its command is written (R335). -/
theorem pktSel_handlerWrite (n : IrqPos) (p : Pkt) (x : Handling) :
    (Machine.handlerWrite n .pnr 1 ((pktByte x.1.params p).setWidth 16) x).1.chip.pktSel x.1.params = p := by
  have hpnr (z : Handling) : (handlerGap z).1.chip.pnr = z.1.chip.pnr :=
    congrArg Foreground.pnr (handlerGap_foreground (a := false) (b := false) z)
  simp [Machine.handlerWrite, Chip.pktSel, hpnr, setReg_pnr]

/-- A free that is left out, or its command, which is not for the foreground's packet, and its wait (R334, R335). -/
theorem handlerFree (hP : HandlerKeeps P) (hQ : HandlerKeeps Q)
    (hcommand : ∀ x a, P x → x.1.eng.pkt ≠ some (x.1.chip.pktSel x.1.params) →
      a = .write .mmuCmd 2 ((encodeMmuCode x.1.params.codes .free).setWidth 32) →
      Q ((x.1.setChip (mmuEffect .free x.1.params x.1.chip)).note a, x.2))
    (hidle : ∀ x, Q x → x.1.chip.busy = false → P x) (exit : IrqPos) (p : Pkt) (h : P x)
    (he : Machine.handlerFree exit p x = .ok y) : P y := by
  have hsel := pktSel_handlerWrite (.body 8) p x
  have hparams : (Machine.handlerWrite (.body 8) .pnr 1 ((pktByte x.1.params p).setWidth 16) x).1.params = x.1.params :=
    congrArg Prod.fst (handlerWrite_untouched ..)
  have hx : P (Machine.handlerWrite (.body 8) .pnr 1 ((pktByte x.1.params p).setWidth 16) x) := hP.handlerWrite h
  unfold Machine.handlerFree at he
  dsimp only at he
  split at he
  · rename_i hc
    simp only [Bool.and_eq_true, bne_iff_ne] at hc
    refine hQ.handlerWait hP hidle exit _ 1 _ (hQ.gap _ (hQ.irq _ _ (hcommand _ _ hx ?_ rfl))) he
    rw [hparams, hsel]
    exact hc.1.2
  · obtain rfl := Except.ok.inj he
    exact hP.handlerGoto hx

section
variable (hP : HandlerKeeps P) (hfree : ∀ exit p x y, P x → Machine.handlerFree exit p x = .ok y → P y)
include hP hfree

theorem handlerRepair (h : P x) (he : Machine.handlerRepair exit b x = .ok y) : P y := by
  have hre (n : IrqPos) : P (if b.reenable then Machine.handlerReenable n x else x) := by
    split
    · exact hP.handlerReenable h
    · exact h
  unfold Machine.handlerRepair at he
  split at he
  · obtain rfl := Except.ok.inj he
    exact hre exit
  · exact hfree _ _ _ _ (hre _) he

theorem txErrBody (h : P x) (he : Machine.txErrBody exit b x = .ok y) : P y := by
  unfold Machine.txErrBody at he
  dsimp only at he
  split at he
  · split at he
    · exact hP.handlerRepair hfree (hP.handlerAck (hP.handlerRead h)) he
    · obtain rfl := Except.ok.inj he
      exact hP.handlerGoto (hP.handlerRead h)
  · split at he <;> obtain rfl := Except.ok.inj he
    · exact hP.handlerAck h
    · exact hP.handlerGoto h

/-- What the accesses of a run keep, a run that ends keeps. -/
theorem runHandler (hptr : ∀ n v x, P x → P (handlerWritePtr n v x)) (h : P (s, b.gaps))
    (he : Machine.runHandler b s = some (.ok t)) : ∃ l, P (t, l) := by
  unfold Machine.runHandler at he
  split at he
  · split at he
    · cases he
    · rename_i z hb
      obtain rfl := Except.ok.inj (Option.some.inj he)
      have hz := hP.txErrBody hfree (hP.irqEnter (hP.irq _ _ h)) hb
      refine ⟨_, (?_ : P (irqExit b.touches z))⟩
      unfold irqExit
      dsimp only
      split
      · exact hP.handlerWrite (hptr _ _ _ (hP.handlerWrite hz))
      · exact hP.handlerWrite hz
  · cases he

end

end HandlerKeeps

end Sys2Proof.Machine
end

section
/-! PROOFS. What a run of the interrupt context that ends leaves to the foreground (spec/60_exceptions.md R331, R333 to R335,
spec/70_reset_and_hazards.md R374): the pins, the accesses it makes, the pending command, `dp`, and the buffer the foreground holds. -/

namespace Sys2Proof.Machine

variable {s t u : State} {x y : Handling} {e : AgentEvent} {p q : Pkt} {c d : Chip} {b : HandlerRun} {a : Access} {ps : List Pkt}

/-! ## Everything a gap's events keep -/

/-- How the PHY stands in the frame it receives. -/
def State.reception (s : State) : Nat × PhyRx × Option Bool := (s.phy.ones, s.phy.rx, s.phy.drive)

theorem State.KeptByAgents.reception (h : s.KeptByAgents t) : t.reception = s.reception := by
  simp only [State.reception, h.phyOnes, h.phyRx, h.phyDrive]

theorem handlerKeeps_reception (s : State) : HandlerKeeps fun x => x.1.reception = s.reception :=
  handlerKeeps_of_state (fun e t h => (agentStep_kept e t).reception.trans h) (fun _ _ h => h)
    (fun _ _ _ _ _ _ h => h) (fun _ _ _ _ _ _ _ _ _ h => h) (fun _ _ h => h)

theorem runHandler_reception (he : runHandler b s = some (.ok t)) : t.reception = s.reception := by
  have hP := handlerKeeps_reception s
  obtain ⟨_, h⟩ := hP.runHandler
    (fun _ _ _ _ h he => hP.handlerFree hP (fun _ _ h _ _ => h) (fun _ h _ => h) _ _ h he)
    (fun _ _ _ h => hP.gap _ h) rfl he
  exact h

/-- A run that ends is the identity on all that the agents leave alone. -/
theorem runHandler_kept (he : runHandler b s = some (.ok t)) : s.Kept t := by
  obtain ⟨params, enabled, inbox, sig, phyAddr, -⟩ := State.steady_eq_iff.1 (runHandler_steady he)
  have hf := runHandler_foreground he
  have hs := runHandler_settings he
  have hr := runHandler_reception he
  exact {
    params, enabled, inbox, sig, phyAddr
    hostMem := congrArg Foreground.hostMem hf
    eng := congrArg Foreground.eng hf
    hold := congrArg Settings.hold hs
    bank := runHandler_bank he
    rcr := congrArg Settings.rcr hs
    config := congrArg Settings.config hs
    ctl := congrArg Settings.ctl hs
    pnr := congrArg Foreground.pnr hf
    ptr := congrArg Foreground.ptr hf
    intMask := congrArg Settings.intMask hs
    mgmt := congrArg Foreground.mgmt hf
    mac := congrArg Settings.mac hs
    phyOnes := congrArg Prod.fst hr
    phyRx := congrArg (fun z => z.2.1) hr
    phyDrive := congrArg (fun z => z.2.2) hr }

/-! ## The data-path offset (R333, R374) -/

/-- PTR written back reloads the offset, and the bank written back behind it does not touch it. -/
theorem irqExit_dp (x : Handling) : (irqExit true x).1.chip.dp = offsetOf x.1.params x.1.irq.hPtr := by
  have hgap (z : Handling) : (handlerGap z).1.chip.dp = z.1.chip.dp := by
    unfold handlerGap
    split
    · rfl
    · exact (agentSteps_kept _ _).dp
  have hparams : (handlerWrite (.restore 2) .pnr 1 (x.1.irq.hPnr.setWidth 16) x).1.params = x.1.params :=
    congrArg Prod.fst (handlerWrite_untouched ..)
  unfold irqExit
  simp only [if_true]
  rw [handlerWrite, hgap]
  refine (hgap _).trans ?_
  rw [← hparams]
  rfl

theorem runHandler_dp (hb : b.touches = true) (he : runHandler b s = some (.ok t)) :
    t.chip.dp = offsetOf s.params s.chip.ptr := by
  have hf := runBody_foreground b s
  have hp : (reached (txErrBody (irqExitPos b.touches) b (irqEnter b.touches (s.irqAt (.save 1), b.gaps)))).params = s.params :=
    congrArg Prod.fst ((txErrBody_untouched ..).trans (irqEnter_untouched ..))
  unfold runHandler at he
  split at he
  · split at he
    · cases he
    · rename_i z hz
      obtain rfl := Except.ok.inj (Option.some.inj he)
      rw [hz, reached_ok, hb] at hf
      rw [hz, reached_ok] at hp
      rw [hb, irqExit_dp, hp]
      exact congrArg (offsetOf s.params) (congrArg Foreground.ptr hf)
  · cases he

/-! ## The pending command (R334, R335) -/

theorem allocSuccess_pending (silent : Bool) (p : Pkt) (s : State) :
    (allocSuccess silent p s).chip.pending = s.chip.pending ∨ (allocSuccess silent p s).chip.pending = none := by
  unfold allocSuccess
  split
  · split
    · exact .inr rfl
    · exact .inl rfl
  all_goals exact .inl rfl

theorem allocFailure_pending (s : State) :
    (allocFailure s).chip.pending = s.chip.pending ∨ (allocFailure s).chip.pending = none := by
  unfold allocFailure
  split
  · exact .inr rfl
  all_goals exact .inl rfl

theorem mmuCompletion_pending (c : Chip) : (mmuCompletion c).pending = c.pending ∨ (mmuCompletion c).pending = none := by
  unfold mmuCompletion
  split
  · split <;> exact .inr rfl
  · exact .inr rfl
  · exact .inr rfl
  · exact .inl rfl
  · exact .inl rfl

theorem autoFreeCompletion_pending (c : Chip) : (autoFreeCompletion c).pending = c.pending :=
  (congrArg Chip.pending (autoFreeCompletion_frame c) :)

theorem txTake_pending (s : State) : (txTake s).chip.pending = s.chip.pending := by
  unfold txTake
  split
  · split <;> rfl
  · rfl

theorem rxArrive_pending (p : Pkt) (pages : Nat) (status lenWord : Word) (payload : List Byte) (s : State) :
    (rxArrive p pages status lenWord payload s).chip.pending = s.chip.pending := by
  unfold rxArrive
  split <;> rfl

/-- Agents complete a pending command, they make none (R191 to R196). -/
theorem agentStep_pending (e : AgentEvent) (s : State) :
    (agentStep e s).chip.pending = s.chip.pending ∨ (agentStep e s).chip.pending = none := by
  cases e <;> simp only [agentStep] <;> split
  case allocOk.isFalse => exact allocSuccess_pending ..
  case allocSilent.isFalse => exact allocSuccess_pending ..
  case allocFail.isFalse => exact allocFailure_pending _
  case mmuDone.isFalse => exact mmuCompletion_pending _
  case autoFreeDone.isFalse => exact .inl (autoFreeCompletion_pending _)
  case txDequeue.isFalse => exact .inl (txTake_pending _)
  case txDone.isFalse => exact .inl (congrArg Chip.pending (txSuccess_frame _ s.params s.chip) :)
  case txFail.isFalse => exact .inl (congrArg Chip.pending (txFailure_frame _ _ s.params s.chip) :)
  case rxFrame.isFalse => exact .inl (rxArrive_pending ..)
  all_goals exact .inl rfl

/-- A condition on the pending command that its completion meets. -/
theorem handlerKeeps_pending {K : Option MmuCmd → Prop} (hn : K none) : HandlerKeeps fun x => K x.1.chip.pending :=
  handlerKeeps_of_state (P := fun t => K t.chip.pending)
    (fun e t h => by rcases agentStep_pending e t with g | g <;> rw [g] <;> assumption)
    (fun _ _ h => h) (fun _ _ _ _ _ _ h => h) (fun _ _ _ _ _ _ _ _ _ h => h) (fun _ _ h => h)

/-- BUSY = 0 says that no free is pending. -/
theorem pending_of_idle (hc : (∃ p, c.pending = some (.free p)) ∨ c.pending = none) (hb : c.busy = false) : c.pending = none := by
  rcases hc with ⟨p, hp⟩ | hp
  · simp [Chip.busy, hp] at hb
  · exact hp

/-- A run waits for its own command, so that none of it is pending at its end. -/
theorem runHandler_pending (he : runHandler b s = some (.ok t)) : t.chip.pending = s.chip.pending ∨ t.chip.pending = none := by
  have hP := handlerKeeps_pending (K := fun k => k = s.chip.pending ∨ k = none) (.inr rfl)
  have hQ := handlerKeeps_pending (K := fun k => (∃ p, k = some (.free p)) ∨ k = none) (.inr rfl)
  obtain ⟨_, h⟩ := hP.runHandler
    (fun _ _ _ _ h he => hP.handlerFree hQ (fun _ _ _ _ _ => .inl ⟨_, rfl⟩)
      (fun _ h hb => .inr (pending_of_idle h hb)) _ _ h he)
    (fun _ _ _ h => hP.gap _ h) (.inl rfl) he
  exact h

/-! ## The accesses (R331, R333 to R335) -/

/-- What the interrupt context may do: any read, a delay, a write of the registers it works with, and the FREE command. -/
def HandlerMakes (q : Config.Params) (a : Access) : Prop :=
  (∃ r w v, a = .read r w v) ∨ (∃ d, a = .delay d) ∨
    (∃ r w v, a = .write r w v ∧ (r = .bsr ∨ r = .pnr ∨ r = .ptr ∨ r = .intAck ∨ r = .tcr)) ∨
    a = .write .mmuCmd 2 ((encodeMmuCode q.codes .free).setWidth 32)

/-- From `s` to `t` the trace has grown by accesses of the interrupt context alone. -/
structure State.Handled (s t : State) : Prop where
  params : t.params = s.params
  trace : ∃ new, t.env.trace = new ++ s.env.trace ∧ ∀ a ∈ new, HandlerMakes s.params a

theorem State.Handled.refl (s : State) : s.Handled s := ⟨rfl, [], rfl, fun _ h => absurd h (List.not_mem_nil)⟩

/-- What leaves the trace alone. -/
theorem State.Handled.still (h : s.Handled t) (hp : u.params = t.params) (ht : u.env.trace = t.env.trace) : s.Handled u :=
  ⟨hp.trans h.params, by rw [ht]; exact h.trace⟩

/-- One more access. -/
theorem State.Handled.access (h : s.Handled t) (ha : HandlerMakes s.params a) (hp : u.params = t.params)
    (ht : u.env.trace = a :: t.env.trace) : s.Handled u where
  params := hp.trans h.params
  trace := by
    obtain ⟨new, hn, hall⟩ := h.trace
    exact ⟨a :: new, ht.trans (congrArg (a :: ·) hn), List.forall_mem_cons.2 ⟨ha, hall⟩⟩

theorem handlerKeeps_handled (s : State) : HandlerKeeps fun x => s.Handled x.1 :=
  handlerKeeps_of_state (fun e t h => h.still (agentStep_kept e t).params (agentStep_kept e t).trace)
    (fun _ _ h => h.still rfl rfl) (fun _ _ _ r w v h => h.access (.inl ⟨r, w, v, rfl⟩) rfl rfl)
    (fun _ _ _ _ _ r w v hr h => h.access
      (.inr (.inr (.inl ⟨r, w, v, rfl, by rcases hr with rfl | rfl | rfl | rfl <;> simp⟩))) rfl rfl)
    (fun _ d h => h.access (.inr (.inl ⟨d, rfl⟩)) rfl rfl)

theorem runHandler_handled (he : runHandler b s = some (.ok t)) : s.Handled t := by
  have hP := handlerKeeps_handled s
  obtain ⟨_, h⟩ := hP.runHandler
    (fun _ _ _ _ h he => hP.handlerFree hP
      (fun _ _ h _ ha => h.access (.inr (.inr (.inr (by rw [ha, h.params])))) rfl rfl) (fun _ h _ => h) _ _ h he)
    (fun n v x h => hP.gap _ (h.access (.inr (.inr (.inl ⟨.ptr, 2, v.setWidth 32, rfl, by simp⟩))) rfl rfl)) (.refl s) he
  exact h

/-! ## The buffer the foreground holds (R334, R335) -/

theorem queued_eq_false : c.queued p = false ↔ p ∉ c.txFifo ∧ p ∉ c.rxFifo ∧ c.inFlight ≠ some p ∧ p ∉ c.autoFree := by
  simp [Chip.queued, and_assoc]

/-- From `s` to `t` packet `p` stays allocated and unqueued, and its buffer reads as before. -/
structure State.Spares (p : Pkt) (s t : State) : Prop where
  allocated : t.chip.allocated p = s.chip.allocated p
  bytes : ∀ o, o < bufferSpan → t.packetByte p o = s.packetByte p o
  unqueued : t.chip.queued p = false

/-- What leaves the buffers alone. -/
theorem spares_of_packets (ht : t.chip.table = s.chip.table) (hm : t.chip.pktMem = s.chip.pktMem)
    (hq : t.chip.queued p = false) : s.Spares p t where
  allocated := by rw [Chip.allocated, ht]; rfl
  bytes o _ := (samePackets_of_chip ht hm).1 p o
  unqueued := hq

/-- Another buffer given back. -/
theorem spares_of_givenBack (ht : t.chip.table = s.chip.table.filter (fun e => e.pkt != q))
    (hm : t.chip.pktMem = s.chip.pktMem.forget (pktAddr q 0) bufferSpan) (hpq : p ≠ q) (hq : t.chip.queued p = false) :
    s.Spares p t where
  allocated := by rw [(buffers_of_givenBack ht hm).1 p]; simp [hpq]
  bytes o := (buffers_of_givenBack ht hm).2 p o hpq
  unqueued := hq

/-- Another buffer handed out. -/
theorem spares_of_handedOut {n k : Nat} (ht : t.chip.table = insertEntry s.chip.table ⟨q, n, k⟩)
    (hm : t.chip.pktMem = s.chip.pktMem.forget (pktAddr q 0) bufferSpan) (hpq : p ≠ q) (hq : t.chip.queued p = false) :
    s.Spares p t where
  allocated := congrArg Option.isSome ((buffers_of_handedOut ht hm).2.1 p hpq)
  bytes o := (buffers_of_handedOut ht hm).2.2 p o hpq
  unqueued := hq

/-- A number that is handed out was free. -/
theorem ne_of_roomFor {pages : Nat} (hp : s.chip.allocated p = true) (hr : roomFor q pages s = true) : p ≠ q := by
  rintro rfl
  simp [roomFor, hp] at hr

section
variable (ha : s.chip.allocated p = true) (hq : s.chip.queued p = false)
include ha hq

theorem allocSuccess_spares (silent : Bool) (r : Pkt) : s.Spares p (allocSuccess silent r s) := by
  unfold allocSuccess
  split
  · split
    · exact spares_of_handedOut rfl rfl (ne_of_roomFor ha ‹_›) hq
    · exact spares_of_packets rfl rfl hq
  all_goals exact spares_of_packets rfl rfl hq

omit ha in
theorem allocFailure_spares : s.Spares p (allocFailure s) := by
  unfold allocFailure
  split <;> exact spares_of_packets rfl rfl hq

omit ha in
/-- A release gives back the head of the receive FIFO, and a free another packet (R191, R193). -/
theorem mmuCompletion_spares (hf : s.chip.pending ≠ some (.free p)) (hr : s.chip.pending ≠ some .reset) :
    s.Spares p (s.setChip (mmuCompletion s.chip)) := by
  obtain ⟨htx, hrx, hfl, hau⟩ := queued_eq_false.1 hq
  unfold mmuCompletion
  split
  · split
    · exact spares_of_packets rfl rfl hq
    · rename_i q rest hx
      rw [hx, List.mem_cons, not_or] at hrx
      exact spares_of_givenBack rfl rfl hrx.1 (queued_eq_false.2 ⟨htx, hrx.2, hfl, hau⟩)
  · rename_i q hp
    exact spares_of_givenBack rfl rfl (fun h => hf (h ▸ hp)) hq
  · exact absurd ‹_› hr
  · exact spares_of_packets rfl rfl hq
  · exact spares_of_packets rfl rfl hq

omit ha in
theorem autoFreeCompletion_spares : s.Spares p (s.setChip (autoFreeCompletion s.chip)) := by
  obtain ⟨htx, hrx, hfl, hau⟩ := queued_eq_false.1 hq
  unfold autoFreeCompletion
  split
  · exact spares_of_packets rfl rfl hq
  · rename_i q rest hx
    rw [hx, List.mem_cons, not_or] at hau
    exact spares_of_givenBack rfl rfl hau.1 (queued_eq_false.2 ⟨htx, hrx, hfl, hau.2⟩)

omit ha in
theorem txTake_spares : s.Spares p (txTake s) := by
  obtain ⟨htx, hrx, -, hau⟩ := queued_eq_false.1 hq
  unfold txTake
  split
  · split
    · exact spares_of_packets rfl rfl hq
    · rename_i q rest hx
      rw [hx, List.mem_cons, not_or] at htx
      exact spares_of_packets rfl rfl (queued_eq_false.2 ⟨htx.2, hrx, fun h => htx.1 (Option.some.inj h).symm, hau⟩)
  · exact spares_of_packets rfl rfl hq

omit ha in
theorem txSuccess_spares (tx : Bool) : s.Spares p (s.setChip (txSuccess tx s.params s.chip)) := by
  obtain ⟨htx, hrx, hfl, hau⟩ := queued_eq_false.1 hq
  unfold txSuccess
  split
  · exact spares_of_packets rfl rfl hq
  · rename_i q hx
    refine spares_of_packets rfl rfl (queued_eq_false.2 ⟨htx, hrx, by simp, ?_⟩)
    have hpq : p ≠ q := fun h => hfl (h ▸ hx)
    dsimp only [State.setChip_chip]
    split
    · simp [hau, hpq]
    · exact hau

omit ha in
theorem txFailure_spares (tx ct : Bool) : s.Spares p (s.setChip (txFailure tx ct s.params s.chip)) := by
  obtain ⟨htx, hrx, -, hau⟩ := queued_eq_false.1 hq
  unfold txFailure
  split
  · exact spares_of_packets rfl rfl hq
  · exact spares_of_packets rfl rfl (queued_eq_false.2 ⟨htx, hrx, by simp, hau⟩)

/-- A frame that arrives fills a buffer of its own and no more (R232). -/
theorem rxArrive_spares (r : Pkt) (pages : Nat) (status lenWord : Word) (payload : List Byte) :
    s.Spares p (rxArrive r pages status lenWord payload s) := by
  obtain ⟨htx, hrx, hfl, hau⟩ := queued_eq_false.1 hq
  unfold rxArrive
  split
  · rename_i hc
    simp only [Bool.and_eq_true, decide_eq_true_eq] at hc
    obtain ⟨⟨-, hroom⟩, -, hpages, hfit⟩ := hc
    have hpr := ne_of_roomFor ha hroom
    have hout : s.Spares p (s.setChip (s.chip.takePkt r pages s.env.draw)) := spares_of_handedOut rfl rfl hpr hq
    have hbytes : (wordBytes status ++ wordBytes lenWord ++ payload.take (rawLen lenWord - Config.rxHeaderBytes)).length ≤
        bufferSpan := by
      simp only [List.length_append, List.length_take, wordBytes, List.length_cons, List.length_nil]
      unfold roundEven Config.pageBytes at hfit
      unfold Config.rxHeaderBytes bufferSpan
      omega
    refine ⟨hout.allocated, fun o ho => Eq.trans ?_ (hout.bytes o ho), queued_eq_false.2 ⟨htx, ?_, hfl, hau⟩⟩
    · exact packetByte_of_written_other (s := s.setChip (s.chip.takePkt r pages s.env.draw)) rfl rfl hbytes hpr ho
    · simp [hrx, hpr, Chip.takePkt]
  · exact spares_of_packets rfl rfl hq

/-- No agent's step touches a buffer that is allocated and nowhere queued, while nothing pending gives it back. -/
theorem agentStep_spares (hf : s.chip.pending ≠ some (.free p)) (hr : s.chip.pending ≠ some .reset) (e : AgentEvent) :
    s.Spares p (agentStep e s) := by
  cases e <;> simp only [agentStep] <;> split
  case allocOk.isFalse => exact allocSuccess_spares ha hq ..
  case allocSilent.isFalse => exact allocSuccess_spares ha hq ..
  case allocFail.isFalse => exact allocFailure_spares hq
  case mmuDone.isFalse => exact mmuCompletion_spares hq hf hr
  case autoFreeDone.isFalse => exact autoFreeCompletion_spares hq
  case txDequeue.isFalse => exact txTake_spares hq
  case txDone.isFalse => exact txSuccess_spares hq _
  case txFail.isFalse => exact txFailure_spares hq ..
  case rxFrame.isFalse => exact rxArrive_spares ha hq ..
  all_goals exact spares_of_packets rfl rfl hq

end

/-- The foreground holds packet `p`, whose buffer reads in `t` as in `s`, and nothing is on the way to give it back. -/
structure State.HoldsBuffer (p : Pkt) (s t : State) : Prop where
  handle : t.eng.pkt = some p
  allocated : t.chip.allocated p = true
  unqueued : t.chip.queued p = false
  notFreed : t.chip.pending ≠ some (.free p)
  notReset : t.chip.pending ≠ some .reset
  bytes : ∀ o, o < bufferSpan → t.packetByte p o = s.packetByte p o

/-- What leaves the engine, the buffers and the queues alone, and makes no command but another packet's free. -/
theorem State.HoldsBuffer.of_chip (h : s.HoldsBuffer p t) (he : u.eng = t.eng) (hc : u.chip.table = t.chip.table)
    (hm : u.chip.pktMem = t.chip.pktMem) (hq : u.chip.queued p = t.chip.queued p)
    (hp : u.chip.pending = t.chip.pending ∨ ∃ q, q ≠ p ∧ u.chip.pending = some (.free q)) : s.HoldsBuffer p u where
  handle := (congrArg Engine.pkt he).trans h.handle
  allocated := by rw [Chip.allocated, hc]; exact h.allocated
  unqueued := hq.trans h.unqueued
  notFreed := by
    rcases hp with hp | ⟨q, hqp, hp⟩ <;> rw [hp]
    · exact h.notFreed
    · simpa using hqp
  notReset := by
    rcases hp with hp | ⟨q, -, hp⟩ <;> rw [hp]
    · exact h.notReset
    · simp
  bytes o ho := ((samePackets_of_chip hc hm).1 p o).trans (h.bytes o ho)

theorem State.HoldsBuffer.agentStep (h : s.HoldsBuffer p t) (e : AgentEvent) : s.HoldsBuffer p (agentStep e t) := by
  have hs := agentStep_spares h.allocated h.unqueued h.notFreed h.notReset e
  have hp {k : MmuCmd} (hk : t.chip.pending ≠ some k) : (Machine.agentStep e t).chip.pending ≠ some k := by
    rcases agentStep_pending e t with g | g <;> rw [g]
    · exact hk
    · simp
  exact ⟨(congrArg Engine.pkt (agentStep_kept e t).eng).trans h.handle, hs.allocated.trans h.allocated, hs.unqueued,
    hp h.notFreed, hp h.notReset, fun o ho => (hs.bytes o ho).trans (h.bytes o ho)⟩

theorem handlerKeeps_holdsBuffer (p : Pkt) (s : State) : HandlerKeeps fun x => s.HoldsBuffer p x.1 :=
  handlerKeeps_of_state (fun e _ h => h.agentStep e) (fun _ _ h => h.of_chip rfl rfl rfl rfl (.inl rfl))
    (fun _ _ _ _ _ _ h => h.of_chip rfl rfl rfl rfl (.inl rfl))
    (fun _ _ _ _ _ _ _ _ _ h => h.of_chip rfl rfl rfl rfl (.inl rfl)) (fun _ _ h => h.of_chip rfl rfl rfl rfl (.inl rfl))

/-- A run frees no packet but one that the foreground does not hold (R335). -/
theorem runHandler_holdsBuffer (h : s.HoldsBuffer p s) (he : runHandler b s = some (.ok t)) : s.HoldsBuffer p t := by
  have hP := handlerKeeps_holdsBuffer p s
  obtain ⟨_, h⟩ := hP.runHandler
    (fun _ _ _ _ h he => hP.handlerFree hP (fun z _ h hne _ => h.of_chip rfl rfl rfl rfl
      (.inr ⟨z.1.chip.pktSel z.1.params, fun hz => hne (hz ▸ h.handle), rfl⟩)) (fun _ h _ => h) _ _ h he)
    (fun _ _ _ h => hP.gap _ (h.of_chip rfl rfl rfl rfl (.inl rfl))) h he
  exact h

/-- Settles O12: what a run keeps access by access, `HandlerKeeps.runHandler` gives of the whole run. -/
theorem handlerRestoresTheSelection : Obligations.HandlerRestoresTheSelection := by
  intro b s t he
  refine ⟨runHandler_kept he, fun hb => runHandler_dp hb he, runHandler_pending he, (runHandler_handled he).trace,
    fun p hp ha hq hf hr => ?_⟩
  exact (runHandler_holdsBuffer ⟨hp, ha, hq, hf, hr, fun _ _ => rfl⟩ he).bytes

end Sys2Proof.Machine
end

section
/-! PROOFS. When a run of the interrupt context starts, and runs in which the agents rest (spec/60_exceptions.md R326, R330 to R335):
the accesses in order, and what is left in the chip unit beside the selection that the run restores. -/

namespace Sys2Proof.Machine

variable {s t : State} {x y z : Handling} {n exit : IrqPos} {r : Reg} {w k m : Nat} {v : Word} {p : Pkt} {b : HandlerRun}
  {c d : Chip} {l l' : List (Reg × Bool)} {a : Access} {touch re : Bool} {gaps : List (List AgentEvent)}

/-! ## The start (R330, R332) -/

theorem runHandler_of_held (b : HandlerRun) (h : s.irq.hold = true) : runHandler b s = none := by
  simp [runHandler, canInterrupt, h]

theorem runHandler_of_deasserted (b : HandlerRun) (h : s.chip.intStatus &&& s.chip.intMask = 0) : runHandler b s = none := by
  simp [runHandler, canInterrupt, Chip.lineAsserted, has, h]

theorem canInterrupt_of_line (he : s.irq.enabled = true) (hh : s.irq.hold = false)
    (hl : s.chip.intStatus &&& s.chip.intMask ≠ 0) : canInterrupt s = true := by
  simpa [canInterrupt, Chip.lineAsserted, has, he, hh] using hl

/-- A run that starts, and whose body ends, ends with its exit. -/
theorem runHandler_of_body (hc : canInterrupt s = true)
    (hb : txErrBody (irqExitPos b.touches) b (irqEnter b.touches (s.irqAt (.save 1), b.gaps)) = .ok y) :
    runHandler b s = some (.ok (irqExit b.touches y).1) := by
  simp [runHandler, hc, hb]

/-- The interrupt context is idle behind its exit (R340). -/
theorem irqExit_pos (touch : Bool) (x : Handling) : (irqExit touch x).1.irq.pos = .idle := by
  simp [irqExit, handlerWrite, State.irqAt]

/-! ## Runs in which the agents rest -/

/-- The agents do nothing in the next `k` gaps of the run. -/
def Handling.RestsFor (k : Nat) (x : Handling) : Prop := ∀ es ∈ x.2.take k, es = []

/-- The chip unit beside the selection, which a run restores, and the marks of log 20 and log 32. -/
def Chip.besideSelection (c : Chip) : Chip := { c with bank := 0, pnr := 0, ptr := 0, arrSeen := false, dpStale := false }

/-- From `x` to `y` a run makes these window accesses, a gap behind each, and beside the selection the chip unit is `c` then. -/
structure Handling.Makes (x : Handling) (c : Chip) (l : List (Reg × Bool)) (y : Handling) : Prop where
  gaps : y.2 = x.2.drop l.length
  chip : y.1.chip.besideSelection = c
  params : y.1.params = x.1.params
  phy : y.1.phy = x.1.phy
  eng : y.1.eng = x.1.eng
  trace : ∃ new, y.1.env.trace = new ++ x.1.env.trace ∧ new.reverse.filterMap windowAccess = l

theorem Handling.RestsFor.mono (h : x.RestsFor k) (hm : m ≤ k) : x.RestsFor m :=
  fun es hes => h es ((List.take_sublist_take_left hm).subset hes)

theorem handlerGap_of_rests (h : x.RestsFor 1) : handlerGap x = (x.1, x.2.tail) := by
  obtain ⟨u, es⟩ := x
  cases es with
  | nil => rfl
  | cons es rest =>
    obtain rfl := h es (by simp)
    rfl

namespace Handling.Makes

theorem refl (x : Handling) : x.Makes x.1.chip.besideSelection [] x := ⟨rfl, rfl, rfl, rfl, rfl, [], rfl, rfl⟩

theorem trans (h : x.Makes c l y) (g : y.Makes d l' z) : x.Makes d (l ++ l') z where
  gaps := by rw [g.gaps, h.gaps, List.drop_drop, List.length_append]
  chip := g.chip
  params := g.params.trans h.params
  phy := g.phy.trans h.phy
  eng := g.eng.trans h.eng
  trace := by
    obtain ⟨new, hn, rfl⟩ := h.trace
    obtain ⟨new', hn', rfl⟩ := g.trace
    exact ⟨new' ++ new, by rw [hn', hn, List.append_assoc], by simp⟩

theorem rests (h : x.Makes c l y) (hx : x.RestsFor k) (hk : l.length + m ≤ k) : y.RestsFor m := by
  intro es hes
  rw [h.gaps] at hes
  refine hx.mono hk es ?_
  rw [List.take_add]
  exact List.mem_append_right _ hes

/-- An access: `t` is the state behind its effect. -/
theorem access {q : Reg × Bool} (h : x.RestsFor 1) (ha : windowAccess a = some q) (hc : t.chip.besideSelection = c)
    (hp : t.params = x.1.params) (hf : t.phy = x.1.phy) (he : t.eng = x.1.eng) (ht : t.env.trace = x.1.env.trace) :
    x.Makes c [q] (handlerGap ((t.note a).irqAt n, x.2)) := by
  rw [handlerGap_of_rests (x := ((t.note a).irqAt n, x.2)) h]
  exact ⟨by simp, hc, hp, hf, he, [a], congrArg (a :: ·) ht, by simp [ha]⟩

end Handling.Makes

def enterAccesses (touch : Bool) : List (Reg × Bool) :=
  [(.bsr, false), (.bsr, true)] ++ if touch then [(.pnr, false), (.ptr, false)] else []

def exitAccesses (touch : Bool) : List (Reg × Bool) := (if touch then [(.pnr, true), (.ptr, true)] else []) ++ [(.bsr, true)]

/-- What a body without a free reads and writes: a run that repairs looks for TX_ERR first (R335, log 42). -/
def repairAccesses (re err : Bool) : List (Reg × Bool) :=
  (if re then [(.intStatus, false)] else []) ++
    if err then (.intAck, true) :: if re then [(.bsr, true), (.tcr, false), (.tcr, true), (.bsr, true)] else [] else []

/-- The chip unit with TX_ERR acknowledged, with TXEN set again, and behind a run without a free (R335). -/
def Chip.acknowledged (q : Config.Params) (c : Chip) : Chip := { c with intStatus := without c.intStatus (intTxErr q) }

def Chip.reenabled (q : Config.Params) (c : Chip) : Chip := { c with tcr := c.tcr ||| txen q }

def Chip.handled (re : Bool) (q : Config.Params) (c : Chip) : Chip :=
  { c.acknowledged q with tcr := if re && has c.intStatus (intTxErr q) then c.tcr ||| txen q else c.tcr }

theorem handled_of_clear {q : Config.Params} (h : has c.intStatus (intTxErr q) = false) : c.handled re q = c := by
  rw [Chip.handled, Chip.acknowledged, h, intTxErr, without_bit_of_clear h, Bool.and_false]
  rfl

theorem handled_of_set {q : Config.Params} (h : has c.intStatus (intTxErr q) = true) :
    c.handled true q = (c.acknowledged q).reenabled q := by
  rw [Chip.handled, h]
  rfl

theorem handlerRead_fst (n : IrqPos) (r : Reg) (w : Nat) (x : Handling) : (handlerRead n r w x).1 = (readReg r x.1).1 := rfl

@[simp] theorem handlerRead_params (n : IrqPos) (r : Reg) (w : Nat) (x : Handling) :
    (handlerRead n r w x).2.1.params = x.1.params :=
  congrArg Prod.fst (handlerRead_untouched n r w x)

theorem readReg_besideSelection (r : Reg) (s : State) : (readReg r s).2.chip.besideSelection = s.chip.besideSelection := by
  rw [readReg_chip]
  rfl

section
variable (hc : x.1.chip.besideSelection = c)
include hc

theorem handlerRead_makes (n : IrqPos) (r : Reg) (w : Nat) (h : x.RestsFor 1) :
    x.Makes c [(r, false)] (handlerRead n r w x).2 :=
  .access h rfl ((readReg_besideSelection r x.1).trans hc) (by simp) (by simp) (by simp) (by simp)

theorem handlerKeep_makes (n : IrqPos) (r : Reg) (w : Nat) (keep : Word → IrqCtx → IrqCtx) (h : x.RestsFor 1) :
    x.Makes c [(r, false)] (handlerKeep n r w keep x) :=
  .access h rfl ((readReg_besideSelection r x.1).trans hc) (by simp) (by simp) (by simp) (by simp)

theorem handlerWrite_bsr_makes (n : IrqPos) (v : Word) (h : x.RestsFor 1) : x.Makes c [(.bsr, true)] (handlerWrite n .bsr 2 v x) :=
  .access h rfl hc rfl rfl rfl rfl

theorem handlerWrite_pnr_makes (n : IrqPos) (v : Word) (h : x.RestsFor 1) : x.Makes c [(.pnr, true)] (handlerWrite n .pnr 1 v x) :=
  .access h rfl hc rfl rfl rfl rfl

theorem handlerWrite_tcr_makes (n : IrqPos) (v : Word) (h : x.RestsFor 1) :
    x.Makes { c with tcr := v } [(.tcr, true)] (handlerWrite n .tcr 2 v x) :=
  .access h rfl (congrArg (fun d : Chip => { d with tcr := v }) hc) rfl rfl rfl rfl

theorem handlerWritePtr_makes (n : IrqPos) (v : Word) (h : x.RestsFor 1) :
    x.Makes { c with dp := offsetOf x.1.params v } [(.ptr, true)] (handlerWritePtr n v x) :=
  .access h rfl (congrArg (fun d : Chip => { d with dp := offsetOf x.1.params v }) hc) rfl rfl rfl rfl

/-- The acknowledge clears TX_ERR alone (R335). -/
theorem handlerAck_makes (n : IrqPos) (h : x.RestsFor 1) :
    x.Makes (c.acknowledged x.1.params) [(.intAck, true)] (handlerAck n x) := by
  refine .access h rfl ?_ rfl rfl rfl rfl
  rw [setReg_intAck, lowByte_setWidth]
  exact congrArg (Chip.acknowledged x.1.params) hc

/-! ### Entry and exit (R331, R333) -/

theorem irqEnter_makes (touch : Bool) (h : x.RestsFor 4) : x.Makes c (enterAccesses touch) (irqEnter touch x) := by
  have hbsr := handlerKeep_makes hc (.save 2) .bsr 2 (fun v q => { q with hBank := bankOf x.1.params v }) (h.mono (by omega))
  unfold irqEnter
  cases touch
  · exact hbsr.trans (handlerWrite_bsr_makes hbsr.chip _ _ (hbsr.rests h (by simp)))
  · have hpb := hbsr.trans (handlerWrite_bsr_makes hbsr.chip (.save 3) (bankWord x.1.params x.1.params.regs.pb)
      (hbsr.rests h (by simp)))
    have hpnr := hpb.trans (handlerKeep_makes hpb.chip (.save 4) .pnr 1 (fun v q => { q with hPnr := lowByte v })
      (hpb.rests h (by simp)))
    exact hpnr.trans (handlerKeep_makes hpnr.chip (.body 1) .ptr 2 (fun v q => { q with hPtr := v })
      (hpnr.rests h (by simp)))

/-- With PTR written back the offset is another one. -/
theorem irqExit_makes (touch : Bool) (h : x.RestsFor 3) :
    ∃ o, x.Makes { c with dp := if touch then o else c.dp } (exitAccesses touch) (irqExit touch x) := by
  unfold irqExit
  cases touch
  · exact ⟨0, handlerWrite_bsr_makes hc _ _ (h.mono (by omega))⟩
  · have hpnr := handlerWrite_pnr_makes hc (.restore 2) (x.1.irq.hPnr.setWidth 16) (h.mono (by omega))
    have hptr := hpnr.trans (handlerWritePtr_makes hpnr.chip (.restore 3) x.1.irq.hPtr (hpnr.rests h (by simp)))
    exact ⟨_, hptr.trans (handlerWrite_bsr_makes hptr.chip _ _ (hptr.rests h (by simp)))⟩

/-! ### The body (R326, R335) -/

/-- TXEN is set again between two bank selects (R335, R381). -/
theorem handlerReenable_makes (n : IrqPos) (h : x.RestsFor 4) :
    x.Makes (c.reenabled x.1.params) [(.bsr, true), (.tcr, false), (.tcr, true), (.bsr, true)] (handlerReenable n x) := by
  have hcb := handlerWrite_bsr_makes hc (.body 4) (bankWord x.1.params x.1.params.regs.cb) (h.mono (by omega))
  have htcr : (handlerWrite (.body 4) .bsr 2 (bankWord x.1.params x.1.params.regs.cb) x).1.chip.tcr = c.tcr :=
    (congrArg Chip.tcr hcb.chip :)
  have hread := hcb.trans (handlerRead_makes hcb.chip (.body 5) .tcr 2 (hcb.rests h (by simp)))
  have hwrite := hread.trans (handlerWrite_tcr_makes hread.chip (.body 6)
    ((readReg .tcr (handlerWrite (.body 4) .bsr 2 (bankWord x.1.params x.1.params.regs.cb) x).1).1 ||| txen x.1.params)
    (hread.rests h (by simp)))
  have hpb := hwrite.trans (handlerWrite_bsr_makes hwrite.chip n (bankWord x.1.params x.1.params.regs.pb)
    (hwrite.rests h (by simp)))
  exact { hpb with chip := hpb.chip.trans (congrArg (fun v => { c with tcr := v ||| txen x.1.params }) htcr) }

/-- A run that finds no TX_ERR leaves everything alone (R326). -/
theorem txErrBody_of_clear (hx : x.RestsFor 1) (he : has c.intStatus (intTxErr x.1.params) = false) :
    ∃ y, txErrBody exit ⟨touch, re, none, gaps⟩ x = .ok y ∧ x.Makes c (if re then [(.intStatus, false)] else []) y := by
  have hs : x.1.chip.intStatus = c.intStatus := (congrArg Chip.intStatus hc :)
  cases re
  · exact ⟨handlerGoto exit x, by simp [txErrBody, hs, he], ⟨rfl, hc, rfl, rfl, rfl, [], rfl, rfl⟩⟩
  · have hread := handlerRead_makes hc (.body 2) .intStatus 1 hx
    exact ⟨handlerGoto exit (handlerRead (.body 2) .intStatus 1 x).2, by simp [txErrBody, handlerRead_fst, hs, he], { hread with }⟩

/-- A run that finds TX_ERR and only acknowledges it (R335). -/
theorem txErrBody_acknowledges (hx : x.RestsFor 1) (he : has c.intStatus (intTxErr x.1.params) = true) :
    ∃ y, txErrBody exit ⟨touch, false, none, gaps⟩ x = .ok y ∧ x.Makes (c.acknowledged x.1.params) [(.intAck, true)] y := by
  have hs : x.1.chip.intStatus = c.intStatus := (congrArg Chip.intStatus hc :)
  exact ⟨handlerAck exit x, by simp [txErrBody, hs, he], handlerAck_makes hc exit hx⟩

/-- The read of a run that repairs finds TX_ERR, and the run goes on behind its acknowledge (R335). -/
theorem txErrBody_repairs (hx : x.RestsFor 2) (he : has c.intStatus (intTxErr x.1.params) = true)
    (hb : (b.reenable || b.freed.isSome) = true) :
    ∃ y, txErrBody exit b x = handlerRepair exit b y ∧
      x.Makes (c.acknowledged x.1.params) [(.intStatus, false), (.intAck, true)] y := by
  have hs : x.1.chip.intStatus = c.intStatus := (congrArg Chip.intStatus hc :)
  have hread := handlerRead_makes hc (.body 2) .intStatus 1 (hx.mono (by omega))
  have hack := hread.trans (handlerAck_makes hread.chip (handlerAckNext exit b) (hread.rests hx (by simp)))
  rw [handlerRead_params] at hack
  refine ⟨_, ?_, hack⟩
  unfold txErrBody
  simp only [hb, if_true, handlerRead_fst, readReg_intStatus, handlerRead_params, hs, he]

/-- What a run without a free does: TX_ERR cleared, TXEN set where the run is to and has found it. -/
theorem txErrBody_handles (hx : x.RestsFor 6) :
    ∃ y, txErrBody exit ⟨touch, re, none, gaps⟩ x = .ok y ∧
      x.Makes (c.handled re x.1.params) (repairAccesses re (has c.intStatus (intTxErr x.1.params))) y := by
  cases he : has c.intStatus (intTxErr x.1.params)
  · obtain ⟨y, hy, hm⟩ := txErrBody_of_clear hc (exit := exit) (touch := touch) (re := re) (gaps := gaps) (hx.mono (by omega)) he
    rw [handled_of_clear he, repairAccesses, if_neg Bool.false_ne_true, List.append_nil]
    exact ⟨y, hy, hm⟩
  · cases re
    · exact txErrBody_acknowledges hc (hx.mono (by omega)) he
    · obtain ⟨y, hy, hm⟩ := txErrBody_repairs hc (b := ⟨touch, true, none, gaps⟩) (exit := exit) (hx.mono (by omega)) he rfl
      have hre := hm.trans (handlerReenable_makes hm.chip exit (hm.rests hx (by simp)))
      rw [hm.params, ← handled_of_set he] at hre
      exact ⟨_, hy, hre⟩

/-- The FREE command of a run, taken and completed in the gap behind it (R193). -/
theorem handlerCommand_makes (n : IrqPos) (a : Access) (hx : x.2 = [[.mmuDone]]) (hw : windowAccess a = some (.mmuCmd, true))
    (hr : has c.rcr (softRst x.1.params) = false) (hs : x.1.chip.pktSel x.1.params = p) :
    x.Makes { c.freePkt p with pending := none } [(.mmuCmd, true)]
      (handlerGap (((x.1.setChip (mmuEffect .free x.1.params x.1.chip)).note a).irqAt n, x.2)) := by
  obtain ⟨u, gaps⟩ := x
  obtain rfl : gaps = [[.mmuDone]] := hx
  let v : State := ((u.setChip (mmuEffect .free u.params u.chip)).note a).irqAt n
  have hv : agentStep .mmuDone v = v.setChip (mmuCompletion v.chip) :=
    agentStep_mmuDone (by rw [← hr]; exact (congrArg (fun d : Chip => has d.rcr (softRst u.params)) hc :))
  have hp : v.chip.pending = some (.free p) := congrArg (fun q => some (MmuCmd.free q)) hs
  rw [mmuCompletion_free hp] at hv
  change Handling.Makes _ _ _ (agentStep .mmuDone v, [])
  rw [hv]
  exact ⟨rfl, congrArg (fun d : Chip => { d.freePkt p with pending := none }) hc, rfl, rfl, rfl, [a], rfl, by simp [hw]⟩

/-- The wait of a run ends at its first poll when BUSY has fallen by then. -/
theorem handlerWait_makes (fuel k : Nat) (hx : x.RestsFor 1) (hb : x.1.chip.busy = false) :
    ∃ y, handlerWait exit (fuel + 1) k x = .ok y ∧ x.Makes c [(.mmuCmd, false)] y := by
  have hread := handlerRead_makes hc (.wait k 2) .mmuCmd 2 hx
  refine ⟨handlerGoto exit (handlerRead (.wait k 2) .mmuCmd 2 x).2, ?_, { hread with }⟩
  simp [handlerWait, handlerRead_fst, hb]

/-- A FREE of a failed packet that the MMU agent completes in the gap behind its command (R335, R193). -/
theorem handlerFree_makes (hx : x.2 = [[], [.mmuDone]]) (hf : p ∈ c.failed) (he : x.1.eng.pkt ≠ some p)
    (ha : c.allocated p = true) (hq : c.queued p = false) (hp : c.pending = none) (hau : c.autoFree = [])
    (hr : has c.rcr (softRst x.1.params) = false) :
    ∃ y, handlerFree exit p x = .ok y ∧
      x.Makes { c.freePkt p with pending := none } [(.pnr, true), (.mmuCmd, true), (.mmuCmd, false)] y := by
  have hpnr := handlerWrite_pnr_makes hc (.body 8) ((pktByte x.1.params p).setWidth 16) (by simp [Handling.RestsFor, hx])
  have hsel := HandlerKeeps.pktSel_handlerWrite (.body 8) p x
  unfold handlerFree
  dsimp only
  generalize handlerWrite (.body 8) .pnr 1 ((pktByte x.1.params p).setWidth 16) x = z at hpnr hsel
  rw [← hpnr.params] at hsel hr
  have hguard : mmuGuard .free z.1.params z.1.chip = none := by
    refine mmuGuard_free ((congrArg Chip.pending hpnr.chip :).trans hp) ((congrArg Chip.autoFree hpnr.chip :).trans hau) ?_ ?_
    · rw [hsel]; exact (congrArg (Chip.allocated · p) hpnr.chip :).trans ha
    · rw [hsel]; exact (congrArg (Chip.queued · p) hpnr.chip :).trans hq
  have hfailed : z.1.chip.failed.contains p = true := by
    rw [← (congrArg Chip.failed hpnr.chip :)] at hf
    exact List.contains_iff_mem.2 hf
  have hpkt : (z.1.eng.pkt != some p) = true := by
    rw [hpnr.eng]
    exact bne_iff_ne.2 he
  rw [hfailed, hpkt, hguard]
  have hcmd := handlerCommand_makes hpnr.chip (.wait 1 1)
    (.write .mmuCmd 2 ((encodeMmuCode z.1.params.codes .free).setWidth 32)) (by rw [hpnr.gaps, hx]; rfl) rfl hr hsel
  have hidle := (busy_of_no_command (congrArg Chip.pending hcmd.chip :) ((congrArg Chip.autoFree hcmd.chip :).trans hau)).1
  obtain ⟨y, hy, hwait⟩ := handlerWait_makes hcmd.chip (exit := exit) _ 1 (by simp [Handling.RestsFor, hpnr.gaps, hx]) hidle
  exact ⟨y, hy, (hpnr.trans hcmd).trans hwait⟩

end

/-- A run in which the agents rest in its entry and its exit, of which its body is known. -/
theorem runHandler_makes (hs : canInterrupt s = true) (hg : Handling.RestsFor 4 (s, b.gaps))
    (hb : ∀ x : Handling, x.1.chip.besideSelection = s.chip.besideSelection → x.1.params = s.params → x.1.eng = s.eng →
      x.2 = b.gaps.drop (enterAccesses b.touches).length →
      ∃ y, txErrBody (irqExitPos b.touches) b x = .ok y ∧ x.Makes d l y ∧ y.RestsFor 3) :
    ∃ t o gaps, runHandler b s = some (.ok t) ∧ t.irq.pos = .idle ∧
      Handling.Makes (s, b.gaps) { d with dp := if b.touches then o else d.dp }
        (enterAccesses b.touches ++ l ++ exitAccesses b.touches) (t, gaps) := by
  have henter := irqEnter_makes (x := (s.irqAt (.save 1), b.gaps)) rfl b.touches hg
  obtain ⟨y, hy, hbody, hrest⟩ := hb _ henter.chip henter.params henter.eng henter.gaps
  obtain ⟨o, hexit⟩ := irqExit_makes hbody.chip b.touches hrest
  have h := (henter.trans hbody).trans hexit
  exact ⟨_, o, _, runHandler_of_body hs hy, irqExit_pos _ _, { h with }⟩

/-- A run without a free in which the agents rest. -/
theorem runHandler_handles (touch re : Bool) (hs : canInterrupt s = true) :
    ∃ t o gaps, runHandler ⟨touch, re, none, []⟩ s = some (.ok t) ∧ t.irq.pos = .idle ∧
      Handling.Makes (s, []) { s.chip.besideSelection.handled re s.params with dp := if touch then o else s.chip.dp }
        (enterAccesses touch ++ repairAccesses re (has s.chip.intStatus (intTxErr s.params)) ++ exitAccesses touch)
        (t, gaps) := by
  have h := runHandler_makes (b := ⟨touch, re, none, []⟩) (d := s.chip.besideSelection.handled re s.params)
    (l := repairAccesses re (has s.chip.intStatus (intTxErr s.params))) hs (by simp [Handling.RestsFor])
    fun x hc hp _ hg => by
      obtain ⟨y, hy, hm⟩ := txErrBody_handles hc (exit := irqExitPos (HandlerRun.touches ⟨touch, re, none, []⟩))
        (touch := touch) (re := re) (gaps := []) (by simp [Handling.RestsFor, hg])
      rw [hp] at hm
      exact ⟨y, hy, hm, by simp [Handling.RestsFor, hm.gaps, hg]⟩
  rw [show HandlerRun.touches ⟨touch, re, none, []⟩ = touch from Bool.or_false touch] at h
  exact h

/-- A run that frees a failed packet, whose command the MMU agent completes in the gap behind it. -/
abbrev freeingRun (p : Pkt) : HandlerRun := ⟨true, false, some p, List.replicate 7 [] ++ [[.mmuDone]]⟩

theorem runHandler_frees (hs : canInterrupt s = true) (ht : has s.chip.intStatus (intTxErr s.params) = true)
    (hf : p ∈ s.chip.failed) (he : s.eng.pkt ≠ some p) (ha : s.chip.allocated p = true) (hq : s.chip.queued p = false)
    (hp : s.chip.pending = none) (hau : s.chip.autoFree = []) (hr : has s.chip.rcr (softRst s.params) = false) :
    ∃ t o, runHandler (freeingRun p) s = some (.ok t) ∧
      t.chip.besideSelection =
        { (s.chip.besideSelection.acknowledged s.params).freePkt p with pending := none, dp := o } := by
  have hbody : ∀ x : Handling, x.1.chip.besideSelection = s.chip.besideSelection → x.1.params = s.params →
      x.1.eng = s.eng → x.2 = [[], [], [], [.mmuDone]] →
      ∃ y, txErrBody (.restore 1) (freeingRun p) x = .ok y ∧
        x.Makes { (s.chip.besideSelection.acknowledged s.params).freePkt p with pending := none }
          ([(.intStatus, false), (.intAck, true)] ++ [(.pnr, true), (.mmuCmd, true), (.mmuCmd, false)]) y ∧ y.RestsFor 3 := by
    intro x hc hparams heng hgaps
    rw [← hparams] at ht hr ⊢
    obtain ⟨y, hy, hack⟩ := txErrBody_repairs hc (b := freeingRun p) (exit := .restore 1)
      (by simp [Handling.RestsFor, hgaps]) ht rfl
    obtain ⟨z, hz, hfree⟩ := handlerFree_makes hack.chip (exit := .restore 1) (p := p) (by rw [hack.gaps, hgaps]; rfl) hf
      (by rw [hack.eng, heng]; exact he) ha hq hp hau (by rw [hack.params]; exact hr)
    exact ⟨z, hy.trans hz, hack.trans hfree, by simp [Handling.RestsFor, hfree.gaps, hack.gaps, hgaps]⟩
  obtain ⟨t, o, _, hrun, -, hm⟩ := runHandler_makes (b := freeingRun p)
    hs (by simp [Handling.RestsFor]) hbody
  exact ⟨t, o, hrun, hm.chip⟩

/-- Settles O13: what a run with the agents at rest leaves beside the selection. -/
theorem handlerEntryAndAcknowledge : Obligations.HandlerEntryAndAcknowledge := by
  refine ⟨fun b s => runHandler_of_disabled b s, fun b s => runHandler_of_held b, fun b s => runHandler_of_deasserted b,
    fun s touch re he hh hl => ?_, fun s p he hh hl ht hf hpkt ha hq hp hau hr => ?_⟩
  · obtain ⟨t, o, _, hrun, hidle, hm⟩ := runHandler_handles touch re (canInterrupt_of_line he hh hl)
    exact ⟨t, hrun, (congrArg Chip.intStatus hm.chip :), (congrArg Chip.tcr hm.chip :), (congrArg Chip.table hm.chip :),
      (congrArg Chip.pktMem hm.chip :), (congrArg Chip.rxFifo hm.chip :), (congrArg Chip.txFifo hm.chip :),
      (congrArg Chip.pending hm.chip :), hm.phy, hidle, fun h => (congrArg Chip.dp hm.chip :).trans (by simp [h])⟩
  · obtain ⟨t, o, hrun, hc⟩ := runHandler_frees (canInterrupt_of_line he hh hl) ht hf hpkt ha hq hp hau hr
    obtain ⟨halloc, hbytes⟩ := buffers_of_givenBack (s := s) (t := t) (p := p) (congrArg Chip.table hc :) (congrArg Chip.pktMem hc :)
    exact ⟨t, hrun, halloc, hbytes, (congrArg Chip.intStatus hc :),
      (busy_of_no_command (congrArg Chip.pending hc :) ((congrArg Chip.autoFree hc :).trans hau)).1⟩

/-- Settles O14: the accesses of a run that does not repair. -/
theorem handlerAccessOrder : Obligations.HandlerAccessOrder := by
  refine ⟨fun s he hh hl ht => ?_, fun s he hh hl ht => ?_⟩ <;>
    obtain ⟨t, o, gaps, hrun, -, hm⟩ := runHandler_handles true false (canInterrupt_of_line he hh hl)
  · obtain ⟨new, hnew, hacc⟩ := hm.trace
    rw [ht] at hacc
    exact ⟨t, new, hrun, hnew, hacc⟩
  · obtain ⟨new, hnew, hacc⟩ := hm.trace
    rw [ht] at hacc
    exact ⟨t, new, hrun, hnew,
      (congrArg Chip.intStatus hm.chip :).trans (congrArg Chip.intStatus (handled_of_clear (re := false) ht) :), hacc⟩

end Sys2Proof.Machine
end

section
/-! PROOFS. The critical sequences of the foreground (spec/60_exceptions.md R332): what happens in a gap of one, where the hold flag
is set, and that every command write clears it. -/

namespace Sys2Proof.Machine

variable {s t : State} {n : Next} {r : Reg} {w : Nat} {k : MmuCode} {p : SeqPos} {i : Instr} {f : State → Out}

/-! ## Gaps of a critical sequence -/

theorem eventStep_kept_of_held (a : Event) (hh : s.irq.hold = true) : s.KeptByAgents (eventStep a s) := by
  cases a with
  | agent a => exact agentStep_kept a s
  | irq h => rw [eventStep, runHandler_of_held h hh]; exact .refl s

theorem eventSteps_kept_of_held (es : List Event) : ∀ s : State, s.irq.hold = true → s.KeptByAgents (eventSteps es s) := by
  induction es with
  | nil => exact fun s _ => .refl s
  | cons a es ih =>
    intro s hh
    have h := eventStep_kept_of_held a hh
    exact h.trans (ih _ (h.hold.trans hh))

/-- A gap is the agents' alone then. -/
theorem gap_kept_of_held (hh : s.irq.hold = true) : s.KeptByAgents (gap s) := by
  cases h : s.env.tape with
  | nil => rw [gap_quiet h]; exact .refl s
  | cons g rest =>
    rw [gap_cons h]
    exact keptByAgents_env rfl (eventSteps_kept_of_held _ _ hh)

@[simp] theorem gap_hold (s : State) : (gap s).irq.hold = s.irq.hold := congrArg Settings.hold (gap_settings s)

/-! ## The three bank selects that set the flag -/

theorem wrBankHold_controls (n : Next) (b : BitVec 2) (s : State) :
    (wrBankHold n b s).controls = { s.controls with bank := b, hold := true } := wrBank_controls ..

theorem wrBankHold_hold (n : Next) (b : BitVec 2) (s : State) : (wrBankHold n b s).irq.hold = true := gap_hold _

theorem wrBankHold_bank (n : Next) (b : BitVec 2) (s : State) : (wrBankHold n b s).chip.bank = b := wrBank_bank ..

theorem wrBankHold_trace (n : Next) (b : BitVec 2) (s : State) :
    (wrBankHold n b s).env.trace = .write .bsr 2 ((bankWord s.params b).setWidth 32) :: s.env.trace :=
  (gap_kept_of_held (s := ((setReg .bsr (bankWord s.params b) (s.setHold true)).note _).advance n) rfl).trace

/-- The bank select of an operation's own row marks a sequence where PB is selected for an allocator operation (R332 c). -/
theorem nextIsMmuOp_iff {c : Config.MmuCodes} {req : Request} {buf : Nat} {rest : List Input} :
    nextIsMmuOp c (.op req buf :: rest) = true ↔
      ∃ i, decode c req = .ok i ∧ ((∃ k, i = .allocate k) ∨ i = .release ∨ ∃ p, i = .free p) := by
  unfold nextIsMmuOp
  cases hd : decode c req with
  | error e => simp [hd]
  | ok i => cases i <;> simp [hd]

theorem selectBank_hold {b : Byte} (h : exec (.selectBank b) s = .next t) :
    t.irq.hold = (b.setWidth 2 == s.params.regs.pb && nextIsMmuOp s.params.codes s.inbox) := by
  change execSelectBank b s = .next t at h
  unfold execSelectBank at h
  split at h
  · obtain rfl := Host.Outcome.next.inj h
    exact gap_hold _
  · cases h

/-! ## Where the flag is clear again -/

/-- The foreground is in no critical sequence, unless a handler has hung before its end (log 46). -/
def State.Released (s : State) : Prop := s.hang = none → s.irq.hold = false

namespace State.Released

theorem setEng (h : s.Released) (e : Engine) : (s.setEng e).Released := h

theorem gap (h : s.Released) : (Machine.gap s).Released := by
  intro hg
  rw [gap_hold]
  refine h ?_
  cases hs : s.hang with
  | none => rfl
  | some g => rw [gap_hang hs] at hg; cases hg

theorem rd (h : s.Released) : (Machine.rd n r w s).2.Released := by
  obtain ⟨j, hj⟩ := readReg_state r s
  rw [rd_eq, hj]
  exact gap h

theorem waitPoll (h : s.Released) (hf : ∀ u, u.Released → f u = .next t → t.Released)
    (he : Machine.waitPoll p f s = .next t) : t.Released := by
  rcases waitPoll_cases p f s with ⟨-, hw⟩ | ⟨-, hw⟩ <;> rw [hw] at he
  · obtain rfl := Host.Outcome.next.inj he
    exact gap (s := ((Machine.rd (.to 1 2) .mmuCmd 2 s).2.note _).advance _) h.rd
  · exact hf _ (h.rd.setEng _) he

theorem finishOk (h : s.Released) (he : Machine.finishOk s = .next t) : t.Released := by
  obtain rfl := Host.Outcome.next.inj he
  exact h

theorem resetDone (h : s.Released) (he : Machine.resetDone s = .next t) : t.Released := by
  obtain rfl := Host.Outcome.next.inj he
  exact gap (s := ((setReg .intMask 0#16 s).note _).advance .ret) h

theorem spinAlloc (a k : Nat) : ∀ (j : Nat) (s : State), s.Released → (Machine.spinAlloc a k j s).2.Released := by
  induction k with
  | zero => exact fun _ _ h => h
  | succ k ih =>
    intro j s h
    unfold Machine.spinAlloc
    dsimp only
    split
    · exact h.rd
    · exact ih _ _ h.rd

theorem attemptAlloc (spin k : Nat) : ∀ (a : Nat) (s : State), s.Released → (Machine.attemptAlloc spin k a s).2.Released := by
  induction k with
  | zero => exact fun _ _ h => h
  | succ k ih =>
    intro a s h
    unfold Machine.attemptAlloc
    dsimp only
    split
    · exact spinAlloc _ _ _ _ h
    · exact ih _ _ (spinAlloc _ _ _ _ h)

theorem readResult (h : s.Released) : (Machine.readResult s).2.Released := by
  obtain ⟨j, hj⟩ := readReg_state .arr s
  unfold Machine.readResult
  dsimp only
  rw [hj]
  split
  · exact gap h
  · exact gap h

end State.Released

/-- Every command write ends the sequence (R332). -/
theorem mmuIssue_hold (n : Next) (k : MmuCode) (s : State) : (mmuIssue n k s).irq.hold = false := gap_hold _

theorem wrMmu_released (h : wrMmu n k s = .ok t) : t.Released := by
  intro hh
  rcases wrMmu_ok h with ⟨-, rfl⟩ | ⟨hs, rfl⟩
  · exact mmuIssue_hold n k s
  · exact absurd hh hs

theorem allocateSteps_released {b : BitVec 3} {a : Except AllocCause Pkt} (h : allocateSteps b s = .ok (a, t)) :
    t.Released := by
  unfold allocateSteps at h
  split at h
  · cases h
  · rename_i u hu
    have ha := State.Released.attemptAlloc u.params.allocSpin u.params.allocAttempts 1 u (wrMmu_released hu)
    dsimp only at h
    split at h <;> obtain ⟨-, rfl⟩ := Prod.mk.inj (Except.ok.inj h)
    · exact ha.readResult
    · exact ha

theorem issueCommand_released (h : issueCommand k s = .next t) : t.Released := by
  obtain ⟨u, hu, ht⟩ := andThen_next (inPacketBank_next h).2
  obtain rfl := Host.Outcome.next.inj ht
  exact (wrMmu_released hu).setEng _

theorem execAllocate_released {b : Byte} (h : execAllocate b s = .next t) : t.Released := by
  unfold execAllocate at h
  split at h
  · obtain ⟨⟨a, u⟩, hu, ht⟩ := andThen_next (inPacketBank_next h).2
    have hr := allocateSteps_released hu
    cases a with
    | ok p =>
      obtain rfl := Host.Outcome.next.inj ht
      exact hr.setEng _
    | error e => cases e <;> obtain rfl := Host.Outcome.next.inj ht <;> exact hr.setEng _
  · cases h

theorem execRelease_released (h : execRelease s = .next t) : t.Released := by
  obtain ⟨u, hu, ht⟩ := andThen_next (inPacketBank_next h).2
  exact State.Released.waitPoll ((wrMmu_released hu).setEng _) (fun _ => State.Released.finishOk) ht

theorem execFree_released {b : Byte} (h : execFree b s = .next t) : t.Released := by
  obtain ⟨u, hu, ht⟩ := andThen_next (inPacketBank_next h).2
  exact State.Released.waitPoll ((wrMmu_released hu).setEng _) (fun _ => State.Released.finishOk) ht

theorem execReset_released (h : execReset s = .next t) : t.Released :=
  State.Released.waitPoll (s := (resetHead (s.begin .reset)).call .waitMmuIdle _) (fun _ => mmuIssue_hold ..)
    (fun _ => State.Released.resetDone) h

/-! ## TRANSMIT's sequence (R202, R332 a) -/

/-- What TRANSMIT's `saveCtx` finds and leaves in the sequence: the agents alone have stepped in its gaps. -/
structure State.SavesIn (s u : State) : Prop where
  controls : u.controls = s.controls
  pnr : u.eng.savedPnr = s.chip.pnr
  ptr : u.eng.savedPtr = s.chip.ptr
  trace : u.env.trace = .read .ptr 2 (s.chip.ptr.setWidth 32) :: .read .pnr 1 (s.chip.pnr.setWidth 32) :: s.env.trace

@[simp] theorem rdKeep_controls (keep : Word → Engine → Engine) (s : State) : (rdKeep n r w keep s).controls = s.controls := by
  obtain ⟨j, hj⟩ := readReg_state r s
  rw [rdKeep_eq, gap_controls, hj]
  rfl

theorem rdKeep_eng (keep : Word → Engine → Engine) (s : State) :
    (rdKeep n r w keep s).eng = ((s.setEng (keep (readReg r s).1 s.eng)).advance n).eng := by
  rw [rdKeep_eq, gap_eng]
  rfl

theorem rdKeep_trace_of_held (keep : Word → Engine → Engine) (hh : s.irq.hold = true) :
    (rdKeep n r w keep s).env.trace = .read r w ((readReg r s).1.setWidth 32) :: s.env.trace := by
  obtain ⟨j, hj⟩ := readReg_state r s
  rw [rdKeep_eq, (gap_kept_of_held (by rw [hj]; exact hh)).trace, hj]
  rfl

theorem saveCtx_of_held (n m : Next) (hh : s.irq.hold = true) : s.SavesIn (saveCtx n m s) := by
  have hc := rdKeep_controls (n := n) (r := .pnr) (w := 1) (fun v e => { e with savedPnr := lowByte v }) s
  have he := rdKeep_eng (n := n) (r := .pnr) (w := 1) (fun v e => { e with savedPnr := lowByte v }) s
  have ht := rdKeep_trace_of_held (n := n) (r := .pnr) (w := 1) (fun v e => { e with savedPnr := lowByte v }) hh
  unfold saveCtx
  generalize rdKeep n .pnr 1 (fun v e => { e with savedPnr := lowByte v }) s = u at hc he ht
  have hp : u.chip.ptr = s.chip.ptr := (congrArg Controls.ptr hc :)
  refine ⟨(rdKeep_controls ..).trans hc, ?_, ?_, ?_⟩
  · rw [rdKeep_eng]
    exact (congrArg Engine.savedPnr he).trans (readReg_pnr s)
  · rw [rdKeep_eng, readReg_ptr]
    exact hp
  · rw [rdKeep_trace_of_held _ ((congrArg (fun c : Controls => c.hold) hc :).trans hh), ht, readReg_ptr, hp]
    have hv : ((readReg .pnr s).1.setWidth 32 : Long) = s.chip.pnr.setWidth 32 := BitVec.setWidth_setWidth (v := 16) (by decide)
    rw [hv]

/-- Behind TRANSMIT's steps 4 and 5 the command of step 6 is next. -/
theorem claimBuffer_sequence (code : Nat) (s : State) : ∃ u, claimBuffer code s = allocateSteps (BitVec.ofNat 3 code) u ∧
    (wrBankHold (.to 5) s.params.regs.pb s).SavesIn u :=
  have h := saveCtx_of_held (.to 5 2) (.to 6) (wrBankHold_hold (.to 5) s.params.regs.pb s)
  ⟨_, rfl, h.controls, h.pnr, h.ptr, h.trace⟩

/-- Settles O15: the flag is set by three bank selects, keeps the interrupt context out of every gap, and falls at every command. -/
theorem criticalSequenceExcludesHandler : Obligations.CriticalSequenceExcludesHandler := by
  refine ⟨fun s => gap_kept_of_held, fun n b s => ⟨wrBankHold_hold n b s, wrBankHold_bank n b s, wrBankHold_trace n b s⟩,
    fun code s => ?_, fun s => ?_, fun b s t he hb req buf rest hin => ?_, fun n k s t h => wrMmu_released h,
    fun i s t he hh hi => ?_⟩
  · obtain ⟨u, hu, hs⟩ := claimBuffer_sequence code s
    have hc := hs.controls.trans (wrBankHold_controls ..)
    have hb := wrBankHold_controls (.to 5) s.params.regs.pb s
    have hptr : (wrBankHold (.to 5) s.params.regs.pb s).chip.ptr = s.chip.ptr := (congrArg Controls.ptr hb :)
    have hpnr : (wrBankHold (.to 5) s.params.regs.pb s).chip.pnr = s.chip.pnr := (congrArg Controls.pnr hb :)
    have ht := hs.trace
    rw [hptr, hpnr, wrBankHold_trace] at ht
    exact ⟨u, hu, (congrArg (fun c : Controls => c.hold) hc :), (congrArg Controls.bank hc :), hs.pnr.trans hpnr,
      hs.ptr.trans hptr, ht⟩
  · exact ⟨resetPosted s, resetControl (resetConfig s), .to 6 2, .to 6 3, resetHead_eq s, rfl, wrBankHold_hold .., wrBankHold_bank ..,
      mmuIssue_hold ..⟩
  · rw [selectBank_hold he, hin, ← hb, beq_self_eq_true, Bool.true_and, nextIsMmuOp_iff]
  · rcases hi with ⟨k, rfl⟩ | rfl | ⟨p, rfl⟩ | rfl | ⟨k, rfl⟩
    · exact execAllocate_released he hh
    · exact execRelease_released he hh
    · exact execFree_released he hh
    · exact execReset_released he hh
    · exact issueCommand_released (exec_toInstr k s ▸ he) hh

end Sys2Proof.Machine
end

section
/-! PROOFS. What RESET establishes (spec/46_lifecycle.md R300 to R302, R307, spec/70_reset_and_hazards.md R361, R366): its control
registers, the table and the FIFOs that its MMU_RESET empties, and its wait, on any schedule with the platform's enable off. -/

namespace Sys2Proof.Machine

variable {s t u v : State} {e : AgentEvent} {done : Bool} {c d : Chip} {n m : Next} {r : Reg} {j k w N : Nat} {x : Word}
  {q : Config.Params}

/-! ## The control registers (R361) -/

theorem setReg_config_config (x : Word) (s : State) : (setReg .config x s).chip.config = x := by
  unfold setReg
  dsimp only
  split <;> rfl

theorem wr_config_config (n : Next) (w : Nat) (x : Word) (s : State) : (wr n .config w x s).chip.config = x := by
  have h : (wr n .config w x s).settings.config = _ := congrArg Settings.config (gap_settings _)
  exact h.trans (setReg_config_config x s)

/-- CONFIG as step 3 leaves it (R302). -/
def resetConfigWord (q : Config.Params) : Word := if q.usePower then q.configDefault ||| powerEn q else q.configDefault

theorem resetConfig_config (s : State) : (resetConfig s).chip.config = resetConfigWord s.params := by
  unfold resetConfig resetConfigWord
  dsimp only
  split
  · exact (wr_config_config ..).trans (congrArg (· ||| powerEn s.params) (wr_config_config ..))
  · exact wr_config_config ..

@[simp] theorem setBits_ctl_controls (n m : Next) (bits : Word) (s : State) :
    (setBits n m .ctl bits s).controls = { s.controls with ctl := s.controls.ctl ||| bits } := by
  simp only [setBits, wr_ctl_controls, rd_controls]
  rfl

/-- Steps 4 and 5 clear RCR and set AUTO_RELEASE. -/
theorem resetControl_controls (s : State) : (resetControl s).controls =
    { s.controls with bank := s.params.regs.gb, rcr := 0, ctl := s.chip.ctl ||| autoRelease s.params } := by
  simp only [resetControl, setBits_ctl_controls, wrBank_controls, wr_tcr_controls]
  rw [wr_rcr_controls _ _ (has_zero _), wrBank_controls]
  rfl

theorem resetPosted_controls (s : State) : (resetPosted s).controls =
    { (resetConfig s).controls with
      bank := s.params.regs.pb, rcr := 0, ctl := (resetConfig s).chip.ctl ||| autoRelease s.params, hold := true } := by
  rw [resetPosted, wrBankHold_controls, resetControl_controls, params_of_steady (resetConfig_steady s)]

@[simp] theorem resetPosted_steady (s : State) : (resetPosted s).steady = s.steady := by simp [resetPosted]

/-! ## TCR while the platform's enable is off -/

/-- No transmission is enabled, and no handler starts that could enable one (R330, R335). -/
structure State.TcrClear (s : State) : Prop where
  disabled : s.irq.enabled = false
  tcr : s.chip.tcr = 0

namespace State.TcrClear

theorem agents (h : s.TcrClear) (hk : s.KeptByAgents t) : t.TcrClear where
  disabled := hk.enabled.trans h.disabled
  tcr := by
    rcases hk.tcr with ht | ht <;> rw [ht, h.tcr]
    exact BitVec.zero_and

theorem gap (h : s.TcrClear) : (Machine.gap s).TcrClear := h.agents (gap_kept s h.disabled)

theorem rd (h : s.TcrClear) : (Machine.rd n r w s).2.TcrClear := by
  obtain ⟨i, hi⟩ := readReg_state r s
  rw [rd_eq, hi]
  exact gap ⟨h.disabled, h.tcr⟩

/-- A write whose effect on the chip unit is not on TCR. -/
theorem wr (h : s.TcrClear) (hw : setReg r x s = s.setChip c) (ht : c.tcr = s.chip.tcr) : (Machine.wr n r w x s).TcrClear := by
  rw [wr_eq, hw]
  exact gap ⟨h.disabled, ht.trans h.tcr⟩

end State.TcrClear

theorem enabled_of_steady (h : t.steady = s.steady) : t.irq.enabled = s.irq.enabled := congrArg Steady.enabled h

theorem wr_tcr_zero_tcrClear (n : Next) (w : Nat) (he : s.irq.enabled = false) : (wr n .tcr w 0#16 s).TcrClear :=
  State.TcrClear.gap (s := ((setReg .tcr 0#16 s).note _).advance n) ⟨he, rfl⟩

theorem resetControl_tcrClear (he : s.irq.enabled = false) : (resetControl s).TcrClear := by
  have h := wr_tcr_zero_tcrClear (s := wr (.to 4 3) .rcr 2 0#16 (wrBank (.to 4 2) s.params.regs.cb s)) (.to 5) 2
    ((enabled_of_steady (by simp)).trans he)
  exact ((h.wr (setReg_bsr _ _) rfl).rd).wr (setReg_ctl _ _) rfl

theorem resetPosted_tcrClear (he : s.irq.enabled = false) : (resetPosted s).TcrClear := by
  have h := resetControl_tcrClear (s := resetConfig s) ((enabled_of_steady (by simp)).trans he)
  exact State.TcrClear.wr (s := (resetControl (resetConfig s)).setHold true) ⟨h.disabled, h.tcr⟩ (setReg_bsr _ _) rfl

/-! ## What MMU_RESET empties (R194) -/

/-- No buffer is allocated and none is on its way anywhere. -/
structure Chip.Emptied (c : Chip) : Prop where
  pending : c.pending = none
  table : c.table = []
  txFifo : c.txFifo = []
  rxFifo : c.rxFifo = []
  inFlight : c.inFlight = none
  autoFree : c.autoFree = []

theorem Chip.Emptied.still (h : c.Emptied) (hd : d = { c with intMask := d.intMask, arrSeen := d.arrSeen }) : d.Emptied := by
  rw [hd]
  exact ⟨h.pending, h.table, h.txFifo, h.rxFifo, h.inFlight, h.autoFree⟩

/-- With the receiver off no agent has anything to do there (R305). -/
theorem agentStep_of_emptied (h : s.chip.Emptied) (hr : has s.chip.rcr (rxen s.params) = false) (e : AgentEvent) :
    (agentStep e s).chip = s.chip := by
  obtain ⟨hpending, -, htx, -, hflight, hfree⟩ := h
  cases e <;> simp only [agentStep] <;> split
  case allocOk.isFalse => simp [allocSuccess, hpending]
  case allocSilent.isFalse => simp [allocSuccess, hpending]
  case allocFail.isFalse => simp [allocFailure, hpending]
  case mmuDone.isFalse => simp [mmuCompletion, hpending]
  case autoFreeDone.isFalse => simp [autoFreeCompletion, hfree]
  case txDequeue.isFalse => simp [txTake, htx]
  case txDone.isFalse => simp [txSuccess, hflight]
  case txFail.isFalse => simp [txFailure, hflight]
  case rxFrame.isFalse => rw [rxArrive_of_disabled _ _ _ _ _ (.inr hr)]
  all_goals rfl

/-- The reset command stays pending until the MMU agent completes it. -/
theorem agentStep_of_reset (h : s.chip.pending = some .reset) (e : AgentEvent) :
    (agentStep e s).chip.pending = some .reset ∨ (agentStep e s).chip.Emptied := by
  cases e <;> simp only [agentStep] <;> split
  case mmuDone.isFalse => exact .inr (by rw [mmuCompletion_reset h]; exact ⟨rfl, rfl, rfl, rfl, rfl, rfl⟩)
  case allocOk.isFalse => exact .inl (by simp [allocSuccess, h])
  case allocSilent.isFalse => exact .inl (by simp [allocSuccess, h])
  case allocFail.isFalse => exact .inl (by simp [allocFailure, h])
  case autoFreeDone.isFalse => exact .inl ((autoFreeCompletion_pending _).trans h)
  case txDequeue.isFalse => exact .inl ((txTake_pending _).trans h)
  case txDone.isFalse => exact .inl ((congrArg Chip.pending (txSuccess_frame _ s.params s.chip) :).trans h)
  case txFail.isFalse => exact .inl ((congrArg Chip.pending (txFailure_frame _ _ s.params s.chip) :).trans h)
  case rxFrame.isFalse => exact .inl ((rxArrive_pending ..).trans h)
  all_goals exact .inl h

/-! ## The wait of step 6 -/

/-- The machine `t` of a RESET of `s` behind the write of MMU_RESET, and where `done` is set behind the command too. -/
structure State.Resetting (done : Bool) (s t : State) : Prop where
  steady : t.steady = s.steady
  tcr : t.TcrClear
  rcr : t.chip.rcr = 0
  config : t.chip.config = resetConfigWord s.params
  ctl : has t.chip.ctl (autoRelease s.params) = true
  bank : t.chip.bank = s.params.regs.pb
  mmu : t.chip.Emptied ∨ (done = false ∧ t.chip.pending = some .reset)

namespace State.Resetting

theorem setEng (h : s.Resetting done t) (e : Engine) : s.Resetting done (t.setEng e) :=
  { h with tcr := ⟨h.tcr.disabled, h.tcr.tcr⟩ }

theorem agentStep (h : s.Resetting done t) (e : AgentEvent) : s.Resetting done (agentStep e t) := by
  have hk := agentStep_kept e t
  refine ⟨hk.steady.trans h.steady, h.tcr.agents hk, hk.rcr.trans h.rcr, hk.config.trans h.config, ?_, hk.bank.trans h.bank, ?_⟩
  · rw [hk.ctl]; exact h.ctl
  · rcases h.mmu with hm | ⟨hd, hm⟩
    · exact .inl (by rw [agentStep_of_emptied hm (by rw [h.rcr]; exact has_zero _)]; exact hm)
    · exact (agentStep_of_reset hm e).symm.imp_right (⟨hd, ·⟩)

/-- What leaves the chip unit and the steady parts alone, but for INT_MASK and the mark of log 20. -/
theorem still (h : s.Resetting done t) (hs : u.steady = t.steady)
    (hc : u.chip = { t.chip with intMask := u.chip.intMask, arrSeen := u.chip.arrSeen }) : s.Resetting done u where
  steady := hs.trans h.steady
  tcr := ⟨(enabled_of_steady hs).trans h.tcr.disabled, by rw [hc]; exact h.tcr.tcr⟩
  rcr := by rw [hc]; exact h.rcr
  config := by rw [hc]; exact h.config
  ctl := by rw [hc]; exact h.ctl
  bank := by rw [hc]; exact h.bank
  mmu := h.mmu.imp (·.still hc) (·.imp_right fun hp => by rw [hc]; exact hp)

theorem eventStep (h : s.Resetting done t) (a : Event) : s.Resetting done (eventStep a t) := by
  cases a with
  | agent e => exact h.agentStep e
  | irq b => rw [eventStep_irq_of_disabled b t h.tcr.disabled]; exact h

theorem gap (h : s.Resetting done t) : s.Resetting done (Machine.gap t) := by
  unfold Machine.gap
  split
  · exact h
  · exact List.foldlRecOn (motive := s.Resetting done) _ _ (h.still rfl rfl) fun _ ht a _ => ht.eventStep a

theorem rd (h : s.Resetting done t) : s.Resetting done (Machine.rd n r w t).2 := by
  obtain ⟨i, hi⟩ := readReg_state r t
  rw [rd_eq, hi]
  exact gap (h.still rfl rfl)

theorem delay (h : s.Resetting done t) : s.Resetting done (Machine.delay n k t) := gap (h.still rfl rfl)

/-- BUSY = 0 says that the command is complete (R192). -/
theorem drained (h : s.Resetting done t) (hb : t.chip.busy = false) : s.Resetting true t := by
  refine { h with mmu := h.mmu.imp_right fun ⟨_, hp⟩ => ?_ }
  simp [Chip.busy, hp] at hb

end State.Resetting

/-- The write of MMU_RESET starts the wait. -/
theorem wrMmuReset_resetting (n : Next) (hs : t.steady = s.steady) (ht : t.TcrClear) (hr : t.chip.rcr = 0)
    (hc : t.chip.config = resetConfigWord s.params) (hl : has t.chip.ctl (autoRelease s.params) = true)
    (hb : t.chip.bank = s.params.regs.pb) : s.Resetting false (wrMmuReset n t) :=
  .gap ⟨hs, ⟨ht.disabled, ht.tcr⟩, hr, hc, hl, hb, .inr ⟨rfl, rfl⟩⟩

theorem resetHead_resetting (he : s.irq.enabled = false) : s.Resetting false (resetHead s) := by
  have hc := resetPosted_controls s
  have hctl : (resetPosted s).chip.ctl = _ := (congrArg (fun c : Controls => c.ctl) hc :)
  rw [resetHead_eq]
  exact wrMmuReset_resetting (t := resetPosted s) _ (resetPosted_steady s) (resetPosted_tcrClear he) (resetPosted_rcr s)
    ((congrArg (fun c : Controls => c.config) hc :).trans (resetConfig_config s))
    (by rw [hctl, has_or, autoRelease, has_bit_self, Bool.or_true]) (congrArg Controls.bank hc :)

/-- A RESET of `s` that has ended in `t`. -/
structure State.ResetEnds (s t : State) : Prop where
  resetting : s.Resetting true t
  intMask : t.chip.intMask = 0
  ended : t.Ended .ok 0
  life : t.eng.life = .reset

theorem resetDone_ends (h : s.Resetting true u) (ht : resetDone u = .next t) : s.ResetEnds t := by
  obtain rfl := Host.Outcome.next.inj ht
  have hw : s.Resetting true (wr .ret .intMask 1 0#16 u) := .gap (h.still rfl rfl)
  exact ⟨hw.setEng _, (congrArg (fun c : Controls => c.intMask) (wr_intMask_controls .ret 1 0#16 u) :), ⟨rfl, rfl⟩, rfl⟩

/-- RESET stands in its wait, or it has ended. -/
def State.ResetsOn (s t : State) : Prop := (t.eng.pos = .resetWait ∧ s.Resetting false t) ∨ s.ResetEnds t

theorem waitPoll_resetsOn (h : s.Resetting false u) (ht : waitPoll .resetWait resetDone u = .next t) : s.ResetsOn t := by
  rcases waitPoll_cases .resetWait resetDone u with ⟨-, hw⟩ | ⟨hb, hw⟩ <;> rw [hw] at ht
  · obtain rfl := Host.Outcome.next.inj ht
    exact .inl ⟨rfl, h.rd.delay.setEng _⟩
  · exact .inr (resetDone_ends ((h.drained hb).rd.setEng _) ht)

theorem execReset_resetsOn (he : s.irq.enabled = false) (ht : exec .reset s = .next t) : s.ResetsOn t := by
  have h : s.Resetting false (resetHead (s.begin .reset)) := { resetHead_resetting (s := s.begin .reset) he with }
  exact waitPoll_resetsOn (h.setEng _) ht

theorem runToIdle_of_idle (k : Nat) (h : s.eng.pos = .idle) : runToIdle k s = .next s := by
  cases k with
  | zero => rfl
  | succ k => simp [runToIdle, h]

/-- Where an outcome is a RESET that goes on or has ended, a run that comes to its end has ended it: a hang never ends. -/
theorem resetEnds_of_outcome {out : Out} (ho : ∀ v, out = .next v → s.ResetsOn v) (hu : settle out = .next u)
    (hr : runToIdle k u = .next t) (hi : t.eng.pos = .idle)
    (ih : u.eng.pos = .resetWait → s.Resetting false u → s.ResetEnds t) : s.ResetEnds t := by
  obtain ⟨v, hv, ⟨-, rfl⟩ | ⟨g, -, rfl⟩⟩ := settle_next hu
  · rcases ho u hv with ⟨hp, h⟩ | h
    · exact ih hp h
    · rw [runToIdle_of_idle k h.ended.1] at hr
      obtain rfl := Host.Outcome.next.inj hr
      exact h
  · obtain ⟨y, hy, hpos, -⟩ := runToIdle_hangs k (thaw g v) rfl rfl
    obtain rfl := Host.Outcome.next.inj (hy.symm.trans hr)
    rw [hpos] at hi
    cases hi

theorem runToIdle_resets (k : Nat) : ∀ u, u.eng.pos = .resetWait → s.Resetting false u → runToIdle k u = .next t →
    t.eng.pos = .idle → s.ResetEnds t := by
  induction k with
  | zero =>
    intro u hp _ hr hi
    obtain rfl := Host.Outcome.next.inj hr
    rw [hp] at hi
    cases hi
  | succ k ih =>
    intro u hp h hr hi
    have hne : u.eng.pos ≠ .idle := by simp [hp]
    have hres : resume u = waitPoll .resetWait resetDone u := by simp only [resume, hp]
    rw [runToIdle, if_neg hne, step_of_not_idle hne, hres] at hr
    split at hr
    · rename_i y hy
      exact resetEnds_of_outcome (fun v => waitPoll_resetsOn h) hy hr hi fun hp h => ih y hp h hr hi
    · cases hr
    · cases hr

theorem runOperation_reset (he : s.irq.enabled = false) (hr : runOperation k .reset s = .next t) (hi : t.eng.pos = .idle) :
    s.ResetEnds t := by
  unfold runOperation at hr
  split at hr
  · rename_i u hu
    exact resetEnds_of_outcome (fun v => execReset_resetsOn he) hu hr hi fun hp h => runToIdle_resets k u hp h hr hi
  · cases hr
  · cases hr

/-! ## A RESET whose command the MMU agent completes at once -/

/-- From `s` a part that rests in its `k` gaps has come to `t`, and the engine and all outside the chip unit is as before. -/
def State.Passes (k : Nat) (s t : State) : Prop := ∃ c, s.Leads c s.eng k t

/-- A write outside the management interface is the chip unit's alone, and a draw where it loses its state. -/
theorem setReg_leads (x : Word) (t : State) (hm : r ≠ .mgmt) : ∃ d, t.Leads d t.eng 0 (setReg r x t) := by
  have hdrawn (d : Chip) (i : Nat) : t.Leads d t.eng 0 ((t.setChip d).bump i) := (leads_setChip d t).keeps (leads_bump i _) rfl
  cases r with
  | mgmt => exact absurd rfl hm
  | rcr =>
    simp only [setReg]
    split
    · exact ⟨_, hdrawn _ 1⟩
    · exact ⟨_, leads_setChip _ t⟩
  | config =>
    simp only [setReg]
    split
    · exact ⟨_, hdrawn _ 1⟩
    · exact ⟨_, leads_setChip _ t⟩
  | _ => exact ⟨_, rfl, rfl, rfl, rfl, rfl, rfl, rfl, rfl, rfl, rfl, rfl⟩

namespace State.Passes

theorem wr (h : s.Passes j t) (hr : s.RestsFor N) (hm : r ≠ .mgmt := by decide) (hN : j + 1 ≤ N := by omega) :
    s.Passes (j + 1) (Machine.wr n r w x t) := by
  obtain ⟨c, h⟩ := h
  obtain ⟨d, hd⟩ := setReg_leads x t hm
  exact ⟨d, h.keeps (hd.access _ n (h.rests hr hN)) rfl⟩

theorem rd (h : s.Passes j t) (hr : s.RestsFor N) (hN : j + 1 ≤ N := by omega) : s.Passes (j + 1) (Machine.rd n r w t).2 := by
  obtain ⟨c, h⟩ := h
  exact ⟨_, h.keeps (rd_leads n r w (h.rests hr hN)) rfl⟩

end State.Passes

theorem resetConfig_passes (hr : s.RestsFor N) (hN : configGaps s.params ≤ N) :
    s.Passes (configGaps s.params) (resetConfig s) := by
  have h : s.Passes 0 s := ⟨_, leads_setChip s.chip s⟩
  unfold configGaps resetConfig at *
  dsimp only
  split at hN
  · rename_i hp
    simp only [hp, if_true]
    exact (((((h.wr hr).wr hr).wr hr).wr hr).rd hr).wr hr
  · rename_i hp
    simp only [hp]
    exact (((h.wr hr).wr hr).wr hr).wr hr

theorem resetPosted_passes (hr : s.RestsFor (configGaps s.params + 7)) :
    s.Passes (configGaps s.params + 7) (resetPosted s) := by
  have h := resetConfig_passes hr (by omega)
  have hc : s.Passes (configGaps s.params + 6) (resetControl (resetConfig s)) :=
    (((((h.wr hr).wr hr).wr hr).wr hr).rd hr).wr hr
  obtain ⟨c, hc⟩ := hc
  exact State.Passes.wr ⟨_, hc.keeps (leads_setHold true _) rfl⟩ hr

theorem wrMmuReset_phy (n : Next) (ht : s.env.tape = agentGap .mmuDone) (hr : has s.chip.rcr (softRst s.params) = false) :
    (wrMmuReset n s).phy = s.phy := by
  rw [wrMmuReset, mmuIssue, gap_agentGap (rest := []) (by exact ht), agentStep_mmuDone (by exact hr)]
  rfl

theorem resetHead_phy (ht : s.env.tape = quietGaps (configGaps s.params + 7) ++ agentGap .mmuDone) :
    (resetHead s).phy = s.phy := by
  obtain ⟨c, h⟩ := resetPosted_passes (restsFor_of_quietGaps ht)
  have htape : (resetPosted s).env.tape = agentGap .mmuDone := h.tape.trans (by rw [ht, drop_quietGaps])
  rw [resetHead_eq, wrMmuReset_phy _ htape (by rw [resetPosted_rcr]; exact has_zero _), h.phy]

/-- Settles O55: what stands behind the write of MMU_RESET goes through the wait (`runToIdle_resets`). -/
theorem resetEstablishes : Obligations.ResetEstablishes := by
  refine ⟨fun k s t he hr hi => ?_, fun s ht => ?_⟩
  · obtain ⟨h, hmask, hend, hlife⟩ := runOperation_reset he hr hi
    obtain ⟨-, -, -, -, hphy, -⟩ := State.steady_eq_iff.1 h.steady
    obtain hm | ⟨hd, -⟩ := h.mmu
    · exact ⟨hend, h.tcr.tcr, h.rcr, h.config, h.ctl, fun q => by simp [Chip.allocated, hm.table, findEntry], hm.txFifo, hm.rxFifo,
        (busy_of_no_command hm.pending hm.autoFree).1, hmask, h.bank, hphy, hlife⟩
    · cases hd
  · have htape : (s.begin .reset).env.tape = quietGaps (configGaps (s.begin .reset).params + 7) ++ agentGap .mmuDone := by
      rw [State.begin_env, ht]
      change _ = quietGaps (configGaps s.params + 7) ++ _
      unfold configGaps
      cases s.params.usePower <;> rfl
    have hh := resetHead_completed htape
    obtain ⟨u, hu, hl⟩ := waitIdle_leads (.to 7) .resetWait resetDone hh.idle (restsFor_of_quiet hh.quiet 1)
    have hw := hl.keeps (wr_leads .ret .intMask 1 (setReg_intMask 0#16 u) (restsFor_of_quiet (hl.quiet hh.quiet) 1)) rfl
    exact ⟨_, hu, ⟨rfl, rfl⟩, rfl, hw.hostMem.trans hh.hostMem, hw.phy.trans (resetHead_phy htape)⟩

end Sys2Proof.Machine
end
